-- ==== Sys2Proof/Word.lean ====
section
/-!
DEFINITION. The plain bit vectors of the G7 (R3: bit 0 is the least significant bit).
-/
namespace Sys2Proof

/-- One byte of memory. -/
abbrev Byte := BitVec 8

/-- A 32-bit word: one lane of a varying register, one word of an instruction. -/
abbrev W32 := BitVec 32

/-- A 64-bit word: a uniform register, half of an affine register, a handle token. -/
abbrev W64 := BitVec 64

end Sys2Proof
end

