-- ==== Sys2Proof/Syntax.lean ====
section
/-!
DEFINITION. The instructions and the steps of the G7: one constructor of `Instr` for each row of
spec/opcode_table.json. Rows of a posy's own instructions carry the fields that the instruction's
words hold (R74 to R81); the other rows are steps of the module's other agents and carry what
selects the step.
-/
namespace Sys2Proof

/-- The format codes 0 to 13 of R93. Codes 14 and 15 are reserved and have no constructor. -/
inductive Fmt where
  | raw | f32 | f16x2 | bf16x2 | e4m3x4 | e5m2x4 | i16x2 | u16x2 | i8x4 | u8x4 | i32 | u32 | i64 | u64
deriving DecidableEq, Repr, Inhabited

/-- The class codes of R82; `k` is the K space of D, A and C. -/
inductive Cls where
  | s | a | v | k
deriving DecidableEq, Repr, Inhabited

/-- A register operand: a class and a register number (R82). -/
structure Opd where
  cls : Cls := .s
  n : BitVec 8 := 0
deriving DecidableEq, Repr, Inhabited

/-- An immediate as its words hold it (R87): 18 bits in words 0 and 1, imm32 or imm64. -/
inductive Imm where
  | i18 (v : BitVec 18)
  | i32 (v : BitVec 32)
  | i64 (v : BitVec 64)
deriving DecidableEq, Repr, Inhabited

/-- Source B: a register, or an immediate (BC = 0b11). -/
inductive SrcB where
  | reg (o : Opd)
  | imm (i : Imm)
deriving DecidableEq, Repr, Inhabited

/-- The crossbar patterns of R90; 0b111 is illegal and has no constructor. -/
inductive Pat where
  | none | rot | bcast | bfly | mirr | shd | shu
deriving DecidableEq, Repr, Inhabited

/-- A crossbar field (R89). -/
structure XBar where
  rel : Bool := false
  amt : BitVec 6 := 0
  pat : Pat := .none
deriving DecidableEq, Repr, Inhabited

/-- The rounding field (R92). -/
inductive Rnd where
  | rne | rz | stoch | dyn
deriving DecidableEq, Repr, Inhabited

/-- The length of an instruction in 32-bit words (R71). -/
inductive Len where
  | w2 | w3 | w4
deriving DecidableEq, Repr, Inhabited

/-- Length, guard and yield hint (R71, R75). -/
structure Hdr where
  len : Len := .w2
  gp : BitVec 4 := 0
  gn : Bool := false
  y : Bool := false
deriving DecidableEq, Repr, Inhabited

/-- The fields of an instruction in F64, F96R, F96I or F128I (R74, R78, R79, R81). In F64 an
immediate B is `{X10, B}`, and `x10` is then zero. -/
structure Ops where
  h : Hdr := {}
  fmt : Fmt := .raw
  sub : BitVec 4 := 0
  x10 : BitVec 10 := 0
  d : Opd := {}
  a : Opd := {}
  b : SrcB := .reg {}
  c : Opd := {}
  xa : XBar := {}
  xb : XBar := {}
  rnd : Rnd := .rne
deriving DecidableEq, Repr, Inhabited

/-- The segments of R80. -/
inductive Seg where
  | glb | scr | cst | spn | ctx
deriving DecidableEq, Repr, Inhabited

/-- The ORD field of R80. -/
inductive Ord where
  | plain | acq | rel | acqrel
deriving DecidableEq, Repr, Inhabited

/-- The fields of an instruction in F96M or F128M: the common words, the memory word (R80), and
word 3 where the length is four words (zero otherwise). -/
structure MemOps where
  h : Hdr := { len := .w3 }
  fmt : Fmt := .raw
  sub : BitVec 4 := 0
  x10 : BitVec 10 := 0
  d : Opd := {}
  a : Opd := {}
  b : SrcB := .reg {}
  nt : Bool := false
  ord : Ord := .plain
  tol : BitVec 6 := 0
  seg : Seg := .glb
  disp : BitVec 20 := 0
  w3 : BitVec 32 := 0
deriving DecidableEq, Repr, Inhabited

/-- The fields of CPY, CPY2D and PUT (R263). -/
structure CpyOps where
  h : Hdr := { len := .w4 }
  d : Opd := {}
  a : Opd := {}
  b : Opd := {}
  c : Opd := {}
  sseg : Seg := .glb
  dseg : Seg := .glb
  nt : Bool := false
  lc : Bool := false
  lcoff : BitVec 19 := 0
deriving DecidableEq, Repr, Inhabited

/-- The shared-exponent formats (R118). -/
inductive SxFmt where
  | sx2 | sx4 | sx7
deriving DecidableEq, Repr, Inhabited

/-- The source formats of KLOAD (R340) and, less F32, of a task's A operand (R342). -/
inductive SrcFmt where
  | sx (m : SxFmt) | bf16 | f16 | e4m3 | e5m2 | f32
deriving DecidableEq, Repr, Inhabited

/-- The fields of KLOAD (R340). -/
structure KloadOps where
  h : Hdr := { len := .w4 }
  d : Opd := {}
  a : Opd := {}
  b : Opd := {}
  pitch : BitVec 32 := 0
  nmac : BitVec 4 := 0
  sseg : Seg := .glb
  mfmt : SxFmt := .sx2
  sfmt : SrcFmt := .sx .sx2
deriving DecidableEq, Repr, Inhabited

/-- The fields of LAUNCH (R329). -/
structure LaunchOps where
  h : Hdr := { len := .w4 }
  d : Opd := {}
  a : Opd := {}
  b : Opd := {}
deriving DecidableEq, Repr, Inhabited

/-- The fields of BR4 (R170, R171): predicate numbers, negations and displacements of pairs 0 to 3. -/
structure Br4Ops where
  y : Bool := false
  p0 : BitVec 4 := 0
  p1 : BitVec 4 := 0
  p2 : BitVec 4 := 0
  p3 : BitVec 4 := 0
  neg : BitVec 4 := 0
  disp : BitVec 64 := 0
deriving DecidableEq, Repr, Inhabited

/-- A REP body (R96): its opcode and the fields of its words. -/
inductive Body where
  | reg (code : BitVec 8) (o : Ops)
  | mem (code : BitVec 8) (o : MemOps)
deriving DecidableEq, Repr, Inhabited

/-- The fields of REP (R95) with the instruction it repeats. -/
structure RepOps where
  y : Bool := false
  cnt : BitVec 6 := 0
  cstep : BitVec 8 := 0
  bstep : BitVec 8 := 0
  astep : BitVec 8 := 0
  dstep : BitVec 8 := 0
  body : Body := .reg 0 {}
deriving DecidableEq, Repr, Inhabited

/-- An agent that reads or writes device memory or registers from outside the posies
(R305, R446, R450, R455). -/
inductive OutAccess where
  | load (pa : Nat) (size : Nat)
  | store (pa : Nat) (bytes : List Byte)
  | atomic (op : BitVec 4) (pa : Nat) (size : Nat) (operand expected : BitVec 64)
  /-- Load-reserved and store-conditional of hart or host thread `who` (R306). -/
  | reserve (who pa size : Nat)
  | conditional (who pa : Nat) (bytes : List Byte)
deriving DecidableEq, Repr, Inhabited

/-- Where an uncorrectable error strikes (R221): a word of memory, of a cached line, or of a scratchpad. -/
inductive ErrAt where
  | home (pa : Nat)
  | cached (core : Nat) (isRdc : Bool) (line word : Nat)
  | scratch (team word : Nat)
deriving DecidableEq, Repr, Inhabited

/-- A cache that holds lines: the L1 of a core, the RDC of a die, or the host port (R231). -/
inductive Sharer where
  | l1 (core : Nat)
  | rdc (die : Nat)
  | host
deriving DecidableEq, Repr, Inhabited

/-- A holder of bounded-value deltas (R275). -/
inductive Holder where
  | l1 (core : Nat)
  | rdc (die : Nat)
deriving DecidableEq, Repr, Inhabited

/-- One step of the G7. The first group are the instructions a posy issues, in opcode order; the
second group are the steps of the other agents. -/
inductive Instr where
  -- control, 0x01 to 0x11
  | nop (o : Ops)
  | jmp (o : Ops)
  | bra (o : Ops)
  | br (o : Ops)
  | br4 (o : Br4Ops)
  | join (o : Ops)
  | joinw (o : Ops)
  | call (o : Ops)
  | calli (o : Ops)
  | ret (o : Ops)
  | fork (o : Ops)
  | exit (o : Ops)
  | trap (o : Ops)
  | brk (o : Ops)
  | rep (o : RepOps)
  | xacq (o : Ops)
  | xrel (o : Ops)
  -- integers, 0x20 to 0x3B
  | add (o : Ops)
  | sub (o : Ops)
  | mul (o : Ops)
  | mulh (o : Ops)
  | mad (o : Ops)
  | div (o : Ops)
  | rem (o : Ops)
  | and (o : Ops)
  | or (o : Ops)
  | xor (o : Ops)
  | not (o : Ops)
  | shl (o : Ops)
  | shr (o : Ops)
  | sar (o : Ops)
  | min (o : Ops)
  | max (o : Ops)
  | abs (o : Ops)
  | neg (o : Ops)
  | cmp (o : Ops)
  | sel (o : Ops)
  | popc (o : Ops)
  | clz (o : Ops)
  | brev (o : Ops)
  | bfx (o : Ops)
  | bfi (o : Ops)
  | mov (o : Ops)
  | li (o : Ops)
  | lop3 (o : Ops)
  -- class moves and special registers, 0x40 to 0x47
  | prom (o : Ops)
  | demv (o : Ops)
  | dema (o : Ops)
  | base (o : Ops)
  | strd (o : Ops)
  | sread (o : Ops)
  | swrite (o : Ops)
  | segld (o : Ops)
  -- floating and packed, 0x50 to 0x6A
  | fadd (o : Ops)
  | fsub (o : Ops)
  | fmul (o : Ops)
  | fma (o : Ops)
  | fmin (o : Ops)
  | fmax (o : Ops)
  | fabs (o : Ops)
  | fcmp (o : Ops)
  | fclass (o : Ops)
  | frnd (o : Ops)
  | cvt (o : Ops)
  | rcp (o : Ops)
  | rsq (o : Ops)
  | sqrt (o : Ops)
  | ex2 (o : Ops)
  | lg2 (o : Ops)
  | sin (o : Ops)
  | cos (o : Ops)
  | tanh (o : Ops)
  | dot2 (o : Ops)
  | dot4 (o : Ops)
  | sad (o : Ops)
  | avg (o : Ops)
  | pack (o : Ops)
  | unpk (o : Ops)
  | prmt (o : Ops)
  -- lanes and predicates, 0x70 to 0x79
  | shuf (o : Ops)
  | red (o : Ops)
  | scan (o : Ops)
  | vote (o : Ops)
  | ballot (o : Ops)
  | plog (o : Ops)
  | pnot (o : Ops)
  | pmov (o : Ops)
  | pcnt (o : Ops)
  -- memory, 0x80 to 0x92
  | ld (o : MemOps)
  | st (o : MemOps)
  | ldsx (o : MemOps)
  | stsx (o : MemOps)
  | atom (o : MemOps)
  | acc (o : MemOps)
  | fence (o : Ops)
  | pref (o : MemOps)
  | drain (o : MemOps)
  | breg (o : MemOps)
  | bfree (o : MemOps)
  | cpy (o : CpyOps)
  | cpy2d (o : CpyOps)
  | put (o : CpyOps)
  | hwait (o : Ops)
  | htest (o : Ops)
  | hcancel (o : Ops)
  | hmov (o : Ops)
  | hadopt (o : Ops)
  -- kiln, 0xA0 to 0xA7
  | kload (o : KloadOps)
  | ktask (o : MemOps)
  | kzero (o : Ops)
  | kread (o : Ops)
  | kwrite (o : Ops)
  | kstore (o : MemOps)
  | kfree (o : Ops)
  | kstat (o : Ops)
  -- counters, 0xB0 to 0xB7 (BAR is split by its SUB)
  | barArrive (o : Ops)
  | barWait (o : Ops)
  | barSync (o : Ops)
  | barQuery (o : Ops)
  | sigadd (o : MemOps)
  | sigwait (o : MemOps)
  | ctwait (o : MemOps)
  | twait (o : Ops)
  | flagr (o : Ops)
  | flagc (o : Ops)
  | flaga (o : Ops)
  -- launches, calls and contexts, 0xC0 to 0xC6
  | launch (o : LaunchOps)
  | sysc (o : Ops)
  | savek (o : MemOps)
  | restk (o : MemOps)
  | rddiv (o : MemOps)
  | wrdiv (o : MemOps)
  | tret (o : Ops)
  -- a word whose opcode is unassigned or 0x00, or whose LEN is 0b00 (R71, R99)
  | unassignedOpcode (w : BitVec 32)
  -- joins and timed waits
  | joinComplete (team frame rec : Nat)
  | joinExpiry (team frame rec : Nat)
  | twaitExpiry (core slot : Nat)
  -- queue engine and distributors
  | trapRecordPost (queue : Nat)
  | tailRead (queue : Nat)
  | dispatch (queue : Nat)
  | dependencyRead (queue : Nat)
  | placement (lid : Nat)
  | splitChange (core : Nat)
  | timedStart (lid : Nat)
  | teamRetire (team : Nat)
  | launchComplete (lid : Nat)
  | posyForm (core : Nat)
  | rotation (core slot : Nat)
  | watchdogExpiry (queue : Nat)
  | priorityPreempt (lid : Nat)
  -- context engine
  | sliceEnd (core : Nat)
  | vdSwitch (core : Nat)
  | handlerEntry (core slot : Nat)
  | budgetExpiry (team : Nat)
  | restore (team : Nat)
  | restoreEnd (team : Nat)
  -- the ordering machine
  | requestLeave (team : Nat) (idx : Nat)
  | requestReply (team : Nat) (idx : Nat)
  | writeBack (who : Sharer) (line : Nat)
  | merge (idx : Nat)
  | invalidation (who : Sharer) (line : Nat)
  | fill (who : Sharer) (line : Nat) (sector : Nat)
  | directoryEvict (line : Nat)
  | atomicPerform (team : Nat) (idx : Nat)
  -- bounded values
  | deltaDrain (who : Holder) (vd base home : Nat)
  | shareRecall (who : Holder) (vd base home : Nat)
  | regionLoadAnswer (team : Nat) (idx : Nat)
  | holderReturn (who : Holder) (vd base home : Nat) (give : Bool)
  -- the park store
  | park (team : Nat) (idx : Nat)
  | parkRetry (team : Nat) (idx : Nat)
  | faultRecordPost (die : Nat)
  | followerReplay (die : Nat) (pseq : Nat)
  | replayComplete (die : Nat) (pseq : Nat)
  | release (die : Nat)
  | abort (die : Nat)
  | purge (die : Nat)
  | parkLimitWrite (die : Nat) (v : BitVec 64)
  | overflowConfigWrite (die : Nat) (cfg : Bool) (v : BitVec 64)
  | faultRingConfigWrite (die : Nat) (which : BitVec 2) (v : BitVec 64)
  | retaggedCompletion (team : Nat) (idx : Nat)
  | migrationStart (die : Nat) (v : BitVec 64)
  | migrationRun (die : Nat)
  -- table and trap commands
  | tinv
  | placeset
  | qenable
  | qdisable
  | vdcreate
  | vddestroy
  | tresume
  | lkill
  -- other register writes
  | firewallWrite (die port : Nat) (v : BitVec 64)
  | partitionWrite (off : BitVec 12) (v : BitVec 64)
  | descriptorBaseWrite (vdt : Bool) (v : BitVec 64)
  | featAcceptWrite (v : BitVec 64)
  | syscDone (v : BitVec 64)
  | registerWrite (pa : Nat) (v : BitVec 64)
  -- engines
  | handleComplete (team : Nat) (token : Nat)
  | copyRequest (core : Nat) (team token part : Nat)
  | putLanding (core : Nat) (team token : Nat)
  | kloadComplete (core : Nat) (team token : Nat)
  | aFetch (core : Nat) (team token : Nat)
  | taskStart (core : Nat)
  | taskComplete (core : Nat) (team token : Nat)
  -- host, peers and housekeeping
  | hostRequest (a : OutAccess) (cache : Bool)
  | backInvalidation (line : Nat)
  | hostSnoop (line : Nat) (bytes : List (Nat × Byte))
  | peerInbound (port : Nat) (a : OutAccess)
  | softError (at_ : ErrAt)
  | bringUp
  | thermalStepDown
  | thermalStepUp
  | thermalShutdown
  | serviceClusterAccess (a : OutAccess)
  | linkTrainingChange (peer : Bool) (port : Nat) (up : Bool)
  | railLoss
  | attestationRequest (nonce : List Byte)
deriving DecidableEq, Repr, Inhabited

/-- Who moves next (R276: any enabled step may come next; the list of turns in State says which).
`issue` lets the posy of a slot issue, `event` lets another agent take a step of the table, `tick` is
one cycle of the arithmetic clock, `sense` reports the junction temperature (R445 TJ), and `decoder` is the host's
programming of HDMBASE (R446). -/
inductive Turn where
  | issue (core slot : Nat)
  | event (i : Instr)
  | tick
  | sense (tj : BitVec 8)
  | decoder (base : Nat)
deriving DecidableEq, Repr, Inhabited

/-- The trap codes of R424 that an instruction can raise. -/
inductive Trap where
  | illegalOp | illegalType | illegalReg | illegalSpan | umask | format | align | seg | priv
  | handle | saturate | merr | swtrap | break_ | xblock
deriving DecidableEq, Repr, Inhabited

end Sys2Proof
end

