-- ==== Sys2Proof/Machine/Legal.lean ====
section
/-!
DEFINITION. Which field values the decoder accepts: step 3 of R101. A value outside these predicates
traps ILLEGAL_OP. Class combinations, register ranges and privilege are steps 4 to 6 and are checked
where the instruction executes, because they depend on the posy.
-/
namespace Sys2Proof.Machine

/-! ## Codes -/

def Fmt.code : Fmt → Nat
  | .raw => 0 | .f32 => 1 | .f16x2 => 2 | .bf16x2 => 3 | .e4m3x4 => 4 | .e5m2x4 => 5 | .i16x2 => 6
  | .u16x2 => 7 | .i8x4 => 8 | .u8x4 => 9 | .i32 => 10 | .u32 => 11 | .i64 => 12 | .u64 => 13

/-- The format of a code (R93); codes 14 and 15 are reserved. -/
def Fmt.ofCode (n : Nat) : Option Fmt :=
  [Fmt.raw, .f32, .f16x2, .bf16x2, .e4m3x4, .e5m2x4, .i16x2, .u16x2, .i8x4, .u8x4, .i32, .u32, .i64, .u64][n]?

/-- Codes lo to hi. -/
def Fmt.inRange (f : Fmt) (lo hi : Nat) : Bool := decide (lo ≤ Fmt.code f) && decide (Fmt.code f ≤ hi)

/-- FMT 0 or 10 to 13. -/
def Fmt.rawOrInt (f : Fmt) : Bool := f == .raw || Fmt.inRange f 10 13

/-! ## Crossbars (R89, R90, R216) -/

/-- The amount n. -/
def XBar.n (x : XBar) : Nat := if x.rel then 64 >>> x.amt.toNat else x.amt.toNat

def isPow2To64 (n : Nat) : Bool := n == 2 || n == 4 || n == 8 || n == 16 || n == 32 || n == 64

def XBar.legal (x : XBar) : Bool :=
  match x.pat with
  | .none => x.amt == 0 && !x.rel
  | .mirr => isPow2To64 (XBar.n x)
  | _ => true

/-! ## Shapes -/

def Hdr.noGuard (h : Hdr) : Bool := h.gp == 0 && !h.gn

/-- Words 2 and 3 hold nothing but an immediate. -/
def Ops.noWord2 (o : Ops) : Bool :=
  o.c == {} && o.xa == {} && o.xb == {} && o.rnd == .rne

/-- The formats an opcode permits among F64, F96R, F96I and F128I (R77, R98). In F64 an immediate
takes the bits of X10. BC = 0b11 is an immediate, so no register B has class K. -/
def Ops.shape (o : Ops) (f64 f96r f96i f128i : Bool) : Bool :=
  match o.h.len, o.b with
  | .w2, .reg r => f64 && r.cls != .k && Ops.noWord2 o
  | .w2, .imm (.i18 _) => f64 && Ops.noWord2 o && o.x10 == 0
  | .w3, .reg r => f96r && r.cls != .k && XBar.legal o.xa && XBar.legal o.xb
  | .w3, .imm (.i32 _) => f96i && Ops.noWord2 o
  | .w4, .imm (.i64 _) => f128i && Ops.noWord2 o
  | _, _ => false

def Ops.noB (o : Ops) : Bool := o.b == .reg {}
def Ops.regB (o : Ops) : Bool := match o.b with | .reg _ => true | .imm _ => false
def Ops.immB (o : Ops) : Bool := !Ops.regB o
def Ops.noDA (o : Ops) : Bool := o.d == {} && o.a == {}
def Ops.plain (o : Ops) : Bool := o.fmt == .raw && o.sub == 0 && o.x10 == 0
/-- An unused B leaves XB unused as well (R76). -/
def Ops.noBX (o : Ops) : Bool := Ops.noB o && o.xb == {}
def Ops.noXb (o : Ops) : Bool := o.xa == {} && o.xb == {}

/-- The value of an 18-bit immediate of F64, read as signed. -/
def SrcB.i18? (b : SrcB) : Option Int := match b with | .imm (.i18 v) => some v.toInt | _ => none

/-- RND = stochastic needs a lane's LFSR (R184). R184 speaks of its own table; CVT with an S destination traps
ILLEGAL_OP here too. Log entry 97: DESIGN CHOICE. -/
def Ops.rndOk (o : Ops) : Bool := !(o.rnd == .stoch && o.d.cls == .s)

/-! ## Control (R95, R168 to R181) -/

def legalNop (o : Ops) : Bool := o == { h := { len := o.h.len, y := o.h.y } }

/-- Every field zero. -/
def legalZero (o : Ops) : Bool := o == { h := { len := .w2, y := o.h.y } }

def legalJmp (o : Ops) : Bool :=
  Ops.shape o true false true false && Hdr.noGuard o.h && Ops.noDA o && Ops.plain o

def legalBra (o : Ops) : Bool :=
  Ops.shape o true false true false && Hdr.noGuard o.h && o.d == {} && o.fmt == .raw && o.x10 == 0 &&
  Ops.immB o && decide (o.sub.toNat ≤ 1)

def legalBr (o : Ops) : Bool :=
  Ops.shape o true false true false && Ops.noDA o && Ops.plain o && Ops.immB o

def legalJoinw (o : Ops) : Bool :=
  Ops.shape o true false true false && Hdr.noGuard o.h && Ops.noDA o && Ops.plain o &&
  (match SrcB.i18? o.b with | some v => decide (0 ≤ v) | none => true)

/-- A slide count: even, 2 to 254 (R173). -/
def slideOk (n : BitVec 8) : Bool := decide (n.toNat % 2 = 0) && decide (2 ≤ n.toNat) && decide (n.toNat ≤ 254)

/-- D is a count, so its class is an unused field (R76, R173). -/
def legalCall (o : Ops) : Bool :=
  Ops.shape o true false true false && Hdr.noGuard o.h && o.d.cls == .s && o.a == {} && Ops.plain o && Ops.immB o && slideOk o.d.n

def legalCalli (o : Ops) : Bool :=
  Ops.shape o true false false false && Hdr.noGuard o.h && o.d.cls == .s && Ops.noB o && Ops.plain o && slideOk o.d.n

def legalFork (o : Ops) : Bool :=
  Ops.shape o true false true false && Ops.plain o && Ops.immB o

def legalExit (o : Ops) : Bool :=
  Ops.shape o true false false false && Ops.noDA o && Ops.noB o && Ops.plain o

def legalTrap (o : Ops) : Bool :=
  Ops.shape o true false false false && Ops.noDA o && Ops.noB o && o.fmt == .raw && o.sub == 0

def legalBlock (o : Ops) : Bool :=
  Ops.shape o true false false false && Hdr.noGuard o.h && Ops.noDA o && Ops.plain o &&
  (match SrcB.i18? o.b with
   | some v => decide (v % 8 = 0) && decide (8 ≤ v) && decide (v ≤ 248)
   | none => false)

/-! ## Integers (R154 to R161) -/

def legalInt2 (o : Ops) (fmts : Fmt → Bool) (maxSub : Nat) : Bool :=
  Ops.shape o true true true false && fmts o.fmt && decide (o.sub.toNat ≤ maxSub) && o.x10 == 0 &&
  o.c == {} && o.rnd == .rne

def legalInt1 (o : Ops) (fmts : Fmt → Bool) (maxSub : Nat) : Bool :=
  Ops.shape o true true false false && fmts o.fmt && decide (o.sub.toNat ≤ maxSub) && o.x10 == 0 &&
  o.c == {} && o.rnd == .rne && Ops.noBX o

/-- MAD and SEL: three sources in F96R. -/
def legalInt3 (o : Ops) (fmts : Fmt → Bool) : Bool :=
  Ops.shape o false true false false && fmts o.fmt && o.sub == 0 && o.x10 == 0 && o.rnd == .rne

def fmtWidth (f : Fmt) : Nat := match f with | .i64 | .u64 => 64 | _ => 32

/-- BFX and BFI: X10 holds the length (R160). -/
def fieldLenOk (o : Ops) : Bool := decide (o.x10.toNat < 64) && decide (o.x10.toNat + 1 ≤ fmtWidth o.fmt)

def legalBfx (o : Ops) : Bool :=
  Ops.shape o true true false false && Ops.regB o && Fmt.inRange o.fmt 10 13 && o.sub == 0 && fieldLenOk o &&
  o.c == {} && o.rnd == .rne

def legalBfi (o : Ops) : Bool :=
  Ops.shape o false true false false && Fmt.inRange o.fmt 10 13 && o.sub == 0 && fieldLenOk o && o.rnd == .rne

def legalLop3 (o : Ops) : Bool :=
  Ops.shape o false true false false && Fmt.rawOrInt o.fmt && o.sub == 0 && decide (o.x10.toNat < 256) && o.rnd == .rne

def legalLi (o : Ops) : Bool :=
  Ops.shape o true false true true && Ops.immB o && o.a == {} && o.sub == 0 && o.x10 == 0

/-! ## Class moves and special registers (R145 to R148, R162 to R167, R390) -/

def legalMove (o : Ops) (fmts : Fmt → Bool) : Bool :=
  Ops.shape o true false false false && Ops.noB o && fmts o.fmt && o.sub == 0 && o.x10 == 0

def legalDema (o : Ops) : Bool :=
  Ops.shape o true false false false && Ops.noB o && Fmt.inRange o.fmt 12 13 && decide (o.sub.toNat ≤ 1) &&
  decide (o.x10.toNat < 16)

/-- The assigned special-register codes of R145 and R146. -/
def sregAssigned (c : Nat) : Bool :=
  decide (c ≤ 0x21) || (decide (0x40 ≤ c) && decide (c ≤ 0x50)) || (decide (0x60 ≤ c) && decide (c ≤ 0x64))

def legalSread (o : Ops) : Bool :=
  Ops.shape o true false false false && o.a == {} && Ops.noB o && o.fmt == .raw && o.sub == 0 && sregAssigned o.x10.toNat

def legalSwrite (o : Ops) : Bool :=
  Ops.shape o true false false false && o.d == {} && Ops.noB o && o.fmt == .raw && o.sub == 0 && sregAssigned o.x10.toNat

def legalSegld (o : Ops) : Bool :=
  Ops.shape o true false false false && o.d == {} && Ops.regB o && o.fmt == .raw && o.sub == 0 && decide (o.x10.toNat ≤ 4)

/-! ## Floating and packed (R184 to R203) -/

def legalFl2 (o : Ops) (maxSub : Nat) (rnd : Bool) : Bool :=
  Ops.shape o true true true false && Fmt.inRange o.fmt 1 3 && decide (o.sub.toNat ≤ maxSub) && o.x10 == 0 &&
  o.c == {} && (if rnd then Ops.rndOk o else o.rnd == .rne)

def legalFma (o : Ops) : Bool :=
  Ops.shape o false true false false && Fmt.inRange o.fmt 1 3 && o.sub == 0 && o.x10 == 0 && Ops.rndOk o

/-- One-source floating forms, with their test of RND. -/
def legalFl1 (o : Ops) (maxSub : Nat) (rndOk : Bool) : Bool :=
  Ops.shape o true true false false && Fmt.inRange o.fmt 1 3 && decide (o.sub.toNat ≤ maxSub) && o.x10 == 0 &&
  o.c == {} && Ops.noBX o && rndOk

def legalFclass (o : Ops) : Bool :=
  Ops.shape o true true false false && Fmt.inRange o.fmt 1 3 && o.sub == 0 && o.c == {} && Ops.noBX o && o.rnd == .rne &&
  (if o.d.cls == .k then decide (o.x10.toNat < 512) else o.x10 == 0)

/-- The element-count groups of CVT (R192): 0 scalar, 1 pairs, 2 quads. -/
def cvtGroup (f : Fmt) : Option Nat :=
  match f with
  | .f32 | .i32 | .u32 | .i64 | .u64 => some 0
  | .f16x2 | .bf16x2 | .i16x2 | .u16x2 => some 1
  | .e4m3x4 | .e5m2x4 | .i8x4 | .u8x4 => some 2
  | .raw => none

def Fmt.isFloat (f : Fmt) : Bool := Fmt.inRange f 1 5

def legalCvt (o : Ops) : Bool :=
  Ops.shape o true true false false && o.x10 == 0 && o.c == {} && Ops.noBX o && Ops.rndOk o &&
  (match Fmt.ofCode o.sub.toNat with
   | none => false
   | some src =>
     (cvtGroup src).isSome && cvtGroup src == cvtGroup o.fmt && !(src == o.fmt && !Fmt.isFloat src))

def legalDot (o : Ops) (fl int : Nat) : Bool :=
  Ops.shape o false true false false && o.x10 == 0 &&
  ((Fmt.inRange o.fmt fl (fl + 1) && o.sub == 0) ||
   (Fmt.inRange o.fmt int (int + 1) && decide (o.sub.toNat ≤ 1) && o.rnd == .rne))

def legalSad (o : Ops) : Bool :=
  Ops.shape o false true false false && o.x10 == 0 && Fmt.inRange o.fmt 6 9 && o.sub == 0 && o.rnd == .rne

def legalAvg (o : Ops) : Bool :=
  Ops.shape o true true false false && o.x10 == 0 && o.c == {} && Fmt.inRange o.fmt 6 9 && decide (o.sub.toNat ≤ 1) &&
  o.rnd == .rne

/-- The combinations of R201. -/
def legalPack (o : Ops) : Bool :=
  let s := o.sub.toNat
  let word := s == 1 || s == 10 || s == 11
  let pair := s == 2 || s == 3 || s == 6 || s == 7
  let f := Fmt.code o.fmt
  let pairDst := f == 2 || f == 3 || f == 6 || f == 7
  let quadDst := f == 4 || f == 5 || f == 8 || f == 9
  Ops.shape o true true false false && Ops.regB o && o.c == {} &&
  ((pairDst && word && o.x10 == 0) || (quadDst && word && decide (o.x10.toNat ≤ 1)) || (quadDst && pair && o.x10 == 0))

/-- The combinations of R202. -/
def legalUnpk (o : Ops) : Bool :=
  let s := o.sub.toNat
  let f := Fmt.code o.fmt
  let n := if s == 2 || s == 3 || s == 6 || s == 7 then 2 else 4
  Ops.shape o true true false false && o.c == {} && Ops.noBX o && o.rnd == .rne && decide (2 ≤ s) && decide (s ≤ 9) &&
  (((f == 1 || f == 10 || f == 11) && decide (o.x10.toNat < n)) ||
   ((f == 2 || f == 3 || f == 6 || f == 7) && n == 4 && decide (o.x10.toNat ≤ 1)))

def legalPrmt (o : Ops) : Bool :=
  Ops.shape o true true true false && o.fmt == .raw && o.sub == 0 && o.x10 == 0 && o.rnd == .rne &&
  (match o.b with
   | .imm (.i18 v) => decide (v.toNat < 65536)
   | .imm (.i32 v) => decide (v.toNat < 65536)
   | _ => true)

/-! ## Lanes and predicates (R204 to R215) -/

/-- The group size g of SHUF (R205), none where it is illegal. -/
def shufGroup (x : BitVec 10) : Option Nat :=
  let amt := x.toNat % 16
  if x.toNat ≥ 32 then none
  else if x.toNat / 16 = 0 then (if amt ≤ 6 then some (64 >>> amt) else none)
  else (if amt ≤ 6 then some (2 ^ amt) else none)

def legalShuf (o : Ops) : Bool :=
  Ops.shape o true true false false && Ops.regB o && Ops.noXb o && o.c == {} && o.rnd == .rne &&
  decide (o.sub.toNat ≤ 2) && (shufGroup o.x10).isSome && (o.fmt == .raw || Fmt.inRange o.fmt 12 13)

/-- The formats of an operation of RED and SCAN (R207). -/
def redFmt (sub : Nat) (f : Fmt) : Bool :=
  if sub ≤ 2 then Fmt.inRange f 1 3
  else if sub ≤ 5 then Fmt.inRange f 10 13
  else if sub ≤ 8 then Fmt.rawOrInt f
  else if sub = 9 then f == .f32
  else false

def legalRed (o : Ops) : Bool :=
  Ops.shape o true true false false && Ops.noB o && Ops.noXb o && o.c == {} && o.x10 == 0 &&
  decide (o.sub.toNat ≤ 9) && redFmt o.sub.toNat o.fmt && (o.sub == 0 || o.sub == 9 || o.rnd == .rne)

def legalScan (o : Ops) : Bool :=
  Ops.shape o true true false false && Ops.noB o && Ops.noXb o && o.c == {} && decide (o.x10.toNat ≤ 1) &&
  decide (o.sub.toNat ≤ 8) && redFmt o.sub.toNat o.fmt && (o.sub == 0 || o.rnd == .rne)

def legalVote (o : Ops) : Bool :=
  Ops.shape o true false false false && Ops.noB o && o.fmt == .raw && o.x10 == 0 && decide (o.sub.toNat ≤ 2)

def legalBallot (o : Ops) : Bool :=
  Ops.shape o true false false false && Ops.noB o && Ops.plain o

def legalPlog (o : Ops) : Bool :=
  Ops.shape o true false false false && Ops.noB o && o.fmt == .raw && decide (o.sub.toNat ≤ 3) && decide (o.x10.toNat < 64)

def legalPnot (o : Ops) : Bool :=
  Ops.shape o true false false false && Ops.noB o && Ops.plain o

def legalPmov (o : Ops) : Bool :=
  Ops.shape o true false false false && Ops.noB o && o.fmt == .raw &&
  (match o.sub.toNat with
   | 0 => o.x10 == 0
   | 1 => o.x10 == 0 && o.a == {}
   | 2 => decide (o.x10.toNat ≤ 31)
   | 3 => o.x10 == 0 && o.d == {}
   | _ => false)

def legalPcnt (o : Ops) : Bool :=
  Ops.shape o true false false false && Ops.noB o && o.fmt == .raw && o.x10 == 0 && decide (o.sub.toNat ≤ 1)

/-! ## Memory (R241 to R263) -/

/-- The formats an opcode permits among F96M and F128M. -/
def MemOps.shape (o : MemOps) (f96 f128 : Bool) : Bool :=
  (match o.h.len with
   | .w3 => f96 && o.w3 == 0
   | .w4 => f128
   | .w2 => false) &&
  (match o.b with
   | .reg r => r.cls != .k
   | .imm (.i18 _) => o.x10 == 0
   | .imm _ => false)

def MemOps.regB (o : MemOps) : Bool := match o.b with | .reg _ => true | .imm _ => false
def MemOps.noB (o : MemOps) : Bool := o.b == .reg {}

/-- A load's size and format (R246); packed and 16-byte forms with an S destination pass here and
trap ILLEGAL_TYPE later. -/
def loadFmtOk (sub : Nat) (f : Fmt) (s : Bool) : Bool :=
  if s && Fmt.inRange f 2 9 then decide (sub ≤ 4)
  else match sub with
  | 0 | 1 => f == .raw || f == .i32 || f == .u32
  | 2 => Fmt.inRange f 0 11
  | 3 => if s then f == .raw || Fmt.inRange f 12 13 else Fmt.inRange f 0 9 || Fmt.inRange f 12 13
  | 4 => s || Fmt.inRange f 0 9
  | _ => false

/-- A store's size and format (R248); `s` for an S register or an immediate. -/
def storeFmtOk (sub : Nat) (f : Fmt) (s : Bool) : Bool :=
  match sub with
  | 0 | 1 => f == .raw || f == .i32 || f == .u32
  | 2 => Fmt.inRange f 0 11
  | 3 => if s then f == .raw || Fmt.inRange f 12 13 else Fmt.inRange f 0 9 || Fmt.inRange f 12 13
  | 4 => Fmt.inRange f 0 9
  | _ => false

def legalLd (o : MemOps) : Bool :=
  MemOps.shape o true true && MemOps.noB o && o.x10 == 0 && (o.ord == .plain || o.ord == .acq) &&
  loadFmtOk o.sub.toNat o.fmt (o.d.cls == .s) && (o.tol == 0 || (o.sub == 2 && o.fmt == .f32))

def legalSt (o : MemOps) : Bool :=
  let imm := !MemOps.regB o
  let s := imm || (match o.b with | .reg r => r.cls == .s | _ => false)
  MemOps.shape o true true && o.d == {} && o.x10 == 0 && (o.ord == .plain || o.ord == .rel) && o.tol == 0 &&
  storeFmtOk o.sub.toNat o.fmt s && !(imm && o.sub == 4)

/-- Registers of an LDSX or STSX. -/
def sxCount (o : MemOps) : Nat := o.x10.toNat % 4 + 1
/-- Elements per register (R252). -/
def sxPer (f : Fmt) : Nat := if f == .f32 then 1 else 2

def legalSx (o : MemOps) : Bool :=
  decide (o.sub.toNat ≤ 2) && Fmt.inRange o.fmt 1 3 && decide (o.x10.toNat < 4) && o.ord == .plain && o.tol == 0

def legalLdsx (o : MemOps) : Bool := MemOps.shape o true true && MemOps.regB o && legalSx o

/-- A block scale that STSX accepts: positive and finite (R242). -/
def scaleOk (v : Nat) : Bool := decide (0 < v) && decide (v < 0x7F80)

/-- STSX. Six elements per lane (c = 3, FMT 2 or 3) leave 256/6 not whole: refused. Log entry 107: DESIGN CHOICE. -/
def legalStsx (o : MemOps) : Bool :=
  let n := sxCount o * sxPer o.fmt
  MemOps.shape o true true && MemOps.regB o && o.d == {} && legalSx o && (n == 4 || n == 8) &&
  (match o.h.len with | .w4 => scaleOk o.w3.toNat | _ => true)

/-- The formats of an atomic operation (R254). -/
def atomFmtOk (sub : Nat) (f : Fmt) : Bool :=
  if sub = 1 then Fmt.inRange f 1 3
  else if sub ≤ 5 then Fmt.inRange f 10 13
  else if sub ≤ 10 then Fmt.rawOrInt f
  else false

def MemOps.nr (o : MemOps) : Bool := o.x10 == 1

def legalAtom (o : MemOps) : Bool :=
  MemOps.shape o true true && MemOps.regB o && o.tol == 0 && atomFmtOk o.sub.toNat o.fmt && decide (o.x10.toNat ≤ 1) &&
  (!MemOps.nr o || (o.d == {} && o.sub != 10))

def legalAcc (o : MemOps) : Bool :=
  MemOps.shape o true true && o.d == {} && o.x10 == 0 && o.sub == 0 && o.fmt == .f32 &&
  (o.ord == .plain || o.ord == .rel) && o.tol == 0

def legalPref (o : MemOps) : Bool :=
  MemOps.shape o true false && o.d == {} && MemOps.noB o && o.x10 == 0 && decide (o.sub.toNat ≤ 1) && o.fmt == .raw &&
  o.ord == .plain && o.tol == 0

def legalRegion (o : MemOps) : Bool :=
  o.sub == 0 && o.fmt == .raw && o.x10 == 0 && o.ord == .plain && o.tol == 0 && o.seg == .glb

def legalDrain (o : MemOps) : Bool :=
  MemOps.shape o true false && o.d == {} && MemOps.noB o && legalRegion o

/-- The limit of a BREG: finite and greater than zero (R242). -/
def limitOk (v : Nat) : Bool := decide (0 < v) && decide (v < 0x7F800000)

def legalBreg (o : MemOps) : Bool :=
  MemOps.shape o false true && MemOps.regB o && legalRegion o && limitOk o.w3.toNat

/-- Log entry 45: DEDUCED. -/
def legalCpy (o : CpyOps) : Bool := o.h.len == .w4

def legalPut (o : CpyOps) : Bool := o.h.len == .w4 && o.lc && o.dseg == .glb

/-! ## Handles (R268) -/

def legalHandle (o : Ops) (subs : Nat → Bool) : Bool :=
  Ops.shape o true false false false && Ops.noB o && o.fmt == .raw && o.x10 == 0 && subs o.sub.toNat

def legalHwait (o : Ops) : Bool := legalHandle o (fun n => decide (n ≤ 2)) && (o.sub != 0 || o.d == {})
def legalHtest (o : Ops) : Bool := legalHandle o (fun n => n == 1 || n == 2)
def legalHcancel (o : Ops) : Bool := legalHandle o (fun n => n == 0) && o.d == {}
def legalHmov (o : Ops) : Bool := legalHandle o (fun n => n == 0)

/-! ## Kiln (R340 to R355) -/

def SxFmt.blockBytes : SxFmt → Nat
  | .sx2 => 136 | .sx4 => 200 | .sx7 => 296

/-- Bytes of one element of a dense source (R338); zero for a shared-exponent one. -/
def SrcFmt.esize : SrcFmt → Nat
  | .sx _ => 0 | .bf16 => 2 | .f16 => 2 | .e4m3 => 1 | .e5m2 => 1 | .f32 => 4

def pitchOk (f : SrcFmt) (p : Nat) : Bool :=
  match f with
  | .sx m => decide (p % 8 = 0) && decide (SxFmt.blockBytes m ≤ p)
  | d => decide (p % SrcFmt.esize d = 0) && decide (128 * SrcFmt.esize d ≤ p)

def legalKload (o : KloadOps) : Bool :=
  o.h.len == .w4 && pitchOk o.sfmt o.pitch.toNat &&
  (match o.sfmt with | .sx m => m == o.mfmt | _ => true)

def legalKtask (o : MemOps) : Bool :=
  MemOps.shape o true false && MemOps.noB o && o.sub == 0 && o.fmt == .raw && o.x10 == 0 && o.seg == .scr &&
  o.ord == .plain && o.tol == 0

def legalKzero (o : Ops) : Bool :=
  Ops.shape o true true false false && o.a == {} && Ops.noB o && Ops.noXb o && o.c == {} && o.rnd == .rne && Ops.plain o

def rowImmOk (b : SrcB) : Bool :=
  match SrcB.i18? b with | some v => decide (0 ≤ v) && decide (v ≤ 31) | none => true

def legalKread (o : Ops) : Bool :=
  Ops.shape o true true false false && Ops.noXb o && o.c == {} && o.rnd == .rne && o.fmt == .f32 && o.x10 == 0 &&
  decide (o.sub.toNat < 8) && rowImmOk o.b

def legalKwrite (o : Ops) : Bool :=
  Ops.shape o true true false false && Ops.noXb o && o.c == {} && o.fmt == .f32 && o.x10 == 0 && rowImmOk o.b &&
  (decide (8 ≤ o.sub.toNat) || o.rnd == .rne)

/-- First row and row count of a KSTORE (R353). -/
def kstoreRows (x : BitVec 10) : Nat × Nat := (x.toNat % 32, x.toNat / 32 + 1)

def legalKstore (o : MemOps) : Bool :=
  let (first, n) := kstoreRows o.x10
  MemOps.shape o true false && o.d == {} && MemOps.regB o && o.seg == .scr && o.ord == .plain && o.tol == 0 &&
  decide (first + n ≤ 32) &&
  ((o.sub == 0 && Fmt.inRange o.fmt 1 5) ||
   (decide (1 ≤ o.sub.toNat) && decide (o.sub.toNat ≤ 3) && o.fmt == .raw && decide (first % 2 = 0) && decide (n % 2 = 0)))

def tagImmOk (b : SrcB) : Bool :=
  match SrcB.i18? b with | some v => decide (0 ≤ v) && decide (v ≤ 65535) | none => true

def legalKfree (o : Ops) : Bool :=
  Ops.shape o true false false false && Ops.noDA o && Ops.plain o && tagImmOk o.b

def legalKstat (o : Ops) : Bool :=
  Ops.shape o true false false false && o.a == {} && o.fmt == .raw && o.x10 == 0 && decide (o.sub.toNat ≤ 3) &&
  (o.sub == 1 || Ops.noB o)

/-! ## Counters (R405, R412 to R416) -/

def barLevel (x : BitVec 10) : Nat := x.toNat / 256
def barExpv (x : BitVec 10) : Bool := decide (x.toNat / 128 % 2 = 1)
def barDrop (x : BitVec 10) : Bool := decide (x.toNat / 64 % 2 = 1)
def barNum (x : BitVec 10) : Nat := x.toNat % 64

def legalBar (o : Ops) : Bool :=
  Ops.shape o true false false false && Ops.regB o && o.fmt == .raw &&
  (barLevel o.x10 == 0 || decide (barNum o.x10 < 16)) && (match o.b with | .reg r => r.cls == .s | .imm _ => false) &&
  (barExpv o.x10 || Ops.noB o)

/-- D of an ARRIVE: a token register, or D = 0 with DC = 0b00 (R405). -/
def arriveD (o : Ops) : Bool := o.d.cls != .s || o.d == {}

def legalBarArrive (o : Ops) : Bool :=
  legalBar o && o.sub == 0 && o.a == {} && arriveD o && (!barDrop o.x10 || o.d == {})

def legalBarWait (o : Ops) : Bool :=
  legalBar o && o.sub == 1 && o.d == {} && !barExpv o.x10 && !barDrop o.x10

def legalBarSync (o : Ops) : Bool := legalBar o && o.sub == 2 && o.a == {} && !barDrop o.x10

def legalBarQuery (o : Ops) : Bool :=
  legalBar o && o.sub == 3 && o.a == {} && !barExpv o.x10 && !barDrop o.x10

/-- SIGADD and SIGWAIT (R411 to R413). NT is accepted here, on CTWAIT and on KSTORE, and refused on SAVEK and RESTK.
Log entry 119: DESIGN CHOICE. -/
def legalSig (o : MemOps) (maxSub : Nat) : Bool :=
  MemOps.shape o true false && o.fmt == .raw && o.x10 == 0 && o.tol == 0 && o.ord == .plain && decide (o.sub.toNat ≤ maxSub)

def legalSigadd (o : MemOps) : Bool := legalSig o 1 && o.d == {}
/-- D of a SIGWAIT: zero, or a V pair (R413). -/
def legalSigwait (o : MemOps) : Bool := legalSig o 5 && (o.d.cls != .s || o.d == {})
/-- CTWAIT: B is an S register or an immediate (R414). -/
def legalCtwait (o : MemOps) : Bool :=
  legalSig o 0 && o.d == {} && o.seg == .scr && (match o.b with | .reg r => r.cls == .s | .imm _ => true)

def legalTwait (o : Ops) : Bool :=
  Ops.shape o true false true false && Ops.noDA o && o.fmt == .raw && o.x10 == 0 &&
  ((o.sub == 0 && Ops.regB o) || o.sub == 1)

def legalFlagr (o : Ops) : Bool :=
  Ops.shape o true false false false && o.a == {} && Ops.noB o && Ops.plain o

def legalFlagm (o : Ops) : Bool :=
  Ops.shape o true false false false && Ops.noDA o && Ops.plain o &&
  (match SrcB.i18? o.b with | some v => decide (0 ≤ v) && decide (v ≤ 63) | none => true)

/-! ## Launches, calls, contexts (R329, R330, R437 to R440) -/

def legalSysc (o : Ops) : Bool :=
  Ops.shape o true false false false && Ops.noB o && o.fmt == .raw && decide (o.sub.toNat ≤ 1)

def legalCtx (o : MemOps) : Bool :=
  MemOps.shape o true false && Hdr.noGuard o.h && o.d == {} && o.fmt == .raw && o.x10 == 0 && o.tol == 0 &&
  o.ord == .plain && !o.nt && o.seg == .ctx && (o.a.cls == .s || o.a.cls == .v)

/-- The 18-bit immediate of SAVEK and RESTK as a natural number (R437). -/
def savekImm (o : MemOps) : Option Nat := match o.b with | .imm (.i18 v) => some v.toNat | _ => none

def legalSavek (o : MemOps) : Bool :=
  legalCtx o &&
  (match savekImm o, o.sub.toNat with
   | some v, 0 => decide (v < 65536)
   | some v, 1 => v == 0
   | some v, 2 => decide (v < 32)
   | _, _ => false)

def legalDiv (o : MemOps) : Bool := legalCtx o && MemOps.noB o && o.sub == 0

/-! ## REP bodies (R96) -/

/-- Which register fields a body uses: D, A, B, C. -/
structure Uses where
  d : Bool
  a : Bool
  b : Bool
  c : Bool
deriving DecidableEq, Repr

/-- Opcodes of bodies without a B source. -/
def bodyNoB (c : Nat) : Bool :=
  [0x2A, 0x30, 0x31, 0x34, 0x35, 0x36, 0x39, 0x3A, 0x40, 0x41, 0x42, 0x43, 0x44, 0x56, 0x58, 0x59, 0x5A, 0x5B,
   0x5C, 0x5D, 0x5E, 0x5F, 0x60, 0x61, 0x62, 0x68, 0x71, 0x72, 0x73, 0x74, 0x76, 0x77, 0x78, 0x79, 0x80, 0xA2,
   0xB5].contains c

/-- Opcodes of bodies with a C source. -/
def bodyC (c : Nat) : Bool := [0x24, 0x33, 0x38, 0x3B, 0x53, 0x64, 0x65, 0x6A].contains c

def Body.uses : Body → Uses
  | .reg code o =>
    let c := code.toNat
    { d := !(c == 0xB6 || c == 0xB7 || (c == 0x78 && o.sub == 3))
      a := !(c == 0x3A || c == 0xA2 || c == 0xB5 || c == 0xB6 || c == 0xB7 || (c == 0x78 && o.sub == 1))
      b := !bodyNoB c && Ops.regB o
      c := bodyC c || (c == 0x69 && o.h.len == .w3 && Ops.regB o) }
  | .mem code o =>
    let c := code.toNat
    { d := !(c == 0x81 || c == 0x83 || c == 0x85 || (c == 0x84 && MemOps.nr o))
      a := true
      b := !bodyNoB c && MemOps.regB o
      c := false }

/-- The instruction a body stands for, if R96 allows its opcode as a body. -/
def Body.instr : Body → Option Instr
  | .reg code o =>
    match code.toNat with
    | 0x20 => some (.add o) | 0x21 => some (.sub o) | 0x22 => some (.mul o) | 0x23 => some (.mulh o)
    | 0x24 => some (.mad o) | 0x25 => some (.div o) | 0x26 => some (.rem o) | 0x27 => some (.and o)
    | 0x28 => some (.or o) | 0x29 => some (.xor o) | 0x2A => some (.not o) | 0x2B => some (.shl o)
    | 0x2C => some (.shr o) | 0x2D => some (.sar o) | 0x2E => some (.min o) | 0x2F => some (.max o)
    | 0x30 => some (.abs o) | 0x31 => some (.neg o) | 0x32 => some (.cmp o) | 0x33 => some (.sel o)
    | 0x34 => some (.popc o) | 0x35 => some (.clz o) | 0x36 => some (.brev o) | 0x37 => some (.bfx o)
    | 0x38 => some (.bfi o) | 0x39 => some (.mov o) | 0x3A => some (.li o) | 0x3B => some (.lop3 o)
    | 0x40 => some (.prom o) | 0x41 => some (.demv o) | 0x42 => some (.dema o) | 0x43 => some (.base o)
    | 0x44 => some (.strd o)
    | 0x50 => some (.fadd o) | 0x51 => some (.fsub o) | 0x52 => some (.fmul o) | 0x53 => some (.fma o)
    | 0x54 => some (.fmin o) | 0x55 => some (.fmax o) | 0x56 => some (.fabs o) | 0x57 => some (.fcmp o)
    | 0x58 => some (.fclass o) | 0x59 => some (.frnd o) | 0x5A => some (.cvt o) | 0x5B => some (.rcp o)
    | 0x5C => some (.rsq o) | 0x5D => some (.sqrt o) | 0x5E => some (.ex2 o) | 0x5F => some (.lg2 o)
    | 0x60 => some (.sin o) | 0x61 => some (.cos o) | 0x62 => some (.tanh o) | 0x64 => some (.dot2 o)
    | 0x65 => some (.sad o) | 0x66 => some (.avg o) | 0x67 => some (.pack o) | 0x68 => some (.unpk o)
    | 0x69 => some (.prmt o) | 0x6A => some (.dot4 o) | 0x70 => some (.shuf o) | 0x71 => some (.red o)
    | 0x72 => some (.scan o) | 0x73 => some (.vote o) | 0x74 => some (.ballot o) | 0x76 => some (.plog o)
    | 0x77 => some (.pnot o) | 0x78 => some (.pmov o) | 0x79 => some (.pcnt o)
    | 0xA2 => some (.kzero o) | 0xA3 => some (.kread o) | 0xA4 => some (.kwrite o)
    | 0xB5 => some (.flagr o) | 0xB6 => some (.flagc o) | 0xB7 => some (.flaga o)
    | _ => none
  | .mem code o =>
    match code.toNat with
    | 0x80 => some (.ld o) | 0x81 => some (.st o) | 0x82 => some (.ldsx o) | 0x83 => some (.stsx o)
    | 0x84 => some (.atom o) | 0x85 => some (.acc o)
    | _ => none

/-! ## The check of an instruction -/

/-- Step 3 of R101 for every instruction but REP; the steps of other agents have no encoding. -/
def Instr.legal0 : Instr → Bool
  | .nop o => legalNop o | .jmp o => legalJmp o | .bra o => legalBra o | .br o => legalBr o
  | .br4 _ => true | .join o => legalZero o | .joinw o => legalJoinw o | .call o => legalCall o
  | .calli o => legalCalli o | .ret o => legalZero o | .fork o => legalFork o | .exit o => legalExit o
  | .trap o => legalTrap o | .brk o => legalExit o | .rep _ => false | .xacq o => legalBlock o | .xrel o => legalBlock o
  | .add o => legalInt2 o (Fmt.inRange · 6 13) 1 | .sub o => legalInt2 o (Fmt.inRange · 6 13) 1
  | .mul o => legalInt2 o (Fmt.inRange · 6 13) 1 | .mulh o => legalInt2 o (Fmt.inRange · 10 13) 0
  | .mad o => legalInt3 o (Fmt.inRange · 10 13)
  | .div o => legalInt2 o (Fmt.inRange · 10 13) 0 | .rem o => legalInt2 o (Fmt.inRange · 10 13) 0
  | .and o => legalInt2 o Fmt.rawOrInt 0 | .or o => legalInt2 o Fmt.rawOrInt 0 | .xor o => legalInt2 o Fmt.rawOrInt 0
  | .not o => legalInt1 o Fmt.rawOrInt 0
  | .shl o => legalInt2 o (Fmt.inRange · 6 13) 0 | .shr o => legalInt2 o (Fmt.inRange · 6 13) 0
  | .sar o => legalInt2 o (Fmt.inRange · 6 13) 0 | .min o => legalInt2 o (Fmt.inRange · 6 13) 0
  | .max o => legalInt2 o (Fmt.inRange · 6 13) 0 | .abs o => legalInt1 o (Fmt.inRange · 6 13) 1
  | .neg o => legalInt1 o (Fmt.inRange · 6 13) 1 | .cmp o => legalInt2 o (Fmt.inRange · 10 13) 9
  | .sel o => legalInt3 o (fun _ => true)
  | .popc o => legalInt1 o (Fmt.inRange · 10 13) 0 | .clz o => legalInt1 o (Fmt.inRange · 10 13) 0
  | .brev o => legalInt1 o (Fmt.inRange · 10 13) 0
  | .bfx o => legalBfx o | .bfi o => legalBfi o | .mov o => legalInt1 o (fun _ => true) 0 | .li o => legalLi o
  | .lop3 o => legalLop3 o
  | .prom o => legalMove o (Fmt.inRange · 10 13) | .demv o => legalMove o (Fmt.inRange · 10 13)
  | .dema o => legalDema o | .base o => legalMove o (Fmt.inRange · 12 13) | .strd o => legalMove o (Fmt.inRange · 12 13)
  | .sread o => legalSread o | .swrite o => legalSwrite o | .segld o => legalSegld o
  | .fadd o => legalFl2 o 0 true | .fsub o => legalFl2 o 0 true | .fmul o => legalFl2 o 0 true | .fma o => legalFma o
  | .fmin o => legalFl2 o 0 false | .fmax o => legalFl2 o 0 false | .fabs o => legalFl1 o 2 (o.rnd == .rne)
  | .fcmp o => legalFl2 o 7 false | .fclass o => legalFclass o | .frnd o => legalFl1 o 0 (Ops.rndOk o) | .cvt o => legalCvt o
  | .rcp o => legalFl1 o 0 (o.rnd == .rne) | .rsq o => legalFl1 o 0 (o.rnd == .rne) | .sqrt o => legalFl1 o 0 true
  | .ex2 o => legalFl1 o 0 (o.rnd == .rne) | .lg2 o => legalFl1 o 0 (o.rnd == .rne) | .sin o => legalFl1 o 0 (o.rnd == .rne)
  | .cos o => legalFl1 o 0 (o.rnd == .rne) | .tanh o => legalFl1 o 0 (o.rnd == .rne)
  | .dot2 o => legalDot o 2 6 | .dot4 o => legalDot o 4 8 | .sad o => legalSad o | .avg o => legalAvg o
  | .pack o => legalPack o | .unpk o => legalUnpk o | .prmt o => legalPrmt o
  | .shuf o => legalShuf o | .red o => legalRed o | .scan o => legalScan o | .vote o => legalVote o
  | .ballot o => legalBallot o | .plog o => legalPlog o | .pnot o => legalPnot o | .pmov o => legalPmov o
  | .pcnt o => legalPcnt o
  | .ld o => legalLd o | .st o => legalSt o | .ldsx o => legalLdsx o | .stsx o => legalStsx o | .atom o => legalAtom o
  | .acc o => legalAcc o | .fence o => legalZero o | .pref o => legalPref o | .drain o => legalDrain o
  | .breg o => legalBreg o | .bfree o => legalDrain o | .cpy o => legalCpy o | .cpy2d o => legalCpy o | .put o => legalPut o
  | .hwait o => legalHwait o | .htest o => legalHtest o | .hcancel o => legalHcancel o | .hmov o => legalHmov o
  | .hadopt o => legalHmov o
  | .kload o => legalKload o | .ktask o => legalKtask o | .kzero o => legalKzero o | .kread o => legalKread o
  | .kwrite o => legalKwrite o | .kstore o => legalKstore o | .kfree o => legalKfree o | .kstat o => legalKstat o
  | .barArrive o => legalBarArrive o | .barWait o => legalBarWait o | .barSync o => legalBarSync o
  | .barQuery o => legalBarQuery o | .sigadd o => legalSigadd o | .sigwait o => legalSigwait o
  | .ctwait o => legalCtwait o | .twait o => legalTwait o | .flagr o => legalFlagr o | .flagc o => legalFlagm o
  | .flaga o => legalFlagm o
  | .launch o => o.h.len == .w4 | .sysc o => legalSysc o | .savek o => legalSavek o | .restk o => legalSavek o
  | .rddiv o => legalDiv o | .wrdiv o => legalDiv o | .tret o => legalZero o
  | _ => false

/-- A REP: its body is allowed and legal, and no field that the body does not use is stepped (R96). -/
def legalRep (o : RepOps) : Bool :=
  let u := Body.uses o.body
  (match Body.instr o.body with | some i => Instr.legal0 i | none => false) &&
  (u.d || o.dstep == 0) && (u.a || o.astep == 0) && (u.b || o.bstep == 0) && (u.c || o.cstep == 0)

/-- Step 3 of R101. -/
def Instr.legal : Instr → Bool
  | .rep o => legalRep o
  | i => Instr.legal0 i

end Sys2Proof.Machine
end

