-- ==== Sys2Proof/WellFormed.lean ====
section
/-!
DEFINITION. The well-formed instructions: those whose field values the decoder accepts (step 3 of
R101), so that they have an encoding. The checks themselves are in Machine/Legal.lean.
-/
namespace Sys2Proof

/-- An instruction that the words of an encoding can hold and the decoder accepts. -/
abbrev Instr.WellFormed (i : Instr) : Prop := Machine.Instr.legal i = true

end Sys2Proof
end

