-- ==== Sys2Proof/Decode.lean ====
section
/-!
DEFINITION. The decoder: steps 1 to 3 of R101 (with R71 to R81, R87, R95, R96, R98, R99, R102), total on
any words, rejecting by the name of the trap; and the encoder, written from the same layouts. Steps 4 to 6
depend on the posy and are checked where the instruction executes.
-/
namespace Sys2Proof

open Machine

/-! ## The fields of the common words (R74) -/

/-- Words 0 and 1, field by field. -/
structure Common where
  len : BitVec 2
  opc : BitVec 8
  gp : BitVec 4
  gn : Bool
  y : Bool
  d : BitVec 8
  a : BitVec 8
  b : BitVec 8
  dc : BitVec 2
  ac : BitVec 2
  bc : BitVec 2
  sub : BitVec 4
  fmt : BitVec 4
  x10 : BitVec 10
deriving DecidableEq, Repr

/-- One bit of a word. -/
def bit1 (w : W32) (i : Nat) : Bool := w.extractLsb' i 1 == 1

def Common.ofWords (w0 w1 : W32) : Common :=
  { len := w0.extractLsb' 0 2, opc := w0.extractLsb' 2 8, gp := w0.extractLsb' 10 4, gn := bit1 w0 14, y := bit1 w0 15
    d := w0.extractLsb' 16 8, a := w0.extractLsb' 24 8
    b := w1.extractLsb' 0 8, dc := w1.extractLsb' 8 2, ac := w1.extractLsb' 10 2, bc := w1.extractLsb' 12 2
    sub := w1.extractLsb' 14 4, fmt := w1.extractLsb' 18 4, x10 := w1.extractLsb' 22 10 }

def Common.word0 (c : Common) : W32 :=
  c.a ++ c.d ++ BitVec.ofBool c.y ++ BitVec.ofBool c.gn ++ c.gp ++ c.opc ++ c.len

def Common.word1 (c : Common) : W32 :=
  c.x10 ++ c.fmt ++ c.sub ++ c.bc ++ c.ac ++ c.dc ++ c.b

def Cls.code : Cls → BitVec 2 | .s => 0 | .a => 1 | .v => 2 | .k => 3
def Cls.ofCode (c : BitVec 2) : Cls := if c = 0 then .s else if c = 1 then .a else if c = 2 then .v else .k
def Len.code : Len → BitVec 2 | .w2 => 1 | .w3 => 2 | .w4 => 3
def Len.ofCode (c : BitVec 2) : Option Len :=
  if c = 0 then none else if c = 1 then some .w2 else if c = 2 then some .w3 else some .w4
def Len.words : Len → Nat | .w2 => 2 | .w3 => 3 | .w4 => 4
def Pat.code : Pat → BitVec 3 | .none => 0 | .rot => 1 | .bcast => 2 | .bfly => 3 | .mirr => 4 | .shd => 5 | .shu => 6
def Pat.ofCode (c : BitVec 3) : Option Pat :=
  if c = 0 then some .none else if c = 1 then some .rot else if c = 2 then some .bcast else if c = 3 then some .bfly
  else if c = 4 then some .mirr else if c = 5 then some .shd else if c = 6 then some .shu else Option.none
def Rnd.code : Rnd → BitVec 2 | .rne => 0 | .rz => 1 | .stoch => 2 | .dyn => 3
def Rnd.ofCode (c : BitVec 2) : Rnd := if c = 0 then .rne else if c = 1 then .rz else if c = 2 then .stoch else .dyn
def Ord.code : Sys2Proof.Ord → BitVec 2 | .plain => 0 | .acq => 1 | .rel => 2 | .acqrel => 3
def Ord.ofCode (c : BitVec 2) : Sys2Proof.Ord :=
  if c = 0 then .plain else if c = 1 then .acq else if c = 2 then .rel else .acqrel
def Seg.code : Seg → BitVec 3 | .glb => 0 | .scr => 1 | .cst => 2 | .spn => 3 | .ctx => 4
def Seg.ofCode (c : BitVec 3) : Option Seg :=
  if c = 0 then some .glb else if c = 1 then some .scr else if c = 2 then some .cst else if c = 3 then some .spn
  else if c = 4 then some .ctx else none
/-- The MACFMT codes of R340. -/
def SxFmt.code : SxFmt → BitVec 2 | .sx2 => 0 | .sx4 => 1 | .sx7 => 2
def SxFmt.ofCode (c : BitVec 2) : Option SxFmt :=
  if c = 0 then some .sx2 else if c = 1 then some .sx4 else if c = 2 then some .sx7 else none
/-- The SRCFMT codes of R340. -/
def SrcFmt.code : SrcFmt → BitVec 4
  | .sx .sx2 => 0 | .sx .sx4 => 1 | .sx .sx7 => 2 | .bf16 => 3 | .f16 => 4 | .e4m3 => 5 | .e5m2 => 6 | .f32 => 7
def SrcFmt.ofCode (c : BitVec 4) : Option SrcFmt :=
  if c = 0 then some (.sx .sx2) else if c = 1 then some (.sx .sx4) else if c = 2 then some (.sx .sx7)
  else if c = 3 then some .bf16 else if c = 4 then some .f16 else if c = 5 then some .e4m3 else if c = 6 then some .e5m2
  else if c = 7 then some .f32 else none
def Fmt.ofBits (c : BitVec 4) : Option Fmt := Fmt.ofCode c.toNat
def Fmt.bits (f : Fmt) : BitVec 4 := BitVec.ofNat 4 (Fmt.code f)

/-- A crossbar field (R89). -/
def XBar.ofBits (x : BitVec 10) : Option XBar :=
  (Pat.ofCode (x.extractLsb' 0 3)).map fun p => { rel := x.extractLsb' 9 1 == 1, amt := x.extractLsb' 3 6, pat := p }
def XBar.bits (x : XBar) : BitVec 10 := BitVec.ofBool x.rel ++ x.amt ++ Pat.code x.pat

def opd (c : BitVec 2) (n : BitVec 8) : Opd := { cls := Cls.ofCode c, n := n }

def Common.hdr (c : Common) (l : Len) : Hdr := { len := l, gp := c.gp, gn := c.gn, y := c.y }

/-! ## From words to fields (R77 to R81) -/

/-- Words 2 and 3 of F64, F96R, F96I and F128I, with the source B and the X10 that they leave. -/
structure Tail where
  b : SrcB
  x10 : BitVec 10
  c : Opd
  xa : XBar
  xb : XBar
  rnd : Rnd
deriving DecidableEq, Repr

/-- R77 to R79, R81: the later words of an instruction that is not of a memory or own layout. -/
def Common.tail (k : Common) (l : Len) (w2 w3 : W32) : Option Tail :=
  match l with
  | .w2 =>
    if k.bc = 3 then some ⟨.imm (.i18 (k.x10 ++ k.b)), 0, {}, {}, {}, .rne⟩
    else some ⟨.reg (opd k.bc k.b), k.x10, {}, {}, {}, .rne⟩
  | .w3 =>
    if k.bc = 3 then (if k.b = 0 then some ⟨.imm (.i32 w2), k.x10, {}, {}, {}, .rne⟩ else none)
    else
      match XBar.ofBits (w2.extractLsb' 10 10), XBar.ofBits (w2.extractLsb' 20 10) with
      | some xa, some xb =>
        some ⟨.reg (opd k.bc k.b), k.x10, opd (w2.extractLsb' 8 2) (w2.extractLsb' 0 8), xa, xb,
          Rnd.ofCode (w2.extractLsb' 30 2)⟩
      | _, _ => none
  | .w4 =>
    if k.bc = 3 then (if k.b = 0 then some ⟨.imm (.i64 (w3 ++ w2)), k.x10, {}, {}, {}, .rne⟩ else none)
    else if w2 = 0 ∧ w3 = 0 then some ⟨.reg (opd k.bc k.b), k.x10, {}, {}, {}, .rne⟩ else none

def Common.ops (k : Common) (l : Len) (w2 w3 : W32) : Option Ops :=
  match Fmt.ofBits k.fmt, Common.tail k l w2 w3 with
  | some f, some t =>
    some { h := Common.hdr k l, fmt := f, sub := k.sub, x10 := t.x10, d := opd k.dc k.d, a := opd k.ac k.a, b := t.b,
           c := t.c, xa := t.xa, xb := t.xb, rnd := t.rnd }
  | _, _ => none

/-- F96M and F128M (R80); an immediate B is the 18 bits of R87. -/
def Common.mem (k : Common) (l : Len) (w2 w3 : W32) : Option MemOps :=
  match l, Fmt.ofBits k.fmt, Seg.ofCode (w2.extractLsb' 20 3) with
  | .w2, _, _ => none
  | l, some f, some sg =>
    let imm := decide (k.bc = 3)
    some { h := Common.hdr k l, fmt := f, sub := k.sub, x10 := if imm then 0 else k.x10, d := opd k.dc k.d,
           a := opd k.ac k.a, b := if imm then .imm (.i18 (k.x10 ++ k.b)) else .reg (opd k.bc k.b),
           nt := bit1 w2 31, ord := Ord.ofCode (w2.extractLsb' 29 2), tol := w2.extractLsb' 23 6, seg := sg,
           disp := w2.extractLsb' 0 20, w3 := if l = .w4 then w3 else 0 }
  | _, _, _ => none

/-- SUB, FMT and X10 are zero (R263, R329, R340). -/
def Common.plainE (k : Common) : Bool := k.sub == 0 && k.fmt == 0 && k.x10 == 0

/-- CPY, CPY2D and PUT (R263): word 2 holds the segments, NT and the C register, word 3 LC and LCOFF. An LCOFF with LC = 0
is accepted: R263 gives the field whatever LC is. Log entry 45: DEDUCED. -/
def Common.cpy (k : Common) (w2 w3 : W32) : Option CpyOps := 
  if Common.plainE k && w2.extractLsb' 17 15 == 0 && w3.extractLsb' 19 12 == 0 then
    match Seg.ofCode (w2.extractLsb' 10 3), Seg.ofCode (w2.extractLsb' 13 3) with
    | some ss, some ds =>
      some { h := Common.hdr k .w4, d := opd k.dc k.d, a := opd k.ac k.a, b := opd k.bc k.b,
             c := opd (w2.extractLsb' 8 2) (w2.extractLsb' 0 8), sseg := ss, dseg := ds, nt := bit1 w2 16,
             lc := bit1 w3 31, lcoff := w3.extractLsb' 0 19 }
    | _, _ => none
  else none

def Common.kload (k : Common) (w2 w3 : W32) : Option KloadOps := 
  if Common.plainE k && w2.extractLsb' 20 12 == 0 && w2.extractLsb' 13 3 == 0 && w2.extractLsb' 0 4 == 0 then
    match Seg.ofCode (w2.extractLsb' 10 3), SxFmt.ofCode (w2.extractLsb' 8 2), SrcFmt.ofCode (w2.extractLsb' 4 4) with
    | some ss, some mf, some sf =>
      some { h := Common.hdr k .w4, d := opd k.dc k.d, a := opd k.ac k.a, b := opd k.bc k.b, pitch := w3,
             nmac := w2.extractLsb' 16 4, sseg := ss, mfmt := mf, sfmt := sf }
    | _, _, _ => none
  else none

def Common.launch (k : Common) (w2 w3 : W32) : Option LaunchOps := 
  if Common.plainE k && w2 == 0 && w3 == 0 then
    some { h := Common.hdr k .w4, d := opd k.dc k.d, a := opd k.ac k.a, b := opd k.bc k.b }
  else none

/-- BR4 (R170, R171). -/
def Common.br4 (k : Common) (w2 w3 : W32) : Option Br4Ops :=
  if k.gp == 0 && !k.gn && k.dc == 0 && k.ac == 0 && k.bc == 0 && k.b == 0 && k.fmt == 0 && k.x10 == 0 then
    some { y := k.y, p0 := k.d.extractLsb' 0 4, p1 := k.d.extractLsb' 4 4, p2 := k.a.extractLsb' 0 4,
           p3 := k.a.extractLsb' 4 4, neg := k.sub, disp := w3 ++ w2 }
  else none

/-! ## The opcode map (R98) -/

/-- The instructions whose words are F64, F96R, F96I or F128I. -/
def opsInstr (code : Nat) (o : Ops) : Option Instr :=
  match code with
  | 0x01 => some (.nop o) | 0x02 => some (.jmp o) | 0x03 => some (.bra o) | 0x04 => some (.br o)
  | 0x06 => some (.join o) | 0x07 => some (.joinw o) | 0x08 => some (.call o) | 0x09 => some (.calli o)
  | 0x0A => some (.ret o) | 0x0B => some (.fork o) | 0x0C => some (.exit o) | 0x0D => some (.trap o)
  | 0x0E => some (.brk o) | 0x10 => some (.xacq o) | 0x11 => some (.xrel o) | 0x20 => some (.add o)
  | 0x21 => some (.sub o) | 0x22 => some (.mul o) | 0x23 => some (.mulh o) | 0x24 => some (.mad o)
  | 0x25 => some (.div o) | 0x26 => some (.rem o) | 0x27 => some (.and o) | 0x28 => some (.or o)
  | 0x29 => some (.xor o) | 0x2A => some (.not o) | 0x2B => some (.shl o) | 0x2C => some (.shr o)
  | 0x2D => some (.sar o) | 0x2E => some (.min o) | 0x2F => some (.max o) | 0x30 => some (.abs o)
  | 0x31 => some (.neg o) | 0x32 => some (.cmp o) | 0x33 => some (.sel o) | 0x34 => some (.popc o)
  | 0x35 => some (.clz o) | 0x36 => some (.brev o) | 0x37 => some (.bfx o) | 0x38 => some (.bfi o)
  | 0x39 => some (.mov o) | 0x3A => some (.li o) | 0x3B => some (.lop3 o) | 0x40 => some (.prom o)
  | 0x41 => some (.demv o) | 0x42 => some (.dema o) | 0x43 => some (.base o) | 0x44 => some (.strd o)
  | 0x45 => some (.sread o) | 0x46 => some (.swrite o) | 0x47 => some (.segld o) | 0x50 => some (.fadd o)
  | 0x51 => some (.fsub o) | 0x52 => some (.fmul o) | 0x53 => some (.fma o) | 0x54 => some (.fmin o)
  | 0x55 => some (.fmax o) | 0x56 => some (.fabs o) | 0x57 => some (.fcmp o) | 0x58 => some (.fclass o)
  | 0x59 => some (.frnd o) | 0x5A => some (.cvt o) | 0x5B => some (.rcp o) | 0x5C => some (.rsq o)
  | 0x5D => some (.sqrt o) | 0x5E => some (.ex2 o) | 0x5F => some (.lg2 o) | 0x60 => some (.sin o)
  | 0x61 => some (.cos o) | 0x62 => some (.tanh o) | 0x64 => some (.dot2 o) | 0x65 => some (.sad o)
  | 0x66 => some (.avg o) | 0x67 => some (.pack o) | 0x68 => some (.unpk o) | 0x69 => some (.prmt o)
  | 0x6A => some (.dot4 o) | 0x70 => some (.shuf o) | 0x71 => some (.red o) | 0x72 => some (.scan o)
  | 0x73 => some (.vote o) | 0x74 => some (.ballot o) | 0x76 => some (.plog o) | 0x77 => some (.pnot o)
  | 0x78 => some (.pmov o) | 0x79 => some (.pcnt o) | 0x86 => some (.fence o) | 0x8E => some (.hwait o)
  | 0x8F => some (.htest o) | 0x90 => some (.hcancel o) | 0x91 => some (.hmov o) | 0x92 => some (.hadopt o)
  | 0xA2 => some (.kzero o) | 0xA3 => some (.kread o) | 0xA4 => some (.kwrite o) | 0xA6 => some (.kfree o)
  | 0xA7 => some (.kstat o) | 0xB4 => some (.twait o) | 0xB5 => some (.flagr o) | 0xB6 => some (.flagc o)
  | 0xB7 => some (.flaga o) | 0xC1 => some (.sysc o) | 0xC6 => some (.tret o)
  | 0xB0 =>
    match o.sub.toNat with
    | 0 => some (.barArrive o) | 1 => some (.barWait o) | 2 => some (.barSync o) | 3 => some (.barQuery o)
    | _ => none
  | _ => none

/-- The instructions whose words are F96M or F128M. -/
def memInstr (code : Nat) (o : MemOps) : Option Instr :=
  match code with
  | 0x80 => some (.ld o) | 0x81 => some (.st o) | 0x82 => some (.ldsx o) | 0x83 => some (.stsx o)
  | 0x84 => some (.atom o) | 0x85 => some (.acc o) | 0x87 => some (.pref o) | 0x88 => some (.drain o)
  | 0x89 => some (.breg o) | 0x8A => some (.bfree o) | 0xA1 => some (.ktask o) | 0xA5 => some (.kstore o)
  | 0xB1 => some (.sigadd o) | 0xB2 => some (.sigwait o) | 0xB3 => some (.ctwait o) | 0xC2 => some (.savek o)
  | 0xC3 => some (.restk o) | 0xC4 => some (.rddiv o) | 0xC5 => some (.wrdiv o)
  | _ => none

/-- The layout of the later words of an opcode. -/
inductive Form where
  | ops | mem | cpy | kload | launch | br4 | rep | unassigned
deriving DecidableEq, Repr

/-- Is the code one of the codes of R98? (R99: the others trap ILLEGAL_OP.) -/
def formOf (c : Nat) : Form :=
  if c = 0x05 then .br4
  else if c = 0x0F then .rep
  else if c = 0xA0 then .kload
  else if c = 0xC0 then .launch
  else if 0x8B ≤ c ∧ c ≤ 0x8D then .cpy
  else if (0x80 ≤ c ∧ c ≤ 0x85) ∨ (0x87 ≤ c ∧ c ≤ 0x8A) ∨ c = 0xA1 ∨ c = 0xA5 ∨ (0xB1 ≤ c ∧ c ≤ 0xB3) ∨
      (0xC2 ≤ c ∧ c ≤ 0xC5) then .mem
  else if c = 0 ∨ (0x12 ≤ c ∧ c ≤ 0x1F) ∨ (0x3C ≤ c ∧ c ≤ 0x3F) ∨ (0x48 ≤ c ∧ c ≤ 0x4F) ∨ c = 0x63 ∨
      (0x6B ≤ c ∧ c ≤ 0x6F) ∨ c = 0x75 ∨ (0x7A ≤ c ∧ c ≤ 0x7F) ∨ (0x93 ≤ c ∧ c ≤ 0x9F) ∨ (0xA8 ≤ c ∧ c ≤ 0xAF) ∨
      (0xB8 ≤ c ∧ c ≤ 0xBF) ∨ 0xC7 ≤ c then .unassigned
  else .ops

/-- CPY, CPY2D or PUT. -/
def cpyInstr (code : Nat) (o : CpyOps) : Option Instr :=
  match code with
  | 0x8B => some (.cpy o) | 0x8C => some (.cpy2d o) | 0x8D => some (.put o)
  | _ => none

/-- Step 3 of R101 for any instruction but REP. -/
def instrOf (k : Common) (l : Len) (w2 w3 : W32) : Option Instr :=
  match (match formOf k.opc.toNat with
         | .ops => (Common.ops k l w2 w3).bind (opsInstr k.opc.toNat)
         | .mem => (Common.mem k l w2 w3).bind (memInstr k.opc.toNat)
         | .cpy => if l = .w4 then (Common.cpy k w2 w3).bind (cpyInstr k.opc.toNat) else none
         | .kload => if l = .w4 then (Common.kload k w2 w3).map .kload else none
         | .launch => if l = .w4 then (Common.launch k w2 w3).map .launch else none
         | .br4 => if l = .w4 then (Common.br4 k w2 w3).map .br4 else none
         | .rep => none
         | .unassigned => none) with
  | some i => if Instr.legal i then some i else none
  | none => none

/-- Steps 1 and 2 of R101 (R71, R72): the length, and the fetch block; `off` is the address of the
first word modulo 32. -/
def frameOf (off : Nat) (k : Common) : Except Trap Len :=
  match Len.ofCode k.len with
  | none => .error .illegalOp
  | some l => if off % 4 ≠ 0 ∨ 32 < off + 4 * Len.words l then .error .illegalSpan else .ok l

/-- The body of a REP (R96), from its own words. -/
def bodyOf (k : Common) (l : Len) (w2 w3 : W32) : Option Body :=
  match formOf k.opc.toNat with
  | .ops => (Common.ops k l w2 w3).map (Body.reg k.opc)
  | .mem => (Common.mem k l w2 w3).map (Body.mem k.opc)
  | _ => none

/-- REP with its body: R95, R96, R102. -/
def decodeRep (off : Nat) (k : Common) (l : Len) (w1 b0 b1 b2 b3 : W32) : Except Trap Instr :=
  if l ≠ .w2 ∨ k.gp ≠ 0 ∨ k.gn ∨ w1.extractLsb' 16 10 ≠ 0 then .error .illegalOp
  else
    let kb := Common.ofWords b0 b1
    match frameOf ((off + 8) % 32) kb with
    | .error t => .error t
    | .ok lb =>
      match bodyOf kb lb b2 b3 with
      | none => .error .illegalOp
      | some body =>
        let o : RepOps := { y := k.y, cnt := w1.extractLsb' 26 6, cstep := w1.extractLsb' 8 8,
                            bstep := w1.extractLsb' 0 8, astep := k.a, dstep := k.d, body := body }
        if Instr.legal (.rep o) then .ok (.rep o) else .error .illegalOp

/-- The decoder: the words from PC on (missing ones read as zero), at address `off` modulo 32. A word
whose LEN is 0b00 or whose opcode is unassigned is the row UNASSIGNED_OPCODE of the table. -/
def decode (off : Nat) (ws : List W32) : Except Trap Instr :=
  let w0 := ws.getD 0 0
  let k := Common.ofWords w0 (ws.getD 1 0)
  if k.len = 0 then .ok (.unassignedOpcode w0)
  else
    match frameOf off k with
    | .error t => .error t
    | .ok l =>
      match formOf k.opc.toNat with
      | .unassigned => .ok (.unassignedOpcode w0)
      | .rep => decodeRep off k l (ws.getD 1 0) (ws.getD 2 0) (ws.getD 3 0) (ws.getD 4 0) (ws.getD 5 0)
      | _ =>
        match instrOf k l (ws.getD 2 0) (ws.getD 3 0) with
        | some i => .ok i
        | none => .error .illegalOp

/-- Bytes to words, little-endian (R3). -/
def wordsOfBytes : List Byte → List W32
  | b0 :: b1 :: b2 :: b3 :: t => (b3 ++ b2 ++ b1 ++ b0) :: wordsOfBytes t
  | _ => []

def bytesOfWord (w : W32) : List Byte :=
  [w.extractLsb' 0 8, w.extractLsb' 8 8, w.extractLsb' 16 8, w.extractLsb' 24 8]

def bytesOfWords (ws : List W32) : List Byte := ws.flatMap bytesOfWord

/-- The words of the bytes fetched; a last word that a misaligned PC cuts off at the end of its block has its first bytes,
LEN among them (R101 steps 1 and 2). -/
def fetchWords (bs : List Byte) : List W32 := wordsOfBytes (bs ++ [0, 0, 0])

/-- The decoder on bytes. -/
def decodeBytes (off : Nat) (bs : List Byte) : Except Trap Instr := decode off (fetchWords bs)

/-- The words of an instruction whose bits are `w`, bit 0 the lowest bit of the first word; the longest
instruction is a REP with a body of four words. -/
def tableWords (nbits w : Nat) : List W32 :=
  (List.range 6).map fun i => BitVec.ofNat 32 ((w % 2 ^ nbits) >>> (32 * i))

/-- The instruction the decoder reads from bits numbered as spec/opcode_table.json numbers them. -/
def decodeTableWord (nbits w : Nat) : Option Instr :=
  match decodeBytes 0 (bytesOfWords (tableWords nbits w)) with
  | .ok i => some i
  | .error _ => none

/-! ## The encoder -/

/-- BC, B and the high bits of an immediate B. -/
def SrcB.enc (s : SrcB) (x10 : BitVec 10) : BitVec 2 × BitVec 8 × BitVec 10 :=
  match s with
  | .reg o => (Cls.code o.cls, o.n, x10)
  | .imm (.i18 v) => (3, v.extractLsb' 0 8, v.extractLsb' 8 10)
  | .imm _ => (3, 0, x10)

def commonOf (code : Nat) (h : Hdr) (fmt : Fmt) (sub : BitVec 4) (x10 : BitVec 10) (d a : Opd) (b : SrcB) : Common :=
  let e := SrcB.enc b x10
  { len := Len.code h.len, opc := BitVec.ofNat 8 code, gp := h.gp, gn := h.gn, y := h.y, d := d.n, a := a.n, b := e.2.1
    dc := Cls.code d.cls, ac := Cls.code a.cls, bc := e.1, sub := sub, fmt := Fmt.bits fmt, x10 := e.2.2 }

/-- Word 2 of F96R (R78). -/
def word2R (o : Ops) : W32 :=
  Rnd.code o.rnd ++ XBar.bits o.xb ++ XBar.bits o.xa ++ Cls.code o.c.cls ++ o.c.n

def encOps (code : Nat) (o : Ops) : List W32 :=
  let k := commonOf code o.h o.fmt o.sub o.x10 o.d o.a o.b
  [Common.word0 k, Common.word1 k] ++
    (match o.h.len, o.b with
     | .w2, _ => []
     | .w3, .imm (.i32 v) => [v]
     | .w3, _ => [word2R o]
     | .w4, .imm (.i64 v) => [v.extractLsb' 0 32, v.extractLsb' 32 32]
     | .w4, _ => [0, 0])

/-- The memory word (R80). -/
def memWord (o : MemOps) : W32 :=
  BitVec.ofBool o.nt ++ Ord.code o.ord ++ o.tol ++ Seg.code o.seg ++ o.disp

def encMem (code : Nat) (o : MemOps) : List W32 :=
  let k := commonOf code o.h o.fmt o.sub o.x10 o.d o.a o.b
  [Common.word0 k, Common.word1 k, memWord o] ++ (if o.h.len = .w4 then [o.w3] else [])

def encCpy (code : Nat) (o : CpyOps) : List W32 :=
  let k := { commonOf code o.h .raw 0 0 o.d o.a (.reg o.b) with bc := Cls.code o.b.cls }
  [Common.word0 k, Common.word1 k,
   (0 : BitVec 15) ++ BitVec.ofBool o.nt ++ Seg.code o.dseg ++ Seg.code o.sseg ++ Cls.code o.c.cls ++ o.c.n,
   BitVec.ofBool o.lc ++ (0 : BitVec 12) ++ o.lcoff]

def encKload (o : KloadOps) : List W32 :=
  let k := commonOf 0xA0 o.h .raw 0 0 o.d o.a (.reg o.b)
  [Common.word0 k, Common.word1 k,
   (0 : BitVec 12) ++ o.nmac ++ (0 : BitVec 3) ++ Seg.code o.sseg ++ SxFmt.code o.mfmt ++ SrcFmt.code o.sfmt ++
     (0 : BitVec 4),
   o.pitch]

def encLaunch (o : LaunchOps) : List W32 :=
  let k := commonOf 0xC0 o.h .raw 0 0 o.d o.a (.reg o.b)
  [Common.word0 k, Common.word1 k, 0, 0]

def encBr4 (o : Br4Ops) : List W32 :=
  let k : Common := { len := 3, opc := 5, gp := 0, gn := false, y := o.y, d := o.p1 ++ o.p0, a := o.p3 ++ o.p2, b := 0,
                      dc := 0, ac := 0, bc := 0, sub := o.neg, fmt := 0, x10 := 0 }
  [Common.word0 k, Common.word1 k, o.disp.extractLsb' 0 32, o.disp.extractLsb' 32 32]

def encBody : Body → List W32
  | .reg code o => encOps code.toNat o
  | .mem code o => encMem code.toNat o

def encRep (o : RepOps) : List W32 :=
  [o.astep ++ o.dstep ++ BitVec.ofBool o.y ++ (0 : BitVec 5) ++ (0x0F : BitVec 8) ++ (1 : BitVec 2),
   o.cnt ++ (0 : BitVec 10) ++ o.cstep ++ o.bstep] ++ encBody o.body

/-- The words of a well-formed instruction; the steps of other agents have none. -/
def encode : Instr → List W32
  | .nop o => encOps 0x01 o | .jmp o => encOps 0x02 o | .bra o => encOps 0x03 o | .br o => encOps 0x04 o
  | .join o => encOps 0x06 o | .joinw o => encOps 0x07 o | .call o => encOps 0x08 o | .calli o => encOps 0x09 o
  | .ret o => encOps 0x0A o | .fork o => encOps 0x0B o | .exit o => encOps 0x0C o | .trap o => encOps 0x0D o
  | .brk o => encOps 0x0E o | .xacq o => encOps 0x10 o | .xrel o => encOps 0x11 o | .add o => encOps 0x20 o
  | .sub o => encOps 0x21 o | .mul o => encOps 0x22 o | .mulh o => encOps 0x23 o | .mad o => encOps 0x24 o
  | .div o => encOps 0x25 o | .rem o => encOps 0x26 o | .and o => encOps 0x27 o | .or o => encOps 0x28 o
  | .xor o => encOps 0x29 o | .not o => encOps 0x2A o | .shl o => encOps 0x2B o | .shr o => encOps 0x2C o
  | .sar o => encOps 0x2D o | .min o => encOps 0x2E o | .max o => encOps 0x2F o | .abs o => encOps 0x30 o
  | .neg o => encOps 0x31 o | .cmp o => encOps 0x32 o | .sel o => encOps 0x33 o | .popc o => encOps 0x34 o
  | .clz o => encOps 0x35 o | .brev o => encOps 0x36 o | .bfx o => encOps 0x37 o | .bfi o => encOps 0x38 o
  | .mov o => encOps 0x39 o | .li o => encOps 0x3A o | .lop3 o => encOps 0x3B o | .prom o => encOps 0x40 o
  | .demv o => encOps 0x41 o | .dema o => encOps 0x42 o | .base o => encOps 0x43 o | .strd o => encOps 0x44 o
  | .sread o => encOps 0x45 o | .swrite o => encOps 0x46 o | .segld o => encOps 0x47 o | .fadd o => encOps 0x50 o
  | .fsub o => encOps 0x51 o | .fmul o => encOps 0x52 o | .fma o => encOps 0x53 o | .fmin o => encOps 0x54 o
  | .fmax o => encOps 0x55 o | .fabs o => encOps 0x56 o | .fcmp o => encOps 0x57 o | .fclass o => encOps 0x58 o
  | .frnd o => encOps 0x59 o | .cvt o => encOps 0x5A o | .rcp o => encOps 0x5B o | .rsq o => encOps 0x5C o
  | .sqrt o => encOps 0x5D o | .ex2 o => encOps 0x5E o | .lg2 o => encOps 0x5F o | .sin o => encOps 0x60 o
  | .cos o => encOps 0x61 o | .tanh o => encOps 0x62 o | .dot2 o => encOps 0x64 o | .sad o => encOps 0x65 o
  | .avg o => encOps 0x66 o | .pack o => encOps 0x67 o | .unpk o => encOps 0x68 o | .prmt o => encOps 0x69 o
  | .dot4 o => encOps 0x6A o | .shuf o => encOps 0x70 o | .red o => encOps 0x71 o | .scan o => encOps 0x72 o
  | .vote o => encOps 0x73 o | .ballot o => encOps 0x74 o | .plog o => encOps 0x76 o | .pnot o => encOps 0x77 o
  | .pmov o => encOps 0x78 o | .pcnt o => encOps 0x79 o | .fence o => encOps 0x86 o | .hwait o => encOps 0x8E o
  | .htest o => encOps 0x8F o | .hcancel o => encOps 0x90 o | .hmov o => encOps 0x91 o | .hadopt o => encOps 0x92 o
  | .kzero o => encOps 0xA2 o | .kread o => encOps 0xA3 o | .kwrite o => encOps 0xA4 o | .kfree o => encOps 0xA6 o
  | .kstat o => encOps 0xA7 o | .twait o => encOps 0xB4 o | .flagr o => encOps 0xB5 o | .flagc o => encOps 0xB6 o
  | .flaga o => encOps 0xB7 o | .sysc o => encOps 0xC1 o | .tret o => encOps 0xC6 o
  | .barArrive o => encOps 0xB0 o | .barWait o => encOps 0xB0 o | .barSync o => encOps 0xB0 o
  | .barQuery o => encOps 0xB0 o
  | .ld o => encMem 0x80 o | .st o => encMem 0x81 o | .ldsx o => encMem 0x82 o | .stsx o => encMem 0x83 o
  | .atom o => encMem 0x84 o | .acc o => encMem 0x85 o | .pref o => encMem 0x87 o | .drain o => encMem 0x88 o
  | .breg o => encMem 0x89 o | .bfree o => encMem 0x8A o | .ktask o => encMem 0xA1 o | .kstore o => encMem 0xA5 o
  | .sigadd o => encMem 0xB1 o | .sigwait o => encMem 0xB2 o | .ctwait o => encMem 0xB3 o | .savek o => encMem 0xC2 o
  | .restk o => encMem 0xC3 o | .rddiv o => encMem 0xC4 o | .wrdiv o => encMem 0xC5 o
  | .cpy o => encCpy 0x8B o | .cpy2d o => encCpy 0x8C o | .put o => encCpy 0x8D o
  | .kload o => encKload o | .launch o => encLaunch o | .br4 o => encBr4 o | .rep o => encRep o
  | .unassignedOpcode w => [w]
  | _ => []

/-- The words an instruction occupies: PC advances by four times this number; a REP is followed by its
body. -/
def Instr.words : Instr → Nat
  | .rep o => 2 + (encBody o.body).length
  | i => (encode i).length

end Sys2Proof
end

