-- ==== Sys2Proof/Config.lean ====
section
/-!
DEFINITION. What the G7 fixes for the Rinior architecture (R1, R30), and the FREE VALUES: constants
without a body, of which nothing can be proved. Each names the rule that leaves the value open.
-/
namespace Sys2Proof.Config

/-- The posy width W (R2). -/
def lanes : Nat := 64
def dieCount : Nat := 4
def coreCount : Nat := 192
def dieQuads : Nat := 12
def quadCores : Nat := 4
def bays : Nat := 4
def slots : Nat := 24
/-- The first of the two slots reserved for posies formed from records (R11). -/
def firstReserved : Nat := 22
def vfile : Nat := 2048
/-- Posy-registers of one bay pool (R13). -/
def bayPool : Nat := 512
def teamMax : Nat := 1024
def macros : Nat := 16
def accTiles : Nat := 32
def parkCap : Nat := 2048
/-- Bytes of HBM homed on one die (R21). -/
def dieBytes : Nat := 0x3000000000
/-- HBM bytes of the module (R22, R30). -/
def memBytes : Nat := 0xC000000000
def devBase : Nat := 0x1000000000000
def devEnd : Nat := 0x1000100000000
def peerBase : Nat := 0x4000000000000
def peerWindow : Nat := 0x400000000000
def peerPorts : Nat := 12
def hostBase : Nat := 0x8000000000000
def addrLimit : Nat := 0x10000000000000
/-- Bytes of one core area of the context region (R432). -/
def coreArea : Nat := 25595904
/-- Bytes of one layer area of the context region (R432). -/
def layerArea : Nat := 3198976

/-- FREE VALUE (R276): which agent moves when the list of turns is empty; applied to `turnCount`.
Log entry 2: DESIGN CHOICE. -/
opaque arbiter : Nat → Turn
/-- FREE VALUE: a word whose contents the spec calls undefined (R134, R238, R436, R441); applied to a
counter of State. Log entry 9: DESIGN CHOICE. -/
opaque freeWord : Nat → BitVec 64
/-- FREE VALUE (R44, R487): where a record lies in its team's spawn memory, in units of 64 bytes.
Log entry 17: DESIGN CHOICE. -/
opaque recPlace : Nat → Nat
/-- FREE VALUE (R194, R196): the special functions inside their error bounds, a fixed function of the
input bits. The first argument numbers the function, the second the element format. Log entry 8: DESIGN CHOICE. -/
opaque sfu : Nat → Nat → BitVec 32 → BitVec 32
/-- FREE VALUE (R88): the binary32 pattern of a 64-bit immediate under FMT F32, which the table of R88 does not give.
Log entry 35: DESIGN CHOICE. -/
opaque f32OfImm64 : BitVec 64 → BitVec 32
/-- FREE VALUE (R449): what a peer's memory returns; applied to a counter of State and the address.
Log entry 84: DESIGN CHOICE. -/
opaque peerByte : Nat → Nat → BitVec 8
/-- FREE VALUE (R453): whether the signature of the n-th firmware image offered to the boot ROM verifies under the public
key that comes with it. Log entry 7: DESIGN CHOICE. -/
opaque signatureVerifies : Nat → Bool
/-- FREE VALUE (R453): the SHA-384 digest of that public key. -/
opaque keyDigest : Nat → BitVec 384
/-- FREE VALUE (R453): the key digest fused into the X-die. -/
opaque fusedKeyDigest : BitVec 384
/-- FREE VALUE (R454): the SHA-384 digest of the n-th image. -/
opaque imageDigest : Nat → BitVec 384
/-- FREE VALUE (R454): the fused part identifier as report bytes. -/
opaque partId : List (BitVec 8)
/-- Does the boot ROM accept the n-th image (R453)? -/
def firmwareVerifies (n : Nat) : Bool := signatureVerifies n && keyDigest n == fusedKeyDigest
/-- FREE VALUE (R454): the signature of a report by the part's private key. -/
opaque signature : List (BitVec 8) → List (BitVec 8)

end Sys2Proof.Config
end

