-- ==== Sys2Proof/Machine/Num.lean ====
section
/-!
DEFINITION. Numbers: the floating formats of R106, exact values as fractions, the rounding modes of R111
and R112, the range rule of R114, flushing (R110) and conversions (R121). Every arithmetic instruction
forms an exact value and narrows it here once.
-/
namespace Sys2Proof.Machine

/-! ## Flags (R115) -/

def flagSat : BitVec 6 := 1
def flagInv : BitVec 6 := 2
def flagDz : BitVec 6 := 4
def flagOvf : BitVec 6 := 8
def flagUnf : BitVec 6 := 16
def flagMerr : BitVec 6 := 32

/-- `f` if the condition holds. -/
def flagIf (c : Bool) (f : BitVec 6) : BitVec 6 := if c then f else 0

/-! ## Formats (R106) -/

inductive FF where
  | f32 | f16 | bf16 | e4m3 | e5m2
deriving DecidableEq, Repr, Inhabited

/-- Fraction bits. -/
def FF.p : FF → Nat | .f32 => 23 | .f16 => 10 | .bf16 => 7 | .e4m3 => 3 | .e5m2 => 2
def FF.expBits : FF → Nat | .f32 => 8 | .f16 => 5 | .bf16 => 8 | .e4m3 => 4 | .e5m2 => 5
def FF.bias : FF → Nat | .f32 => 127 | .f16 => 15 | .bf16 => 127 | .e4m3 => 7 | .e5m2 => 15
def FF.hasInf : FF → Bool | .e4m3 => false | _ => true
def FF.bits (F : FF) : Nat := 1 + F.expBits + F.p
/-- Exponent of the smallest normal value. -/
def FF.emin (F : FF) : Int := 1 - (F.bias : Int)
/-- Pattern of the largest finite value. -/
def FF.maxPat : FF → Nat | .f32 => 0x7F7FFFFF | .f16 => 0x7BFF | .bf16 => 0x7F7F | .e4m3 => 0x7E | .e5m2 => 0x7B
def FF.infPat : FF → Nat | .f32 => 0x7F800000 | .f16 => 0x7C00 | .bf16 => 0x7F80 | .e4m3 => 0x7E | .e5m2 => 0x7C
def FF.nanPat : FF → Nat | .f32 => 0x7FC00000 | .f16 => 0x7E00 | .bf16 => 0x7FC0 | .e4m3 => 0x7F | .e5m2 => 0x7E
def FF.signPat (F : FF) (neg : Bool) : Nat := if neg then 2 ^ (F.expBits + F.p) else 0

/-- The element format of a floating FMT code. -/
def FF.ofFmt : Fmt → Option FF
  | .f32 => some .f32 | .f16x2 => some .f16 | .bf16x2 => some .bf16 | .e4m3x4 => some .e4m3 | .e5m2x4 => some .e5m2
  | _ => none

/-! ## Exact values -/

/-- A non-negative fraction. -/
structure Mag where
  n : Nat
  d : Nat
deriving DecidableEq, Repr, Inhabited

/-- 2^e times a natural number. -/
def Mag.ofScaled (m : Nat) (e : Int) : Mag := if 0 ≤ e then ⟨m * 2 ^ e.toNat, 1⟩ else ⟨m, 2 ^ (-e).toNat⟩
def Mag.mul (x y : Mag) : Mag := ⟨x.n * y.n, x.d * y.d⟩
def Mag.div (x y : Mag) : Mag := ⟨x.n * y.d, x.d * y.n⟩
def Mag.lt (x y : Mag) : Bool := decide (x.n * y.d < y.n * x.d)
def Mag.le (x y : Mag) : Bool := decide (x.n * y.d ≤ y.n * x.d)
def Mag.eq (x y : Mag) : Bool := decide (x.n * y.d = y.n * x.d)
def Mag.add (x y : Mag) : Mag := if x.d = y.d then ⟨x.n + y.n, x.d⟩ else ⟨x.n * y.d + y.n * x.d, x.d * y.d⟩
/-- The distance of two magnitudes. -/
def Mag.dist (x y : Mag) : Mag :=
  let a := x.n * y.d
  let b := y.n * x.d
  ⟨if a ≤ b then b - a else a - b, x.d * y.d⟩

/-- floor(log2 (n/d)) for n, d > 0. -/
def Mag.log2 (x : Mag) : Int :=
  let e : Int := (Nat.log2 x.n : Int) - (Nat.log2 x.d : Int)
  -- e or e - 1
  if (if 0 ≤ e then decide (x.d * 2 ^ e.toNat ≤ x.n) else decide (x.d ≤ x.n * 2 ^ (-e).toNat)) then e else e - 1

/-- A floating value: NaN, an infinity, or a signed fraction (±0 included). -/
inductive FVal where
  | nan
  | inf (neg : Bool)
  | fin (neg : Bool) (m : Mag)
deriving DecidableEq, Repr, Inhabited

/-- The value of a pattern (R106, R108). -/
def FF.decode (F : FF) (pat : Nat) : FVal :=
  let f := pat % 2 ^ F.p
  let e := pat / 2 ^ F.p % 2 ^ F.expBits
  let neg := decide (pat / 2 ^ (F.p + F.expBits) % 2 = 1)
  if e = 2 ^ F.expBits - 1 ∧ F.hasInf then (if f = 0 then .inf neg else .nan)
  else if e = 2 ^ F.expBits - 1 ∧ f = 2 ^ F.p - 1 then .nan
  else if e = 0 then .fin neg (Mag.ofScaled f (F.emin - F.p))
  else .fin neg (Mag.ofScaled (2 ^ F.p + f) ((e : Int) - F.bias - F.p))

/-- The pattern of the representable magnitude k · 2^q. -/
def FF.encodeMag (F : FF) (k : Nat) (q : Int) : Nat :=
  if k = 0 then 0
  else
    let e := (Nat.log2 k : Int) + q
    if e < F.emin then k
    else ((e + F.bias).toNat) * 2 ^ F.p + (k * 2 ^ F.p / 2 ^ Nat.log2 k - 2 ^ F.p)

def FF.subnormal (F : FF) (v : FVal) : Bool :=
  match v with
  | .fin _ m => decide (0 < m.n) && Mag.lt m (Mag.ofScaled 1 F.emin)
  | _ => false

/-- Reads a pattern, flushing a subnormal when asked (R110). -/
def FF.read (F : FF) (ftz : Bool) (pat : Nat) : FVal :=
  let v := F.decode pat
  if ftz && F.subnormal v then (match v with | .fin neg _ => .fin neg ⟨0, 1⟩ | v => v) else v

/-! ## Rounding (R111, R112) -/

inductive RMode where
  | rne | rz | rup | rdn | stoch
deriving DecidableEq, Repr, Inhabited

/-- One step of a lane's LFSR (R112). -/
def lfsrStep (s : W32) : W32 := if s.extractLsb' 0 1 = 1 then (s >>> 1) ^^^ 0x80200003 else s >>> 1
/-- n steps. -/
def lfsrSteps : Nat → W32 → W32 | 0, s => s | n + 1, s => lfsrSteps n (lfsrStep s)

/-- k or k + 1 for n/d = k + r/d (magnitudes; the sign decides RUP and RDN), and the LFSR after. -/
def roundInt (mode : RMode) (lfsr : W32) (neg : Bool) (n d : Nat) : Nat × W32 :=
  let k := n / d
  let r := n % d
  if r = 0 then (k, lfsr)
  else match mode with
  | .rne => (if 2 * r < d then k else if d < 2 * r then k + 1 else if k % 2 = 0 then k else k + 1, lfsr)
  | .rz => (k, lfsr)
  | .rup => (if neg then k else k + 1, lfsr)
  | .rdn => (if neg then k + 1 else k, lfsr)
  | .stoch =>
    let s := lfsrSteps 16 lfsr
    (if (s.extractLsb' 0 16).toNat < 2 ^ 16 * r / d then k + 1 else k, s)

/-- The quotient of a magnitude by 2^q, as a fraction. -/
def Mag.scale (x : Mag) (q : Int) : Mag := if 0 ≤ q then ⟨x.n, x.d * 2 ^ q.toNat⟩ else ⟨x.n * 2 ^ (-q).toNat, x.d⟩

/-- A narrowed value: the pattern, the flags, the LFSR. -/
structure Rounded where
  pat : Nat
  flags : BitVec 6 := 0
  lfsr : W32 := 0
deriving DecidableEq, Repr, Inhabited

/-- How a result is narrowed: mode, OVFSAT, FTZ. -/
structure Ctl where
  mode : RMode := .rne
  ovfsat : Bool := false
  ftz : Bool := false
deriving DecidableEq, Repr, Inhabited

/-- Does the mode round a value of this sign toward zero? -/
def RMode.towardZero (m : RMode) (neg : Bool) : Bool :=
  match m with | .rz => true | .rup => neg | .rdn => !neg | _ => false

/-- round, then the range rule R114, then R110; UNF by R115. -/
def FF.narrow (F : FF) (c : Ctl) (lfsr : W32) (neg : Bool) (x : Mag) : Rounded :=
  if x.n = 0 then ⟨F.signPat neg, 0, lfsr⟩
  else
    let e := Mag.log2 x
    let q := (if e < F.emin then F.emin else e) - F.p
    let y := Mag.scale x q
    let (k, l) := roundInt c.mode lfsr neg y.n y.d
    let v := Mag.ofScaled k q
    match F.decode F.maxPat with
    | .fin _ mx =>
      if Mag.lt mx v then
        if F.hasInf && !c.ovfsat then
          ⟨F.signPat neg + (if RMode.towardZero c.mode neg then F.maxPat else F.infPat), flagOvf, l⟩
        else ⟨F.signPat neg + F.maxPat, flagOvf ||| flagSat, l⟩
      else
        let small := Mag.lt v (Mag.ofScaled 1 F.emin)
        let inexact := decide (y.n % y.d ≠ 0)
        if c.ftz && small && decide (0 < k) then ⟨F.signPat neg, flagUnf, l⟩
        else ⟨F.signPat neg + F.encodeMag k q, flagIf (small && inexact) flagUnf, l⟩
    | _ => ⟨F.nanPat, 0, l⟩

/-- A value into a floating format (R121, R114). -/
def FF.put (F : FF) (c : Ctl) (lfsr : W32) (v : FVal) : Rounded :=
  match v with
  | .nan => ⟨F.nanPat, 0, lfsr⟩
  | .inf neg => if F.hasInf then ⟨F.signPat neg + F.infPat, 0, lfsr⟩ else ⟨F.signPat neg + F.maxPat, flagSat, lfsr⟩
  | .fin neg m => F.narrow c lfsr neg m

/-! ## Sums and products (R186) -/

/-- The product; true when 0 · ∞ occurred. -/
def FVal.mul (x y : FVal) : FVal × Bool :=
  match x, y with
  | .nan, _ | _, .nan => (.nan, false)
  | .inf a, .inf b => (.inf (a ^^ b), false)
  | .inf a, .fin b m => if m.n = 0 then (.nan, true) else (.inf (a ^^ b), false)
  | .fin a m, .inf b => if m.n = 0 then (.nan, true) else (.inf (a ^^ b), false)
  | .fin a m, .fin b n => (.fin (a ^^ b) (Mag.mul m n), false)

/-- The exact sum; a zero from opposite signs is −0 only under RDN. True when ∞ − ∞ occurred. -/
def FVal.add (mode : RMode) (x y : FVal) : FVal × Bool :=
  match x, y with
  | .nan, _ | _, .nan => (.nan, false)
  | .inf a, .inf b => if a = b then (.inf a, false) else (.nan, true)
  | .inf a, .fin _ _ => (.inf a, false)
  | .fin _ _, .inf b => (.inf b, false)
  | .fin a m, .fin b n =>
    if a = b then (.fin a (Mag.add m n), false)
    else if Mag.eq m n then (.fin (mode == .rdn) ⟨0, 1⟩, false)
    else if Mag.lt m n then (.fin b (Mag.dist m n), false) else (.fin a (Mag.dist m n), false)

def FVal.neg (x : FVal) : FVal := match x with | .nan => .nan | .inf a => .inf !a | .fin a m => .fin (!a) m

/-- Σ x_i · y_i + z exactly, with true when 0 · ∞ occurred or two terms are opposite infinities (R186, R198):
whatever the order of the elements, and beside a NaN too, which R198 leaves open. Log entry 95: DEDUCED. -/
def FVal.dot (mode : RMode) (ps : List (FVal × FVal)) (z : FVal) : FVal × Bool :=
  let ms := ps.map fun x => FVal.mul x.1 x.2
  let terms := z :: ms.map (·.1)
  (ms.foldl (fun s m => (FVal.add mode m.1 s).1) z,
    ms.any (·.2) || (terms.contains (.inf true) && terms.contains (.inf false)))

/-- Three-way comparison of two values that are not NaN: −1, 0 or 1; −0 equals +0. -/
def FVal.cmp (x y : FVal) : Int :=
  match x, y with
  | .inf a, .inf b => if a = b then 0 else if a then -1 else 1
  | .inf a, _ => if a then -1 else 1
  | _, .inf b => if b then 1 else -1
  | .fin a m, .fin b n =>
    if m.n = 0 ∧ n.n = 0 then 0
    else if m.n = 0 then (if b then 1 else -1)
    else if n.n = 0 then (if a then -1 else 1)
    else if a ≠ b then (if a then -1 else 1)
    else if Mag.eq m n then 0
    else if Mag.lt m n then (if a then 1 else -1) else (if a then -1 else 1)
  | _, _ => 0

def FVal.isNan (x : FVal) : Bool := match x with | .nan => true | _ => false
def FVal.isNeg (x : FVal) : Bool := match x with | .nan => false | .inf a => a | .fin a _ => a

/-- FMIN (R187), −0 below +0; `max` for FMAX. -/
def FVal.minMax (mx : Bool) (x y : FVal) : FVal :=
  match x, y with
  | .nan, y => y
  | x, .nan => x
  | x, y =>
    let c := FVal.cmp x y
    let less := if c = 0 then FVal.isNeg x && !FVal.isNeg y else decide (c < 0)
    if mx then (if less then y else x) else (if less || decide (c = 0) && FVal.isNeg x = FVal.isNeg y then x else y)

/-! ## Integers (R104, R105, R121) -/

/-- The w-bit pattern of an integer, modulo 2^w. -/
def wrapInt (w : Nat) (v : Int) : Nat := (v % (2 ^ w : Int)).toNat
/-- The integer of a w-bit pattern. -/
def readInt (w : Nat) (signed : Bool) (pat : Nat) : Int :=
  if signed && decide (2 ^ (w - 1) ≤ pat % 2 ^ w) then (pat % 2 ^ w : Nat) - (2 ^ w : Int) else ((pat % 2 ^ w : Nat) : Int)
def intMin (w : Nat) (signed : Bool) : Int := if signed then -(2 ^ (w - 1) : Int) else 0
def intMax (w : Nat) (signed : Bool) : Int := if signed then 2 ^ (w - 1) - 1 else 2 ^ w - 1
/-- sat(): the clamped value, and SAT when it clamps. -/
def satInt (w : Nat) (signed : Bool) (v : Int) : Int × BitVec 6 :=
  if v < intMin w signed then (intMin w signed, flagSat)
  else if intMax w signed < v then (intMax w signed, flagSat) else (v, 0)

/-- A floating value into an integer format (R121). A nonzero value that rounds to 0 sets UNF, whose row in R115 excepts no
format. Log entry 105: DEDUCED. -/
def FVal.toInt (mode : RMode) (lfsr : W32) (w : Nat) (signed : Bool) (v : FVal) : Rounded :=
  match v with
  | .nan => ⟨0, flagInv, lfsr⟩
  | .inf neg => ⟨wrapInt w (if neg then intMin w signed else intMax w signed), flagSat, lfsr⟩
  | .fin neg m =>
    let (k, l) := roundInt mode lfsr neg m.n m.d
    let r := satInt w signed (if neg then -(k : Int) else k)
    ⟨wrapInt w r.1, r.2 ||| flagIf (k == 0 && m.n != 0) flagUnf, l⟩

def FVal.ofInt (v : Int) : FVal := .fin (decide (v < 0)) ⟨v.natAbs, 1⟩

/-- One element's type: a floating or an integer format. -/
inductive Elem where
  | fl (F : FF)
  | int (w : Nat) (signed : Bool)
deriving DecidableEq, Repr, Inhabited

/-- The element type of an FMT code; RAW reads as unsigned of the width given. -/
def Fmt.elem (f : Fmt) (rawWidth : Nat) : Elem :=
  match f with
  | .raw => .int rawWidth false
  | .f32 => .fl .f32 | .f16x2 => .fl .f16 | .bf16x2 => .fl .bf16 | .e4m3x4 => .fl .e4m3 | .e5m2x4 => .fl .e5m2
  | .i16x2 => .int 16 true | .u16x2 => .int 16 false | .i8x4 => .int 8 true | .u8x4 => .int 8 false
  | .i32 => .int 32 true | .u32 => .int 32 false | .i64 => .int 64 true | .u64 => .int 64 false

/-- Elements of one register (or pair) under a format. -/
def Fmt.count (f : Fmt) : Nat :=
  match f with
  | .f16x2 | .bf16x2 | .i16x2 | .u16x2 => 2
  | .e4m3x4 | .e5m2x4 | .i8x4 | .u8x4 => 4
  | _ => 1

def Elem.bits : Elem → Nat | .fl F => F.bits | .int w _ => w

/-- A source element as an exact value. -/
def Elem.value (e : Elem) (pat : Nat) : FVal :=
  match e with | .fl F => F.decode pat | .int w sg => FVal.ofInt (readInt w sg pat)

/-- The conversion of R193. -/
def convert (c : Ctl) (src dst : Elem) (lfsr : W32) (pat : Nat) : Rounded :=
  match src, dst with
  | .int w sg, .int w' sg' =>
    let r := satInt w' sg' (readInt w sg pat)
    ⟨wrapInt w' r.1, r.2, lfsr⟩
  | s, .int w sg => (s.value pat).toInt c.mode lfsr w sg
  | s, .fl F => F.put { c with ftz := false } lfsr (s.value pat)

/-- Element i of a value under elements of b bits. -/
def elemAt (b : Nat) (v : Nat) (i : Nat) : Nat := v / 2 ^ (b * i) % 2 ^ b

/-- Elements back to a word. -/
def packElems (b : Nat) : List Nat → Nat
  | [] => 0
  | x :: t => x % 2 ^ b + 2 ^ b * packElems b t

/-! ## Classes, rounding to integers (R190, R191) -/

/-- The bit of the class of a pattern (R190). -/
def FF.classBit (F : FF) (pat : Nat) : Nat :=
  match F.decode pat with
  | .nan => 8
  | .inf neg => if neg then 0 else 7
  | .fin neg m =>
    if m.n = 0 then (if neg then 3 else 4)
    else if F.subnormal (.fin neg m) then (if neg then 2 else 5)
    else if neg then 1 else 6

/-- FRND (R191). -/
def FF.toIntegral (F : FF) (ftz : Bool) (mode : RMode) (lfsr : W32) (pat : Nat) : Rounded :=
  match F.read ftz pat with
  | .nan => ⟨F.nanPat, 0, lfsr⟩
  | .inf neg => ⟨F.signPat neg + F.infPat, 0, lfsr⟩
  | .fin neg m =>
    let (k, l) := roundInt mode lfsr neg m.n m.d
    ⟨(F.narrow {} 0 neg ⟨k, 1⟩).pat, 0, l⟩

/-! ## Exact sums of binary32 values (R297) -/

/-- The exact value of a pattern. Pools and sums of grants are exact: R297 rounds halves, trackers and delta sums only.
Log entry 26: DEDUCED. -/
def valF (x : W32) : FVal := FF.decode .f32 x.toNat
def addV (x y : FVal) : FVal := (FVal.add .rne x y).1
def subV (x y : FVal) : FVal := addV x y.neg
def zeroV : FVal := .fin false ⟨0, 1⟩
/-- The pattern of an exact value, rounded toward zero. -/
def rzV (x : FVal) : W32 := BitVec.ofNat 32 (FF.put .f32 { mode := .rz } 1 x).pat

end Sys2Proof.Machine
end

