-- ==== Sys2Proof/Machine/Tab.lean ====
section
/-!
DEFINITION. The one sparse table of the model: keys strictly rising and no entry equal to what an
unlisted key reads as, so that equal contents are equal data. Memory, register files, caches and
tables of the module are all of this form. Host.Cell is the entry type of a table of bytes.
-/
namespace Sys2Proof.Machine

/-- A sparse table. What an unlisted key reads as is the argument `d` of the operations. -/
abbrev Tab (α : Type) := List (Nat × α)

/-- The entry of key `k`; `d` if it is not listed. -/
def Tab.get {α : Type} (d : α) : Tab α → Nat → α
  | [], _ => d
  | (k, v) :: t, i => if i = k then v else Tab.get d t i

/-- Lists key `i` with `x`, in its place. -/
def Tab.put {α : Type} : Tab α → Nat → α → Tab α
  | [], i, x => [(i, x)]
  | (k, v) :: t, i, x => if i < k then (i, x) :: (k, v) :: t else if i = k then (k, x) :: t else (k, v) :: Tab.put t i x

/-- Sets key `i` to `x`; writing what an unlisted key reads as removes the entry. -/
def Tab.set {α : Type} [DecidableEq α] (d : α) (t : Tab α) (i : Nat) (x : α) : Tab α :=
  if x = d then t.filter fun e => e.1 != i else Tab.put t i x

/-- Every key of the table is above `lo`, the keys rise strictly, and no entry equals `d`. -/
def Tab.wfFrom {α : Type} [DecidableEq α] (d : α) : Option Nat → Tab α → Bool
  | _, [] => true
  | lo, (k, v) :: t =>
    (match lo with | none => true | some l => decide (l < k)) && decide (v ≠ d) && Tab.wfFrom d (some k) t

/-- The canonical form. -/
def Tab.wf {α : Type} [DecidableEq α] (d : α) (t : Tab α) : Bool := Tab.wfFrom d none t

/-- Sets every key of a list of pairs, in order. -/
def Tab.setAll {α : Type} [DecidableEq α] (d : α) (t : Tab α) (xs : List (Nat × α)) : Tab α :=
  xs.foldl (fun u p => Tab.set d u p.1 p.2) t

/-- The table of a list of values at the keys from `base` up. -/
def Tab.ofList {α : Type} [DecidableEq α] (d : α) (base : Nat) (xs : List α) : Tab α :=
  ((List.range xs.length).zip xs).filterMap fun x => if x.2 = d then none else some (base + x.1, x.2)

end Sys2Proof.Machine
end

