-- ==== Sys2Proof/Machine/State.lean ====
section
/-!
DEFINITION. The state of the G7: everything the spec gives the module, as plain data. Views of other
fields (free units, scoreboard, sharer sets, WSIZE, PRIVL) are functions elsewhere and not stored.
-/
namespace Sys2Proof.Machine

/-- Why a step stops the machine. It has no constructor: no step of the G7 stops the module. Traps,
parked requests, poison, refused launches and lost rails are next states (R421, R66, R315, R458). -/
inductive Fault where
deriving DecidableEq, Repr

/-- Why a step has no meaning. -/
inductive Refusal where
  /-- Raised by an arm of exec whose instruction has no meaning yet. Safe. -/
  | notModelled (mnemonic : String)
deriving DecidableEq, Repr

/-! ## Pages and requests -/

/-- Page class (R383, R290). -/
inductive PageCls where
  | so | rc | un | bv
deriving DecidableEq, Repr, Inhabited

/-- Sharing width (R383, R278); the order is CORE < QUAD < DIE < DEV < SYS. -/
inductive Width where
  | core | quad | die | dev | sys
deriving DecidableEq, Repr, Inhabited

/-- The result of a walk (R383, R385). `pa` is the physical address of the page. -/
structure Leaf where
  pa : Nat := 0
  pgsz : Nat := 0
  cls : PageCls := .rc
  width : Width := .dev
  inst : Nat := 0
  noatom : Bool := false
  mig : Bool := false
  x : Bool := false
  w : Bool := false
  r : Bool := false
deriving DecidableEq, Repr, Inhabited

/-- A cached leaf of a translation cache, tagged as R386 states. -/
structure TlbEntry where
  part : Nat
  vd : Nat
  vbase : Nat
  leaf : Leaf
deriving DecidableEq, Repr, Inhabited

/-- Why a request parks (R364 CAUSE). -/
inductive Cause where
  | notPresent | perm | migrating | order
deriving DecidableEq, Repr, Inhabited

/-- Where a request is (R275, R365, R367). -/
inductive Stage where
  /-- In the request queue. -/
  | queued
  /-- Refused by the park store with NACK at a cycle (R367). -/
  | refused (at_ : Nat)
  /-- In the park store of a die under a PSEQ (R364). -/
  | parked (die pseq : Nat)
  /-- Translated, waiting at a home or performing point for its acknowledgements or its turn. -/
  | atHome
  /-- Performed; its reply is on the way to the core. -/
  | replied
deriving DecidableEq, Repr, Inhabited

/-- What a request of a posy does. -/
inductive ReqKind where
  | load | store | atomic | acc | fence | drain | breg | bfree
  /-- An engine command still in the request queue (R294): the copy command of a token. -/
  | copy (token : Nat)
  /-- A kiln command still in the request queue: its entry number. -/
  | kiln (entry : Nat)
  /-- A KSTORE until its bytes are written: its entry number (R354). -/
  | kstore (entry : Nat)
  /-- A LAUNCH append of a token (R329). -/
  | append (token : Nat)
  /-- The read of a SIGWAIT (R413). -/
  | sig
  /-- The release of a BAR arrival, a LAUNCH or a SYSC of the posy at the address in `addr` (R293): it performs
  when the conditions of R284 hold. -/
  | rel_
deriving DecidableEq, Repr, Inhabited

/-- One operand of an atomic, of one lane (R255, R364). -/
structure AtomOp where
  lane : Nat
  x : BitVec 64
  expected : BitVec 64 := 0
deriving DecidableEq, Repr, Inhabited

/-- A region of a VD at the authority of one die (R297). -/
structure Authority where
  home : Nat
  vd : Nat
  base : Nat
deriving DecidableEq, Repr, Inhabited

/-- A request of a posy (R275, R363): the bytes of one line, or one location. -/
structure Req where
  /-- Program-order number of its instruction in the team (ISEQ, R364). -/
  seq : Nat
  /-- Its number among the requests of the instruction. -/
  sub : Nat := 0
  kind : ReqKind
  scratch : Bool := false
  /-- Virtual address, or team scratch offset. -/
  addr : Nat := 0
  size : Nat := 0
  acq : Bool := false
  rel : Bool := false
  tol : BitVec 6 := 0
  /-- The fibres for which the request is made (R277). -/
  fids : List Nat := []
  /-- Those among them whose fibres a FORK made after it (R293). -/
  forked : List Nat := []
  lanes : List Nat := []
  core : Nat := 0
  slot : Nat := 0
  /-- PRIVL of the issuer at issue (R384). -/
  priv : Bool := false
  /-- FCTL.OVFSAT at issue (R255, R257). -/
  ovfsat : Bool := false
  nr : Bool := false
  /-- A release that any older parked request holds as it holds FENCE (LAUNCH, R329, R301). -/
  strict : Bool := false
  op : BitVec 4 := 0
  fmt : Fmt := .raw
  opnds : List AtomOp := []
  /-- Store bytes by address (R249); the addend of an ACC lies in `opnds`. -/
  data : List (Nat × Byte) := []
  stage : Stage := .queued
  /-- The request is a follower that may replay, or an entry in REPLAY (R365). -/
  replay : Bool := false
  /-- The image address at which it completes, once its posy is saved (R375 RETAG and ROUTE). -/
  route : Option Nat := none
  /-- Its reply is discarded on arrival (R373 PURGE). -/
  discard : Bool := false
  /-- Unsent, and kept in the load-store unit while its posy is saved (R367). -/
  kept : Bool := false
  /-- Recorded as refused at a save: it is reissued before any younger request of its posy (R304). -/
  reissue : Bool := false
  cls : PageCls := .rc
  width : Width := .dev
  inst : Nat := 0
  /-- PGSZ code of the page it touches (R382). -/
  pgsz : Nat := 0
  pa : Nat := 0
  /-- Class of the page itself, whatever the request is ordered as (R279, R292). -/
  pcls : PageCls := .rc
  /-- Issued from outside the page's instance (R279). -/
  out : Bool := false
  /-- PSEQs of the leaders behind which it parked as a follower, while it replays (R302). -/
  followed : List Nat := []
  /-- Authorities at which it waits for recalls: they defer grants meanwhile (R297). -/
  defers : List Authority := []
  /-- The lines that were dirty when a release reached the head of the queue (R284), those with bytes of pages of CORE width
  among them where the request orders every access at SYS width (R258, R285, R388). -/
  snap : Option (List (Sharer × Nat)) := none
  full : Bool := false
  /-- The read of a SIGWAIT or WRDIV whose reply has reached the core (R117, R413). -/
  landed : Bool := false
  /-- The line of that read was invalidated at the core since (R413). -/
  stale : Bool := false
  reply : List (Nat × Byte) := []
  olds : List (Nat × BitVec 64) := []
  merr : Bool := false
  flags : BitVec 6 := 0
deriving DecidableEq, Repr, Inhabited

/-- How the bytes of a load become register values. -/
inductive LoadKind where
  | plain (size : Nat) (fmt : Fmt)
  | sx (m : SxFmt) (fmt : Fmt) (count : Nat) (ovfsat : Bool)
  | atom (fmt : Fmt)
  /-- The verdict of a BREG into a predicate (R261). -/
  | verdict
  /-- A register reload of RESTK: lane words, and the tag bytes at the address given (R438). -/
  | restReg (tagAddr : Nat)
  | restPred
  | restTile (k : Nat)
  /-- The read of a WRDIV (R439). -/
  | wrdiv
  /-- The return of a SYSC with SUB 0 (R332). -/
  | sysc
deriving DecidableEq, Repr, Inhabited

/-- One lane of a load: its fibre, its address, the numbers of the requests that bring its bytes, and the
element index of an LDSX. -/
structure LaneLoad where
  lane : Nat
  fid : Nat
  addr : Nat
  subs : List Nat := []
  idx : Nat := 0
deriving DecidableEq, Repr, Inhabited

/-- A load instruction whose destination is pending (R67, R247). -/
structure LoadOp where
  seq : Nat
  /-- The posy it belongs to. -/
  uid : Nat
  dcls : Cls
  /-- First destination: allocation register for V, register number for S and predicates. -/
  dst : Nat
  /-- Registers written. -/
  count : Nat
  frame : Nat := 0
  kind : LoadKind
  lanes : List LaneLoad
  /-- Bytes that have arrived: the number of the request, the address, the byte. -/
  got : List (Nat × Nat × Byte) := []
  olds : Tab (BitVec 64) := []
  /-- Registers that write through into an image (R438): allocation register numbers. -/
  through : List Nat := []
deriving DecidableEq, Repr, Inhabited

/-! ## Fibres, frames, records -/

/-- A join record (R46). -/
structure JoinRec where
  pc : Nat
  /-- Address of the instruction after the join. -/
  next : Nat := 0
  deadline : Option Nat := none
  passed : Nat := 0
  open_ : Bool := true
  bounded : Bool := false
  holder : Option Nat := none
deriving DecidableEq, Repr, Inhabited

/-- A frame (R36, R45). Registers not listed are zero; a0 is hard-wired (R129). -/
structure Frame where
  s : Tab (BitVec 64) := []
  abase : Tab (BitVec 64) := []
  astride : Tab (BitVec 64) := []
  h : Tab (BitVec 64) := []
  refs : Nat := 0
  parent : Option Nat := none
  /-- The frame record stands in spawn memory (R39, R487), at this offset; none: the region has no piece of its size. -/
  spawned : Bool := false
  off : Option Nat := none
  joins : Tab (Option JoinRec) := []
deriving DecidableEq, Repr, Inhabited

/-- One fibre of a spawn record (R44). -/
structure RecFib where
  fid : Nat
  preds : BitVec 16
  /-- Allocation register to value. -/
  regs : Tab W32 := []
deriving DecidableEq, Repr, Inhabited

/-- KIND of a group record (R44). -/
inductive RecKind where
  | pending | waiting | rotated
deriving DecidableEq, Repr, Inhabited

/-- A group record in spawn memory (R44). `bytes` is the size it holds until its last fibre leaves
(R487). Its bytes stand in memory too. Log entry 16: DESIGN CHOICE. -/
structure Rec where
  pc : Nat
  frame : Nat
  wbase : Nat
  wsize : Nat
  kind : RecKind
  phase : Bool := false
  seq : Nat := 0
  bytes : Nat := 0
  /-- Its place in the spawn region, a multiple of 64; none: the region has no piece of its size. -/
  off : Option Nat := none
  fibres : List RecFib := []
  tags : Tab (BitVec 4) := []
deriving DecidableEq, Repr, Inhabited

/-- Where a posy stands in a save or restore (R420, R428, R440, R441). -/
inductive HMode where
  | none | save | restore
  /-- Held after a restore-routine TRET or a restored forced save, until RESTORE_END. -/
  | held
deriving DecidableEq, Repr, Inhabited

/-- The handler state of a posy (R146, R419). Log entry 5: DESIGN CHOICE. -/
structure Handler where
  mode : HMode := .none
  hepc : Nat := 0
  hcause : BitVec 8 := 0
  hrep : BitVec 8 := 0
  ctxbase : Nat := 0
  /-- Saved-register bits (R428, R438). -/
  saved : Tab Bool := []
  savedPreds : Bool := false
  /-- The phase the posy resumes in (R435 PHASE). -/
  phase : Bool := false
  /-- Saved registers that a KREAD had still to write (R438). -/
  late : List Nat := []
deriving DecidableEq, Repr, Inhabited

/-- A resident posy (R33, R127, R132). -/
structure Posy where
  uid : Nat
  team : Nat
  frame : Nat
  pc : Nat
  wbase : Nat := 0
  alloc : Nat := 8
  /-- Fibre index of each lane; none for a vacant lane. -/
  lanes : Tab (Option Nat) := []
  /-- p15 to p0 of each lane; bit 0 is not stored (p0 reads true). -/
  preds : Tab (BitVec 16) := []
  /-- Allocation register i, lane L at 64 i + L. -/
  v : Tab W32 := []
  tags : Tab (BitVec 4) := []
  lfsr : Tab W32 := []
  /-- In the waiting phase of the instruction at PC (R44 PHASE, R408, R332). -/
  phase : Bool := false
  /-- That instruction begins again after a rotation or a handler entry: SIGWAIT, WRDIV, FENCE (R274, R413). -/
  again : Bool := false
  /-- A TWAIT in progress (R415): the TIME it waits for, and the address of the next instruction. -/
  wait_ : Option (Nat × Nat) := none
  /-- Next repeat of the REP at PC (R97, R180). -/
  rep : Option Nat := none
  /-- Order of the first XACQ attempt (R181). -/
  xseq : Option Nat := none
  /-- Cycle since which it is blocked in a waiting instruction (R50). -/
  blocked : Option Nat := none
  /-- Cycle at which it took its slot (R50). -/
  since : Nat := 0
  /-- The instruction fetch is parked or refused (R227). -/
  fetch : Option Stage := none
  /-- An aborted fetch: the fetch block (address over 32) that the next fetch reads as all ones (R373). -/
  fetchOnes : Option Nat := none
  /-- The posy waits at a join as its holder (R53): PC of the join. -/
  joining : Bool := false
  hd : Handler := {}
deriving DecidableEq, Repr, Inhabited

/-! ## Teams -/

/-- A segment register (R222). -/
structure SegReg where
  base : BitVec 64 := 0
  lim : BitVec 64 := 0
deriving DecidableEq, Repr, Inhabited

/-- What a handle names (R130). -/
inductive CmdKind where
  | copy | kload | ktask | launch | sysc
deriving DecidableEq, Repr, Inhabited

/-- A handle of a team: the command and its status, 0 to 5 (R130). -/
structure HandleSt where
  kind : CmdKind
  status : Nat := 0
  /-- HCANCEL took effect (R270). -/
  cancelled : Bool := false
  /-- A byte was poisoned, refused or aborted (R267). -/
  bad : Bool := false
  /-- Every part is done and the handle may take its final status (R296). -/
  ready : Bool := false
  /-- Status that the engine gives in place of 1 or 3 (R264, R341, R343, R266). -/
  final : Nat := 1
  /-- The flags that a kiln command sets when the handle completes (R117, R361). -/
  flags : BitVec 6 := 0
deriving DecidableEq, Repr, Inhabited

/-- A task's A format: memory formats, or an accumulator (R342). -/
inductive AFmt where
  | mem (f : SrcFmt) | acc
deriving DecidableEq, Repr, Inhabited

/-- Where a ring entry stands (R345, R347). -/
inductive TaskSt where
  | entered
  /-- It holds a row-buffer entry and reads its A block. -/
  | fetching
  /-- Its A block is in a row-buffer entry. -/
  | fetched
  | started (mac : Nat) (end_ : Nat)
deriving DecidableEq, Repr, Inhabited

/-- A tile task in the ring (R342, R343). -/
structure Task where
  team : Nat
  token : Nat
  /-- Entry number (R349). -/
  seq : Nat
  mul : Bool := false
  acc : Nat := 0
  afmt : AFmt := .acc
  rows : Nat := 1
  aseg : Seg := .glb
  aacc : Nat := 0
  reuse : Bool := false
  btag : Nat := 0
  apitch : Nat := 0
  aaddr : Nat := 0
  /-- Dependence tokens in DEP order. -/
  deps : List Nat := []
  /-- Block number it shares (R346). -/
  block : Nat := 0
  st : TaskSt := .entered
  /-- Requests of its fetch still to be made, the bytes read, aborted requests, whether any byte was poisoned
  (R345), the requests that are parked (by address), and the cycle before which a refused request is not retried. -/
  todo : List (Nat × Nat) := []
  buf : Tab (Option Byte) := []
  aborted : List Nat := []
  bad : Bool := false
  parked : List Nat := []
  retry : Nat := 0
deriving DecidableEq, Repr, Inhabited

/-- A KLOAD's load descriptor (R341). -/
structure KDesc where
  src : Nat := 0
  sseg : Seg := .glb
  sfmt : SrcFmt := .sx .sx2
  mfmt : SxFmt := .sx2
  pitch : Nat := 0
  nmac : Nat := 1
  tag : Nat := 0
deriving DecidableEq, Repr, Inhabited

/-- Where a team stands (R421, R426 to R442). -/
inductive SaveSt where
  | resident
  /-- Being saved since a cycle; true: chosen by a priority pre-emption (R427). -/
  | saving (since : Nat) (prio : Bool)
  | saved (prio : Bool)
  | restoring
deriving DecidableEq, Repr, Inhabited

/-- A posy image of a saved team (R432, R434). -/
structure Image where
  slot : Nat
  unit : Nat
  /-- CTX offset of the image. -/
  off : Nat
  uid : Nat
  alloc : Nat := 0
deriving DecidableEq, Repr, Inhabited

/-- A request of a saved posy, with the slot of its image (R375). -/
structure Owed where
  seq : Nat
  sub : Nat
  slot : Nat
  store : Bool := false
deriving DecidableEq, Repr, Inhabited

/-- A team (R32 to R37, R127, R224). -/
structure Team where
  lid : Nat
  idx : Nat
  vd : Nat
  part : Nat := 0
  queue : Nat := 0
  core : Nat
  place : Nat := 0
  wave : Nat := 0
  /-- Effective priority (R322). -/
  prio : Nat := 0
  /-- Order of placement, for R324. -/
  placed : Nat := 0
  /-- Launch slots that its posies have left, with their registers: kept until the team retires (R37). -/
  idle : List (Nat × Nat) := []
  fctl : BitVec 32 := 0
  flags : BitVec 6 := 0
  arm : BitVec 6 := 0
  /-- The flags set in the present cycle (R117), and its additions to landing counters: scratch offset, bytes, and whether it took
  effect; one to a poisoned counter does if a store of the cycle makes the counter good (R414). -/
  flagsNew : BitVec 6 := 0
  added : List (Nat × Nat × Bool) := []
  glb : SegReg := {}
  scr : SegReg := {}
  cst : SegReg := {}
  spn : SegReg := {}
  ctx : SegReg := {}
  /-- Scratch allocation in bytes, a multiple of 4 KiB. -/
  salloc : Nat := 0
  scratch : Tab Byte := []
  /-- Poisoned 8-byte words of the scratchpad (R221). -/
  spoison : Tab Bool := []
  ktiles : Nat := 0
  /-- Core tile numbers of k0 up (R335). -/
  tileNos : List Nat := []
  /-- k n, row r, column c at 4096 n + 128 r + c, an F32 pattern. -/
  tiles : Tab W32 := []
  tileSaved : BitVec 32 := 0
  frames : Tab (Option Frame) := []
  recs : Tab (Option Rec) := []
  nextRec : Nat := 0
  nextFid : Nat := 0
  handles : Tab (Option HandleSt) := []
  nextTok : Nat := 1
  reqs : List Req := []
  loads : List LoadOp := []
  nextSeq : Nat := 0
  /-- Stopped at a trap: the trapping slot and whether it resumes at the next instruction (R421, R425). -/
  stopped : Option (Nat × Bool) := none
  /-- Posies that trapped before that one in the same cycle, and that cycle (R421). -/
  trapped : List (Nat × Bool) := []
  stopAt : Nat := 0
  /-- Its first instruction after placement has issued (R326). -/
  issued : Bool := false
  save : SaveSt := .resident
  images : List Image := []
  /-- Header, scratch and tile units of the layer held by a saved team (R432). -/
  hunit : Nat := 0
  sunits : List Nat := []
  tunits : List Nat := []
  /-- Retagged completions still owed to the images (R375). -/
  retagged : List Owed := []
  /-- Its part of the core FIFO, taken off while it is saved (R439); records that became runnable since its save began, which a
  descriptor does not name (R70, R443). -/
  fifoPart : List Nat := []
  lateRecs : List Nat := []
  /-- Lines of its context image whose write or read was aborted (R436). -/
  ctxAborted : List Nat := []
  /-- Lines whose request a PURGE took: nothing is delivered, and what waits for them goes on waiting (R373). -/
  ctxPurged : List Nat := []
  /-- The cycle before which a refused request of its image is not retried (R367). -/
  ctxRetry : Nat := 0
  /-- Unstarted ring entries and load descriptors that the image holds (R359). -/
  savedTasks : List Task := []
  savedLoads : List KDesc := []
  /-- Handle completions written into the header's table (R433). -/
  hdone : Nat := 0
  /-- A forced save wrote its tiles (R430, R441). -/
  forced : Bool := false
  /-- Refused requests that the replay lists hold, in order (R434). -/
  nacks : List Req := []
  /-- The task that the team entered last, if it was not refused (R346). -/
  lastTask : Option Task := none
deriving DecidableEq, Repr, Inhabited

/-! ## Caches, homes, bounded values -/

/-- A cache line (R219, R229). `sent` marks bytes written back and not yet merged. -/
structure CLine where
  valid : BitVec 4 := 0
  dirty : BitVec 128 := 0
  sent : BitVec 128 := 0
  /-- Dirty and sent bytes that were stored through a page of CORE width: no release waits for them (R284). -/
  narrow : BitVec 128 := 0
  /-- A release store entered the line while a write-back of it was on its way: the next one follows at once (R284). -/
  force : Bool := false
  /-- Teams whose stores its dirty and sent bytes come from: a refused write-back sets their MERR (R27). -/
  teams : List Nat := []
  /-- In an RDC line: the L1s of the die that hold the line, by number on the die (R231). -/
  sharers : BitVec 48 := 0
  /-- Byte of the line to value. -/
  data : Tab Byte := []
  /-- One mark per 8-byte word read from a poisoned word. -/
  poison : BitVec 16 := 0
deriving DecidableEq, Repr, Inhabited

/-- An entry of the sharer directory of a line's home (R231): the L1s that hold the line and the dies whose RDC
holds it. Of an HBM line only the 48 bits of the home die's own L1s and the bits of the three other dies are ever
set; the host proxy keeps the L1s of every die that hold a line of host memory. -/
structure DirEntry where
  l1s : BitVec 192 := 0
  rdcs : BitVec 4 := 0
deriving DecidableEq, Repr, Inhabited

/-- A write-back on its way to its parent (R230, R286). -/
structure WBack where
  from_ : Sharer
  line : Nat
  /-- The RDC of a die, or none for the home. -/
  parent : Option Nat
  bytes : List (Nat × Byte)
  /-- Its bytes that were stored through a page of CORE width. -/
  narrow : BitVec 128 := 0
  /-- It carries a release store: the parent writes it back at once too (R284). -/
  force : Bool := false
  /-- Teams whose stores it carries. -/
  teams : List Nat := []
deriving DecidableEq, Repr, Inhabited

/-- A line in the merging state (R287): at a home, or at the RDC of a die. -/
structure Merging where
  line : Nat
  parent : Option Nat
  /-- Sharers whose acknowledgement is owed. -/
  wait : List Sharer
  /-- Those among them whose invalidation a closed port does not pass (R27). -/
  held : List Sharer := []
  /-- The writer: a write-back's cache, or a request of a team. -/
  writer : Option Sharer := none
  /-- Team, SEQ and number of a request that wrote. -/
  req : Option (Nat × Nat × Nat) := none
  /-- Authorities that defer grants until this write is performed (R297). -/
  defers : List Authority := []
  /-- Die of a unit other than a cache that writes (R397). -/
  unit : Option Nat := none
deriving DecidableEq, Repr, Inhabited

/-- A holder's share of a region's authority (R297); patterns are binary32. Pools follow from limits and shares. -/
structure Share where
  who : Holder
  vd : Nat
  base : Nat
  /-- The die whose entry is the authority. -/
  home : Nat
  g : W32 := 0
  t : W32 := 0
  /-- Word virtual address to delta. -/
  deltas : Tab W32 := []
  /-- Word virtual address to physical address. -/
  pas : Tab Nat := []
deriving DecidableEq, Repr, Inhabited

/-- What a bound-table entry is (R393): STATE 2, DEFER, is an active entry while some write or load defers its grants. -/
inductive BoundSt where
  | free | active | removing
deriving DecidableEq, Repr, Inhabited

/-- A bound-table entry (R393); its GRANT fields are the shares of State. -/
structure Bound where
  base : Nat := 0
  size : Nat := 0
  vd : Nat := 0
  st : BoundSt := .free
  limit : W32 := 0
deriving DecidableEq, Repr, Inhabited

/-! ## Kiln and copy unit -/

/-- A shared-exponent group: exponent, micro byte, sign and magnitude of each element (R118). -/
structure SxGroup where
  e : Byte := 0
  mu : Byte := 0
  f : List (Bool × Nat) := []
deriving DecidableEq, Repr, Inhabited

/-- 128 elements: eight groups under one block scale (R337, R339). -/
structure SxRow where
  scale : BitVec 16 := 0
  groups : List SxGroup := []
deriving DecidableEq, Repr, Inhabited

/-- The states of a tag-table entry (R336). -/
inductive MacSt where
  | empty | loading | ready | freeing
deriving DecidableEq, Repr, Inhabited

/-- A macro with its tag-table entry and scale store (R334, R337). The store, whose reset value is X, holds no columns until a
KLOAD fills it. Log entry 111: DESIGN CHOICE. -/
structure Macro where
  st : MacSt := .empty
  team : Nat := 0
  tag : Nat := 0
  desc : KDesc := {}
  /-- Token of the KLOAD that fills it. -/
  token : Nat := 0
  /-- Entry numbers of the KLOAD that fills it and of the KFREE that drains it. -/
  lseq : Nat := 0
  freeSeq : Nat := 0
  /-- The KLOAD that takes it once it is drained: team and token. -/
  resv : Option (Nat × Nat) := none
  cols : List SxRow := []
  /-- Token of the task that runs on it. -/
  running : Option Nat := none
deriving DecidableEq, Repr, Inhabited

/-- A row-buffer entry: an A block (R334, R345). -/
structure ABlock where
  id : Nat
  team : Nat
  rows : List SxRow
  mA : Nat
  bad : Bool := false
  flags : BitVec 6 := 0
deriving DecidableEq, Repr, Inhabited

/-- A kiln command entered and not yet complete (R349). -/
inductive KCmdKind where
  | load (token : Nat)
  /-- A KTASK whose record is not read yet: record offset, and h0 to h15 as it issued (R343). -/
  | pend (token off : Nat) (hs : List Nat)
  | task (token : Nat) (acc : Nat) (src : Option Nat)
  | zero (k : Nat)
  /-- KREAD: tile, posy uid, first destination allocation register, first row, rows, lanes. -/
  | read (k uid dst first n : Nat) (lanes : List Nat)
  /-- KWRITE: tile, first row, rows, add, rounding and FCTL at issue (R109), register words by row·128 + column, posy uid,
  LFSRs. -/
  | write (k first n : Nat) (add : Bool) (rnd : Rnd) (fctl : BitVec 32) (data : Tab (Option W32)) (uid : Nat) (lfsr : Tab W32)
  /-- KSTORE: tile, scratch offset, first row, rows, FMT, SX form, OVFSAT at issue. -/
  | store (k off first n : Nat) (fmt : Fmt) (sx : Option SxFmt) (ovfsat : Bool)
  | free (tag : Nat)
deriving DecidableEq, Repr, Inhabited

/-- A kiln command with its team, entry number and issue position. -/
structure KCmd where
  team : Nat
  seq : Nat
  cmd : KCmdKind
  /-- It has left the request queue (R294). -/
  entered : Bool := true
deriving DecidableEq, Repr, Inhabited

/-- A KLOAD whose source is being read (R341). -/
structure KLoad where
  team : Nat
  token : Nat
  seq : Nat
  desc : KDesc
  macros : List Nat
  todo : List (Nat × Nat) := []
  buf : Tab (Option Byte) := []
  bad : Bool := false
  aborted : List Nat := []
  parked : List Nat := []
  retry : Nat := 0
  /-- A reload of a resume (R359): completes no handle. -/
  reload : Bool := false
deriving DecidableEq, Repr, Inhabited

/-- Where one request of a copy stands (R265). -/
inductive CpStage where
  | todo
  | refused (at_ : Nat)
  | parkedR (die pseq : Nat)
  | have_ (bytes : List Byte)
  | parkedW (die pseq : Nat) (bytes : List Byte)
  | refusedW (at_ : Nat) (bytes : List Byte)
  /-- n bytes are applied in a line whose merge has not ended. -/
  | merging (line n : Nat) (bytes : List Byte)
  | done
deriving DecidableEq, Repr, Inhabited

/-- One source request of a copy: at most 128 bytes inside one line. -/
structure CpPart where
  src : Nat
  dst : Nat
  len : Nat
  st : CpStage := .todo
  /-- The source was aborted: it reads 0xFF and is poisoned. -/
  aborted : Bool := false
  /-- The next destination write was aborted: it is dropped and counted. -/
  dropW : Bool := false
  /-- The reply of that write is discarded: nothing more comes of the part (R373). -/
  discard : Bool := false
deriving DecidableEq, Repr, Inhabited

/-- A command of a copy unit (R263 to R266). -/
structure CopyCmd where
  team : Nat
  token : Nat
  srcScr : Bool := false
  dstScr : Bool := false
  parts : List CpPart := []
  /-- Scratch offset of the landing counter. -/
  lc : Option Nat := none
  /-- PUT: target place, team index, scratch offset, bytes read so far. -/
  put : Option (Nat × Nat × Nat) := none
  total : Nat := 0
  buf : Tab (Option Byte) := []
  /-- It has left the request queue (R294). -/
  left : Bool := false
deriving DecidableEq, Repr, Inhabited

/-! ## Cores and dies -/

/-- A core (R9, R47, R235, R334, R404, R426). -/
structure Core where
  lsplit : Nat := 0
  /-- The granule map (R219, R233): the team, and its granule, that holds a physical granule of the scratchpad. -/
  gmap : Tab (Option (Nat × Nat)) := []
  /-- Launches that wait for this core's split (R237), and the launch whose split it took and whose teams it places first. -/
  waiting : List Nat := []
  taken : Nat := 0
  /-- A split change has begun: the core accepts no team (R238 step 1). -/
  splitting : Bool := false
  l1 : Tab (Option CLine) := []
  tlb : List TlbEntry := []
  /-- Runnable records in order: team and record number (R47). -/
  fifo : List (Nat × Nat) := []
  seq : Nat := 0
  xseq : Nat := 0
  /-- Issue stamps by slot, in the bays (R308, R325), and by bay the cycle, plus one, in which it issued last. -/
  stamps : Tab (BitVec 16) := []
  issued : Tab Nat := []
  /-- CORE barrier words of the running VD (R404). -/
  bars : Tab (BitVec 64) := []
  /-- Partition·64 + VD that holds the time slice, and the tick at which the slice began. -/
  vd : Option Nat := none
  sliceAt : Nat := 0
  /-- The VD that takes the core once the outgoing teams are saved (R426); lines of its core header whose write or read was
  aborted, and the cycle before which a refused one is not retried (R367, R436). -/
  nextVd : Option Nat := none
  hdrAborted : List Nat := []
  hdrRetry : Nat := 0
  macros : Tab Macro := []
  ring : List Task := []
  blocks : List ABlock := []
  kcmds : List KCmd := []
  kloads : List KLoad := []
  kseq : Nat := 0
  /-- Teams the kiln holds (R358). -/
  held : List Nat := []
  /-- Teams that are gone and whose started tasks run on, with the tiles that they keep until then (R360). -/
  ghosts : List (Nat × List Nat) := []
  copies : List CopyCmd := []
  /-- The scratchpad bytes and the flag word of the team that retired here last (R468); the next placement zeroes
  granules (R233). Log entry 104: DESIGN CHOICE. -/
  leftScratch : Tab Byte := []
  leftFlags : BitVec 32 := 0
deriving DecidableEq, Repr, Inhabited

/-- Whose request a park-store entry holds (R364). -/
inductive Owner where
  /-- A posy's request: its team, SEQ and number. -/
  | req (team seq sub : Nat)
  | fetch (team core slot uid va : Nat)
  | copyR (team core token part : Nat)
  /-- The write of one destination line of a part, at its virtual address. -/
  | copyW (team core token part dst : Nat)
  | kload (team core token line : Nat)
  | afetch (team core token line : Nat)
  /-- A line of the context image of a team (R436). -/
  | ctx (team : Nat) (write : Bool) (line : Nat)
  | queue (q va : Nat)
  /-- A line of a core header, of a VD that has no team saved from the core (R436). -/
  | coreHdr (core : Nat) (write : Bool) (line : Nat)
  /-- A read whose issuer no longer waits for it: a fetch of a posy that entered its handler or left its slot, or a record
  read of a queue that was disabled. Its entry stays until a command takes it (R365). -/
  | lost (team core : Option Nat) (priv : Bool) (pseq : Nat)
deriving DecidableEq, Repr, Inhabited

/-- STATE of an entry (R365); FREE entries are not listed and extensions are counted by `ext`. -/
inductive EntrySt where
  | parked | follower | replay
deriving DecidableEq, Repr, Inhabited

/-- A park-store entry (R364). -/
structure Entry where
  pseq : Nat
  owner : Owner
  /-- The launch of its team; 0 for none. -/
  lid : Nat := 0
  va : Nat
  size : Nat := 0
  leader : Option Nat := none
  st : EntrySt := .parked
  cause : Cause := .notPresent
  kind : Nat := 0
  acq : Bool := false
  rel : Bool := false
  so : Bool := false
  retag : Bool := false
  vd : Nat := 0
  part : Nat := 0
  op : BitVec 8 := 0
  ext : Nat := 0
  dreg : Nat := 0
  core : Nat := 0xFFFF
  slot : Nat := 0xFF
  iseq : Nat := 0
  lanes : BitVec 64 := 0
  route : Nat := 0
  /-- It lies in the overflow area; the indices of its parts, on chip or there. -/
  overflow : Bool := false
  idxs : List Nat := []
  pgsz : Nat := 0
  missing : BitVec 3 := 0
  cls : PageCls := .rc
  width : Width := .dev
  inst : Nat := 0
  fids : List Nat := []
  data : List Byte := []
deriving DecidableEq, Repr, Inhabited

/-- A fault record waiting for room (R370, R371). -/
structure FaultRec where
  pseq : Nat
  bytes : List Byte
deriving DecidableEq, Repr, Inhabited

/-- A park command in progress (R372). -/
structure ParkCmd where
  op : Nat
  scope : Nat
  pgsz : Nat
  vd : Nat
  arg : BitVec 64
  /-- PSEQs assigned before the write (R373), in order. -/
  limit : List Nat
deriving DecidableEq, Repr, Inhabited

/-- How far the move of a page has come (R378): before the checks of step 1; waiting and recalling lines, steps 2 and 3; recalling
grants, step 4; copied, step 5; NEWPTE written and the entries replayed, steps 6 and 7. -/
inductive MoveSt where
  | check | drain | recall | copied | done
deriving DecidableEq, Repr, Inhabited

/-- A C-die (R9, R362, R368, R377, R393, R397). Log entry 6: DESIGN CHOICE. -/
structure Die where
  rdc : Tab (Option CLine) := []
  /-- Lines that the L2 of the die's home slices holds, with their valid sectors (R219, R228). Their data is the
  home's: `State.mem`. Log entry 89: DESIGN CHOICE. -/
  l2 : Tab (BitVec 4) := []
  tlb : List TlbEntry := []
  entries : List Entry := []
  pseq : Nat := 0
  parkLimit : Nat := 2048
  ovfBase : BitVec 64 := 0
  ovfCfg : BitVec 64 := 0
  frBase : BitVec 64 := 0
  frCfg : BitVec 64 := 6
  frWords : BitVec 64 := 0
  parkCmda : BitVec 64 := 0
  parkErr : Bool := false
  parkCount : BitVec 32 := 0
  parkCmd : Option ParkCmd := none
  pending : List FaultRec := []
  rseq : Nat := 0
  frTail : Nat := 0
  /-- The first 56 bytes of the migration descriptor (R377). -/
  mig : Tab Byte := []
  migStat : BitVec 64 := 0
  /-- A move runs, and where it stands (R378). -/
  migRun : Bool := false
  migSt : MoveSt := .check
  fwClosed : BitVec 3 := 0
  fwRefused : Tab W32 := []
  bound : Tab Bound := []
deriving DecidableEq, Repr, Inhabited

/-! ## Queues, launches, VDs -/

/-- A launch record (R313). -/
structure LRec where
  bytes : List Byte := []
  entry : Nat := 0
  teams : Nat := 1
  fibres : Nat := 1
  regs : Nat := 1
  ktiles : Nat := 0
  scratch : Nat := 0
  spawn : Nat := 0
  split : Nat := 0
  cores : Nat := 0
  prio : Nat := 0
  dep : Bool := false
  timed : Bool := false
  serial : Bool := false
  arglen : Nat := 0
  args : Nat := 0
  csig : Nat := 0
  dsig : Nat := 0
  dval : Int := 0
  start : Nat := 0
  seed : BitVec 64 := 0
deriving DecidableEq, Repr, Inhabited

/-- What a launch takes from its kernel header (R314). -/
structure KHdr where
  /-- WINMAX in registers. -/
  winmax : Nat := 8
  vol : Option (Nat × Nat) := none
deriving DecidableEq, Repr, Inhabited

/-- The record at the head of a queue (R315). -/
inductive HeadSt where
  | unread
  | ok (r : LRec) (h : KHdr)
  | failed (r : LRec) (code : Nat)
  /-- Its read, or that of its header once it is read itself, is parked under a PSEQ of a die; the read was answered with poison
  (R373). -/
  | parked (die pseq : Nat) (r : Option LRec)
  | aborted (r : Option LRec)
  /-- Its LID and capture entry are written, on these lines, and the head word is not (R312): its header if it has not failed. -/
  | sent (r : LRec) (h : Option KHdr) (code lid : Nat) (lines : List Nat)
deriving DecidableEq, Repr, Inhabited

/-- A write that the queue engine owes (R320, R327): the head word, an error value to a completion signal, or one to
the completion signal of a discarded record. -/
inductive Post where
  | head (tail : Nat)
  | error (csig code : Nat)
  /-- STATE 0 of the header of a team that is gone: partition, VD, address (R442). -/
  | free (part vd va : Nat)
  | discarded (n : Nat)
deriving DecidableEq, Repr, Inhabited

/-- A work queue as QENABLE read it, with the queue engine's state (R308, R309, R401). -/
structure Queue where
  part : Nat := 0
  ring : Nat := 0
  taila : Nat := 0
  logsize : Nat := 4
  vd : Nat := 0
  prio : Nat := 0
  enable : Bool := false
  devapp : Bool := false
  capture : Bool := false
  timeout : Nat := 0
  capring : Nat := 0
  caplog : Nat := 0
  saveh : Nat := 0
  resth : Nat := 0
  trapr : Nat := 0
  head : Nat := 0
  tail : Nat := 0
  /-- The tail word's line was invalidated since it was read (R310). -/
  tailDirty : Bool := false
  /-- The dependency signal's line was invalidated since it was read, or it was never read (R318). -/
  depDirty : Bool := true
  depMet : Bool := false
  hs : HeadSt := .unread
  /-- Watchdog count in ticks (R326). -/
  wd : Nat := 0
  capPos : Nat := 0
  capLoss : Bool := false
  /-- Writes of the queue engine still to be made, in order (R320, R327). -/
  owed : List Post := []
deriving DecidableEq, Repr, Inhabited

/-- A running launch (R308). -/
structure Launch where
  queue : Nat
  vd : Nat
  part : Nat := 0
  r : LRec := {}
  h : KHdr := {}
  prio : Nat := 0
  next : Nat := 0
  retired : Nat := 0
  /-- Teams placed before the first retirement (R146 WAVE). -/
  k : Option Nat := none
  started : Bool := false
  /-- Dirty lines of its retired teams that have not merged at SYS width (R316). -/
  snap : List (Sharer × Nat) := []
deriving DecidableEq, Repr, Inhabited

/-- A place-table entry (R391). -/
structure Place where
  core : Nat := 0
  valid : Bool := false
  pend : Option (Nat × Bool) := none
deriving DecidableEq, Repr, Inhabited

/-- A defined VD (R399, R391, R403). -/
structure Vd where
  ptroot : Nat := 0
  asize : Nat := 0
  ctxva : Nat := 0
  ctxsize : Nat := 0
  pltbase : Nat := 0
  plcount : Nat := 1
  slice : Nat := 1
  budget : Nat := 0
  syscring : Nat := 0
  sysclog : Nat := 1
  places : Tab Place := []
  /-- Saved split of a core (R239): n + 1, 0 for none. -/
  splits : Tab Nat := []
  /-- Cores whose CORE barrier words lie in the core header (R411). -/
  barSaved : Tab Bool := []
  /-- QUAD, DIE and DEV barrier words (R404): level·4096 + instance·16 + number. -/
  bars : Tab (BitVec 64) := []
  /-- Records written to the system-call ring. -/
  calls : Nat := 0
deriving DecidableEq, Repr, Inhabited

/-- A call record whose STATUS is still 0 (R457). -/
structure CallRec where
  pa : Nat
  va : Nat
  vd : Nat
  part : Nat := 0
  team : Nat
  uid : Nat
  sub : Nat
  token : Nat := 0
  seq : Nat := 0
  /-- STATUS as set, before the returns have landed, and whether it stands in the record. -/
  status : Nat := 0
  stored : Bool := false
deriving DecidableEq, Repr, Inhabited

/-- The X-die's registers (R396, R399, R400, R425, R445). -/
structure XDie where
  cmda0 : BitVec 64 := 0
  cmda1 : BitVec 64 := 0
  /-- The table command in progress. -/
  cmd : Option Nat := none
  cmdErr : Bool := false
  cmdCode : Nat := 0
  tcmda0 : BitVec 64 := 0
  tcmda1 : BitVec 64 := 0
  tcmda2 : BitVec 64 := 0
  tcmd : Option Nat := none
  tcmdErr : Bool := false
  tcmdCode : Nat := 0
  qdtBase : BitVec 64 := 0
  vdtBase : BitVec 64 := 0
  partmap : BitVec 64 := 0
  peermap : BitVec 64 := 0
  qrange : Tab (BitVec 64) := []
  accept : BitVec 8 := 0
  acceptLocked : Bool := false
  hnaBase : Tab (BitVec 64) := []
  hnaLim : Tab (BitVec 64) := []
  peerInb : Tab (BitVec 64) := []
  peerInl : Tab (BitVec 64) := []
  peerUp : BitVec 12 := 0
  cxlUp : BitVec 2 := 0
deriving DecidableEq, Repr, Inhabited

/-- What an agent outside was answered (R446, R450, R453, R458): nothing, an error completion, or the bytes of its load. -/
inductive Answer where
  | silent
  | error
  | data (bytes : List Byte)
deriving DecidableEq, Repr, Inhabited

/-- The state of the module. -/
structure State where
  /-- Cycles of the arithmetic clock since reset (R146 CYCLE). -/
  cycle : Nat := 0
  /-- Ticks of the global timebase (R146 TIME). -/
  time : Nat := 0
  /-- Sixths of a ns into the present tick: a cycle is 3, 4 or 6 sixths (R460). -/
  sixths : Nat := 0
  /-- Clock step of R460: 0 is 2.0 GHz, 1 is 1.5 GHz, 2 is 1.0 GHz. -/
  thermStep : Nat := 0
  tj : BitVec 8 := 0
  hotSince : Option Nat := none
  coolSince : Option Nat := none
  /-- Bring-up steps completed, 0 (rails off) to 5 (CXL links trained) (R458). -/
  boot : Nat := 4
  /-- The firmware check failed (R453). -/
  bootFailed : Bool := false
  /-- Images offered to the boot ROM so far, and those of them that are loaded, in load order (R453, R454). -/
  images : Nat := 1
  loaded : List Nat := [0]
  /-- HDMBASE of the host's decoder (R446), of which no reset value is given, and what the last request from outside was
  answered. Log entry 115: DESIGN CHOICE. -/
  hdmBase : Nat := 0
  answer : Answer := .silent
  /-- Reservations of harts and host threads: the address and the bytes that the load-reserved read (R306). -/
  reserved : Tab (Option (Nat × List Byte)) := []
  /-- MODEL'S OWN: who moves next; the counter of the free arbiter; the issuer of the instruction
  that executes; the counter of the free values. -/
  turns : List Turn := []
  turnCount : Nat := 0
  cur : Nat × Nat := (0, 0)
  fresh : Nat := 0
  mem : List Host.Cell := []
  poison : Tab Bool := []
  /-- Lines the host port caches (R231). -/
  hostLines : Tab Bool := []
  /-- The sharer directories of the home slices and of the host proxy, by line (R231). -/
  dir : Tab DirEntry := []
  wbs : List WBack := []
  merging : List Merging := []
  cores : Tab Core := []
  dies : Tab Die := []
  shares : List Share := []
  /-- Posies by core·24 + slot. -/
  posies : Tab (Option Posy) := []
  nextUid : Nat := 0
  teams : Tab (Option Team) := []
  nextTeam : Nat := 0
  queues : Tab Queue := []
  launches : Tab (Option Launch) := []
  lastLid : Nat := 0
  vds : Tab (Option Vd) := []
  traps : List (Nat × List Byte) := []
  calls : List CallRec := []
  xd : XDie := {}
  /-- Attestation reports returned (R454), newest first. -/
  reports : List (List Byte) := []
deriving DecidableEq, Repr, Inhabited

/-- The module right after reset: C-die reset released with every reset value in force (R458 step 4),
HBM zeroed, and no turn chosen. Log entry 3: DEDUCED. -/
def State.reset : State := {}

end Sys2Proof.Machine
end

