-- ==== Sys2Proof/Machine/Ops.lean ====
section
/-!
DEFINITION. The named operations over the state: accessors of its tables, memory at home, the posy that
issues, the register files, the checks of R83, R101, R135, R137 and R142 in their order, the writes of an
instruction, and TAKING A TRAP (R421 to R424) as one operation.
-/
namespace Sys2Proof.Machine

abbrev Out := Host.Outcome State Fault Refusal

/-! ## Tables of the state -/

def posyKey (core slot : Nat) : Nat := core * Config.slots + slot
def State.posy (s : State) (k : Nat) : Option Posy := Tab.get none s.posies k
def State.setPosy (s : State) (k : Nat) (p : Option Posy) : State := { s with posies := Tab.set none s.posies k p }
def State.team (s : State) (id : Nat) : Option Team := Tab.get none s.teams id
def State.setTeam (s : State) (id : Nat) (t : Option Team) : State := { s with teams := Tab.set none s.teams id t }
def State.core (s : State) (c : Nat) : Core := Tab.get {} s.cores c
def State.setCore (s : State) (c : Nat) (x : Core) : State := { s with cores := Tab.set {} s.cores c x }
/-- A posy takes a slot of a core: the slot's issue stamp is set (R333). -/
def State.seat (s : State) (core slot : Nat) (p : Posy) : State :=
  (s.setPosy (posyKey core slot) (some p)).setCore core { s.core core with stamps := Tab.set 0 (s.core core).stamps slot (BitVec.ofNat 16 s.cycle) }
def State.die (s : State) (d : Nat) : Die := Tab.get {} s.dies d
def State.setDie (s : State) (d : Nat) (x : Die) : State := { s with dies := Tab.set {} s.dies d x }
def State.queue (s : State) (q : Nat) : Queue := Tab.get {} s.queues q
def State.setQueue (s : State) (q : Nat) (x : Queue) : State := { s with queues := Tab.set {} s.queues q x }
def State.launch (s : State) (l : Nat) : Option Launch := Tab.get none s.launches l
def State.setLaunch (s : State) (l : Nat) (x : Option Launch) : State := { s with launches := Tab.set none s.launches l x }
/-- VDs are numbered within their hard partition. -/
def vdKey (part vd : Nat) : Nat := part * 64 + vd
def State.vd (s : State) (part vd : Nat) : Option Vd := Tab.get none s.vds (vdKey part vd)
def State.setVd (s : State) (part vd : Nat) (x : Option Vd) : State := { s with vds := Tab.set none s.vds (vdKey part vd) x }

def State.modTeam (s : State) (id : Nat) (f : Team → Team) : State :=
  match s.team id with | some t => s.setTeam id (some (f t)) | none => s
def State.modCore (s : State) (c : Nat) (f : Core → Core) : State := s.setCore c (f (s.core c))
def State.modDie (s : State) (d : Nat) (f : Die → Die) : State := s.setDie d (f (s.die d))
def State.modQueue (s : State) (q : Nat) (f : Queue → Queue) : State := s.setQueue q (f (s.queue q))
def State.modPosy (s : State) (k : Nat) (f : Posy → Posy) : State :=
  match s.posy k with | some p => s.setPosy k (some (f p)) | none => s
def State.modVd (s : State) (part vd : Nat) (f : Vd → Vd) : State :=
  match s.vd part vd with | some x => s.setVd part vd (some (f x)) | none => s
def State.modLaunch (s : State) (l : Nat) (f : Launch → Launch) : State :=
  match s.launch l with | some x => s.setLaunch l (some (f x)) | none => s

/-- The die of a core (R9: 48 cores to a die). -/
def dieOf (core : Nat) : Nat := core / 48
/-- The quad of a core. -/
def quadOf (core : Nat) : Nat := core / 4

/-- Live entries of a table of options, in key order. -/
def Tab.live {α : Type} (t : Tab (Option α)) : List (Nat × α) := t.filterMap fun e => e.2.map fun v => (e.1, v)

/-- The resident posies of a team, in slot order. -/
def State.posiesOf (s : State) (team : Nat) : List (Nat × Posy) := (Tab.live s.posies).filter fun e => e.2.team == team

/-- A fresh free value (R134, R238, R436): contents the spec calls undefined. -/
def State.free (s : State) : BitVec 64 × State := (Config.freeWord s.fresh, { s with fresh := s.fresh + 1 })

/-! ## Bytes -/

/-- The little-endian number of some bytes (R3). -/
def leNat : List Byte → Nat
  | [] => 0
  | b :: t => b.toNat + 256 * leNat t

/-- n bytes of a number, little-endian. -/
def leBytes : Nat → Nat → List Byte
  | 0, _ => []
  | n + 1, v => BitVec.ofNat 8 v :: leBytes n (v / 256)

/-! ## Memory at home (R219, R221): HBM and host memory -/

abbrev Memory := List Host.Cell

/-- What an address nobody has written reads as. Log entry 4: DESIGN CHOICE. -/
def Memory.unlisted : Byte := 0

/-- The canonical form of memory. -/
def Memory.wf (m : Memory) : Bool := Tab.wf Memory.unlisted m

/-- Log entry 4: DESIGN CHOICE. -/
def State.byte (s : State) (pa : Nat) : Byte := Tab.get Memory.unlisted s.mem pa
def State.setByte (s : State) (pa : Nat) (b : Byte) : State := { s with mem := Tab.set Memory.unlisted s.mem pa b }
def State.poisoned (s : State) (pa : Nat) : Bool := Tab.get false s.poison (pa / 8)

/-- A byte as a reader of the home sees it: 0xFF in a poisoned word. -/
def State.homeByte (s : State) (pa : Nat) : Byte := if s.poisoned pa then 0xFF else s.byte pa

def setBytes (s : State) : List (Nat × Byte) → State
  | [] => s
  | (a, b) :: t => setBytes (s.setByte a b) t

/-- Words of eight bytes that the write covers whole. -/
def wholeWords (w : List (Nat × Byte)) : List Nat :=
  (w.map fun x => x.1 / 8).filter fun k => (List.range 8).all fun i => w.any fun x => x.1 == 8 * k + i

/-- A write of bytes at home: whole words lose their poison mark (R221). A byte written into a poisoned
word that stays poisoned is stored under the mark. -/
def State.writeHome (s : State) (w : List (Nat × Byte)) : State :=
  let s1 := setBytes s w
  { s1 with poison := Tab.setAll false s1.poison ((wholeWords w).map fun k => (k, false)) }

def State.readBytes (s : State) (pa n : Nat) : List Byte := (List.range n).map fun i => s.homeByte (pa + i)
def State.read64 (s : State) (pa : Nat) : Nat := leNat (s.readBytes pa 8)
/-- n bytes from pa, as pairs. -/
def placed (pa : Nat) (bs : List Byte) : List (Nat × Byte) := (List.range bs.length).map fun i => (pa + i, bs.getD i 0)
def State.write64 (s : State) (pa v : Nat) : State := s.writeHome (placed pa (leBytes 8 v))

/-! ## The posy that issues -/

/-- The posy, its team and its frame. -/
structure Env where
  key : Nat
  p : Posy
  t : Team
  f : Frame

def Env.core (e : Env) : Nat := e.key / Config.slots
def Env.slot (e : Env) : Nat := e.key % Config.slots

def Team.frame (t : Team) (id : Nat) : Option Frame := Tab.get none t.frames id
def Team.setFrame (t : Team) (id : Nat) (f : Option Frame) : Team := { t with frames := Tab.set none t.frames id f }

def envAt (s : State) (k : Nat) : Option Env :=
  match s.posy k with
  | none => none
  | some p =>
    match s.team p.team with
    | none => none
    | some t =>
      match t.frame p.frame with
      | none => none
      | some f => some { key := k, p := p, t := t, f := f }

/-- The environment of the instruction that executes. -/
def curEnv (s : State) : Option Env := envAt s (posyKey s.cur.1 s.cur.2)

def Posy.fid (p : Posy) (L : Nat) : Nat := (Tab.get none p.lanes L).getD 0
def Posy.holds (p : Posy) (L : Nat) : Bool := (Tab.get none p.lanes L).isSome
/-- Lanes that hold a fibre, rising. -/
def Posy.present (p : Posy) : List Nat := (List.range 64).filter p.holds
/-- p0 reads true. -/
def Posy.pred (p : Posy) (n L : Nat) : Bool := n == 0 || (Tab.get 0 p.preds L).getLsbD n
def Posy.guard (p : Posy) (gp : BitVec 4) (gn : Bool) (L : Nat) : Bool := p.pred gp.toNat L != gn
/-- active(P) under a guard (R75). -/
def Posy.active (p : Posy) (h : Hdr) : List Nat := p.present.filter (p.guard h.gp h.gn)
/-- The window size (R132). -/
def Posy.wsize (p : Posy) : Nat := p.alloc - p.wbase
/-- PRIVL (R420). -/
def Posy.privileged (p : Posy) : Bool := p.hd.mode == .save || p.hd.mode == .restore
def maskOf (ls : List Nat) : Nat := ls.foldl (fun m L => m ||| 2 ^ L) 0

/-- Allocation register r, lane L. -/
def Posy.reg (p : Posy) (r L : Nat) : W32 := Tab.get 0 p.v (64 * r + L)
/-- As an instruction reads it: a vacant lane supplies zero (R91). -/
def Posy.readV (p : Posy) (n L : Nat) : Nat := if p.holds L then (p.reg (p.wbase + n) L).toNat else 0
def Posy.tag (p : Posy) (r : Nat) : BitVec 4 := Tab.get 0 p.tags r

def Frame.sreg (f : Frame) (n : Nat) : BitVec 64 := Tab.get 0 f.s n
/-- a0 always holds (0, 1) (R129). -/
def Frame.areg (f : Frame) (n : Nat) : BitVec 64 × BitVec 64 :=
  if n = 0 then (0, 1) else (Tab.get 0 f.abase n, Tab.get 0 f.astride n)
def Frame.hreg (f : Frame) (n : Nat) : BitVec 64 := Tab.get 0 f.h n
/-- expand(a, f) of R8. -/
def expand (a : BitVec 64 × BitVec 64) (fid : Nat) : BitVec 64 := a.1 + a.2 * BitVec.ofNat 64 fid

/-! ## Register uses (R82, R83) -/

inductive Space where
  | s | a | v | p | h | k
deriving DecidableEq, Repr

/-- A run of registers that an instruction reads or writes; `align` is 2 for pairs and 4 for quads. -/
structure RegUse where
  sp : Space
  n : Nat
  count : Nat := 1
  align : Nat := 1
  dest : Bool := false
deriving DecidableEq, Repr

def spaceLimit (e : Env) : Space → Nat
  | .s => 32 | .a => 16 | .v => e.p.wsize | .p => 16 | .h => 16 | .k => e.t.ktiles

def RegUse.ok (e : Env) (u : RegUse) : Bool :=
  decide (u.n % u.align = 0) && decide (u.n + u.count ≤ spaceLimit e u.sp) &&
  !(u.dest && u.n == 0 && (u.sp == .a || u.sp == .p))

/-- A K-space number as a predicate, a handle or an accumulator; another kind is out of every range. -/
def kUse (sp : Space) (raw : Nat) (dest : Bool) : RegUse :=
  match sp with
  | .p => { sp := .p, n := if raw < 16 then raw else 9999, dest := dest }
  | .h => { sp := .h, n := if 16 ≤ raw ∧ raw < 32 then raw - 16 else 9999, dest := dest }
  | _ => { sp := .k, n := if 32 ≤ raw ∧ raw < 64 then raw - 32 else 9999, dest := dest }

/-- A register operand of class S, A or V. -/
def opdUse (o : Opd) (count align : Nat) (dest : Bool) : RegUse :=
  match o.cls with
  | .s => { sp := .s, n := o.n.toNat, dest := dest }
  | .a => { sp := .a, n := o.n.toNat, dest := dest }
  | .v => { sp := .v, n := o.n.toNat, count := count, align := align, dest := dest }
  | .k => kUse .p o.n.toNat dest

/-! ## The scoreboard (R67, R247) -/

/-- Is a register of the use pending for this posy? -/
def loadPends (e : Env) (u : RegUse) (l : LoadOp) : Bool :=
  match u.sp with
  | .v => l.dcls == .v && l.uid == e.p.uid && decide (l.dst < e.p.wbase + u.n + u.count) &&
          decide (e.p.wbase + u.n < l.dst + l.count)
  | .s => l.dcls == .s && l.frame == e.p.frame && decide (u.n ≤ l.dst) && decide (l.dst < u.n + u.count)
  | .p => l.dcls == .k && l.uid == e.p.uid && decide (l.dst < u.n + u.count) && decide (u.n < l.dst + l.count)
  | _ => false

/-- KREAD destinations stay pending until the kiln has written them (R351). -/
def kcmdPends (e : Env) (u : RegUse) (c : KCmd) : Bool :=
  match c.cmd, u.sp with
  | .read _ uid dst _ n _, .v =>
    uid == e.p.uid && decide (dst < e.p.wbase + u.n + u.count) && decide (e.p.wbase + u.n < dst + 2 * n)
  | _, _ => false

def pends (s : State) (e : Env) (u : RegUse) : Bool :=
  e.t.loads.any (loadPends e u) || (s.core e.core).kcmds.any (kcmdPends e u)

/-- Is a register of the fibres in some lanes pending (R68)? A uniform destination belongs to the frame.
Log entry 31: DEDUCED. -/
def fibPending (s : State) (e : Env) (lanes : List Nat) : Bool :=
  e.t.loads.any (fun l => l.uid == e.p.uid && l.count != 0 && l.dcls != .s && l.lanes.any fun x => lanes.contains x.lane) ||
  (s.core e.core).kcmds.any fun c => match c.cmd with
    | .read _ uid _ _ _ ls => uid == e.p.uid && ls.any lanes.contains
    | _ => false

/-- Is any destination of the posy pending (R50)? -/
def anyPending (s : State) (e : Env) : Bool :=
  e.t.loads.any (fun l => l.uid == e.p.uid && l.count != 0) ||
  (s.core e.core).kcmds.any fun c => match c.cmd with | .read _ uid _ _ _ _ => uid == e.p.uid | _ => false

/-! ## Tags (R142) -/

/-- Does a register's tag suit the format of the use? -/
def tagOk (use : Fmt) (tag : BitVec 4) : Bool :=
  match use with
  | .raw => true
  | .i32 | .u32 | .i64 | .u64 => tag == 0 || tag == 1
  | f => tag == 0 || tag.toNat == Fmt.code f

/-- The tag a result format sets (R144). -/
def tagOf (f : Fmt) : BitVec 4 := if Fmt.code f ≤ 9 then BitVec.ofNat 4 (Fmt.code f) else 0

/-- RAW for a code of 10 to 15 (R143). -/
def tagOfByte (b : Byte) : BitVec 4 := if b.toNat % 16 < 10 then b.setWidth 4 else 0

/-- A varying source checked under R142: its register and how many. -/
structure TagUse where
  n : Nat
  count : Nat := 1
  use : Fmt
deriving DecidableEq, Repr

def TagUse.ok (e : Env) (u : TagUse) : Bool :=
  (List.range u.count).all fun i => tagOk u.use (e.p.tag (e.p.wbase + u.n + i))

/-! ## Traps (R421 to R424) -/

def Trap.code : Trap → Nat
  | .illegalOp => 1 | .illegalType => 2 | .illegalReg => 3 | .illegalSpan => 4 | .umask => 5 | .format => 6
  | .align => 7 | .seg => 8 | .priv => 9 | .handle => 10 | .saturate => 11 | .merr => 12 | .swtrap => 13
  | .break_ => 14 | .xblock => 15

/-- HREP of a posy (R146). -/
def repByte (p : Posy) : Nat := match p.rep with | some k => 128 + k % 64 | none => 0

/-- The flag word of R116. -/
def flagWord (t : Team) : Nat := t.flags.toNat + 256 * t.arm.toNat

/-- The trap record of R423. Log entry 21: DEDUCED. -/
def trapRecord (s : State) (e : Env) (tr : Trap) (lanes : List Nat) (sw : Nat) (inHandler : Bool) : List Byte :=
  leBytes 1 0 ++ leBytes 1 (Trap.code tr) ++ leBytes 2 sw ++ leBytes 1 (repByte e.p) ++ leBytes 1 e.slot ++
  leBytes 2 e.p.frame ++ leBytes 8 e.p.pc ++ leBytes 8 e.t.lid ++ leBytes 4 e.t.idx ++ leBytes 2 e.t.queue ++
  leBytes 1 e.t.vd ++ leBytes 1 (if inHandler then 1 else 0) ++ leBytes 8 (maskOf lanes) ++ leBytes 8 s.time ++
  leBytes 4 (flagWord e.t) ++ leBytes 12 0

/-- Requests of a posy's waiting instruction that end with it (R293). -/
def Team.dropWaits (t : Team) (core slot : Nat) : Team :=
  { t with reqs := t.reqs.filter fun r => !((r.kind == .rel_ || r.kind == .fence) && r.core == core && r.slot == slot) }

/-- TAKING A TRAP. The instruction is suppressed, the team stops, and the record waits for room in the
queue's trap ring (R421, R422). Inside a handler the team is saved by force and then the record is posted
(R431): TRAP_RECORD_POST waits for that. -/
def takeTrap (s : State) (e : Env) (tr : Trap) (lanes : List Nat) (sw : Nat) : State :=
  let inH := e.p.privileged
  let t := { e.t.dropWaits e.core e.slot with
    stopped := some (e.slot, !inH && (tr == .swtrap || tr == .break_))
    trapped := e.t.stopped.toList ++ e.t.trapped
    stopAt := s.cycle
    save := if inH then (match e.t.save with | .saving c b => .saving c b | _ => .saving s.cycle false) else e.t.save
    tileSaved := if e.t.save = .restoring then 0 else e.t.tileSaved }
  { s.setTeam e.p.team (some t) with traps := s.traps ++ [(e.t.queue, trapRecord s e tr lanes sw inH)] }

/-- A trap of the instruction that executes. -/
def trap (s : State) (e : Env) (tr : Trap) (lanes : List Nat) : Out := .next (takeTrap s e tr lanes 0)

/-! ## The checks before an instruction (R101 steps 4 to 6, R137) -/

/-- What an instruction needs: its class combination, its registers, privilege, the full-mask rule and
the tags of its sources. -/
structure Need where
  type : Bool := true
  regs : List RegUse := []
  /-- A further ILLEGAL_REG test, for window bases. -/
  regOk : Env → Bool := fun _ => true
  priv : Bool := false
  /-- Traps PRIV inside a handler (R429). -/
  ban : Bool := false
  full : Bool := false
  tags : List TagUse := []

/-- The guard's predicate as a source. Log entry 32: DEDUCED. -/
def guardUse (h : Hdr) : RegUse := { sp := .p, n := h.gp.toNat }

/-- Runs the checks in order and then the body with the active lanes. A pending register stalls the
instruction: nothing changes (R67). Log entry 32: DEDUCED. -/
def checked (s : State) (e : Env) (n : Need) (h : Hdr) (body : Env → List Nat → Out) : Out :=
  let act := e.p.active h
  if !n.type then trap s e .illegalType act
  else if !(n.regs.all (RegUse.ok e) && n.regOk e) then trap s e .illegalReg act
  else if (n.priv && !e.p.privileged) || (n.ban && e.p.privileged) then trap s e .priv act
  else if n.regs.any (pends s e) || pends s e (guardUse h) then .next s
  else if n.full && act.length != e.f.refs then trap s e .umask act
  else if !(n.tags.all (TagUse.ok e)) then trap s e .format act
  else body e act

/-- The same for the posy of `cur`; without a posy there nothing happens. Log entry 1: DESIGN CHOICE. -/
def issue (s : State) (n : Need) (h : Hdr) (body : Env → List Nat → Out) : Out :=
  match curEnv s with
  | none => .next s
  | some e => checked s e n h body

/-! ## The writes of an instruction -/

/-- What an instruction writes: uniform, affine, handle and varying registers (by allocation register),
tags, predicates, LFSRs, flags. -/
structure Eff where
  sw : List (Nat × BitVec 64) := []
  aw : List (Nat × BitVec 64 × BitVec 64) := []
  hw : List (Nat × BitVec 64) := []
  vw : List (Nat × Nat × W32) := []
  tags : List (Nat × BitVec 4) := []
  pw : List (Nat × Nat × Bool) := []
  lf : List (Nat × W32) := []
  flags : BitVec 6 := 0
deriving Inhabited

def Posy.setReg (p : Posy) (r L : Nat) (x : W32) : Posy := { p with v := Tab.set 0 p.v (64 * r + L) x }
def setBit16 (w : BitVec 16) (n : Nat) (b : Bool) : BitVec 16 :=
  if b then w ||| BitVec.twoPow 16 n else w &&& ~~~(BitVec.twoPow 16 n)
/-- p0 is not written. -/
def Posy.setPred (p : Posy) (L n : Nat) (b : Bool) : Posy :=
  if n = 0 then p else { p with preds := Tab.set 0 p.preds L (setBit16 (Tab.get 0 p.preds L) n b) }

def Posy.apply (p : Posy) (x : Eff) : Posy :=
  let v := Tab.setAll 0 p.v (x.vw.map fun w => (64 * w.1 + w.2.1, w.2.2))
  let tags := Tab.setAll 0 p.tags x.tags
  let lfsr := Tab.setAll 0 p.lfsr x.lf
  x.pw.foldl (fun q w => q.setPred w.1 w.2.1 w.2.2) { p with v := v, tags := tags, lfsr := lfsr }

def Frame.apply (f : Frame) (x : Eff) : Frame :=
  { f with
    s := Tab.setAll 0 f.s x.sw
    abase := Tab.setAll 0 f.abase (x.aw.map fun w => (w.1, w.2.1))
    astride := Tab.setAll 0 f.astride (x.aw.map fun w => (w.1, w.2.2))
    h := Tab.setAll 0 f.h x.hw }

/-- Sets flags of a team; a FLAGC of the same cycle leaves them set (R117). -/
def Team.raise (t : Team) (f : BitVec 6) : Team := { t with flags := t.flags ||| f, flagsNew := t.flagsNew ||| f }

def Env.apply (e : Env) (x : Eff) : Env := { e with p := e.p.apply x, f := e.f.apply x, t := e.t.raise x.flags }

/-- Goes on at an address; what a waiting instruction kept is over, a place in the order of XACQ too (R181).
Log entry 120: DESIGN CHOICE. -/
def Posy.goto (p : Posy) (pc : Nat) : Posy :=
  { p with pc := pc, phase := false, again := false, wait_ := none, xseq := none, blocked := none, joining := false }
def Posy.advance (p : Posy) (l : Len) : Posy := p.goto (p.pc + 4 * Len.words l)
/-- Waits in a waiting instruction since this cycle or an earlier one (R50). -/
def Posy.block (p : Posy) (cycle : Nat) : Posy := { p with blocked := some (p.blocked.getD cycle) }

/-- Puts an environment back into the state. -/
def Env.put (e : Env) (s : State) : State :=
  (s.setTeam e.p.team (some (e.t.setFrame e.p.frame (some e.f)))).setPosy e.key (some e.p)

/-- The writes, and the PC to the next instruction. -/
def commit (s : State) (e : Env) (l : Len) (x : Eff) : Out :=
  let e' := e.apply x
  .next ({ e' with p := e'.p.advance l }.put s)

/-- Takes a vacant lane's contents away; its LFSR stays behind (R113). -/
def Posy.clearLane (p : Posy) (L : Nat) : Posy :=
  { p with
    lanes := Tab.set none p.lanes L none
    preds := Tab.set 0 p.preds L 0
    v := p.v.filter fun x => x.1 % 64 != L }

/-- 64 bits of a number. -/
def b64 (n : Nat) : BitVec 64 := BitVec.ofNat 64 n
def b32 (n : Nat) : W32 := BitVec.ofNat 32 n
def signExt (w : Nat) (v : Nat) : BitVec 64 := BitVec.ofInt 64 (readInt w true v)

end Sys2Proof.Machine
end

