-- ==== Sys2Proof/Machine/Operands.lean ====
section
/-!
DEFINITION. The operand forms (R84 to R91, R151, R152, R185): immediates, crossbars, sources of each class,
and the one shape of an instruction that computes lane by lane into S, A, V or a predicate.
-/
namespace Sys2Proof.Machine

/-- FMT 12 or 13: register pairs on varying operands (R133). -/
def Fmt.wide (f : Fmt) : Bool := match f with | .i64 | .u64 => true | _ => false
/-- FMT 2 to 9. -/
def Fmt.packed (f : Fmt) : Bool := Fmt.inRange f 2 9

/-! ## Immediates (R87, R88) -/

def Imm.sext (i : Imm) : BitVec 64 :=
  match i with
  | .i18 v => v.signExtend 64
  | .i32 v => v.signExtend 64
  | .i64 v => v

/-- The value of an immediate narrowed to a format (R88). Log entry 35: DESIGN CHOICE. -/
def immNarrow (f : Fmt) (i : Imm) : Nat :=
  let v := (Imm.sext i).toNat
  match f with
  | .i64 | .u64 => v
  | .f32 => (match i with | .i18 _ => v * 2 ^ 14 % 2 ^ 32 | .i32 _ => v % 2 ^ 32 | .i64 w => (Config.f32OfImm64 w).toNat)
  | .f16x2 | .bf16x2 | .i16x2 | .u16x2 => v % 2 ^ 16 * (2 ^ 16 + 1)
  | .e4m3x4 | .e5m2x4 | .i8x4 | .u8x4 => v % 2 ^ 8 * (2 ^ 24 + 2 ^ 16 + 2 ^ 8 + 1)
  | _ => v % 2 ^ 32

/-! ## Crossbars (R89 to R91) -/

/-- The source lane of lane L; none supplies zero. -/
def xlane (x : XBar) (L : Nat) : Option Nat :=
  let n := XBar.n x
  match x.pat with
  | .none => some L
  | .rot => some ((L + n) % 64)
  | .bcast => some (n % 64)
  | .bfly => some (L ^^^ (n % 64))
  | .mirr => some (L ^^^ (n - 1))
  | .shd => if L + n < 64 then some (L + n) else none
  | .shu => if n ≤ L then some (L - n) else none

/-! ## Sources -/

/-- A source: a register with its crossbar, or an immediate. `use` is the format of the use, `wide` says
that a varying value is a pair, `check` that its tag is checked (R153). -/
structure Src where
  b : SrcB
  x : XBar := {}
  use : Fmt
  wide : Bool := false
  check : Bool := true

def Src.cls (r : Src) : Option Cls := match r.b with | .reg o => some o.cls | .imm _ => none

/-- What lane L reads (R151). -/
def Src.read (e : Env) (r : Src) (L : Nat) : Nat :=
  match r.b with
  | .imm i => immNarrow r.use i
  | .reg o =>
    match o.cls with
    | .s => (e.f.sreg o.n.toNat).toNat
    | .a => (expand (e.f.areg o.n.toNat) (e.p.fid L)).toNat
    | .v =>
      match xlane r.x L with
      | none => 0
      | some M =>
        if r.wide then e.p.readV o.n.toNat M + 2 ^ 32 * e.p.readV (o.n.toNat + 1) M else e.p.readV o.n.toNat M
    | .k => 0

/-- The uniform value of an S source or an immediate. -/
def Src.readS (e : Env) (r : Src) : Nat :=
  match r.b with
  | .imm i => immNarrow r.use i
  | .reg o => (e.f.sreg o.n.toNat).toNat

/-- An S or A source, or an immediate, as base and stride (R85). -/
def Src.readA (e : Env) (r : Src) : BitVec 64 × BitVec 64 :=
  match r.b with
  | .imm i => (b64 (immNarrow r.use i), 0)
  | .reg o => if o.cls = .a then e.f.areg o.n.toNat else (e.f.sreg o.n.toNat, 0)

def Src.use_ (r : Src) : List RegUse :=
  match r.b with
  | .imm _ => []
  | .reg o => [opdUse o (if r.wide then 2 else 1) (if r.wide then 2 else 1) false]

def Src.tagUse (r : Src) : List TagUse :=
  match r.b with
  | .reg o => if o.cls = .v && r.check then [{ n := o.n.toNat, count := if r.wide then 2 else 1, use := r.use }] else []
  | .imm _ => []

/-- R86: a crossbar on a source that is not V. -/
def Src.xOk (r : Src) : Bool := r.x == {} || r.cls == some .v

/-! ## The shape of a lane instruction -/

/-- One lane's result. -/
structure LaneRes where
  val : Nat
  flags : BitVec 6 := 0
  lfsr : W32 := 0
deriving Inhabited

/-- An instruction that computes lane by lane. `sOk`, `aOk`, `vOk`, `pOk` say which destination classes it
accepts with these sources; `fn fctl s xs l old` gives the result for an S destination (`s`) or a lane,
from the sources, the lane's LFSR and the word the destination held. -/
structure Alu where
  h : Hdr
  d : Opd
  srcs : List Src
  /-- A varying result is a pair. -/
  wide : Bool := false
  sOk : Bool := true
  aOk : Bool := false
  vOk : Bool := true
  pOk : Bool := false
  /-- The tag of a varying result. -/
  tag : Env → BitVec 4 := fun _ => 0
  fn : BitVec 32 → Bool → List Nat → W32 → Nat → LaneRes
  aff : List (BitVec 64 × BitVec 64) → BitVec 64 × BitVec 64 := fun _ => (0, 0)

/-- R84 to R86 for the classes of a lane instruction. -/
def Alu.typeOk (a : Alu) : Bool :=
  (a.srcs.all Src.xOk) && (a.srcs.all fun r => r.cls != some .k) &&
  match a.d.cls with
  | .s => a.sOk && a.srcs.all fun r => r.cls == none || r.cls == some .s
  | .a => a.aOk && a.srcs.all fun r => r.cls != some .v
  | .v => a.vOk
  | .k => a.pOk

def Alu.need (a : Alu) : Need :=
  { type := a.typeOk
    regs := opdUse a.d (if a.wide then 2 else 1) (if a.wide then 2 else 1) true :: a.srcs.flatMap Src.use_
    full := a.d.cls == .s || a.d.cls == .a
    tags := a.srcs.flatMap Src.tagUse }

/-- The two words of a varying result. -/
def vWrites (wide : Bool) (r L v : Nat) : List (Nat × Nat × W32) :=
  if wide then [(r, L, b32 v), (r + 1, L, b32 (v / 2 ^ 32))] else [(r, L, b32 v)]

/-- Joins the flags of the lanes. -/
def orFlags (xs : List LaneRes) : BitVec 6 := xs.foldl (fun f r => f ||| r.flags) 0

/-- The writes of a lane instruction. -/
def Alu.eff (a : Alu) (e : Env) (act : List Nat) : Eff :=
  match a.d.cls with
  | .s =>
    let r := a.fn e.t.fctl true (a.srcs.map (Src.readS e)) 0 0
    { sw := [(a.d.n.toNat, b64 r.val)], flags := r.flags }
  | .a => { aw := [(a.d.n.toNat, a.aff (a.srcs.map (Src.readA e)))] }
  | c =>
    let dr := e.p.wbase + a.d.n.toNat
    let rs := act.map fun L =>
      a.fn e.t.fctl false (a.srcs.map fun r => r.read e L) (Tab.get 0 e.p.lfsr L) (if c = .v then (e.p.reg dr L).toNat else 0)
    let fl := orFlags rs
    let pairs := act.zip rs
    let lf := pairs.map fun x => (x.1, x.2.lfsr)
    if c = .k then
      { pw := pairs.map fun x => (x.1, a.d.n.toNat, x.2.val % 2 == 1), lf := lf, flags := fl }
    else
      { vw := pairs.flatMap fun x => vWrites a.wide dr x.1 x.2.val
        tags := (List.range (if a.wide then 2 else 1)).map fun i => (dr + i, a.tag e)
        lf := lf, flags := fl }

/-- Executes a lane instruction. -/
def Alu.run (a : Alu) (s : State) : Out :=
  issue s a.need a.h fun e act => commit s e a.h.len (a.eff e act)

/-! ## Common sources of Ops -/

def Ops.srcA (o : Ops) (use : Fmt) : Src := { b := .reg o.a, x := o.xa, use := use, wide := Fmt.wide use }
def Ops.srcB (o : Ops) (use : Fmt) : Src := { b := o.b, x := o.xb, use := use, wide := Fmt.wide use }
def Ops.srcC (o : Ops) (use : Fmt) : Src := { b := .reg o.c, use := use, wide := Fmt.wide use }

end Sys2Proof.Machine
end

