-- ==== Sys2Proof/Machine/Flags.lean ====
section
/-!
DEFINITION. How results are narrowed and which flags they set: the widths of R152, wrapping and
saturating integer results (R105, R155), the control of floating results (R109, R111).
-/
namespace Sys2Proof.Machine

/-- The width of a scalar format (R152); `s` for an S destination. -/
def Fmt.width (f : Fmt) (s : Bool) : Nat :=
  match f with
  | .raw => if s then 64 else 32
  | .i64 | .u64 => 64
  | .f16x2 | .bf16x2 | .i16x2 | .u16x2 => 16
  | .e4m3x4 | .e5m2x4 | .i8x4 | .u8x4 => 8
  | _ => 32

def Fmt.signed (f : Fmt) : Bool := match f with | .i16x2 | .i8x4 | .i32 | .i64 => true | _ => false

/-- A result of width 32 in an S register: sign-extended for I32 (R152). -/
def extendS (f : Fmt) (s : Bool) (v : Nat) : Nat :=
  if s && f == .i32 then (signExt 32 v).toNat else v

/-- An integer element's result: the pattern and flags. -/
def wrapRes (w : Nat) (v : Int) : Nat × BitVec 6 := (wrapInt w v, 0)
def satRes (w : Nat) (signed : Bool) (v : Int) : Nat × BitVec 6 := let r := satInt w signed v; (wrapInt w r.1, r.2)
/-- Wrapping or saturating, as SUB says. -/
def intRes (sat : Bool) (w : Nat) (signed : Bool) (v : Int) : Nat × BitVec 6 :=
  if sat then satRes w signed v else wrapRes w v

/-- Applies an integer operation to each element of the sources (R107, R152). The operation sees the width,
the signedness, and the operands as patterns. -/
def intElems (f : Fmt) (s : Bool) (xs : List Nat) (op : Nat → Bool → List Nat → Nat × BitVec 6) : LaneRes :=
  let w := Fmt.width f s
  let rs := (List.range (Fmt.count f)).map fun i => op w (Fmt.signed f) (xs.map fun x => elemAt w x i)
  { val := extendS f s (packElems w (rs.map (·.1))), flags := rs.foldl (fun g r => g ||| r.2) 0 }

/-- An integer lane function; the LFSR does not move. -/
def intFn (f : Fmt) (op : Nat → Bool → List Nat → Nat × BitVec 6) :
    BitVec 32 → Bool → List Nat → W32 → Nat → LaneRes :=
  fun _ s xs l _ => { intElems f s xs op with lfsr := l }

/-! ## Floating control -/

/-- The rounding mode of an instruction under FCTL (R92, R111). -/
def rmode (fctl : BitVec 32) (r : Rnd) : RMode :=
  match r with
  | .rne => .rne | .rz => .rz | .stoch => .stoch
  | .dyn => if fctl.getLsbD 0 then .rdn else .rup

def ctlOf (fctl : BitVec 32) (r : Rnd) : Ctl :=
  { mode := rmode fctl r, ovfsat := fctl.getLsbD 2, ftz := fctl.getLsbD 1 }

/-- Applies a floating operation to each element, the LFSR passing from element to element (R107, R112). -/
def flElems (F : FF) (n : Nat) (xs : List Nat) (lfsr : W32) (op : List Nat → W32 → Rounded) : LaneRes :=
  let step := fun (acc : List Nat × BitVec 6 × W32) (i : Nat) =>
    let r := op (xs.map fun x => elemAt F.bits x i) acc.2.2
    (acc.1 ++ [r.pat], acc.2.1 ||| r.flags, r.lfsr)
  let r := (List.range n).foldl step ([], 0, lfsr)
  { val := packElems F.bits r.1, flags := r.2.1, lfsr := r.2.2 }

end Sys2Proof.Machine
end

