-- ==== Sys2Proof/Machine/Sfu.lean ====
section
/-!
DEFINITION. The special functions (R194 to R196). SQRT is correctly rounded. The other seven are FREE
VALUES: the result is whatever the opaque Config.sfu gives for the input bits, as long as it lies inside
the bound of R196 around the true value; otherwise it is the true value rounded. The true value is
computed here in fixed point to about 150 bits, far inside every bound.
-/
namespace Sys2Proof.Machine

inductive SfuOp where
  | rcp | rsq | sqrt | ex2 | lg2 | sin | cos | tanh
deriving DecidableEq, Repr, Inhabited

def SfuOp.code : SfuOp → Nat
  | .rcp => 0 | .rsq => 1 | .sqrt => 2 | .ex2 => 3 | .lg2 => 4 | .sin => 5 | .cos => 6 | .tanh => 7

/-! ## Fixed point: integers in units of 2^-160 -/

def fxBits : Nat := 160
def fxOne : Nat := 2 ^ 160
/-- ln 2 and 2π in units of 2^-160, rounded down. -/
def fxLn2 : Nat := 1013035739299659071135698605846798551586536899366
def fxTwoPi : Nat := 9182885614096437842769610399486622256908310048836

/-- Bitwise square root: the largest r with r² ≤ n below 2^i in steps. -/
def isqrtFrom : Nat → Nat → Nat → Nat
  | 0, r, _ => r
  | i + 1, r, n => if (r + 2 ^ i) * (r + 2 ^ i) ≤ n then isqrtFrom i (r + 2 ^ i) n else isqrtFrom i r n

def isqrt (n : Nat) : Nat := isqrtFrom (Nat.log2 n / 2 + 1) 0 n

/-- A fraction just at or above the square root of x > 0, exact when the root is; the surplus is below
one part in 2^90. Rounding it rounds the root correctly. -/
def Mag.sqrt (x : Mag) : Mag :=
  -- even shift t with x · 2^(2t) near 2^200
  let e := Mag.log2 x
  let t : Int := (200 - e) / 2
  let y := Mag.scale x (-(2 * t))
  let n := y.n / y.d
  let s := isqrt n
  let exact := decide (s * s * y.d = y.n)
  Mag.scale ⟨if exact then 2 * s else 2 * s + 1, 2⟩ t

/-- Σ_{k<n} t^k / k! for t in fixed point. -/
def expSeries : Nat → Nat → Nat → Nat → Nat
  | 0, _, _, _ => 0
  | n + 1, k, term, t => term + expSeries n (k + 1) (term * t / fxOne / (k + 1)) t

/-- e^t for 0 ≤ t < 1 (fixed point). -/
def fxExp (t : Nat) : Nat := expSeries 60 0 fxOne t

/-- 2^x for a signed fraction. -/
def approxExp2 (neg : Bool) (m : Mag) : Mag :=
  let k := m.n / m.d
  let r := m.n % m.d
  let (i, f) : Int × Nat :=
    if neg then (if r = 0 then (-(k : Int), 0) else (-(k : Int) - 1, (m.d - r) * fxOne / m.d))
    else ((k : Int), r * fxOne / m.d)
  Mag.ofScaled (fxExp (f * fxLn2 / fxOne)) (i - 160)

/-- Σ z^(2k+1)/(2k+1). -/
def atanhSeries : Nat → Nat → Nat → Nat → Nat
  | 0, _, _, _ => 0
  | n + 1, k, term, z2 => term / (2 * k + 1) + atanhSeries n (k + 1) (term * z2 / fxOne) z2

/-- log2 of a fraction greater than 0, in units of 2^-160. -/
def approxLog2 (m : Mag) : Int :=
  let e := Mag.log2 m
  let y := Mag.scale m e
  let z := (y.n - y.d) * fxOne / (y.n + y.d)
  let ln := 2 * atanhSeries 60 0 z (z * z / fxOne)
  e * (fxOne : Int) + ((ln * fxOne / fxLn2 : Nat) : Int)

/-- The alternating series Σ ± term, from term k on; even terms add. -/
def trigSeries : Nat → Nat → Int → Int → Int
  | 0, _, _, _ => 0
  | n + 1, k, term, r2 =>
    term + trigSeries n (k + 2) (-(term * r2 / (fxOne : Int)) / (((k + 1) * (k + 2) : Nat) : Int)) r2

/-- sin and cos of r in [0, 2π), fixed point. -/
def fxSin (r : Nat) : Int := trigSeries 40 1 (r : Int) ((r * r / fxOne : Nat) : Int)
def fxCos (r : Nat) : Int := trigSeries 40 0 (fxOne : Int) ((r * r / fxOne : Nat) : Int)

/-- 2π held to 96 bits (R194), in units of 2^-93: rounded to nearest. Log entry 8: DESIGN CHOICE. -/
def twoPi96 : Nat := (fxTwoPi + 2 ^ 66) / 2 ^ 67

/-- |x| reduced modulo the 96-bit 2π, exactly, in fixed point. -/
def reduceTwoPi (m : Mag) : Nat := m.n * 2 ^ 93 % (twoPi96 * m.d) * 2 ^ 67 / m.d

/-- tanh of a magnitude. -/
def approxTanh (m : Mag) : Mag :=
  -- below x and below 1, as tanh x is
  if Mag.lt m ⟨1, 2 ^ 40⟩ then ⟨m.n * (2 ^ 80 - 1), m.d * 2 ^ 80⟩
  else if Mag.lt ⟨60, 1⟩ m then ⟨fxOne - 1, fxOne⟩
  else
    -- e^(2x) by 2^(2x / ln 2)
    let t := Mag.mul m ⟨2 * fxOne, fxLn2⟩
    let u := approxExp2 false t
    ⟨u.n - u.d, u.n + u.d⟩

/-! ## Bounds and results (R195, R196) -/

/-- One unit in the last place of a magnitude. -/
def FF.ulp (F : FF) (m : Mag) : Mag :=
  let e := if m.n = 0 then F.emin else Mag.log2 m
  Mag.ofScaled 1 ((if e < F.emin then F.emin else e) - F.p)

/-- A signed fraction. -/
structure Sgn where
  neg : Bool
  m : Mag
deriving DecidableEq, Repr, Inhabited

def Sgn.dist (x y : Sgn) : Mag := if x.neg = y.neg then Mag.dist x.m y.m else Mag.add x.m y.m

def Sgn.ofFx (v : Int) : Sgn := ⟨decide (v < 0), ⟨v.natAbs, fxOne⟩⟩

/-- The true value of a function of a finite x; of SIN and COS at the reduced argument (R194). -/
def SfuOp.true_ (op : SfuOp) (x : Sgn) : Sgn :=
  match op with
  | .rcp => ⟨x.neg, Mag.div ⟨1, 1⟩ x.m⟩
  | .rsq => ⟨false, Mag.div ⟨1, 1⟩ (Mag.sqrt x.m)⟩
  | .sqrt => ⟨false, Mag.sqrt x.m⟩
  | .ex2 =>
    -- beyond ±400 every format has long overflowed or underflowed
    ⟨false, approxExp2 x.neg (if Mag.lt ⟨400, 1⟩ x.m then ⟨400, 1⟩ else x.m)⟩
  | .lg2 => Sgn.ofFx (approxLog2 x.m)
  | .sin => let v := Sgn.ofFx (fxSin (reduceTwoPi x.m)); ⟨v.neg ^^ x.neg, v.m⟩
  | .cos => Sgn.ofFx (fxCos (reduceTwoPi x.m))
  | .tanh => ⟨x.neg, approxTanh x.m⟩

/-- Does the result differ from the true value of a finite x (R115)? A rational result of RCP or RSQ may be
exact; the other functions are irrational where R196 does not list them as exact. -/
def SfuOp.inexact (op : SfuOp) (v t : Sgn) : Bool :=
  match op with | .rcp | .rsq => decide ((Sgn.dist v t).n ≠ 0) | _ => true

/-- The bound of R196. -/
def SfuOp.bound (op : SfuOp) (F : FF) (x t : Sgn) : Mag :=
  let ulp := F.ulp t.m
  match op, F with
  | .ex2, .f32 => Mag.mul ⟨2, 1⟩ ulp
  | .lg2, .f32 =>
    if Mag.le ⟨1, 2⟩ x.m && Mag.le x.m ⟨2, 1⟩ then ⟨1, 2 ^ 22⟩ else Mag.mul ⟨2, 1⟩ ulp
  | .sin, .f32 | .cos, .f32 => ⟨1, 2 ^ 22⟩
  | .sin, .f16 | .cos, .f16 => ⟨1, 2 ^ 10⟩
  | .sin, _ | .cos, _ => ⟨1, 2 ^ 7⟩
  | .tanh, .f32 => ⟨1, 2 ^ 21⟩
  | _, _ => ulp

/-- Is the magnitude a value of the format? -/
def FF.holds (F : FF) (m : Mag) : Bool :=
  match F.decode (F.narrow {} 0 false m).pat with | .fin _ w => Mag.eq w m | _ => false

/-- Is the result `t` exact by R196? EX2 of an integer whose power is representable; LG2 of a power of two. -/
def SfuOp.exact (op : SfuOp) (F : FF) (x t : Sgn) : Bool :=
  match op with
  | .sqrt => true
  | .ex2 => decide (x.m.n % x.m.d = 0) && F.holds t.m
  | .lg2 => let e := Mag.log2 x.m; Mag.eq x.m (Mag.ofScaled 1 e)
  | _ => false

/-- Inside the range of the function's own values? R196 bounds only the distance. Log entry 103: DESIGN CHOICE. -/
def SfuOp.inRange (op : SfuOp) (v : Sgn) : Bool :=
  match op with
  | .sin | .cos | .tanh => Mag.le v.m ⟨1, 1⟩
  | _ => true

/-- The number of the element format in the free value. -/
def FF.code : FF → Nat | .f32 => 0 | .f16 => 1 | .bf16 => 2 | .e4m3 => 3 | .e5m2 => 4

/-- A finite, nonzero input. The free value is taken when it is finite and inside the bound. -/
def SfuOp.finite (op : SfuOp) (F : FF) (c : Ctl) (lfsr : W32) (x : Sgn) : Rounded :=
  -- SIN is odd and COS even: the free value is taken at |x|
  let odd := match op with | .sin => x.neg | _ => false
  let x' : Sgn := match op with | .sin | .cos => ⟨false, x.m⟩ | _ => x
  let t := op.true_ x'
  -- the value v as the result, with UNF where it is small and not the true value
  let give := fun (v : Sgn) =>
    let r := F.narrow { c with mode := .rne } lfsr (v.neg ^^ odd) v.m
    let w := F.decode r.pat
    let small := F.subnormal w || (match w with | .fin _ m => decide (m.n = 0) | _ => false)
    let got : Sgn := match w with | .fin neg m => ⟨neg ^^ odd, m⟩ | _ => v
    { r with flags := r.flags ||| flagIf (small && op.inexact got t) flagUnf }
  if op.exact F x' t then F.narrow c lfsr t.neg t.m
  else
    let xin := (F.narrow {} 0 x'.neg x'.m).pat
    match F.decode ((Config.sfu op.code F.code (BitVec.ofNat 32 xin)).toNat % 2 ^ F.bits) with
    | .fin neg m =>
      let v : Sgn := ⟨neg, m⟩
      if Mag.le (Sgn.dist v t) (op.bound F x' t) && op.inRange v then give v else give t
    | _ => give t

/-- A special function of a pattern: the table of R195, then R196. Log entry 8: DESIGN CHOICE. -/
def SfuOp.eval (op : SfuOp) (F : FF) (c : Ctl) (lfsr : W32) (pat : Nat) : Rounded :=
  let nan : Rounded := ⟨F.nanPat, flagInv, lfsr⟩
  let zero (neg : Bool) : Rounded := ⟨F.signPat neg, 0, lfsr⟩
  let inf (neg : Bool) (fl : BitVec 6) : Rounded := ⟨F.signPat neg + F.infPat, fl, lfsr⟩
  let one (neg : Bool) : Rounded := F.narrow {} lfsr neg ⟨1, 1⟩
  match F.read c.ftz pat with
  | .nan => ⟨F.nanPat, 0, lfsr⟩
  | .inf neg =>
    match op with
    | .rcp => zero neg
    | .rsq => if neg then nan else zero false
    | .sqrt | .lg2 => if neg then nan else inf false 0
    | .ex2 => if neg then zero false else inf false 0
    | .sin | .cos => nan
    | .tanh => one neg
  | .fin neg m =>
    if m.n = 0 then
      match op with
      | .rcp | .rsq => inf neg flagDz
      | .lg2 => inf true flagDz
      | .sqrt | .sin | .tanh => zero neg
      | .ex2 | .cos => one false
    else
      match op with
      | .rsq | .sqrt | .lg2 => if neg then nan else op.finite F c lfsr ⟨false, m⟩
      | _ => op.finite F c lfsr ⟨neg, m⟩

end Sys2Proof.Machine
end

