-- ==== Sys2Proof/Machine/Float.lean ====
section
/-!
DEFINITION. The floating and packed instructions 0x50 to 0x6A (R184 to R203).
-/
namespace Sys2Proof.Machine

/-- The element format of FMT 1 to 5. -/
def flF (f : Fmt) : FF := (FF.ofFmt f).getD .f32

/-- A lane function element by element; an S destination holds one binary32 element (R185). -/
def flFn (f : Fmt) (rnd : Rnd) (op : Ctl → List Nat → W32 → Rounded) : BitVec 32 → Bool → List Nat → W32 → Nat → LaneRes :=
  fun fctl s xs l _ => flElems (flF f) (if s then 1 else Fmt.count f) xs l (op (ctlOf fctl rnd))

/-- R186: a sum or product that may be invalid. -/
def putInv (F : FF) (c : Ctl) (l : W32) (r : FVal × Bool) : Rounded :=
  let x := F.put c l r.1
  { x with flags := x.flags ||| flagIf r.2 flagInv }

def rd (F : FF) (c : Ctl) (xs : List Nat) (i : Nat) : FVal := F.read c.ftz (xs.getD i 0)

def opFadd (F : FF) (c : Ctl) (xs : List Nat) (l : W32) : Rounded := putInv F c l (FVal.add c.mode (rd F c xs 0) (rd F c xs 1))
def opFsub (F : FF) (c : Ctl) (xs : List Nat) (l : W32) : Rounded :=
  putInv F c l (FVal.add c.mode (rd F c xs 0) (FVal.neg (rd F c xs 1)))
def opFmul (F : FF) (c : Ctl) (xs : List Nat) (l : W32) : Rounded := putInv F c l (FVal.mul (rd F c xs 0) (rd F c xs 1))
def opFma (F : FF) (c : Ctl) (xs : List Nat) (l : W32) : Rounded :=
  putInv F c l (FVal.dot c.mode [(rd F c xs 0, rd F c xs 1)] (rd F c xs 2))
def opFmm (mx : Bool) (F : FF) (c : Ctl) (xs : List Nat) (l : W32) : Rounded :=
  F.put {} l (FVal.minMax mx (rd F c xs 0) (rd F c xs 1))
/-- FABS, negate, negated absolute value (R188). -/
def opFabs (sub : Nat) (F : FF) (c : Ctl) (xs : List Nat) (l : W32) : Rounded :=
  match rd F c xs 0 with
  | .nan => ⟨F.nanPat, 0, l⟩
  | .inf n => F.put {} l (.inf (if sub = 0 then false else if sub = 1 then !n else true))
  | .fin n m => F.put {} l (.fin (if sub = 0 then false else if sub = 1 then !n else true) m)

/-- The conditions of FCMP (R189). -/
def fcmpHolds (cond : Nat) (x y : FVal) : Bool :=
  let un := FVal.isNan x || FVal.isNan y
  let c := FVal.cmp x y
  match cond with
  | 0 => !un && c == 0 | 1 => un || c != 0 | 2 => !un && decide (c < 0) | 3 => !un && decide (c ≤ 0)
  | 4 => !un && decide (0 < c) | 5 => !un && decide (0 ≤ c) | 6 => un | _ => !un

/-! ## Shapes -/

def flt (o : Ops) (srcs : List Src) (op : FF → Ctl → List Nat → W32 → Rounded) : Alu :=
  { h := o.h, d := o.d, srcs := srcs, sOk := o.fmt == .f32, tag := fun _ => tagOf o.fmt
    fn := flFn o.fmt o.rnd (op (flF o.fmt)) }

def aluFadd (o : Ops) : Alu := flt o [Ops.srcA o o.fmt, Ops.srcB o o.fmt] opFadd
def aluFsub (o : Ops) : Alu := flt o [Ops.srcA o o.fmt, Ops.srcB o o.fmt] opFsub
def aluFmul (o : Ops) : Alu := flt o [Ops.srcA o o.fmt, Ops.srcB o o.fmt] opFmul
def aluFma (o : Ops) : Alu := flt o [Ops.srcA o o.fmt, Ops.srcB o o.fmt, Ops.srcC o o.fmt] opFma
def aluFmin (o : Ops) : Alu := flt o [Ops.srcA o o.fmt, Ops.srcB o o.fmt] (opFmm false)
def aluFmax (o : Ops) : Alu := flt o [Ops.srcA o o.fmt, Ops.srcB o o.fmt] (opFmm true)
def aluFabs (o : Ops) : Alu := flt o [Ops.srcA o o.fmt] (opFabs o.sub.toNat)

/-- FCMP: one bit into P, 1 or 0 into S, a mask per element into V (R189). A predicate destination under FMT 2 or 3
traps ILLEGAL_TYPE; R189 names no trap for it. Log entry 96: DESIGN CHOICE. -/
def aluFcmp (o : Ops) : Alu :=
  let F := flF o.fmt
  { h := o.h, d := o.d, srcs := [Ops.srcA o o.fmt, Ops.srcB o o.fmt], sOk := o.fmt == .f32, pOk := o.fmt == .f32
    fn := fun fctl s xs l _ =>
      let c := ctlOf fctl .rne
      let hit := fun ys => fcmpHolds o.sub.toNat (rd F c ys 0) (rd F c ys 1)
      if s || o.d.cls == .k then { val := if hit (xs.map fun x => x % 2 ^ 32) then 1 else 0, lfsr := l }
      else flElems F (Fmt.count o.fmt) xs l fun ys l => ⟨if hit ys then 2 ^ F.bits - 1 else 0, 0, l⟩ }

/-- FCLASS (R190); a predicate destination as FCMP's. Log entry 96: DESIGN CHOICE. -/
def aluFclass (o : Ops) : Alu :=
  let F := flF o.fmt
  { h := o.h, d := o.d, srcs := [Ops.srcA o o.fmt], sOk := o.fmt == .f32, pOk := o.fmt == .f32
    fn := fun _ s xs l _ =>
      if o.d.cls == .k then
        { val := if o.x10.getLsbD (F.classBit (xs.getD 0 0 % 2 ^ 32)) then 1 else 0, lfsr := l }
      else flElems F (if s then 1 else Fmt.count o.fmt) xs l fun ys l => ⟨2 ^ F.classBit (ys.getD 0 0), 0, l⟩ }

def aluFrnd (o : Ops) : Alu :=
  flt o [Ops.srcA o o.fmt] fun F c xs l => F.toIntegral c.ftz c.mode l (xs.getD 0 0)

/-! ## Conversions (R192, R193, R201, R202) -/

/-- Converts n elements in turn; `get i` is the pattern of source element i. -/
def convElems (n : Nat) (src dst : Elem) (c : Ctl) (lfsr : W32) (get : Nat → Nat) : LaneRes :=
  let step := fun (acc : List Nat × BitVec 6 × W32) (i : Nat) =>
    let r := convert c src dst acc.2.2 (get i)
    (acc.1 ++ [r.pat], acc.2.1 ||| r.flags, r.lfsr)
  let r := (List.range n).foldl step ([], 0, lfsr)
  { val := packElems dst.bits r.1, flags := r.2.1, lfsr := r.2.2 }

def subFmt (o : Ops) : Fmt := (Fmt.ofCode o.sub.toNat).getD .raw

/-- CVT (R192). An S source outside the scalar group traps ILLEGAL_TYPE, as an S destination does (R152).
Log entry 121: DESIGN CHOICE. -/
def aluCvt (o : Ops) : Alu :=
  let sf := subFmt o
  let scalar := cvtGroup o.fmt == some 0
  let se := Fmt.elem sf 32
  let de := Fmt.elem o.fmt 32
  { h := o.h, d := o.d, srcs := [Ops.srcA o sf], wide := Fmt.wide o.fmt
    sOk := scalar, vOk := scalar || o.a.cls != .s, tag := fun _ => tagOf o.fmt
    fn := fun fctl s xs l _ =>
      let r := convElems (Fmt.count o.fmt) se de (ctlOf fctl o.rnd) l fun i => elemAt se.bits (xs.getD 0 0) i
      { r with val := extendS o.fmt s r.val } }

/-- Is an element format's register pair wide? PACK and UNPK never are. -/
def aluPack (o : Ops) : Alu :=
  let sf := subFmt o
  let se := Fmt.elem sf 32
  let de := Fmt.elem o.fmt 32
  let word := Fmt.count sf == 1
  { h := o.h, d := o.d, srcs := [Ops.srcA o sf, Ops.srcB o sf], sOk := false, tag := fun _ => tagOf o.fmt
    fn := fun fctl _ xs l old =>
      let c := ctlOf fctl o.rnd
      if word then
        let r := convElems 2 se de c l fun i => xs.getD i 0 % 2 ^ 32
        if Fmt.count o.fmt = 2 then r
        else if o.x10 = 0 then { r with val := r.val % 2 ^ 16 + old / 2 ^ 16 * 2 ^ 16 }
        else { r with val := old % 2 ^ 16 + r.val % 2 ^ 16 * 2 ^ 16 }
      else convElems 4 se de c l fun i => elemAt 16 (xs.getD (i / 2) 0) (i % 2) }

/-- UNPK (R202): FMT 1, 10 and 11 take an S destination from an S source (R84), a packed FMT none (R152). -/
def aluUnpk (o : Ops) : Alu :=
  let sf := subFmt o
  let se := Fmt.elem sf 32
  let de := Fmt.elem o.fmt 32
  { h := o.h, d := o.d, srcs := [Ops.srcA o sf], sOk := !Fmt.packed o.fmt, tag := fun _ => tagOf o.fmt
    fn := fun fctl s xs l _ =>
      let c := ctlOf fctl .rne
      if Fmt.count o.fmt = 1 then
        let r := convElems 1 se de c l fun _ => elemAt se.bits (xs.getD 0 0) o.x10.toNat
        { r with val := extendS o.fmt s r.val }
      else convElems 2 se de c l fun i => elemAt se.bits (xs.getD 0 0) (2 * o.x10.toNat + i) }

/-! ## Special functions (R194) -/

def special (op : SfuOp) (o : Ops) : Alu :=
  { flt o [Ops.srcA o o.fmt] (fun F c xs l => op.eval F c l (xs.getD 0 0)) with sOk := false }

/-! ## Dot products, differences, averages (R197 to R200) -/

/-- Floating DOT2 and DOT4; only the 16-bit formats are flushed (R110, R198). -/
def dotF (F : FF) (n : Nat) (c : Ctl) (xs : List Nat) (l : W32) : Rounded :=
  let ps := (List.range n).map fun i =>
    (F.read c.ftz (elemAt F.bits (xs.getD 0 0) i), F.read c.ftz (elemAt F.bits (xs.getD 1 0) i))
  putInv .f32 c l (FVal.dot c.mode ps (FF.f32.read c.ftz (xs.getD 2 0 % 2 ^ 32)))

def dotI (f : Fmt) (sat : Bool) (xs : List Nat) : Nat × BitVec 6 :=
  let w := Fmt.width f false
  let sg := Fmt.signed f
  let t := (List.range (Fmt.count f)).foldl
    (fun acc i => acc + readInt w sg (elemAt w (xs.getD 0 0) i) * readInt w sg (elemAt w (xs.getD 1 0) i))
    (readInt 32 sg (xs.getD 2 0))
  intRes sat 32 sg t

def dotAlu (o : Ops) : Alu :=
  let fl := Fmt.isFloat o.fmt
  let cf : Fmt := if fl then .f32 else if Fmt.signed o.fmt then .i32 else .u32
  { h := o.h, d := o.d, srcs := [Ops.srcA o o.fmt, Ops.srcB o o.fmt, Ops.srcC o cf], sOk := false
    tag := fun _ => if fl then 1 else 0
    fn := fun fctl _ xs l _ =>
      if fl then
        let c := ctlOf fctl o.rnd
        let r := dotF (flF o.fmt) (Fmt.count o.fmt) { c with ftz := c.ftz && Fmt.inRange o.fmt 2 3 } xs l
        { val := r.pat, flags := r.flags, lfsr := r.lfsr }
      else let r := dotI o.fmt (o.sub == 1) xs; { val := r.1, flags := r.2, lfsr := l } }

def aluDot2 (o : Ops) : Alu := dotAlu o
def aluDot4 (o : Ops) : Alu := dotAlu o

def aluSad (o : Ops) : Alu :=
  let w := Fmt.width o.fmt false
  let sg := Fmt.signed o.fmt
  { h := o.h, d := o.d, srcs := [Ops.srcA o o.fmt, Ops.srcB o o.fmt, Ops.srcC o .u32], sOk := false
    fn := fun _ _ xs l _ =>
      let t := (List.range (Fmt.count o.fmt)).foldl
        (fun acc i =>
          acc + (readInt w sg (elemAt w (xs.getD 0 0) i) - readInt w sg (elemAt w (xs.getD 1 0) i)).natAbs)
        (xs.getD 2 0 % 2 ^ 32)
      { val := t % 2 ^ 32, lfsr := l } }

def opAvg (sub : Nat) : Nat → Bool → List Nat → Nat × BitVec 6 := fun w sg xs =>
  (wrapInt w ((readInt w sg (xs.getD 0 0) + readInt w sg (xs.getD 1 0) + (if sub = 0 then 1 else 0)).fdiv 2), 0)

def aluAvg (o : Ops) : Alu :=
  { h := o.h, d := o.d, srcs := [Ops.srcA o o.fmt, Ops.srcB o o.fmt], sOk := false, tag := fun _ => tagOf o.fmt
    fn := intFn o.fmt (opAvg o.sub.toNat) }

/-! ## PRMT (R203) -/

/-- One byte of the result from a pool of eight bytes. -/
def prmtByte (pool : Nat) (nib : Nat) : Nat :=
  let b := elemAt 8 pool (nib % 8)
  if nib < 8 then b else if 128 ≤ b then 255 else 0

def prmtWord (pool sel : Nat) : Nat := packElems 8 ((List.range 4).map fun i => prmtByte pool (elemAt 4 sel i))

/-- In F96R the selector is C; otherwise it is B, and pool bytes 4 to 7 are zero. -/
def prmt3 (o : Ops) : Bool := o.h.len == .w3 && Ops.regB o

def selClsOk (b : SrcB) : Bool := match b with | .reg r => r.cls == .s || r.cls == .v | .imm _ => true

/-- PRMT (R203). A selector of class A traps ILLEGAL_TYPE. Log entry 121: DESIGN CHOICE. -/
def aluPrmt (o : Ops) : Alu :=
  let three := prmt3 o
  { h := o.h, d := o.d
    srcs := if three then [Ops.srcA o .raw, Ops.srcB o .raw, Ops.srcC o .raw] else [Ops.srcA o .raw, Ops.srcB o .raw]
    sOk := false, vOk := if three then selClsOk (.reg o.c) else selClsOk o.b
    fn := fun _ _ xs l _ =>
      let a := xs.getD 0 0 % 2 ^ 32
      { val := if three then prmtWord (a + 2 ^ 32 * (xs.getD 1 0 % 2 ^ 32)) (xs.getD 2 0 % 2 ^ 16)
               else prmtWord a (xs.getD 1 0 % 2 ^ 16), lfsr := l } }

/-! ## The meanings -/

def execFadd (o : Ops) (s : State) : Out := (aluFadd o).run s
def execFsub (o : Ops) (s : State) : Out := (aluFsub o).run s
def execFmul (o : Ops) (s : State) : Out := (aluFmul o).run s
def execFma (o : Ops) (s : State) : Out := (aluFma o).run s
def execFmin (o : Ops) (s : State) : Out := (aluFmin o).run s
def execFmax (o : Ops) (s : State) : Out := (aluFmax o).run s
def execFabs (o : Ops) (s : State) : Out := (aluFabs o).run s
def execFcmp (o : Ops) (s : State) : Out := (aluFcmp o).run s
def execFclass (o : Ops) (s : State) : Out := (aluFclass o).run s
def execFrnd (o : Ops) (s : State) : Out := (aluFrnd o).run s
def execCvt (o : Ops) (s : State) : Out := (aluCvt o).run s
def execRcp (o : Ops) (s : State) : Out := (special .rcp o).run s
def execRsq (o : Ops) (s : State) : Out := (special .rsq o).run s
def execSqrt (o : Ops) (s : State) : Out := (special .sqrt o).run s
def execEx2 (o : Ops) (s : State) : Out := (special .ex2 o).run s
def execLg2 (o : Ops) (s : State) : Out := (special .lg2 o).run s
def execSin (o : Ops) (s : State) : Out := (special .sin o).run s
def execCos (o : Ops) (s : State) : Out := (special .cos o).run s
def execTanh (o : Ops) (s : State) : Out := (special .tanh o).run s
def execDot2 (o : Ops) (s : State) : Out := (aluDot2 o).run s
def execDot4 (o : Ops) (s : State) : Out := (aluDot4 o).run s
def execSad (o : Ops) (s : State) : Out := (aluSad o).run s
def execAvg (o : Ops) (s : State) : Out := (aluAvg o).run s
def execPack (o : Ops) (s : State) : Out := (aluPack o).run s
def execUnpk (o : Ops) (s : State) : Out := (aluUnpk o).run s
def execPrmt (o : Ops) (s : State) : Out := (aluPrmt o).run s

end Sys2Proof.Machine
end

