-- ==== Sys2Proof/Machine/Sreg.lean ====
section
/-!
DEFINITION. Special registers: SREAD and SWRITE (R30, R145 to R149, R166, R167), and the segment registers:
SEGLD (R222, R223, R390).
-/
namespace Sys2Proof.Machine

/-- The constants of R30 in the order of their codes (R145). -/
def sregConsts : List Nat :=
  [64, 4, 192, 12, 4, 4, 24, 2, 2048, 768, 512, 64, 128, 32, 1024, 16] ++
  [128, 32, 32, 4096, 32768, 256, 32768, 128, 2048, 64, 16, 16, 16, 64, 52, 0xC000000000] ++ [2000, 1]

/-- Registers whose Access is P-RO or P-RW. -/
def sregPriv (c : Nat) : Bool := c == 0x50 || (decide (0x60 ≤ c) && decide (c ≤ 0x64))
/-- The 64-bit registers of R166. -/
def sregWide (c : Nat) : Bool := [0x1F, 0x42, 0x43, 0x60, 0x62, 0x63].contains c
/-- The per-lane registers. -/
def sregLane (c : Nat) : Bool := c == 0x44 || c == 0x50

/-- BUDGET cycles of a VD; 20,000 when the descriptor holds 0 (R430). -/
def budgetOf (v : Option Vd) : Nat := match v with | some x => if x.budget = 0 then 20000 else x.budget | none => 20000

/-- Cycles left in the team's save budget (R146 HBUDGET, R430). -/
def budgetLeft (s : State) (t : Team) : Nat :=
  match t.save with
  | .saving since _ => budgetOf (s.vd t.part t.vd) - (s.cycle - since)
  | _ => 0

/-- The launch's seed (R113). -/
def seedOf (s : State) (lid : Nat) : Nat := match s.launch lid with | some l => l.r.seed.toNat | none => 0

/-- The value of a special register (R145 to R149); `L` selects the lane of a per-lane one. -/
def sregVal (s : State) (e : Env) (c L : Nat) : Nat :=
  let inH := e.p.privileged
  if c ≤ 0x21 then sregConsts.getD c 0
  else match c with
  | 0x40 => e.t.fctl.toNat
  | 0x41 => flagWord e.t
  | 0x42 => s.time % 2 ^ 64
  | 0x43 => s.cycle % 2 ^ 64
  | 0x44 => L
  | 0x45 => e.slot
  | 0x46 => e.t.place
  | 0x47 => e.t.wave
  | 0x48 => e.p.frame
  | 0x49 => e.f.refs
  | 0x4A => e.p.wbase
  | 0x4B => e.p.wsize
  | 0x4C => e.t.ktiles
  | 0x4D => seedOf s e.t.lid % 2 ^ 32
  | 0x4E => e.t.vd
  | 0x4F => if inH then 1 else 0
  | 0x50 => (Tab.get 0 e.p.lfsr L).toNat
  | 0x60 => if inH then e.p.hd.hepc else 0
  | 0x61 => if inH then e.p.hd.hcause.toNat else 0
  | 0x62 => if inH then e.p.hd.hrep.toNat else 0
  | 0x63 => e.p.hd.ctxbase
  | 0x64 => if inH then budgetLeft s e.t else 0
  | _ => 0

def sreadNeed (o : Ops) : Need :=
  let c := o.x10.toNat
  let w := if sregWide c then 2 else 1
  { type := o.d.cls == .v || (o.d.cls == .s && !sregLane c)
    regs := [opdUse o.d w w true], priv := sregPriv c, full := o.d.cls == .s }

def sreadEff (o : Ops) (s : State) (e : Env) (act : List Nat) : Eff :=
  let c := o.x10.toNat
  if o.d.cls = .s then { sw := [(o.d.n.toNat, b64 (sregVal s e c 0))] }
  else
    let dr := e.p.wbase + o.d.n.toNat
    { vw := act.flatMap fun L => vWrites (sregWide c) dr L (sregVal s e c L)
      tags := (List.range (if sregWide c then 2 else 1)).map fun i => (dr + i, 0) }

def execSread (o : Ops) (s : State) : Out := issue s (sreadNeed o) o.h fun e act => commit s e o.h.len (sreadEff o s e act)

/-- SWRITE is privileged; LFSR takes a varying source, every other register a uniform one (R148). -/
def swriteNeed (o : Ops) : Need :=
  { type := if o.x10 = 0x50 then o.a.cls == .v else o.a.cls == .s
    regs := [opdUse o.a 1 1 false], priv := true }

/-- Only FCTL and LFSR are writable; other writes are ignored (R147). Bits 31 to 3 of FCTL are reserved.
Log entry 20: DEDUCED. -/
def swriteApply (o : Ops) (e : Env) (act : List Nat) : Env :=
  if o.x10 = 0x40 then
    { e with t := { e.t with fctl := (e.f.sreg o.a.n.toNat).setWidth 32 &&& 7 } }
  else if o.x10 = 0x50 then
    e.apply { lf := act.map fun L => let x := b32 (e.p.readV o.a.n.toNat L); (L, if x = 0 then 1 else x) }
  else e

/-- Log entry 20: DEDUCED. -/
def execSwrite (o : Ops) (s : State) : Out :=
  issue s (swriteNeed o) o.h fun e act => commit s (swriteApply o e act) o.h.len {}

/-! ## Segments -/

def Team.seg (t : Team) (g : Seg) : SegReg :=
  match g with | .glb => t.glb | .scr => t.scr | .cst => t.cst | .spn => t.spn | .ctx => t.ctx

def Team.setSeg (t : Team) (g : Seg) (r : SegReg) : Team :=
  match g with
  | .glb => { t with glb := r } | .scr => { t with scr := r } | .cst => { t with cst := r }
  | .spn => { t with spn := r } | .ctx => { t with ctx := r }

def SegReg.val (r : SegReg) : Bool := r.lim.getLsbD 63
def SegReg.rd (r : SegReg) : Bool := r.lim.getLsbD 62
def SegReg.wr (r : SegReg) : Bool := r.lim.getLsbD 61
def SegReg.limit (r : SegReg) : Nat := r.lim.toNat % 2 ^ 53
def SegReg.addr (r : SegReg) : Nat := r.base.toNat % 2 ^ 52

/-- A segment register as the launch or SEGLD builds it. -/
def SegReg.make (base limit : Nat) (val rd wr : Bool) : SegReg :=
  { base := b64 (base % 2 ^ 52)
    lim := b64 (limit % 2 ^ 53 + (if val then 2 ^ 63 else 0) + (if rd then 2 ^ 62 else 0) + (if wr then 2 ^ 61 else 0)) }

/-- The segment of a code. -/
def segOfCode (n : Nat) : Seg := match n with | 0 => .glb | 1 => .scr | 2 => .cst | 3 => .spn | _ => .ctx

def segldNeed (o : Ops) : Need :=
  { type := o.a.cls == .s && (match o.b with | .reg b => b.cls == .s | .imm _ => false)
    regs := opdUse o.a 1 1 false :: (Ops.srcB o .raw).use_, priv := true }

/-- Does SEGLD refuse the pair (R390)? -/
def segldBad (t : Team) (g : Seg) (base lim : BitVec 64) : Bool :=
  let b := base.toNat
  let l := lim.toNat % 2 ^ 53
  decide (2 ^ 52 ≤ b) || lim.extractLsb' 53 8 != 0 || decide (2 ^ 52 < b + l) ||
  (g == .scr && (b != 0 || decide (t.salloc < l)))

def execSegld (o : Ops) (s : State) : Out :=
  issue s (segldNeed o) o.h fun e act =>
    let g := segOfCode o.x10.toNat
    let base := e.f.sreg o.a.n.toNat
    let lim := b64 ((Ops.srcB o .raw).readS e)
    if act.isEmpty then commit s e o.h.len {}
    else if segldBad e.t g base lim then trap s e .seg act
    else commit s { e with t := e.t.setSeg g { base := base, lim := lim } } o.h.len {}

end Sys2Proof.Machine
end

