-- ==== Sys2Proof/Machine/Walk.lean ====
section
/-!
DEFINITION. The physical map (R21 to R23), partitions and firewalls (R25 to R27, R396 to R398), page-table
walks (R382 to R385) and the translation caches (R386).
-/
namespace Sys2Proof.Machine

/-! ## The physical map (R22) -/

inductive PaKind where
  | hbm (die : Nat)
  | dev
  | peer (port : Nat)
  | host
  | none
deriving DecidableEq, Repr

def paKind (pa : Nat) : PaKind :=
  if pa < Config.memBytes then .hbm (pa / Config.dieBytes)
  else if Config.devBase ≤ pa ∧ pa < Config.devEnd then .dev
  else if Config.peerBase ≤ pa ∧ pa < Config.hostBase then
    (if (pa - Config.peerBase) / Config.peerWindow < Config.peerPorts then .peer ((pa - Config.peerBase) / Config.peerWindow)
     else .none)
  else if Config.hostBase ≤ pa ∧ pa < Config.addrLimit then .host
  else .none

/-- Memory that has a home: HBM and host memory. -/
def isMem (pa : Nat) : Bool := match paKind pa with | .hbm _ | .host => true | _ => false

/-- Bytes that an engine of the module reads by physical address; a range that nothing answers reads ones (R23). -/
def State.physBytes (s : State) (pa n : Nat) : List Byte :=
  (List.range n).map fun i => if isMem (pa + i) then s.homeByte (pa + i) else 0xFF
def State.phys64 (s : State) (pa : Nat) : Nat := leNat (s.physBytes pa 8)

/-! ## Partitions and firewalls -/

def partOfDie (s : State) (die : Nat) : Nat := s.xd.partmap.toNat / 4 ^ die % 4
def partOfCore (s : State) (core : Nat) : Nat := partOfDie s (dieOf core)
def partOfPort (s : State) (port : Nat) : Nat := s.xd.peermap.toNat / 4 ^ port % 4
def partDies (s : State) (part : Nat) : List Nat := (List.range 4).filter fun d => partOfDie s d == part

/-- The firewall port of die a that leads to die b (R397). -/
def portTo (a b : Nat) : Nat := if b < a then b else b - 1
/-- A link passes traffic only while both its ports are open (R398). -/
def linkOpen (s : State) (a b : Nat) : Bool :=
  a == b || (!(s.die a).fwClosed.getLsbD (portTo a b) && !(s.die b).fwClosed.getLsbD (portTo b a))

/-- Is the CXL port trained on which a line travels: bit 7 of its physical address (R446)? -/
def portUp (s : State) (pa : Nat) : Bool := s.xd.cxlUp.getLsbD (pa / 128 % 2)

/-- May a request of a die reach a physical address (R23, R27)?. Log entry 28: DEDUCED. -/
def reaches (s : State) (die pa : Nat) : Bool :=
  match paKind pa with
  | .hbm d => linkOpen s die d
  | .dev => true
  | .host => portUp s pa
  | .peer p => s.xd.peerUp.getLsbD p && partOfPort s p == partOfDie s die
  | .none => false

/-- A refused request counts at the closed port it reached, saturating (R397). -/
def countRefused (s : State) (die pa : Nat) : State :=
  match paKind pa with
  | .hbm d =>
    if linkOpen s die d then s
    else
      let (at_, port) := if (s.die die).fwClosed.getLsbD (portTo die d) then (die, portTo die d) else (d, portTo d die)
      s.modDie at_ fun x =>
        let n := Tab.get 0 x.fwRefused port
        { x with fwRefused := Tab.set 0 x.fwRefused port (if n.toNat = 2 ^ 32 - 1 then n else n + 1) }
  | _ => s

/-! ## Walks -/

/-- Which rights an access needs (R384). -/
structure Rights where
  r : Bool := false
  w : Bool := false
  x : Bool := false
deriving DecidableEq, Repr

/-- A walk that fails: cause, PGSZ code, missing rights, and what R300 orders the request by. -/
structure Fail where
  cause : Cause
  pgsz : Nat := 0
  missing : BitVec 3 := 0
  cls : PageCls := .rc
  width : Width := .dev
  inst : Nat := 0
  /-- The page-table entry whose read a closed port refused (R27). -/
  refused : Option Nat := none
deriving DecidableEq, Repr

def ReqKind.isEngine : ReqKind → Bool | .copy _ | .kiln _ | .append _ => true | _ => false

/-- A page-table read that a closed port refused counts there (R397). -/
def countWalk (s : State) (die : Nat) (f : Fail) : State := match f.refused with | some a => countRefused s die a | none => s

inductive Walked where
  | leaf (l : Leaf)
  | fail (f : Fail)
deriving DecidableEq, Repr

def clsOfCode (n : Nat) : PageCls := match n with | 0 => .so | 1 => .rc | 2 => .un | _ => .bv
def widthOfCode (n : Nat) : Width := match n with | 0 => .core | 1 => .quad | 2 => .die | 3 => .dev | _ => .sys

/-- Does INST name an instance in the partition (R383, R384)? -/
def instOk (s : State) (part : Nat) (w : Nat) (inst : Nat) : Bool :=
  match w with
  | 0 => decide (inst < 192) && partOfCore s inst == part
  | 1 => decide (inst < 48) && partOfDie s (inst / 12) == part
  | 2 => decide (inst < 4) && partOfDie s inst == part
  | _ => inst == 0

def pageBytes (pgsz : Nat) : Nat := match pgsz with | 0 => 2 ^ 16 | 1 => 2 ^ 25 | _ => 2 ^ 34
def levelShift (level : Nat) : Nat := match level with | 0 => 43 | 1 => 34 | 2 => 25 | _ => 16
def levelPgsz (level : Nat) : Nat := match level with | 0 => 2 | 1 => 2 | 2 => 1 | _ => 0

def pteBits (e lo n : Nat) : Nat := e / 2 ^ lo % 2 ^ n

/-- The leaf that an entry at a level holds. -/
def leafOf (e level : Nat) : Leaf :=
  { pa := pteBits e 16 36 * 2 ^ 16, pgsz := levelPgsz level, cls := clsOfCode (pteBits e 7 2)
    width := widthOfCode (pteBits e 9 3), inst := pteBits e 52 12, noatom := e.testBit 6, mig := e.testBit 5
    x := e.testBit 4, w := e.testBit 3, r := e.testBit 2 }

/-- A leaf entry's form (R383, R384). -/
def leafWf (s : State) (part e level : Nat) : Bool :=
  decide (1 ≤ level) && pteBits e 12 4 == 0 && decide (pteBits e 9 3 ≤ 4) &&
  decide ((pteBits e 16 36 * 2 ^ 16) % pageBytes (levelPgsz level) = 0) && instOk s part (pteBits e 9 3) (pteBits e 52 12)

/-- A non-leaf entry's form. -/
def nextWf (e level : Nat) : Bool :=
  decide (level < 3) && pteBits e 52 12 == 0 && pteBits e 2 10 == 0 && decide (pteBits e 12 40 * 2 ^ 12 < Config.memBytes)

/-- What a walk that stops at a non-present entry orders the request by (R300). -/
def absentFail (s : State) (part e level : Nat) : Fail :=
  let f : Fail := { cause := .notPresent, pgsz := levelPgsz level }
  if e.testBit 0 = false ∧ e.testBit 1 ∧ 1 ≤ level ∧ pteBits e 9 3 ≤ 4 ∧ instOk s part (pteBits e 9 3) (pteBits e 52 12) then
    { f with cls := clsOfCode (pteBits e 7 2), width := widthOfCode (pteBits e 9 3), inst := pteBits e 52 12 }
  else f

/-- The walk of a die from a level down, `n` levels left (R382, R384 checks 1 and 2). An entry behind a closed port is
refused, so its read returns poison (R27). -/
def walkFrom (s : State) (die part va : Nat) : Nat → Nat → Nat → Walked
  | 0, _, _ => .fail { cause := .notPresent }
  | n + 1, level, table =>
    let at_ := table + 8 * (va / 2 ^ levelShift level % 512)
    let e := s.phys64 at_
    if !reaches s die at_ then .fail { cause := .notPresent, pgsz := levelPgsz level, refused := some at_ }
    else if s.poisoned at_ then .fail { cause := .notPresent, pgsz := levelPgsz level }
    else if e.testBit 0 = false then .fail (absentFail s part e level)
    else if e.testBit 1 then
      if leafWf s part e level then
        let l := leafOf e level
        if l.mig then .fail { cause := .migrating, pgsz := l.pgsz, cls := l.cls, width := l.width, inst := l.inst } else .leaf l
      else .fail { cause := .notPresent, pgsz := levelPgsz level }
    else if nextWf e level then walkFrom s die part va n (level + 1) (pteBits e 12 40 * 2 ^ 12)
    else .fail { cause := .notPresent, pgsz := levelPgsz level }

def vpBase (va pgsz : Nat) : Nat := va - va % pageBytes pgsz

/-- A cached leaf for an address (R386). -/
def tlbFind (t : List TlbEntry) (part vd va : Nat) : Option Leaf :=
  (t.find? fun e => e.part == part && e.vd == vd && e.vbase == vpBase va e.leaf.pgsz).map (·.leaf)

/-- The rights check (R384 check 3); a device page serves only privileged posies. -/
def permCheck (l : Leaf) (need : Rights) (priv : Bool) : Walked :=
  let devOk := priv || (match paKind l.pa with | .dev => false | _ => true)
  let mr := need.r && !(l.r && devOk)
  let mw := need.w && !(l.w && devOk)
  let mx := need.x && !(l.x && devOk)
  if mr || mw || mx then
    .fail { cause := .perm, pgsz := l.pgsz, cls := l.cls, width := l.width, inst := l.inst
            missing := (if mr then 1 else 0) ||| (if mw then 2 else 0) ||| (if mx then 4 else 0) }
  else .leaf l

/-- The translation of an address for a core (or none for an agent of a die): core cache, die cache, walk.
An address of 2^52 or more has no entry. Log entry 29: DESIGN CHOICE. -/
def translate (s : State) (part vd : Nat) (core : Option Nat) (die va : Nat) (need : Rights) (priv : Bool) : Walked :=
  match s.vd part vd with
  | none => .fail { cause := .notPresent, pgsz := 2 }
  | some v =>
    if Config.addrLimit ≤ va then .fail { cause := .notPresent, pgsz := 2 }
    else
      let cached := match core with | some c => tlbFind (s.core c).tlb part vd va | none => none
      let cached := match cached with | some l => some l | none => tlbFind (s.die die).tlb part vd va
      match cached with
      | some l => permCheck l need priv
      | none =>
        match walkFrom s die part va 4 0 v.ptroot with
        | .leaf l => permCheck l need priv
        | .fail f => .fail f

/-- Keeps the leaf of a successful translation in both caches, the oldest entries leaving (R386).
Log entry 29: DESIGN CHOICE. -/
def tlbFill (s : State) (part vd : Nat) (core : Option Nat) (die va : Nat) (l : Leaf) : State :=
  let e : TlbEntry := { part := part, vd := vd, vbase := vpBase va l.pgsz, leaf := l }
  let s1 := match core with
    | some c => s.modCore c fun x => if x.tlb.contains e then x else { x with tlb := (e :: x.tlb).take 256 }
    | none => s
  s1.modDie die fun x => if x.tlb.contains e then x else { x with tlb := (e :: x.tlb).take 32768 }

def Leaf.pa_ (l : Leaf) (va : Nat) : Nat := l.pa + va % pageBytes l.pgsz

/-- Is the issuer's core inside the page's instance (R279)? -/
def inWidth (core : Nat) (w : Width) (inst : Nat) : Bool :=
  match w with
  | .core => inst == core | .quad => inst == quadOf core | .die => inst == dieOf core | _ => true

/-- Class and width by which an access of a core is ordered: out of width it is UN at DEV (R279). A BV page
outside HBM is UN (R385). -/
def effOrder (core : Nat) (cls : PageCls) (w : Width) (inst : Nat) (pa : Option Nat) : PageCls × Width :=
  let outside := match pa with | some a => (match paKind a with | .hbm _ => false | _ => true) | none => false
  if inWidth core w inst then (if cls == .bv && outside then .un else cls, w) else (.un, .dev)

end Sys2Proof.Machine
end

