-- ==== Sys2Proof/Machine/Cache.lean ====
section
/-!
DEFINITION. Lines: the L1s, the RDCs, write-backs, merges, invalidations and fills (R219, R220, R228 to R231,
R286 to R289). A line is named by its physical address over 128.
-/
namespace Sys2Proof.Machine

def lineOf (pa : Nat) : Nat := pa / 128
def linePa (line : Nat) : Nat := line * 128
/-- The lines of some bytes. -/
def linesOf (bytes : List (Nat × Byte)) : List Nat :=
  bytes.foldl (fun ls x => if ls.contains (lineOf x.1) then ls else ls ++ [lineOf x.1]) []

/-! ## Lines of the caches -/

def State.cline (s : State) (who : Sharer) (line : Nat) : CLine :=
  match who with
  | .l1 c => (Tab.get none (s.core c).l1 line).getD {}
  | .rdc d => (Tab.get none (s.die d).rdc line).getD {}
  | .host => {}

/-- The parent of a cache for a line (R230): the RDC of a die, or none for the home. -/
def parentOf (who : Sharer) (line : Nat) : Option Nat :=
  match who with
  | .l1 c => (match paKind (linePa line) with | .hbm d => if d = dieOf c then none else some (dieOf c) | _ => none)
  | _ => none

def setBitV {w : Nat} (x : BitVec w) (i : Nat) (b : Bool) : BitVec w :=
  if b then x ||| BitVec.twoPow w i else x &&& ~~~(BitVec.twoPow w i)

/-- Stores a line; an empty line is not kept. -/
def State.putCline (s : State) (who : Sharer) (line : Nat) (x : CLine) : State :=
  let v := if x = {} then none else some x
  match who with
  | .l1 c => s.modCore c fun k => { k with l1 := Tab.set none k.l1 line v }
  | .rdc d => s.modDie d fun k => { k with rdc := Tab.set none k.rdc line v }
  | .host => s

/-- The directory of a line's home notes whether a cache holds it (R231). -/
def noteDir (s : State) (who : Sharer) (line : Nat) (holds : Bool) : State :=
  let e := Tab.get {} s.dir line
  let e' : DirEntry := match who with
    | .l1 c => { e with l1s := setBitV e.l1s c holds }
    | .rdc d => { e with rdcs := setBitV e.rdcs d holds }
    | .host => e
  { s with dir := Tab.set {} s.dir line e' }

/-- Stores a line of a cache, and its parent keeps the sharer: the RDC in its line, which it keeps while an L1 below
it holds the line, or the home in its directory (R231). This is the one place where a line of a cache changes. -/
def State.setCline (s : State) (who : Sharer) (line : Nat) (x : CLine) : State :=
  let s1 := s.putCline who line x
  let holds := decide (x ≠ {})
  match who with
  | .host => s
  | .rdc _ => noteDir s1 who line holds
  | .l1 c =>
    match parentOf who line with
    | none => noteDir s1 who line holds
    | some d =>
      let y := s1.cline (.rdc d) line
      let y' := { y with sharers := setBitV y.sharers (c % 48) holds }
      noteDir (s1.putCline (.rdc d) line y') (.rdc d) line (decide (y' ≠ {}))

def CLine.busy (x : CLine) (i : Nat) : Bool := x.dirty.getLsbD i || x.sent.getLsbD i
/-- Is byte i readable here: dirty, in flight to the parent, or in a valid sector? -/
def CLine.has (x : CLine) (i : Nat) : Bool := x.busy i || x.valid.getLsbD (i / 32)
/-- Does the line hold every byte of its 8-byte word w? -/
def CLine.covers (x : CLine) (w : Nat) : Bool := (List.range 8).all fun j => x.has (8 * w + j)
/-- The byte as the line holds it: a word that carries a poison mark reads 0xFF, whatever bytes of it are dirty (R221). -/
def CLine.read (x : CLine) (i : Nat) : Byte := if x.poison.getLsbD (i / 8) then 0xFF else Tab.get 0 x.data i
def CLine.unmerged (x : CLine) : Bool := x.dirty != 0 || x.sent != 0
/-- Unmerged bytes that a release waits for (R284). -/
def CLine.wideUnmerged (x : CLine) : Bool := (x.dirty ||| x.sent) &&& ~~~x.narrow != 0

def byteMask (bs : List (Nat × Byte)) : BitVec 128 := bs.foldl (fun m b => m ||| BitVec.twoPow 128 b.1) 0

/-- The words of `p` that are not wholly dirty: a write has replaced all eight bytes of the others, which clears
their marks (R221). Two smaller writes that together make a word dirty before a write-back count as such a write: the spec
does not say. Log entry 108: DESIGN CHOICE. -/
def keptPoison (dirty : BitVec 128) (p : BitVec 16) : BitVec 16 :=
  (List.range 16).foldl (fun p w => if (List.range 8).all (fun j => dirty.getLsbD (8 * w + j)) then p &&& ~~~(BitVec.twoPow 16 w) else p) p

/-- Writes bytes of some teams' stores into a line and marks them dirty (R229); `narrow` names those that come from a page of CORE width. -/
def CLine.write (x : CLine) (bs : List (Nat × Byte)) (narrow : BitVec 128) (teams : List Nat) : CLine :=
  let m := byteMask bs
  let dirty := x.dirty ||| m
  { x with teams := x.teams ++ teams.filter fun t => !x.teams.contains t, data := Tab.setAll 0 x.data bs, dirty := dirty, narrow := (x.narrow &&& ~~~m) ||| (narrow &&& m)
           poison := keptPoison dirty x.poison }

/-- Drops the data of bytes that are neither dirty nor in flight nor valid. -/
def CLine.tidy (x : CLine) : CLine :=
  { x with
    data := x.data.filter fun e => x.has e.1
    narrow := x.narrow &&& (x.dirty ||| x.sent)
    force := x.force && x.dirty != 0
    teams := if x.unmerged then x.teams else []
    poison := if x.valid = 0 then 0 else x.poison }

/-! ## Who holds a line -/

/-- The caches through which a core reaches a physical address, nearest first (R228). -/
def pathOf (core pa : Nat) : List Sharer :=
  match paKind pa with
  | .hbm d => if d = dieOf core then [.l1 core] else [.l1 core, .rdc (dieOf core)]
  | .host => [.l1 core]
  | _ => []

/-- The L1s of a die that hold a line of its RDC. -/
def rdcSharers (s : State) (d line : Nat) : List Sharer :=
  let x := s.cline (.rdc d) line
  ((List.range 48).filter x.sharers.getLsbD).map fun i => Sharer.l1 (48 * d + i)

/-- The sharers in the directory of a line's home, the host port among them. -/
def homeSharers (s : State) (line : Nat) : List Sharer :=
  let e := Tab.get {} s.dir line
  ((List.range 192).filter e.l1s.getLsbD).map Sharer.l1 ++ ((List.range 4).filter e.rdcs.getLsbD).map Sharer.rdc ++
  (if Tab.get false s.hostLines line then [.host] else [])

/-- Every cache that holds a line, with the host port. -/
def holders (s : State) (line : Nat) : List Sharer :=
  homeSharers s line ++ (List.range 4).flatMap fun d => if (Tab.get {} s.dir line).rdcs.getLsbD d then rdcSharers s d line else []

/-- Sharers that a merge at a parent invalidates, other than the writer: at an RDC its die's L1s (R231); at
the home everyone, but not the L1s below a writing RDC, which it invalidated itself. -/
def toInvalidate (s : State) (line : Nat) (parent : Option Nat) (writer : Option Sharer) : List Sharer :=
  match parent with
  | some d => (rdcSharers s d line).filter fun h => decide (some h ≠ writer)
  | none => (holders s line).filter fun h =>
    decide (some h ≠ writer) &&
    match h with
    | .l1 c => (match writer with | some (.rdc d) => dieOf c != d | _ => true)
    | _ => true

def isMerging (s : State) (line : Nat) (parent : Option Nat) : Bool :=
  s.merging.any fun m => m.line == line && m.parent == parent

/-- Does a closed port stand between a line's home and a sharer (R27)? -/
def cutOff (s : State) (line : Nat) (who : Sharer) : Bool :=
  match paKind (linePa line), who with
  | .hbm h, .l1 c => !linkOpen s (dieOf c) h
  | .hbm h, .rdc d => !linkOpen s d h
  | _, _ => false

/-! ## Room (R9, R14, R15, R231, R235) -/

/-- Lines of a core's L1: 768 KiB less the scratchpad. -/
def Core.l1Lines (c : Core) : Nat := 6144 - 512 * c.lsplit
/-- Lines of a die's RDC: 32 banks of 1 MiB. -/
def rdcLines : Nat := 262144
/-- Lines of the 32 home slices of a die: 4 MiB each. -/
def l2Lines : Nat := 1048576

def linesHeld (s : State) (who : Sharer) : Tab (Option CLine) × Nat :=
  match who with
  | .l1 c => ((s.core c).l1, (s.core c).l1Lines)
  | .rdc d => ((s.die d).rdc, rdcLines)
  | .host => ([], 0)

/-- A cache with no room gives up a line that is clean and that no L1 below it holds; with no such line there is
no room, and the access waits. Log entry 90: DESIGN CHOICE. -/
def makeRoom (s : State) (who : Sharer) (line : Nat) : Option State :=
  let x := linesHeld s who
  if (Tab.get none x.1 line).isSome || decide (x.1.length < x.2) then some s
  else ((Tab.live x.1).find? fun e => !e.2.unmerged && e.2.sharers == 0).map fun e => s.setCline who e.1 {}

/-- Room for a line in a core's L1, and in the RDC below which it lies. -/
def makeRooms (s : State) (who : Sharer) (line : Nat) : Option State :=
  match parentOf who line with
  | some d => (makeRoom s (.rdc d) line).bind fun s1 => makeRoom s1 who line
  | none => makeRoom s who line

/-- The L2 of the home slices takes sectors of a line that its own die's cores use; the line with the lowest
number leaves a full L2. -/
def touchL2 (s : State) (who : Sharer) (line : Nat) (sectors : BitVec 4) : State :=
  match paKind (linePa line), who with
  | .hbm d, .l1 c =>
    if dieOf c = d then
      s.modDie d fun x =>
        let l2 := if x.l2.length < l2Lines || Tab.get 0 x.l2 line != 0 then x.l2 else x.l2.drop 1
        { x with l2 := Tab.set 0 l2 line (Tab.get 0 l2 line ||| sectors) }
    else s
  | _, _ => s

/-! ## The data of a parent -/

def parentByte (s : State) (parent : Option Nat) (pa : Nat) : Byte :=
  match parent with
  | none => s.homeByte pa
  | some d => (s.cline (.rdc d) (lineOf pa)).read (pa % 128)

/-- Applies bytes at a parent: at the home, or as dirty bytes of an RDC line. -/
def applyAt (s : State) (parent : Option Nat) (line : Nat) (bytes : List (Nat × Byte)) (narrow : BitVec 128) (teams : List Nat) : State :=
  match parent with
  | none => s.writeHome (bytes.map fun x => (linePa line + x.1, x.2))
  | some d => s.setCline (.rdc d) line ((s.cline (.rdc d) line).write bytes narrow teams)

/-- The answered reads of SIGWAITs on some lines, of one core or of all, are out of date (R413). -/
def staleSigs (s : State) (core : Option Nat) (hit : Nat → Bool) : State :=
  { s with teams := s.teams.map fun e => (e.1, e.2.map fun t => { t with reqs := t.reqs.map fun r =>
      if r.kind = .sig ∧ r.stage = .replied ∧ (core = none ∨ core = some r.core) ∧ hit (lineOf r.pa) then { r with stale := true } else r }) }

/-- Words that the queue engine watches, and signals that SIGWAITs wait for, are seen through coherence (R310, R318, R413). -/
def noteMerge (s : State) (lines : List Nat) : State :=
  { staleSigs s none lines.contains with queues := s.queues.map fun e => (e.1, { e.2 with tailDirty := true, depDirty := true }) }

/-! ## Write-back, merge, invalidate (R286 to R288) -/

/-- Is a write-back of a line on its way from a cache, or merging? -/
def inFlight (s : State) (who : Sharer) (line : Nat) : Bool :=
  s.wbs.any (fun w => w.from_ == who && w.line == line) || s.merging.any fun m => m.writer == some who && m.line == line

/-- Write-backs that a cache owes for a line: the one on its way, and one for the bytes that are dirty. -/
def owed (s : State) (who : Sharer) (line : Nat) : Nat :=
  (if inFlight s who line then 1 else 0) + (if (s.cline who line).dirty = 0 then 0 else 1)

/-- The same as a release counts them: bytes of pages of CORE width are not waited for (R284). -/
def owedWide (s : State) (who : Sharer) (line : Nat) : Nat := if (s.cline who line).wideUnmerged then owed s who line else 0

/-- Write-backs that a release counts, or an order of every access at SYS width. -/
def owedFor (full : Bool) (s : State) (who : Sharer) (line : Nat) : Nat := if full then owed s who line else owedWide s who line

/-- A list of awaited write-backs with n of one cache and line. -/
def awaitN (x : Sharer × Nat) (n : Nat) (xs : List (Sharer × Nat)) : List (Sharer × Nat) := xs.filter (· != x) ++ List.replicate n x

/-- A release waits for a merge that has ended: it goes, or moves on to the write-backs that the RDC owes (R284). -/
def snapList (x : Sharer × Nat) (up : Option ((Sharer × Nat) × Nat)) (wide : Bool) (xs : List (Sharer × Nat)) : List (Sharer × Nat) :=
  if xs.contains x then
    match up with
    | some y => if wide then awaitN y.1 y.2 (xs.erase x) else xs.erase x
    | none => xs.erase x
  else xs

/-- Bytes that went without a write-back are not waited for. Log entry 24: DESIGN CHOICE. -/
def snapTrim (x : Sharer × Nat) (n : Nat) (xs : List (Sharer × Nat)) : List (Sharer × Nat) :=
  if n < xs.count x then awaitN x n xs else xs

/-- Changes what every release and completion waits for, told whether it waits for merges at home and whether for bytes of
pages of CORE width too. -/
def mapSnaps (s : State) (f : Bool → Bool → List (Sharer × Nat) → List (Sharer × Nat)) : State :=
  { s with
    teams := s.teams.map fun e => (e.1, e.2.map fun t =>
      { t with reqs := t.reqs.map fun r => { r with snap := r.snap.map (f (r.full || r.width == .dev || r.width == .sys) r.full) } })
    launches := s.launches.map fun e => (e.1, e.2.map fun l => { l with snap := f true true l.snap }) }

/-- Does a write-back of an RDC meet a closed port (R27, R398)? -/
def wbRefused (s : State) (who : Sharer) (line : Nat) : Bool := match who with | .rdc _ => cutOff s line who | _ => false

/-- Bytes that are dropped leave a line; what waited for their write-back waits for it no more. -/
def dropDirty (s : State) (who : Sharer) (line : Nat) : State :=
  let s1 := s.setCline who line (CLine.tidy { s.cline who line with dirty := 0 })
  mapSnaps s1 fun _ _ => snapTrim (who, line) (owed s1 who line)

/-- Sets MERR of some teams. -/
def merrTeams (s : State) (ts : List Nat) : State := ts.foldl (fun s t => s.modTeam t fun t => t.raise flagMerr) s

/-- WRITE_BACK: every dirty byte of the line goes to its parent together. One write-back of a line is in
flight from a cache at a time, and an RDC does not write back a line while it merges it. A write-back that comes to
a closed port is refused: its bytes are dropped, it is counted, and MERR is set of the teams whose stores it carried (R27).
Log entry 91: DEDUCED. -/
def writeBack (s : State) (who : Sharer) (line : Nat) : State :=
  let x := s.cline who line
  let held := match who with | .rdc d => isMerging s line (some d) | _ => false
  if x.dirty = 0 || s.wbs.any (fun w => w.from_ == who && w.line == line) || held || x.sent != 0 then s
  else if wbRefused s who line then
    merrTeams (countRefused (dropDirty s who line) (match who with | .rdc d => d | _ => 0) (linePa line)) x.teams
  else
    let bytes := ((List.range 128).filter fun i => x.dirty.getLsbD i).map fun i => (i, Tab.get 0 x.data i)
    { s.setCline who line { x with dirty := 0, sent := x.dirty, force := false } with
      wbs := s.wbs ++ [{ from_ := who, line := line, parent := parentOf who line, bytes := bytes, narrow := x.narrow, force := x.force, teams := x.teams }] }

/-- A release store has entered the write buffer: its line is written back now, or as soon as the write-back on its
way has merged (R284). -/
def forceBack (s : State) (who : Sharer) (line : Nat) : State :=
  writeBack (s.setCline who line { s.cline who line with force := true }) who line

/-- A write-back that a release store asked for follows once the line is free. -/
def followBack (s : State) (who : Sharer) (line : Nat) : State :=
  if (s.cline who line).force then writeBack s who line else s

/-- The writer learns that its bytes are merged and every invalidation acknowledged (R287 step 4). -/
def ackWriter (s : State) (m : Merging) : State :=
  let s1 := match m.writer with
    | some w =>
      let x := s.cline w m.line
      let s1 := s.setCline w m.line (CLine.tidy { x with sent := 0 })
      followBack (mapSnaps s1 fun wide full =>
        snapList (w, m.line) (m.parent.map fun d => ((.rdc d, m.line), owedFor full s1 (.rdc d) m.line)) wide) w m.line
    | none => s
  let s2 := match m.parent with | some d => followBack s1 (.rdc d) m.line | none => s1
  match m.req with
  | some (tid, seq, sub) =>
    s2.modTeam tid fun t =>
      { t with reqs := t.reqs.map fun r => if r.seq = seq ∧ r.sub = sub then { r with stage := .replied } else r }
  | none => s2

/-- A line enters the merging state with invalidations to its sharers; with no sharer to wait for, the merge ends. An
invalidation that comes to a closed port does not pass it (R27). -/
def enterMerge (s : State) (line : Nat) (parent : Option Nat) (writer : Option Sharer) (req : Option (Nat × Nat × Nat))
    (defers : List Authority := []) (unit : Option Nat := none) : State :=
  let wait := toInvalidate s line parent writer
  let m : Merging := { line := line, parent := parent, wait := wait, held := if parent = none then wait.filter (cutOff s line) else []
                       writer := writer, req := req, defers := defers, unit := unit }
  if m.wait.isEmpty then ackWriter s m else { s with merging := s.merging ++ [m] }

/-- Puts bytes at a parent and enters the merging state. -/
def beginMerge (s : State) (line : Nat) (parent : Option Nat) (bytes : List (Nat × Byte)) (writer : Option Sharer)
    (req : Option (Nat × Nat × Nat)) (narrow : BitVec 128 := 0) (defers : List Authority := []) (teams : List Nat := []) : State :=
  enterMerge (noteMerge (applyAt s parent line bytes narrow teams) [line]) line parent writer req defers

/-- MERGE: the write-back is the first on its way to that parent for its line, and the line is not
merging there; a firewall that closed behind it lets it complete (R398). -/
def mergeWb (s : State) (idx : Nat) : State :=
  match s.wbs[idx]? with
  | none => s
  | some w =>
    if isMerging s w.line w.parent || (s.wbs.take idx).any (fun v => v.line == w.line && v.parent == w.parent) then s
    else
      let s1 := touchL2 { s with wbs := s.wbs.eraseIdx idx } w.from_ w.line (w.bytes.foldl (fun m b => m ||| BitVec.twoPow 4 (b.1 / 32)) 0)
      let s2 := match w.parent with
        | some d => if w.force then s1.setCline (.rdc d) w.line { s1.cline (.rdc d) w.line with force := true } else s1
        | none => s1
      beginMerge s2 w.line w.parent w.bytes (some w.from_) none w.narrow [] w.teams

/-- Drops the replica of a sharer: valid bytes that are not dirty go (R288). -/
def dropReplica (s : State) (who : Sharer) (line : Nat) : State :=
  match who with
  | .host => { s with hostLines := Tab.set false s.hostLines line false }
  | _ => let x := s.cline who line; s.setCline who line (CLine.tidy { x with valid := 0 })

/-- INVALIDATION: a sharer whose acknowledgement is owed drops its replica and acknowledges; the last
acknowledgement ends the merge. An invalidation that a closed port holds waits until the port is open. -/
def invalidate (s : State) (who : Sharer) (line : Nat) : State :=
  match s.merging.find? (fun m => m.line == line && m.wait.contains who && !(m.held.contains who && cutOff s line who)) with
  | none => s
  | some m =>
    let s1 := dropReplica s who line
    let m' := { m with wait := m.wait.erase who, held := m.held.erase who }
    if m'.wait.isEmpty then ackWriter { s1 with merging := s1.merging.erase m } m'
    else { s1 with merging := s1.merging.map fun x => if x = m then m' else x }

/-- May a cache take a line (R228)? An RDC takes it over an open link; an L1 below it from the RDC, which no port stands before. -/
def canHold (s : State) (who : Sharer) (line : Nat) : Bool :=
  match who, paKind (linePa line) with
  | .l1 c, .hbm _ | .l1 c, .host => decide (c < Config.coreCount)
  | .rdc e, .hbm d => decide (e < Config.dieCount) && d != e && linkOpen s e d
  | _, _ => false

/-- FILL: a sector of a line that merges nowhere on the way is copied; bytes that are not dirty take the
parent's data (R220, R229, R288). An L1 below an RDC fills from a sector the RDC holds. -/
def fillSector (s0 : State) (who : Sharer) (line sector : Nat) : State :=
  let parent := parentOf who line
  let ready := match parent with
    | none => !isMerging s0 line none
    | some d => !isMerging s0 line (some d) && !isMerging s0 line none && (s0.cline (.rdc d) line).valid.getLsbD sector
  if 4 ≤ sector || !canHold s0 who line || !ready || (s0.cline who line).valid.getLsbD sector then s0
  else
    match makeRooms s0 who line with
    | none => s0
    | some s =>
      let x := s.cline who line
      let idx := (List.range 32).map fun i => 32 * sector + i
      let data := idx.foldl (fun t i => if x.busy i then t else
        Tab.set 0 t i (match parent with | none => s.byte (linePa line + i) | some d => Tab.get 0 (s.cline (.rdc d) line).data i)) x.data
      let bad := fun w => match parent with
        | none => s.poisoned (linePa line + 8 * w)
        | some d => (s.cline (.rdc d) line).poison.getLsbD w
      let whole := fun w => (List.range 8).all fun j => x.busy (8 * w + j)
      let words := (List.range 4).map fun j => 4 * sector + j
      let poison := words.foldl (fun p w => setBitV p w (bad w && !whole w)) x.poison
      touchL2 (s.setCline who line { x with valid := x.valid ||| BitVec.twoPow 4 sector, data := data, poison := poison })
        who line (BitVec.twoPow 4 sector)

/-- The fetch of a request: a core's caches take the sectors that its bytes touch and that they miss (R220, R229). -/
def fetchLine (s : State) (core pa n : Nat) : State :=
  let line := lineOf pa
  let sectors := (List.range 4).filter fun k => (List.range n).any fun i => (pa + i) / 128 == line && (pa + i) % 128 / 32 == k
  let missing := sectors.filter fun k => (List.range n).any fun i => (pa + i) % 128 / 32 == k && !(s.cline (.l1 core) line).has ((pa + i) % 128)
  missing.foldl (fun s k => (pathOf core pa).reverse.foldl (fun s c => fillSector s c line k) s) s

/-- DIRECTORY_EVICT: a home recalls a line from every sharer. A sharer with dirty bytes writes them back, one with
none unmerged drops its copy, an RDC after the L1s below it; the step comes again until no sharer is left (R231). A recall that
comes to a closed port waits (R27). -/
def directoryEvict (s : State) (line : Nat) : State :=
  (holders s line).reverse.foldl (fun s h =>
    let x := s.cline h line
    if cutOff s line h then s
    else if x.dirty != 0 then writeBack s h line
    else if x.unmerged then s
    else staleSigs (dropReplica s h line) none (· == line)) s

/-! ## Reading and writing through the caches of a core -/

/-- Is the word of an address poisoned for a reader that goes through these caches? The first that marks the word or
holds it whole decides, and else the home (R221). -/
def markedVia (s : State) (pa : Nat) : List Sharer → Bool
  | [] => s.poisoned pa
  | c :: t =>
    let x := s.cline c (lineOf pa)
    x.poison.getLsbD (pa % 128 / 8) || (!x.covers (pa % 128 / 8) && markedVia s pa t)

/-- A byte as a reader finds it through these caches: where it is held first, else at home. -/
def byteVia (s : State) (path : List Sharer) (pa : Nat) : Byte × Bool :=
  let bad := markedVia s pa path
  let b := match path.find? fun c => (s.cline c (lineOf pa)).has (pa % 128) with
    | some c => Tab.get 0 (s.cline c (lineOf pa)).data (pa % 128)
    | none => s.byte pa
  (if bad then 0xFF else b, bad)

/-- A byte bound by a load (R280, R289): dirty in the write buffer, a valid replica, the RDC, the home. The
flag says that the word is poisoned. -/
def bindByte (s : State) (core pa : Nat) : Byte × Bool := byteVia s (pathOf core pa) pa

/-- Does binding this byte reach a home or RDC line that is merging (R287 step 3)? -/
def bindWaits (s : State) (core pa : Nat) : Bool :=
  let line := lineOf pa
  let i := pa % 128
  match (pathOf core pa).find? fun c => (s.cline c line).has i with
  | some (.rdc d) => isMerging s line (some d)
  | some _ => false
  | none => isMerging s line none

/-- Bytes of a team's store enter the write buffer of the core's L1, which allocates their lines; none where it has no room.
`narrow`: they come from a page of CORE width. -/
def bufferBytes (s : State) (core team : Nat) (bytes : List (Nat × Byte)) (narrow : Bool) : Option State :=
  (linesOf bytes).foldl (fun o line => o.bind fun s => (makeRooms s (.l1 core) line).map fun s =>
    let mine := (bytes.filter fun x => lineOf x.1 == line).map fun x => (x.1 % 128, x.2)
    staleSigs (s.setCline (.l1 core) line ((s.cline (.l1 core) line).write mine (if narrow then BitVec.allOnes 128 else 0) [team]))
      (some core) fun l => narrow && l == line) (some s)

/-- Unmerged lines of a cache, one entry per write-back each still owes. -/
def unmergedOf (s : State) (who : Sharer) (t : Tab (Option CLine)) : List (Sharer × Nat) :=
  (Tab.live t).flatMap fun e => List.replicate (owed s who e.1) (who, e.1)

/-- The same without the bytes of pages of CORE width. -/
def wideOf (s : State) (who : Sharer) (t : Tab (Option CLine)) : List (Sharer × Nat) :=
  (Tab.live t).flatMap fun e => List.replicate (owedWide s who e.1) (who, e.1)

/-- What a release at width X waits for: lines dirty in the L1, and for DEV and SYS in the die's RDC, but for bytes
of pages of CORE width (R284). Log entry 24: DESIGN CHOICE. -/
def releaseSnap (s : State) (core : Nat) (w : Width) : List (Sharer × Nat) :=
  match w with
  | .core => []
  | .quad | .die => wideOf s (.l1 core) (s.core core).l1
  | _ => wideOf s (.l1 core) (s.core core).l1 ++ wideOf s (.rdc (dieOf core)) (s.die (dieOf core)).rdc

/-- What an order of every access at SYS width waits for: all lines dirty in the L1 and in the die's RDC (R258, R285, R316,
R388). -/
def fullSnap (s : State) (core : Nat) : List (Sharer × Nat) :=
  unmergedOf s (.l1 core) (s.core core).l1 ++ unmergedOf s (.rdc (dieOf core)) (s.die (dieOf core)).rdc

/-- An L1 gives up every line, and leaves every sharer set (R238 step 3). -/
def dropL1 (s : State) (core : Nat) : State := (s.core core).l1.foldl (fun s e => s.setCline (.l1 core) e.1 {}) s

/-- Every dirty byte of a line between a core and its home has merged (before an atomic, R256). -/
def pathClean (s : State) (core line : Nat) : Bool :=
  (pathOf core (linePa line)).all fun c => !(s.cline c line).unmerged

/-! ## Engine accesses at SYS width -/

/-- A write by an engine, the host, a peer or the service cluster, performed at the home at SYS width: the bytes are
applied, and each line enters the merging state until its sharers, other than the writer, have acknowledged (R287).
Bytes outside memory are dropped (R23). The writer goes on while acknowledgements are owed. Log entry 51: DEDUCED. -/
def sysWriteBy (writer : Option Sharer) (s : State) (bytes : List (Nat × Byte)) (defers : List Authority := []) (unit : Option Nat := none) : State :=
  let w := bytes.filter fun x => isMem x.1
  (linesOf w).foldl (fun s l => enterMerge s l none writer none defers unit) (noteMerge (s.writeHome w) (linesOf w))

/-- The bytes of a die's unit that reach their homes; the others are dropped, and a closed port counts one request a line
(R23, R27, R397). -/
def dieReach (s : State) (d : Nat) (bytes : List (Nat × Byte)) : State × List (Nat × Byte) :=
  ((linesOf (bytes.filter fun x => !reaches s d x.1)).foldl (fun s l => countRefused s d (linePa l)) s, bytes.filter fun x => reaches s d x.1)

/-- A write of a unit of a die at SYS width: of its context engine or its park store. -/
def dieStore (s : State) (d : Nat) (bytes : List (Nat × Byte)) : State :=
  let r := dieReach s d bytes
  sysWriteBy none r.1 r.2 [] (some d)

/-- A word that such a unit reads: all ones where it is refused. -/
def dieLoad64 (s : State) (d pa : Nat) : Nat := if reaches s d pa then s.phys64 pa else 2 ^ 64 - 1

def sysWrite (s : State) (bytes : List (Nat × Byte)) : State := sysWriteBy none s bytes
def sysWrite64 (s : State) (pa v : Nat) : State := sysWrite s (placed pa (leBytes 8 v))

end Sys2Proof.Machine
end

