-- ==== Sys2Proof/Machine/Fibres.lean ====
section
/-!
DEFINITION. Fibres, frames, joins and spawn records, with the bytes they hold in spawn memory: splitting a posy, the
core's FIFO, the posy former, rotation, forks and exits (R32 to R62, R487).
-/
namespace Sys2Proof.Machine

/-! ## Spawn memory (R44, R45, R487) -/

def frameBytes : Nat := 768
/-- A group record of c fibres that carries b registers. -/
def recBytes (c b : Nat) : Nat := 64 + 8 * c + 8 * ((b + 15) / 16) + 4 * b * c

def Team.spawnUsed (t : Team) : Nat :=
  ((Tab.live t.recs).map fun r => r.2.bytes).sum + frameBytes * ((Tab.live t.frames).filter fun f => f.2.spawned).length
def Team.spawnFits (t : Team) (extra : Nat) : Bool := decide (t.spawnUsed + extra ≤ t.spn.limit)
/-- Live fibres of all frames (R36, R37). -/
def Team.liveFibres (t : Team) : Nat := ((Tab.live t.frames).map fun f => f.2.refs).sum
/-- Resident, not stopped, not being saved or restored. -/
def Team.running (t : Team) : Bool := t.stopped.isNone && t.save == .resident
/-- It holds units of its core. -/
def Team.occupies (t : Team) : Bool := match t.save with | .saved _ => false | _ => true

def Team.modFrame (t : Team) (id : Nat) (f : Frame → Frame) : Team :=
  match t.frame id with | some x => t.setFrame id (some (f x)) | none => t

/-! ## Bays (R12, R13, R49) -/

def State.posiesAt (s : State) (core : Nat) : List (Nat × Posy) :=
  (Tab.live s.posies).filter fun e => e.1 / Config.slots == core

/-- Free posy-registers of a bay's pool. -/
def bayFree (s : State) (core bay : Nat) : Nat :=
  Config.bayPool - ((s.posiesAt core).map fun e => if e.1 % Config.slots % 4 = bay then e.2.alloc else 0).sum

/-- The largest window that the header of a launch resident on the core declares. -/
def winMax (s : State) (core : Nat) : Nat :=
  (Tab.live s.teams).foldl (fun m e => if e.2.core = core ∧ e.2.occupies then
    (match s.launch e.2.lid with | some l => max m l.h.winmax | none => m) else m) 0

/-- The reserve of bays 2 and 3 (R49). -/
def bayReserve (s : State) (core bay : Nat) : Nat := if bay = 2 ∨ bay = 3 then winMax s core else 0

/-! ## Records -/

/-- PRESENT: the fibres at an open instance, in its holder and in waiting records (kind 1). -/
def Team.waitingAt (t : Team) (frame pc : Nat) : List (Nat × Rec) :=
  (Tab.live t.recs).filter fun r => r.2.kind == .waiting && r.2.frame == frame && r.2.pc == pc
def presentAt (s : State) (t : Team) (frame : Nat) (j : JoinRec) : Nat :=
  (match j.holder with
   | some slot => (match s.posy (posyKey t.core slot) with | some p => p.present.length | none => 0)
   | none => 0) +
  ((t.waitingAt frame j.pc).map fun r => r.2.fibres.length).sum

def Frame.join (f : Frame) (i : Nat) : Option JoinRec := Tab.get none f.joins i
def Frame.setJoin (f : Frame) (i : Nat) (j : Option JoinRec) : Frame := { f with joins := Tab.set none f.joins i j }

/-! ### Their bytes (R44 to R46) -/

def allOnes64 : Nat := 2 ^ 64 - 1

/-- A join record of 24 bytes. -/
def joinImage (s : State) (t : Team) (frame : Nat) (j : Option JoinRec) : List Byte :=
  match j with
  | none => leBytes 8 allOnes64 ++ leBytes 8 allOnes64 ++ leBytes 5 0 ++ leBytes 1 0xFF ++ leBytes 2 0
  | some j =>
    leBytes 8 j.pc ++ leBytes 8 (if j.open_ && j.bounded then j.deadline.getD allOnes64 else allOnes64) ++ leBytes 2 j.passed ++
    leBytes 2 (if j.open_ then presentAt s t frame j else 0) ++
    leBytes 1 ((if j.open_ then 1 else 0) + (if j.open_ && j.bounded then 2 else 0) + (if j.holder.isSome then 4 else 0)) ++
    leBytes 1 (j.holder.getD 0xFF) ++ leBytes 2 0

/-- A frame record of 768 bytes. -/
def frameImage (s : State) (t : Team) (id : Nat) (f : Frame) : List Byte :=
  leBytes 2 id ++ leBytes 2 (f.parent.getD 0xFFFF) ++ leBytes 4 f.refs ++ leBytes 24 0 ++
  (List.range 4).flatMap (fun i => joinImage s t id (f.join i)) ++
  (List.range 32).flatMap (fun n => leBytes 8 (f.sreg n).toNat) ++
  (List.range 16).flatMap (fun n => leBytes 8 (f.areg n).1.toNat ++ leBytes 8 (f.areg n).2.toNat) ++
  (List.range 16).flatMap (fun n => leBytes 8 (f.hreg n).toNat)

def RecKind.code : RecKind → Nat | .pending => 0 | .waiting => 1 | .rotated => 2

/-- The first 64 bytes of a group record; LINK is the offset of the team's next record in the FIFO. -/
def recHead (r : Rec) (link : Nat) : List Byte :=
  leBytes 8 r.pc ++ leBytes 2 r.frame ++ leBytes 2 r.wbase ++ leBytes 2 r.wsize ++ leBytes 2 r.fibres.length ++
  leBytes 2 (RecKind.code r.kind) ++ leBytes 2 (if r.phase then 1 else 0) ++ leBytes 4 0 ++ leBytes 8 r.seq ++ leBytes 8 link ++ leBytes 24 0

/-- A group record: fibre entries, tags, and registers 0 to b − 1, register by register, fibre by fibre. -/
def recImage (r : Rec) (link : Nat) : List Byte :=
  let b := r.wbase + r.wsize
  recHead r link ++
  r.fibres.flatMap (fun f => leBytes 4 f.fid ++ leBytes 2 (f.preds ||| 1).toNat ++ leBytes 2 0) ++
  (List.range (8 * ((b + 15) / 16))).flatMap (fun k =>
    let tag := fun i => if i < b then (Tab.get 0 r.tags i).toNat else 0
    leBytes 1 (tag (2 * k) + 16 * tag (2 * k + 1))) ++
  (List.range b).flatMap fun n => r.fibres.flatMap fun f => leBytes 4 (Tab.get 0 f.regs n).toNat

/-- The group record that some bytes hold (R439): the part of it that its first 64 bytes bound. -/
def recOfBytes (read : Nat → Nat → List Byte) : Rec :=
  let h := read 0 64
  let at_ := fun o n => leNat ((h.drop o).take n)
  let wbase := min (at_ 10 2) 256
  let wsize := min (at_ 12 2) (256 - wbase)
  let b := wbase + wsize
  let c := min (at_ 14 2) 1024
  let t := 8 * ((b + 15) / 16)
  let body := read 64 (8 * c + t + 4 * b * c)
  let word := fun o n => leNat ((body.drop o).take n)
  { pc := at_ 0 8, frame := at_ 8 2, wbase := wbase, wsize := wsize
    kind := (match at_ 16 2 with | 1 => .waiting | 2 => .rotated | _ => .pending), phase := at_ 18 2 % 2 == 1
    seq := at_ 24 8, bytes := recBytes c b
    fibres := (List.range c).map fun i =>
      { fid := word (8 * i) 4, preds := BitVec.ofNat 16 (word (8 * i + 4) 2) &&& 0xFFFE
        regs := Tab.setAll 0 [] ((List.range b).map fun n => (n, BitVec.ofNat 32 (word (8 * c + t + 4 * (n * c + i)) 4))) }
    tags := Tab.setAll 0 [] ((List.range b).map fun n => (n, tagOfByte (BitVec.ofNat 8 (word (8 * c + n / 2) 1 / 16 ^ (n % 2) % 16)))) }

/-! ### Their places (R487) -/

/-- The pieces of the spawn region that a team's records hold: offset and size. -/
def Team.spawnHeld (t : Team) : List (Nat × Nat) :=
  ((Tab.live t.recs).filterMap fun r => r.2.off.map fun o => (o, r.2.bytes)) ++
  (Tab.live t.frames).filterMap fun f => f.2.off.map fun o => (o, frameBytes)

/-- Is a piece of n bytes free at an offset? -/
def Team.spawnFree (t : Team) (n o : Nat) : Bool :=
  decide (o + n ≤ t.spn.limit) && t.spawnHeld.all fun h => decide (h.1 + h.2 ≤ o) || decide (o + n ≤ h.1)

/-- Where a new record of n bytes goes: a free value where that is free, else the lowest free place behind another
record. Log entry 17: DESIGN CHOICE. -/
def Team.spawnPlace (t : Team) (n : Nat) : Option Nat :=
  let wish := 64 * (Config.recPlace t.nextRec % max 1 (t.spn.limit / 64))
  (wish :: 0 :: t.spawnHeld.map fun h => (h.1 + h.2 + 63) / 64 * 64).find? (t.spawnFree n)

/-- Sizes rounded up and laid out one behind another from an offset: each with its place, and the offset behind them. -/
def layOut (al : Nat) : List Nat → Nat → List Nat × Nat
  | [], o => ([], o)
  | n :: t, o => let r := layOut al t ((o + n + al - 1) / al * al); (o :: r.1, r.2)

/-- The places that a team's records and frame records take when they are moved together, and the offset behind them. -/
def Team.packed (t : Team) (al : Nat) : List Nat × Nat :=
  layOut al (((Tab.live t.recs).map fun r => r.2.bytes) ++ ((Tab.live t.frames).filter fun f => f.2.spawned).map fun _ => frameBytes) 0

/-- The place of the record, or frame record, with a number among those moved together. -/
def Team.packedRec (t : Team) (al id : Nat) : Option Nat := (t.packed al).1[((Tab.live t.recs).findIdx fun r => r.1 == id)]?
def Team.packedFrame (t : Team) (al id : Nat) : Option Nat :=
  (t.packed al).1[(Tab.live t.recs).length + ((Tab.live t.frames).filter fun f => f.2.spawned).findIdx fun f => f.1 == id]?

/-- A place for n bytes. Where no piece of the region is large enough the records move together first, so that every
record that R487 counts in has a place. Log entry 17: DESIGN CHOICE. -/
def Team.makePlace (t : Team) (n : Nat) : Team × Option Nat :=
  let al := if (t.packed 64).2 + n ≤ t.spn.limit then 64 else 4
  let move := (t.spawnPlace n).isNone && decide ((t.packed al).2 + n ≤ t.spn.limit)
  ({ t with
     recs := t.recs.map fun x => (x.1, x.2.map fun r => { r with off := if move then t.packedRec al x.1 else r.off })
     frames := t.frames.map fun x => (x.1, x.2.map fun f => { f with off := if move && f.spawned then t.packedFrame al x.1 else f.off }) },
   if move then some (t.packed al).2 else t.spawnPlace n)

/-- Bytes at an offset of the spawn region, at their physical addresses. Log entry 16: DESIGN CHOICE. -/
def spawnBytes (s : State) (t : Team) (off : Nat) (bs : List Byte) : List (Nat × Byte) :=
  let va := t.spn.addr + off
  ((List.range ((va % 65536 + bs.length + 65535) / 65536)).map fun i => va / 65536 + i).flatMap fun p =>
    match translate s t.part t.vd (some t.core) (dieOf t.core) (max va (65536 * p)) { w := true } true with
    | .leaf l => (placed va bs).filterMap fun x => if x.1 / 65536 = p then some (l.pa_ x.1, x.2) else none
    | .fail _ => []

/-- The physical address of an offset of the spawn region that its core's die can read; none where no page or no link gives it. -/
def spawnPa (s : State) (t : Team) (off : Nat) : Option Nat :=
  let va := t.spn.addr + off
  match translate s t.part t.vd (some t.core) (dieOf t.core) va { r := true } true with
  | .leaf l => if reaches s (dieOf t.core) (l.pa_ va) then some (l.pa_ va) else none
  | .fail _ => none

/-- Does a closed port or an unassigned range refuse the read of a record's header (R23, R27)? -/
def spawnRefused (s : State) (t : Team) (off : Nat) : Bool :=
  let va := t.spn.addr + off
  match translate s t.part t.vd (some t.core) (dieOf t.core) va { r := true } true with
  | .leaf l => !reaches s (dieOf t.core) (l.pa_ va)
  | .fail _ => false

/-- n bytes at an offset of the spawn region. -/
def spawnRead (s : State) (t : Team) (off n : Nat) : List Byte :=
  (List.range n).map fun i => match spawnPa s t (off + i) with
    | some pa => (s.physBytes pa 1).headD 0xFF
    | none => 0xFF

/-- The offset of a record, or of the piece that a record without a place of its own would take (R487).
Log entry 118: DESIGN CHOICE. -/
def recOffset (t : Team) (id : Nat) : Nat :=
  ((Tab.get none t.recs id).bind (·.off)).getD (64 * (Config.recPlace id % max 1 (t.spn.limit / 64)))

/-- The records of a team in its core's FIFO. -/
def teamFifo (s : State) (team : Nat) (t : Team) : List Nat :=
  ((s.core t.core).fifo.filter fun e => e.1 == team).map (·.2) ++ t.fifoPart

/-- LINK of a record: the team's next one in the FIFO. -/
def recLink (s : State) (team : Nat) (t : Team) (id : Nat) : Nat :=
  match ((teamFifo s team t).dropWhile (· != id)).tail.head? with
  | some n => recOffset t n
  | none => allOnes64

/-- The occupied entries of a core's frame store (R128): the frames that a posy of the core references, by team. -/
def frameStore (s : State) (core : Nat) : List (Nat × Nat) := ((s.posiesAt core).map fun e => (e.2.team, e.2.frame)).eraseDups

/-- What a step of a team from `s0` to `s` writes into spawn memory: the records that are new or changed, among them those
whose LINK changed, each inside its own bytes; the frame records of their frames (R39), and of the frames that left the frame store (R128). -/
def spawnChanges (s0 s : State) (team : Nat) : List (Nat × Byte) :=
  match s0.team team, s.team team with
  | some t0, some t =>
    let new := (Tab.live t.recs).filter fun r =>
      !(Tab.get none t0.recs r.1 == some r.2 && recLink s0 team t0 r.1 == recLink s team t r.1)
    let left := (frameStore s0 t.core).filter fun x => x.1 == team && !(frameStore s t.core).contains x
    new.flatMap (fun r => match r.2.off with | some o => spawnBytes s t o ((recImage r.2 (recLink s team t r.1)).take r.2.bytes) | none => []) ++
    ((Tab.live t.frames).filter fun f => new.any (fun r => r.2.frame == f.1) || left.any (fun x => x.2 == f.1) ||
      (t0.frame f.1).any fun g => g.off != f.2.off).flatMap fun f =>
      match f.2.off with | some o => spawnBytes s t o (frameImage s t f.1 f.2) | none => []
  | _, _ => []

/-- The state after such a step, with spawn memory written; bytes that are refused are dropped and set MERR (R23, R27). -/
def withSpawn (s0 : State) (team : Nat) (s : State) : State :=
  match s0.team team with
  | none => s
  | some t =>
    let bs := spawnChanges s0 s team
    let r := dieReach s (dieOf t.core) bs
    let u := sysWriteBy none r.1 r.2 [] (some (dieOf t.core))
    { s with mem := u.mem, poison := u.poison, queues := u.queues, merging := u.merging, dies := u.dies }.modTeam team fun t =>
      t.raise (flagIf (decide (r.2.length ≠ bs.length)) flagMerr)

def insertFib (f : RecFib) : List RecFib → List RecFib
  | [] => [f]
  | g :: t => if f.fid ≤ g.fid then f :: g :: t else g :: insertFib f t

/-- Increasing fibre index. -/
def sortFibs (fs : List RecFib) : List RecFib := fs.foldr insertFib []

/-- The contents of a lane as a record carries them (R42). -/
def Posy.fibAt (p : Posy) (L : Nat) : RecFib :=
  { fid := p.fid L, preds := Tab.get 0 p.preds L
    regs := p.v.filterMap fun x => if x.1 % 64 = L then some (x.1 / 64, x.2) else none }

def Posy.record (p : Posy) (lanes : List Nat) (pc wbase : Nat) (kind : RecKind) (phase : Bool) : Rec :=
  { pc := pc, frame := p.frame, wbase := wbase, wsize := p.alloc - wbase, kind := kind, phase := phase
    bytes := recBytes lanes.length p.alloc, fibres := sortFibs (lanes.map p.fibAt), tags := p.tags }

/-- Gives a frame the place of its record (R39). -/
def Team.placeFrame (t : Team) (id : Nat) : Team :=
  let held := (t.frame id).any (·.spawned)
  let x := if held then (t, (t.frame id).bind (·.off)) else t.makePlace frameBytes
  x.1.modFrame id fun f => { f with spawned := true, off := x.2 }

/-- A record goes to spawn memory, whose bytes `withSpawn` writes. It takes the core's next SEQ, its frame gets a frame
record (R39), and a runnable one enters the FIFO (R47). -/
def addRec (s : State) (team : Nat) (r : Rec) (runnable : Bool) : State :=
  match s.team team with
  | none => s
  | some t =>
    let c := s.core t.core
    let x := (t.placeFrame r.frame).makePlace r.bytes
    let t' := { x.1 with
      recs := Tab.set none x.1.recs t.nextRec (some { r with seq := c.seq, off := x.2 }), nextRec := t.nextRec + 1 }
    (s.setTeam team (some t')).setCore t.core
      { c with seq := c.seq + 1, fifo := if runnable then c.fifo ++ [(team, t.nextRec)] else c.fifo }

/-- A record that stays in spawn memory becomes runnable at an address, under a fresh SEQ (R47, R54). -/
def releaseRec (s : State) (team id pc : Nat) : State :=
  match s.team team with
  | none => s
  | some t =>
    match Tab.get none t.recs id with
    | none => s
    | some r =>
      let c := s.core t.core
      let t' := { t with recs := Tab.set none t.recs id (some { r with pc := pc, kind := .pending, phase := false, seq := c.seq })
                         lateRecs := if t.save = .resident then t.lateRecs else t.lateRecs ++ [id] }
      if t.occupies then (s.setTeam team (some t')).setCore t.core { c with seq := c.seq + 1, fifo := c.fifo ++ [(team, id)] }
      else (s.setTeam team (some { t' with fifoPart := t'.fifoPart ++ [id] })).setCore t.core { c with seq := c.seq + 1 }

/-- Keeps the fibres of a record that have not left it; an empty record returns its bytes (R487). -/
def keepFibs (t : Team) (id : Nat) (rest : List RecFib) : Team :=
  match Tab.get none t.recs id with
  | none => t
  | some r => { t with recs := Tab.set none t.recs id (if rest.isEmpty then none else some { r with fibres := rest }) }

/-! ## Lanes -/

/-- R113. -/
def lfsrSeed (seed fid seq : Nat) : W32 :=
  let x : W32 := b32 seed ^^^ b32 (fid * 0x9E3779B9) ^^^ b32 (seq * 0x85EBCA6B)
  if x = 0 then 1 else x

def setRegs (v : Tab W32) (L : Nat) (regs : Tab W32) : Tab W32 := Tab.setAll 0 v (regs.map fun x => (64 * x.1 + L, x.2))

/-- A fibre enters a vacant lane with its own registers and predicates (R140). -/
def Posy.enter (p : Posy) (L : Nat) (f : RecFib) (lfsr : W32) : Posy :=
  { p with
    lanes := Tab.set none p.lanes L (some f.fid), preds := Tab.set 0 p.preds L f.preds
    v := setRegs p.v L f.regs, lfsr := Tab.set 0 p.lfsr L lfsr }

def Posy.vacant (p : Posy) : List Nat := (List.range 64).filter fun L => !p.holds L
def Posy.clearLanes (p : Posy) (ls : List Nat) : Posy := ls.foldl Posy.clearLane p

/-- Tags that differ become RAW (R144). -/
def mergeTags (a b : Tab (BitVec 4)) : Tab (BitVec 4) := a.filter fun x => Tab.get 0 b x.1 == x.2

/-- The distributor keeps a launch slot that a posy leaves for its team (R37). Log entry 19: DEDUCED. -/
def Team.keepSlot (t : Team) (slot alloc : Nat) : Team := if slot < 22 then { t with idle := (slot, alloc) :: t.idle } else t

/-- The slot and the registers are free at once; a result on the way to a uniform register goes to the frame, which stays.
Log entry 86: DEDUCED. -/
def freePosy (s : State) (k : Nat) : State :=
  match s.posy k with
  | none => s
  | some p => (s.setPosy k none).modTeam p.team fun t =>
      { t.keepSlot (k % Config.slots) p.alloc with loads := t.loads.filter fun l => l.uid != p.uid || l.dcls == .s }

/-- The results of an ended posy's loads are discarded (R61, R68). Log entry 86: DEDUCED. -/
def dropLoads (s : State) (team uid : Nat) : State :=
  s.modTeam team fun t => { t with loads := t.loads.filter fun l => l.uid != uid }

/-! ## Divergence (R40 to R43) -/

/-- Fibres that go to one destination with one window base. -/
structure Group where
  dest : Nat
  wb : Nat
  lanes : List Nat
deriving DecidableEq, Repr, Inhabited

/-- Merges equal destinations into the earliest group. -/
def addGroup (d wb L : Nat) : List Group → List Group
  | [] => [⟨d, wb, [L]⟩]
  | g :: t => if g.dest = d ∧ g.wb = wb then { g with lanes := g.lanes ++ [L] } :: t else g :: addGroup d wb L t

/-- The largest group, the first among equals. -/
def largest (g : Group) : List Group → Group
  | [] => g
  | h :: t => largest (if g.lanes.length < h.lanes.length then h else g) t

/-- The posy goes on as groups (none of them empty, in their order). Log entry 30: DEDUCED. Log entry 31: DEDUCED. -/
def diverge (s : State) (e : Env) (gs : List Group) : Out :=
  match gs with
  | [] => .next s
  | [g] => .next (s.setPosy e.key (some { e.p.goto g.dest with wbase := g.wb }))
  | g :: t =>
    let stay := largest g t
    let out := (g :: t).filter (· ≠ stay)
    let need := (out.map fun x => recBytes x.lanes.length e.p.alloc).sum + (if e.f.spawned then 0 else frameBytes)
    if !e.t.spawnFits need then trap s e .seg e.p.present
    else if fibPending s e (out.flatMap (·.lanes)) then .next s
    else
      let s1 := out.foldl (fun s x => addRec s e.p.team (e.p.record x.lanes x.dest x.wb .pending false) true) s
      .next (withSpawn s e.p.team
        (s1.setPosy e.key (some { (e.p.clearLanes (out.flatMap (·.lanes))).goto stay.dest with wbase := stay.wb })))

/-! ## Joins (R51 to R57, R175) -/

/-- The fibres present equal the expected count: the reference count less PASSED (R52, R53). Fibres that passed the join
and come again may bring the count above it, a case that R53 does not name: the join completes. Log entry 112: DESIGN CHOICE. -/
def joinMet (s : State) (t : Team) (frame : Nat) (f : Frame) (j : JoinRec) : Bool :=
  decide (f.refs ≤ j.passed + presentAt s t frame j)

/-- A closed record whose fibres have all passed is cleared (R54). -/
def Frame.tidyJoins (f : Frame) : Frame :=
  { f with joins := f.joins.filter fun e => match e.2 with | some j => j.open_ || decide (j.passed < f.refs) | none => false }

/-- The deadline of an open instance has come (R55). -/
def joinDue (s : State) (t : Team) (j : JoinRec) : Bool :=
  j.open_ && t.stopped.isNone && (match j.deadline with | some d => decide (d ≤ s.time) | none => false)

/-- Completion or expiry: the fibres present proceed and the instance closes (R54, R55); several waiting records enter the FIFO in the
order of their numbers. Log entry 48: DEDUCED. Log entry 117: DESIGN CHOICE. -/
def joinFinish (s : State) (team frame i : Nat) : State :=
  match s.team team with
  | none => s
  | some t =>
    match (t.frame frame).bind (·.join i) with
    | none => s
    | some j =>
      let j' := { j with passed := j.passed + presentAt s t frame j, open_ := false, bounded := false, deadline := none, holder := none }
      let s1 := s.setTeam team (some (t.modFrame frame fun f => (f.setJoin i (some j')).tidyJoins))
      let s2 := match j.holder with
        | some slot => s1.modPosy (posyKey t.core slot) fun p => p.goto j.next
        | none => s1
      (t.waitingAt frame j.pc).foldl (fun s r => releaseRec s team r.1 j.next) s2

/-- The holder takes what fits of the waiting records of its key, in the order of their numbers (R53). Log entry 47: DEDUCED.
Log entry 117: DESIGN CHOICE. -/
def absorb (s : State) (team k : Nat) : List (Nat × Rec) → State
  | [] => s
  | (id, r) :: rest =>
    match s.posy k, s.team team with
    | some h, some t =>
      if r.wbase = h.wbase ∧ r.wsize = h.wsize then
        let vac := h.vacant
        let in_ := r.fibres.take vac.length
        let h' := (vac.zip in_).foldl (fun (p : Posy) x => p.enter x.1 x.2 (lfsrSeed (seedOf s t.lid) x.2.fid r.seq))
          { h with tags := if in_.isEmpty then h.tags else mergeTags h.tags r.tags }
        absorb ((s.setPosy k (some h')).setTeam team (some (keepFibs t id (r.fibres.drop vac.length)))) team k rest
      else absorb s team k rest
    | _, _ => s

/-- Moves fibres of an arriving posy into the holder; they keep their LFSRs. Answers the lanes left. -/
def moveInto (s : State) (hk : Nat) (p : Posy) : State × List Nat :=
  let ls := (sortFibs (p.present.map p.fibAt)).filterMap fun f => p.present.find? fun L => p.fid L == f.fid
  match s.posy hk with
  | some h =>
    if h.wbase = p.wbase ∧ h.alloc = p.alloc then
      let vac := h.vacant
      let mv := ls.take vac.length
      let h' := (vac.zip mv).foldl (fun (q : Posy) x => q.enter x.1 (p.fibAt x.2) (Tab.get 0 p.lfsr x.2))
        { h with tags := if mv.isEmpty then h.tags else mergeTags h.tags p.tags }
      (s.setPosy hk (some h'), ls.drop vac.length)
    else (s, ls)
  | none => (s, ls)

/-- The bound of a join in cycles: JOINW's own (R55), and at most 65,536 in a frame wider than a posy (R55, R69). Log entry 113:
DEDUCED. -/
def joinBound (f : Frame) (b : Option Nat) : Option Nat :=
  if Config.lanes < f.refs then some (min (b.getD 65536) 65536) else b

/-- An instance whose deadline passed while its team stood still has expired before a later arrival (R55). -/
def expirePast (s : State) (e : Env) : State × Env :=
  let past := fun (j : JoinRec) => j.pc == e.p.pc && j.open_ && (match j.deadline with | some d => decide (d < s.time) | none => false)
  match (List.range 4).find? fun i => (match e.f.join i with | some j => past j | none => false) with
  | some i => let s1 := joinFinish s e.p.team e.p.frame i; (s1, (envAt s1 e.key).getD e)
  | none => (s, e)

/-- Arrival at a join (R51 to R53, R57). Where no holder waits and the last fibres arrive in a reserved slot, R54 makes the
waiting records runnable, and the arriving posy, which R51 does not write out, goes on in its slot: the spec does not say
what it does. Log entry 48: DEDUCED. Log entry 93: DESIGN CHOICE. -/
def arrive (s0 : State) (e0 : Env) (len : Len) (bound : Option Nat) : Out :=
  if e0.p.joining then .next s0
  else
    let x := expirePast s0 e0
    let s := x.1
    let e := x.2
    let free := (List.range 4).find? fun i => (e.f.join i).isNone
    match ((List.range 4).find? fun i => ((e.f.join i).map (·.pc)) == some e.p.pc), free with
    | none, none => commit s e len {}
    | found, free =>
      let i := found.getD (free.getD 0)
      let j0 := (e.f.join i).getD { pc := e.p.pc, open_ := false }
      let b := joinBound e.f bound
      let j := if j0.open_ then j0 else
        { j0 with open_ := true, bounded := b.isSome, deadline := b.map fun x => s.time + (x + 1) / 2
                  next := e.p.pc + 4 * Len.words len, holder := none }
      let mine := e.p.present.length
      let last := decide (e.f.refs ≤ j.passed + presentAt s e.t e.p.frame j + mine)
      let put := fun (s : State) (j : JoinRec) => s.setTeam e.p.team (some (e.t.modFrame e.p.frame fun f => f.setJoin i (some j)))
      if j.holder = none ∧ (e.slot < Config.firstReserved ∨ last) then
        let s1 := (put s { j with holder := some e.slot }).setPosy e.key (some { e.p.block s.cycle with joining := true })
        .next (withSpawn s0 e.p.team
          (if e.slot < Config.firstReserved then absorb s1 e.p.team e.key (e.t.waitingAt e.p.frame e.p.pc)
           else joinFinish s1 e.p.team e.p.frame i))
      else if fibPending s e e.p.present then .next s
      else
        let s1 := put s j
        let (s2, rest) := match j.holder with
          | some slot => moveInto s1 (posyKey e.core slot) e.p
          | none => (s1, e.p.present)
        let s3 := if rest.isEmpty then s2
          else addRec s2 e.p.team (e.p.record rest e.p.pc e.p.wbase .waiting false) false
        .next (withSpawn s0 e.p.team (freePosy s3 e.key))

/-! ## Fork and exit (R59 to R61, R176) -/

/-- The ids the launched posies took: ceil(n / W) of them (R34). -/
def firstChildFrame (s : State) (t : Team) : Nat :=
  match s.launch t.lid with | some l => (l.r.fibres + 63) / 64 | none => 1

/-- The lowest id from n upward that is not in use; at most 1,024 frames are live. -/
def freeFrame (t : Team) (n : Nat) : Nat :=
  ((List.range 1025).find? fun i => (t.frame (n + i)).isNone).getD 0 + n

/-- The child groups: at most W fibres each, in increasing index. -/
def childGroups (first c : Nat) : List (List Nat) :=
  (List.range ((c + 63) / 64)).map fun k => (List.range (min 64 (c - 64 * k))).map fun i => first + 64 * k + i

/-- The older requests of the parent's fibres come first in the children's program order (R293). -/
def inheritReqs (t : Team) (parents children : List Nat) : Team :=
  { t with reqs := t.reqs.map fun r =>
      if r.fids.any parents.contains then { r with fids := r.fids ++ children, forked := r.forked ++ children } else r }

def fork (s : State) (e : Env) (c entry d : Nat) (len : Len) : Out :=
  let present := e.p.present
  if c = 0 ∨ 1024 < c ∨ Config.teamMax < e.t.liveFibres + c ∨ 65535 < e.t.nextFid + c then trap s e .xblock present
  else
    let first := e.t.nextFid
    let groups := childGroups first c
    let need := frameBytes + (groups.map fun g => recBytes g.length e.p.alloc).sum
    if !e.t.spawnFits need then trap s e .seg present
    else
      let id := freeFrame e.t (firstChildFrame s e.t)
      let cf : Frame := { e.f with
        s := Tab.set 0 e.f.s d (b64 first), refs := c, parent := some e.p.frame, spawned := false, off := none, joins := [] }
      let t1 := inheritReqs { e.t.setFrame id (some cf) with nextFid := first + c } (present.map e.p.fid)
        ((List.range c).map fun i => first + i)
      let s1 := (s.setTeam e.p.team (some t1)).setPosy e.key (some (e.p.advance len))
      .next (withSpawn s e.p.team <| groups.foldl (fun s g => addRec s e.p.team
        { pc := entry, frame := id, wbase := e.p.wbase, wsize := e.p.alloc - e.p.wbase, kind := .pending
          bytes := recBytes g.length e.p.alloc, fibres := g.map fun f => { fid := f, preds := 0 } } true) s1)

/-- Lowers a frame's reference count; at zero the frame is freed (R36, R37). -/
def dropRefs (t : Team) (frame n : Nat) : Team :=
  match t.frame frame with
  | none => t
  | some f =>
    if f.refs ≤ n then { t.setFrame frame none with loads := t.loads.filter fun l => !(l.dcls == .s && l.frame == frame) }
    else t.setFrame frame (some ({ f with refs := f.refs - n }).tidyJoins)

/-- EXIT of some lanes (R61). -/
def exitLanes (s : State) (e : Env) (act : List Nat) (len : Len) : State :=
  let s1 := s.setTeam e.p.team (some (dropRefs e.t e.p.frame act.length))
  let p := (e.p.clearLanes act).advance len
  let s2 := s1.setPosy e.key (some p)
  if p.present.isEmpty then withSpawn s e.p.team (dropLoads (freePosy s2 e.key) e.p.team e.p.uid) else s2

/-! ## The posy former and rotation (R47 to R50) -/

/-- The records that join the head's: FIFO order, same key, PHASE and window, while a lane is left. Answers
each record with the number of its fibres that leave. Log entry 47: DEDUCED. -/
def gather (s : State) (head : Rec) (team : Nat) : List (Nat × Nat) → Nat → List (Nat × Rec × Nat)
  | [], _ => []
  | (tm, id) :: rest, n =>
    if 64 ≤ n then []
    else
      match (if tm = team then (s.team tm).bind (fun t => Tab.get none t.recs id) else none) with
      | some r =>
        if r.pc = head.pc ∧ r.frame = head.frame ∧ r.wbase = head.wbase ∧ r.wsize = head.wsize ∧ r.phase = head.phase then
          let k := min r.fibres.length (64 - n)
          (id, r, k) :: gather s head team rest (n + k)
        else gather s head team rest n
      | none => gather s head team rest n

/-- The records of a core's FIFO whose team is not being saved (R428, R70). -/
def fifoReady (s : State) (core : Nat) : List (Nat × Nat) :=
  (s.core core).fifo.filter fun e => match s.team e.1 with | some t => t.save == .resident | none => false

/-- Can the former start a posy (R48, R49)? -/
def canForm (s : State) (core : Nat) : Bool :=
  match fifoReady s core, [22, 23].find? (fun i => (s.posy (posyKey core i)).isNone) with
  | (tm, id) :: _, some slot =>
    (match (s.team tm).bind fun t => Tab.get none t.recs id with
     | some r => decide (r.wbase + r.wsize ≤ bayFree s core (slot % 4))
     | none => false)
  | _, _ => false

/-- Starts a posy from the head of a core's FIFO in the lower free reserved slot. -/
def formPosy (s : State) (core : Nat) : State :=
  let c := s.core core
  match fifoReady s core, [22, 23].find? (fun i => (s.posy (posyKey core i)).isNone) with
  | (tm, id) :: _, some slot =>
    match s.team tm with
    | none => s
    | some t =>
      match Tab.get none t.recs id with
      | none => s
      | some r =>
        let alloc := r.wbase + r.wsize
        if bayFree s core (slot % 4) < alloc then s
        else
          let got := gather s r tm c.fifo 0
          let fibs := got.flatMap fun x => (x.2.1.fibres.take x.2.2).map fun f => (f, x.2.1.seq)
          let sorted := (sortFibs (fibs.map (·.1))).map fun f => (f, ((fibs.find? fun y => y.1.fid == f.fid).map (·.2)).getD 0)
          let p0 : Posy := { uid := s.nextUid, team := tm, frame := r.frame, pc := r.pc, wbase := r.wbase, alloc := alloc
                             tags := got.foldl (fun a x => mergeTags a x.2.1.tags) r.tags, phase := r.phase
                             since := s.cycle }
          let p := ((List.range 64).zip sorted).foldl
            (fun (p : Posy) x => p.enter x.1 x.2.1 (lfsrSeed (seedOf s t.lid) x.2.1.fid x.2.2)) p0
          let t' := got.foldl (fun t x => keepFibs t x.1 (x.2.1.fibres.drop x.2.2)) t
          let gone := got.filter fun x => x.2.1.fibres.length ≤ x.2.2
          let split := got.filter fun x => x.2.2 < x.2.1.fibres.length
          let rest := c.fifo.filter fun y => !(y.1 == tm && got.any fun x => x.1 == y.2)
          let fifo := (split.map fun x => (tm, x.1)) ++ rest
          withSpawn s tm { (((s.setTeam tm (some t')).seat core slot p).modCore core fun c => { c with fifo := fifo }) with
            nextUid := s.nextUid + (if gone.isEmpty ∧ split.isEmpty then 0 else 1) }
  | _, _ => s

/-- The phase in which a posy resumes: a SIGWAIT reads afresh (R413), a FENCE begins again (R274). -/
def keptPhase (e : Env) : Bool := e.p.phase && !e.p.again

/-- A reserved posy has waited, or run, its time while a record waits in the FIFO (R50). -/
def rotateDue (s : State) (core slot : Nat) (e : Env) : Bool :=
  let due := (match e.p.blocked with | some c => decide (c + 4096 ≤ s.cycle) | none => false) ||
    decide (e.p.since + 65536 ≤ s.cycle)
  decide (Config.firstReserved ≤ slot) && !(s.core core).fifo.isEmpty && due && !anyPending s e && e.p.rep.isNone &&
  !e.p.privileged && e.t.running

/-- Takes a reserved posy's fibres back to the tail of the FIFO (R50). -/
def rotate (s : State) (core slot : Nat) : State :=
  match envAt s (posyKey core slot) with
  | none => s
  | some e =>
    if rotateDue s core slot e then
      let s1 := addRec s e.p.team (e.p.record e.p.present e.p.pc e.p.wbase .rotated (keptPhase e)) true
      withSpawn s e.p.team ((freePosy s1 e.key).modTeam e.p.team fun t => t.dropWaits core slot)
    else s

end Sys2Proof.Machine
end

