-- ==== Sys2Proof/Machine/Regs.lean ====
section
/-!
DEFINITION. The device registers: reads and writes of whole 64-bit words (R4, R6, R232, R368, R377, R393,
R396 to R400, R425, R445, R452). A write that starts a command leaves it pending; the step of the table that
performs the command takes it from there.
-/
namespace Sys2Proof.Machine

/-! ## Places of the registers -/

def xBase : Nat := Config.devBase + 0x200000
def dieBase (d : Nat) : Nat := Config.devBase + 0x300000 + d * 0x1000
def boundBase (d : Nat) : Nat := Config.devBase + 0x400000 + d * 0x40000

/-- Which register a physical address is. -/
inductive Reg where
  | x (off : Nat)
  | die (d off : Nat)
  | bound (d off : Nat)
  | none
deriving DecidableEq, Repr

def regOf (pa : Nat) : Reg :=
  let o := pa - Config.devBase
  if 0x200000 ≤ o ∧ o < 0x201000 then .x (o - 0x200000)
  else if 0x300000 ≤ o ∧ o < 0x304000 then .die ((o - 0x300000) / 0x1000) ((o - 0x300000) % 0x1000)
  else if 0x400000 ≤ o ∧ o < 0x500000 then .bound ((o - 0x400000) / 0x40000) ((o - 0x400000) % 0x40000)
  else .none

def bitIf (b : Bool) (i : Nat) : BitVec 64 := if b then BitVec.twoPow 64 i else 0
def low (v : BitVec 64) (n : Nat) : BitVec 64 := b64 (v.toNat % 2 ^ n)
/-- Bits lo upward, n of them. -/
def field (v : BitVec 64) (lo n : Nat) : Nat := v.toNat / 2 ^ lo % 2 ^ n

/-! ## Page moves (R377, R378) -/

/-- The fields of a migration descriptor. -/
structure Move where
  vd : Nat
  pgsz : Nat
  va : Nat
  src : Nat
  dst : Nat
  ptea : Nat
  newpte : Nat

def moveOf (x : Die) : Move :=
  let f := fun i n => leNat ((List.range n).map fun j => Tab.get 0 x.mig (i + j))
  { vd := f 0 1, pgsz := f 1 1, va := f 8 8, src := f 16 8, dst := f 24 8, ptea := f 32 8, newpte := f 40 8 }

def inRange (lo n a : Nat) : Bool := decide (lo ≤ a) && decide (a < lo + n)

/-- Does a page move defer the grants of a region: its step 4 has begun and its step 6 has not been taken (R378)? -/
def moveDefers (s : State) (a : Authority) : Bool :=
  s.dies.any fun x =>
    x.2.migRun && (x.2.migSt == .recall || x.2.migSt == .copied) && partOfDie s x.1 == partOfDie s a.home &&
    let m := moveOf x.2
    m.vd == a.vd && (s.die a.home).bound.any fun b => b.2.st != .free && b.2.vd == a.vd && b.2.base == a.base &&
      decide (b.2.base < m.va + pageBytes m.pgsz) && decide (m.va < b.2.base + b.2.size)

/-! ## Bounded-value tables as registers (R393) -/

/-- Does an authority defer its grants: a write to a word of its region is on its way to be performed, a load waits
for recalls, or a page of the region moves? -/
def authorityDefers (s : State) (a : Authority) : Bool :=
  moveDefers s a || s.merging.any (fun m => m.defers.contains a) ||
  (Tab.live s.teams).any fun t => t.2.reqs.any fun r => r.defers.contains a

/-- STATE of an entry of a die (R393): 2, DEFER, while the authority defers its grants. -/
def boundCode (s : State) (d : Nat) (b : Bound) : Nat :=
  match b.st with
  | .free => 0
  | .active => if authorityDefers s { home := d, vd := b.vd, base := b.base } then 2 else 1
  | .removing => 3

/-- The holder number of a grant of an authority: an L1 of its die, or the RDC of another die. -/
def holderNo (d : Nat) : Holder → Option Nat
  | .l1 c => if dieOf c = d then some (c % 48) else none
  | .rdc e => if e = d then none else some (48 + portTo d e)

/-- The grant of a holder for a region at an authority. -/
def grantOf (s : State) (d : Nat) (b : Bound) (h : Nat) : W32 :=
  match s.shares.find? fun x => x.home == d && x.vd == b.vd && x.base == b.base && holderNo d x.who == some h with
  | some x => x.g
  | none => 0

/-- POOL of an entry: L less the grants, rounded toward zero where binary32 does not hold it. Log entry 26: DEDUCED. -/
def poolField (s : State) (d : Nat) (b : Bound) : W32 :=
  rzV ((List.range 51).foldl (fun p h => subV p (valF (grantOf s d b h))) (valF b.limit))

def boundBytes (s : State) (d : Nat) (b : Bound) : List Byte :=
  let gs := (List.range 51).map (grantOf s d b)
  leBytes 8 b.base ++ leBytes 8 b.size ++ leBytes 1 b.vd ++ leBytes 1 (boundCode s d b) ++ leBytes 2 0 ++
  leBytes 4 b.limit.toNat ++ leBytes 4 (poolField s d b).toNat ++ leBytes 2 (gs.filter (· != 0)).length ++ leBytes 18 0 ++
  gs.flatMap (fun g => leBytes 4 g.toNat) ++ leBytes 4 0

/-! ## Reads -/

/-- On-chip and overflow entries in use, extensions included (R368). -/
def onChip (x : Die) : Nat := ((x.entries.filter fun e => !e.overflow).map fun e => 1 + e.ext).sum
def inRing (x : Die) : Nat := ((x.entries.filter fun e => e.overflow).map fun e => 1 + e.ext).sum

/-- Does a request from die a to a home on die h lie inside the link of port i of die d? -/
def inLink (d i a h : Nat) : Bool := (a == d && portTo d h == i && h != d) || (h == d && a != d && portTo d a == i)

/-- Is a request inside the link of a port (R397): a write-back of an RDC, a write of an RDC or of another unit of a die that merges
at a remote home, or an access of a core that waits at one for its turn or for its acknowledgements? -/
def linkBusy (s : State) (d i : Nat) : Bool :=
  s.wbs.any (fun w => match w.from_, paKind (linePa w.line) with
    | .rdc a, .hbm h => inLink d i a h
    | _, _ => false) ||
  s.merging.any (fun m => m.parent.isNone &&
    match (match m.writer with | some (.rdc a) => some a | _ => m.unit), paKind (linePa m.line) with
    | some a, .hbm h => inLink d i a h
    | _, _ => false) ||
  (Tab.live s.teams).any fun t => t.2.reqs.any fun r => r.stage == .atHome && !r.scratch && !r.kind.isEngine &&
    !s.merging.any (fun m => m.req == some (t.1, r.seq, r.sub) && m.parent.isSome) &&
    match paKind r.pa with | .hbm h => inLink d i (dieOf r.core) h | _ => false

def dieRead (s : State) (d off : Nat) : BitVec 64 :=
  let x := s.die d
  if off = 0x000 then b64 x.parkLimit
  else if off = 0x008 then x.ovfBase
  else if off = 0x010 then x.ovfCfg
  else if off = 0x018 then b64 (inRing x * 2 ^ 32 + onChip x)
  else if off = 0x020 then x.frBase
  else if off = 0x028 then x.frCfg
  else if off = 0x030 then x.frWords
  else if off = 0x040 then x.parkCmda
  else if off = 0x050 then bitIf x.parkCmd.isSome 63 ||| bitIf x.parkErr 62 ||| x.parkCount.setWidth 64
  else if 0x800 ≤ off ∧ off < 0x838 then b64 (leNat ((List.range 8).map fun i => Tab.get 0 x.mig (off - 0x800 + i)))
  else if off = 0x838 then x.migStat
  else if 0x900 ≤ off ∧ off < 0x960 then
    let i := (off - 0x900) / 0x20
    if (off - 0x900) % 0x20 = 0 then bitIf (x.fwClosed.getLsbD i) 0
    else if (off - 0x900) % 0x20 = 8 then bitIf (linkBusy s d i) 63 ||| (Tab.get 0 x.fwRefused i).setWidth 64
    else 0
  else 0

def xRead (s : State) (off : Nat) : BitVec 64 :=
  let x := s.xd
  if off = 0x00 then x.cmda0
  else if off = 0x08 then x.cmda1
  else if off = 0x18 then bitIf x.cmd.isSome 63 ||| bitIf x.cmdErr 62 ||| b64 x.cmdCode
  else if off = 0x20 then x.qdtBase
  else if off = 0x28 then x.vdtBase
  else if off = 0x30 then x.partmap
  else if off = 0x38 then x.peermap
  else if 0x40 ≤ off ∧ off < 0x60 then Tab.get 0 x.qrange ((off - 0x40) / 8)
  else if off = 0x100 then x.tcmda0
  else if off = 0x108 then x.tcmda1
  else if off = 0x110 then x.tcmda2
  else if off = 0x120 then bitIf x.tcmd.isSome 63 ||| bitIf x.tcmdErr 62 ||| b64 x.tcmdCode
  else if off = 0x200 then 0xFF
  else if off = 0x208 then x.accept.setWidth 64
  else if 0x210 ≤ off ∧ off < 0x250 then
    (if (off - 0x210) % 16 = 0 then Tab.get 0 x.hnaBase ((off - 0x210) / 16) else Tab.get 0 x.hnaLim ((off - 0x210) / 16))
  else if 0x280 ≤ off ∧ off < 0x340 then
    (if (off - 0x280) % 16 = 0 then Tab.get 0 x.peerInb ((off - 0x280) / 16) else Tab.get 0 x.peerInl ((off - 0x280) / 16))
  else if off = 0x340 then b64 (x.peerUp.toNat * 4 + x.cxlUp.toNat)
  else if off = 0x348 then b64 (s.thermStep * 256 + s.tj.toNat)
  else 0

/-- The register word at an address (a multiple of 8); reserved words and write-only registers read zero. -/
def regRead (s : State) (pa : Nat) : BitVec 64 :=
  match regOf pa with
  | .x off => xRead s off
  | .die d off => dieRead s d off
  | .bound d off =>
    let bs := boundBytes s d (Tab.get {} (s.die d).bound (off / 256))
    b64 (leNat ((bs.drop (off % 256)).take 8))
  | .none => 0

/-! ## Writes of a die's registers -/

def writeParkLimit (s : State) (d : Nat) (v : BitVec 64) : State :=
  let n := field v 0 12
  s.modDie d fun x => { x with parkLimit := if n = 0 then 1 else if 2048 < n then 2048 else n }

def writeOverflow (s : State) (d : Nat) (cfg : Bool) (v : BitVec 64) : State :=
  s.modDie d fun x =>
    if inRing x ≠ 0 then x else if cfg then { x with ovfCfg := low v 5 } else { x with ovfBase := low v 52 }

/-- FR_BASE, FR_CFG, FR_WORDS: an accepted write clears both words (R369). Log entry 53: DEDUCED. -/
def writeFaultRing (s : State) (d : Nat) (which : Nat) (v : BitVec 64) : State :=
  let x := s.die d
  if !x.pending.isEmpty then s
  else
    let n := field v 0 5
    let x' := match which with
      | 0 => { x with frBase := low v 52 }
      | 1 => { x with frCfg := b64 (if n < 6 then 6 else if 20 < n then 20 else n) }
      | _ => { x with frWords := low v 52 }
    let s1 := s.setDie d { x' with frTail := 0 }
    dieStore (dieStore s1 d (placed x'.frWords.toNat (leBytes 8 0))) d (placed (x'.frWords.toNat + 128) (leBytes 8 0))

/-- Does a launch have a team that is running? A team whose posies run their save handlers or restore routines is. -/
def launchRuns (s : State) (lid : Nat) : Bool := (Tab.live s.teams).any fun t => t.2.lid == lid && t.2.stopped.isNone && t.2.occupies

/-- A write of PARK_CMD (R372). -/
def writeParkCmd (s : State) (d : Nat) (v : BitVec 64) : State :=
  let x := s.die d
  let op := field v 60 4
  let sc := field v 58 2
  let pz := field v 56 2
  let arg := x.parkCmda.toNat
  let bad := x.parkCmd.isSome || op == 0 || decide (3 < op) || (op == 3 && sc != 2) || sc == 3 || (sc == 1 && pz == 3) ||
    (sc == 1 && (decide (arg % pageBytes pz ≠ 0) || decide (2 ^ 52 ≤ arg))) || field v 0 48 != 0 ||
    (op == 3 && launchRuns s arg)
  if bad then s.setDie d { x with parkErr := true }
  else s.setDie d { x with parkCmd := some { op := op, scope := sc, pgsz := pz, vd := field v 48 8, arg := x.parkCmda
                                             limit := x.entries.map (·.pseq) } }

/-- A write of STAT of the migration descriptor (R377). -/
def writeMigStat (s : State) (d : Nat) (v : BitVec 64) : State :=
  s.modDie d fun x => if x.migStat.getLsbD 2 || v != 1 then x else { x with migStat := 4, migRun := true, migSt := .check }

def writeMig (s : State) (d off : Nat) (v : BitVec 64) : State :=
  s.modDie d fun x => if x.migStat.getLsbD 2 then x else { x with mig := Tab.setAll 0 x.mig (placed off (leBytes 8 v.toNat)) }

/-- FW_CTL (R398). -/
def writeFirewall (s : State) (d port : Nat) (v : BitVec 64) : State :=
  s.modDie d fun x => { x with fwClosed := if v.getLsbD 0 then x.fwClosed ||| BitVec.twoPow 3 port
                                           else x.fwClosed &&& ~~~(BitVec.twoPow 3 port) }

def dieWrite (s : State) (d off : Nat) (v : BitVec 64) : State :=
  if off = 0x000 then writeParkLimit s d v
  else if off = 0x008 then writeOverflow s d false v
  else if off = 0x010 then writeOverflow s d true v
  else if off = 0x020 then writeFaultRing s d 0 v
  else if off = 0x028 then writeFaultRing s d 1 v
  else if off = 0x030 then writeFaultRing s d 2 v
  else if off = 0x040 then s.modDie d fun x => { x with parkCmda := v }
  else if off = 0x048 then writeParkCmd s d v
  else if off = 0x050 then s.modDie d fun x => { x with parkErr := x.parkErr && !v.getLsbD 62 }
  else if 0x800 ≤ off ∧ off < 0x838 then writeMig s d (off - 0x800) v
  else if off = 0x838 then writeMigStat s d v
  else if 0x900 ≤ off ∧ off < 0x960 then
    let i := (off - 0x900) / 0x20
    if (off - 0x900) % 0x20 = 0 then writeFirewall s d i v
    else if (off - 0x900) % 0x20 = 8 then s.modDie d fun x => { x with fwRefused := Tab.set 0 x.fwRefused i (v.setWidth 32) }
    else s
  else s

/-! ## Writes of the X-die's registers -/

/-- The partition that a map of ranges gives a queue (R399). -/
def ownerIn (ranges : Tab (BitVec 64)) (q : Nat) : Option Nat :=
  (List.range 4).find? fun n =>
    let r := Tab.get 0 ranges n
    r.getLsbD 32 && decide (field r 0 16 ≤ q) && decide (q ≤ field r 16 16)

/-- The partition that owns a queue (R399). -/
def partOfQueue (s : State) (q : Nat) : Option Nat := ownerIn s.xd.qrange q

/-- A queue of the partition is enabled, or a VD of it is defined. -/
def partActive (s : State) (part : Nat) : Bool :=
  s.queues.any (fun q => q.2.enable && q.2.part == part) || (Tab.live s.vds).any fun v => v.1 / 64 == part

/-- Partitions that a new value of a map of two-bit fields changes. -/
def mapParts (old new : BitVec 64) (n : Nat) : List Nat :=
  (List.range n).flatMap fun i =>
    if field old (2 * i) 2 = field new (2 * i) 2 then [] else [field old (2 * i) 2, field new (2 * i) 2]

/-- Partitions between which a new map of ranges moves a queue (R396). An owner can change only where a range begins or
has ended, so those queues speak for all. -/
def rangeParts (old new : Tab (BitVec 64)) : List Nat :=
  let ends := fun (m : Tab (BitVec 64)) => (List.range 4).flatMap fun n => let r := Tab.get 0 m n; [field r 0 16, field r 16 16 + 1]
  (0 :: ends old ++ ends new).flatMap fun q =>
    match ownerIn old q, ownerIn new q with
    | some a, some b => if decide (q < 2 ^ 16) && a != b then [a, b] else []
    | _, _ => []

/-- Drops every cached translation (a partition change, R402). -/
def dropTlbs (s : State) (keep : TlbEntry → Bool) : State :=
  { s with
    cores := s.cores.map fun c => (c.1, { c.2 with tlb := c.2.tlb.filter keep })
    dies := s.dies.map fun d => (d.1, { d.2 with tlb := d.2.tlb.filter keep }) }

/-- PARTMAP, PEERMAP and QRANGEn (R396). -/
def writePartition (s : State) (off : Nat) (v : BitVec 64) : State :=
  if off = 0x30 then
    let n := low v 8
    let ps := mapParts s.xd.partmap n 4
    if ps.any (partActive s) then s
    else dropTlbs { s with xd := { s.xd with partmap := n } } fun e => !ps.contains e.part
  else if off = 0x38 then
    let n := low v 24
    if (mapParts s.xd.peermap n 12).any (partActive s) then s else { s with xd := { s.xd with peermap := n } }
  else if 0x40 ≤ off ∧ off < 0x60 then
    let i := (off - 0x40) / 8
    let new := Tab.set 0 s.xd.qrange i (low v 33)
    if (rangeParts s.xd.qrange new).any (partActive s) then s else { s with xd := { s.xd with qrange := new } }
  else s

/-- QDT_BASE and VDT_BASE (R399), multiples of 4 KiB. -/
def writeDescBase (s : State) (vdt : Bool) (v : BitVec 64) : State :=
  if s.queues.any (fun q => q.2.enable) || !(Tab.live s.vds).isEmpty then s
  else
    let a := b64 (v.toNat % 2 ^ 52 - v.toNat % 4096)
    { s with xd := if vdt then { s.xd with vdtBase := a } else { s.xd with qdtBase := a } }

/-- FEAT_ACCEPT (R452). Log entry 74: DEDUCED. -/
def writeAccept (s : State) (v : BitVec 64) : State :=
  if s.xd.acceptLocked then s else { s with xd := { s.xd with accept := v.setWidth 8 &&& 0xFF } }

/-- SYSC_DONE (R445, R457): the status waits at the call record until the queue engine completes the call. -/
def writeSyscDone (s : State) (v : BitVec 64) : State :=
  let st := field v 61 3
  let rec_ := field v 6 46 * 64
  if st = 1 ∨ st = 3 ∨ st = 5 then
    { s with calls := s.calls.map fun c => if c.pa = rec_ ∧ c.status = 0 then { c with status := st } else c }
  else s

/-- CMD (R400). -/
def writeCmd (s : State) (v : BitVec 64) : State :=
  let x := s.xd
  let op := v.toNat
  { s with xd :=
    if x.cmd.isSome then { x with cmdErr := true, cmdCode := 3 }
    else if op = 0 ∨ 6 < op then { x with cmdErr := true, cmdCode := 1 }
    else { x with cmd := some op } }

/-- TCMD (R425). -/
def writeTcmd (s : State) (v : BitVec 64) : State :=
  let x := s.xd
  let op := v.toNat
  { s with xd :=
    if x.tcmd.isSome then { x with tcmdErr := true, tcmdCode := 3 }
    else if op = 0 ∨ 2 < op then { x with tcmdErr := true, tcmdCode := 1 }
    else { x with tcmd := some op } }

/-- Bits hi..lo of a value, others zero. -/
def keepBits (v : BitVec 64) (lo n : Nat) : BitVec 64 := b64 (field v lo n * 2 ^ lo)

/-- A write of a register of the module (R396, R399, R400, R425). Bits of CMDA0 and CMDA1 that no command names are kept and ignored.
Log entry 116: DESIGN CHOICE. -/
def xWrite (s : State) (off : Nat) (v : BitVec 64) : State :=
  let x := s.xd
  if off = 0x00 then { s with xd := { x with cmda0 := v } }
  else if off = 0x08 then { s with xd := { x with cmda1 := v } }
  else if off = 0x10 then writeCmd s v
  else if off = 0x18 then { s with xd := { x with cmdErr := x.cmdErr && !v.getLsbD 62 } }
  else if off = 0x20 then writeDescBase s false v
  else if off = 0x28 then writeDescBase s true v
  else if 0x30 ≤ off ∧ off < 0x60 then writePartition s off v
  else if off = 0x100 then { s with xd := { x with tcmda0 := v } }
  else if off = 0x108 then { s with xd := { x with tcmda1 := v } }
  else if off = 0x110 then { s with xd := { x with tcmda2 := v } }
  else if off = 0x118 then writeTcmd s v
  else if off = 0x120 then { s with xd := { x with tcmdErr := x.tcmdErr && !v.getLsbD 62 } }
  else if off = 0x208 then writeAccept s v
  else if 0x210 ≤ off ∧ off < 0x250 then
    let i := (off - 0x210) / 16
    { s with xd := if (off - 0x210) % 16 = 0 then { x with hnaBase := Tab.set 0 x.hnaBase i (keepBits v 63 1 ||| keepBits v 12 40) }
                   else { x with hnaLim := Tab.set 0 x.hnaLim i (keepBits v 12 40) } }
  else if 0x280 ≤ off ∧ off < 0x340 then
    let i := (off - 0x280) / 16
    { s with xd := if (off - 0x280) % 16 = 0 then { x with peerInb := Tab.set 0 x.peerInb i (keepBits v 63 1 ||| low v 52) }
                   else { x with peerInl := Tab.set 0 x.peerInl i (low v 52) } }
  else if off = 0x350 then writeSyscDone s v
  else s

/-- Writes a whole register word; a register that is not there, or read only, ignores it. -/
def regWrite (s : State) (pa : Nat) (v : BitVec 64) : State :=
  match regOf pa with
  | .x off => xWrite s off v
  | .die d off => dieWrite s d off v
  | .bound _ _ => s
  | .none => s

/-! ## Accesses of bytes (R232) -/

/-- Bytes of a load from registers. -/
def devLoad (s : State) (pa n : Nat) : List Byte :=
  (List.range n).map fun i =>
    let a := pa + i
    (regRead s (a - a % 8)).extractLsb' (8 * (a % 8)) 8

/-- A store to registers: each register covered whole is written, in increasing address order. The flag says
that bytes were dropped. -/
def devStore (s : State) (bytes : List (Nat × Byte)) : State × Bool :=
  let words := ((bytes.map fun x => x.1 / 8).foldl (fun ws w => if ws.contains w then ws else ws ++ [w]) [])
  let whole := wholeWords bytes
  (words.foldl (fun s w =>
      if whole.contains w then
        regWrite s (8 * w) (b64 (leNat ((List.range 8).map fun i =>
          ((bytes.find? fun x => x.1 == 8 * w + i).map (·.2)).getD 0)))
      else s) s,
   words.any fun w => !whole.contains w)

end Sys2Proof.Machine
end

