-- ==== Sys2Proof/Machine/Park.lean ====
section
/-!
DEFINITION. The park store and the fault ring of a die (R362 to R371, R374, R380): entries, their room, their
records.
-/
namespace Sys2Proof.Machine

/-! ## The bytes of an entry (R364) -/

def EntrySt.code : EntrySt → Nat | .parked => 1 | .follower => 2 | .replay => 3
def Cause.code : Cause → Nat | .notPresent => 1 | .perm => 2 | .migrating => 3 | .order => 4
def noLeader : Nat := 2 ^ 32 - 1

/-- FLAGS of an entry; bit 4 says that a record of it waits. -/
def Entry.flagByte (e : Entry) (pending : Bool) : Nat :=
  (if e.acq then 1 else 0) + (if e.rel then 2 else 0) + (if e.so then 4 else 0) + (if e.retag then 8 else 0) +
  (if pending then 16 else 0)

/-- One bit per byte of the line that the request touches. -/
def Entry.bmask (e : Entry) : Nat := (2 ^ e.size - 1) * 2 ^ (e.va % 128) % 2 ^ 128

def padTo (n : Nat) (bs : List Byte) : List Byte := (bs ++ List.replicate n 0).take n

def Entry.header (e : Entry) (pending : Bool) : List Byte :=
  leBytes 8 (e.va % 2 ^ 52) ++ leBytes 4 e.pseq ++ leBytes 4 (e.leader.getD noLeader) ++ leBytes 1 (EntrySt.code e.st) ++
  leBytes 1 (Cause.code e.cause) ++ leBytes 1 e.kind ++ leBytes 1 (e.flagByte pending) ++ leBytes 1 e.vd ++
  leBytes 1 e.op.toNat ++ leBytes 1 e.ext ++ leBytes 1 e.dreg ++ leBytes 2 e.core ++ leBytes 1 e.slot ++ leBytes 1 0 ++
  leBytes 4 e.iseq ++ leBytes 8 e.lanes.toNat ++ leBytes 8 e.route ++ leBytes 16 e.bmask

/-- Header and data of part n of an entry: part 0 is the entry, the others its extensions. Log entry 52: DEDUCED. -/
def Entry.block (e : Entry) (pending : Bool) (n : Nat) : List Byte :=
  let data := padTo 128 (e.data.drop (128 * n))
  if n = 0 then e.header pending ++ data
  else leBytes 8 0 ++ leBytes 4 e.pseq ++ leBytes 4 0 ++ leBytes 1 4 ++ leBytes 47 0 ++ data

/-- An entry of the overflow area stands in HBM too. -/
def syncEntry (s : State) (d : Nat) (e : Entry) : State :=
  if e.overflow then
    let x := s.die d
    let pend := x.pending.any fun r => r.pseq == e.pseq
    ((List.range e.idxs.length).zip e.idxs).foldl (fun s p =>
      dieStore s d (placed (x.ovfBase.toNat + 192 * p.2) (e.block pend p.1))) s
  else s

/-- The slots of an entry that is gone read STATE 0. -/
def syncFree (s : State) (d : Nat) (e : Entry) : State :=
  if e.overflow then
    e.idxs.foldl (fun s i => dieStore s d [((s.die d).ovfBase.toNat + 192 * i + 16, 0)]) s
  else s

def setEntry (s : State) (d : Nat) (e : Entry) : State :=
  syncEntry (s.modDie d fun x => { x with entries := x.entries.map fun o => if o.pseq = e.pseq then e else o }) d e

def freeEntry (s : State) (d : Nat) (e : Entry) : State :=
  syncFree (s.modDie d fun x => { x with entries := x.entries.filter fun o => o.pseq != e.pseq }) d e

def findEntry (s : State) (d pseq : Nat) : Option Entry := (s.die d).entries.find? fun e => e.pseq == pseq
def ownerEntry (s : State) (d : Nat) (o : Owner) : Option Entry := (s.die d).entries.find? fun e => e.owner == o

/-- The issuer no longer waits for the reads of these entries: they stay as they are (R365). Log entry 64: DEDUCED. -/
def detach (s : State) (mine : Owner → Bool) (priv : Bool) : State :=
  (List.range 4).foldl (fun s d => ((s.die d).entries.filter fun x => mine x.owner).foldl (fun s x =>
    setEntry s d { x with owner := match x.owner with
      | .fetch t c _ _ _ => .lost (some t) (some c) priv x.pseq
      | .queue _ _ => .lost none none priv x.pseq
      | o => o }) s) s

/-- Takes the parked requests of a command out of the park stores (R270). -/
def unpark (s : State) (mine : Owner → Bool) : State :=
  (List.range 4).foldl (fun s d => ((s.die d).entries.filter fun x => mine x.owner).foldl (fun s x => freeEntry s d x) s) s

/-! ## Room (R366) -/

/-- The n lowest numbers that are not in use. -/
def lowestFree (used : List Nat) (n : Nat) : List Nat :=
  ((List.range (used.length + n)).filter fun i => !used.contains i).take n

def usedIdx (x : Die) (overflow : Bool) : List Nat := (x.entries.filter fun e => e.overflow == overflow).flatMap (·.idxs)

/-- Slots of the overflow area (R368). -/
def ovfSlots (x : Die) : Nat :=
  let n := x.ovfCfg.toNat % 32
  if 1 ≤ n ∧ n ≤ 20 then 2 ^ n else 0

/-- Where a new entry of n parts goes, if there is room. -/
def roomFor (x : Die) (n : Nat) : Option (Bool × List Nat) :=
  if onChip x + n ≤ x.parkLimit then some (false, lowestFree (usedIdx x false) n)
  else
    let is := lowestFree (usedIdx x true) n
    if is.all fun i => decide (i < ovfSlots x) then some (true, is) else none

/-! ## Records (R370) -/

/-- What a record says of the issuer. -/
structure Issuer where
  lid : Nat := 0
  team : Nat := 0
  queue : Nat := 0
  bytes : Nat := 0

/-- A record without its RSEQ, which it takes when it is posted. -/
def faultRecord (s : State) (e : Entry) (i : Issuer) : FaultRec :=
  { pseq := e.pseq
    bytes := leBytes 8 (e.va % 2 ^ 52) ++ leBytes 4 e.pseq ++
      leBytes 4 (if e.cause = .order then e.leader.getD noLeader else noLeader) ++ leBytes 1 (Cause.code e.cause) ++
      leBytes 1 e.kind ++
      leBytes 1 ((if e.acq then 1 else 0) + (if e.rel then 2 else 0) + (if e.so then 4 else 0) + (if e.overflow then 8 else 0)) ++
      leBytes 1 e.vd ++ leBytes 2 e.core ++ leBytes 1 e.slot ++ leBytes 1 (if e.cause = .order then 3 else e.pgsz) ++
      leBytes 8 i.lid ++ leBytes 4 i.team ++ leBytes 2 i.queue ++ leBytes 2 i.bytes ++ leBytes 8 s.time ++ leBytes 8 0 ++
      leBytes 1 e.missing.toNat ++ leBytes 7 0 }

/-- A request parks: in the entry in which it replays, or in a new one. Answers the PSEQ, or none for
NACK (R366, R367, R373). -/
def parkAs (s : State) (d : Nat) (e : Entry) (i : Issuer) : State × Option Nat :=
  let x := s.die d
  match x.entries.find? fun o => o.owner == e.owner && o.st == .replay with
  | some o =>
    let e' := { e with pseq := o.pseq, overflow := o.overflow, idxs := o.idxs, leader := if e.cause = .order then e.leader else o.leader }
    let s1 := s.modDie d fun x => { x with pending := x.pending ++ [faultRecord s e' i] }
    (setEntry s1 d e', some o.pseq)
  | none =>
    match roomFor x (1 + e.ext) with
    | none => (s, none)
    | some (ovf, is) =>
      let e' := { e with pseq := x.pseq, overflow := ovf, idxs := is }
      let x' := { x with entries := x.entries ++ [e'], pseq := (x.pseq + 1) % 2 ^ 32, pending := x.pending ++ [faultRecord s e' i] }
      (syncEntry (s.setDie d x') d e', some x.pseq)

/-- The waiting record with the lowest PSEQ. -/
def firstRecord : List FaultRec → Option FaultRec
  | [] => none
  | r :: t => match firstRecord t with
    | none => some r
    | some q => if r.pseq ≤ q.pseq then some r else some q

/-- FAULT_RECORD_POST: one record goes to the ring if it has room, and once its write is acknowledged the tail word advances: a
release at SYS width (R371). Until then the record is written again as it stands. What a closed port refuses is dropped, and a head
word behind one leaves room (R27). Log entry 53: DEDUCED. -/
def postFault (s : State) (d : Nat) : State :=
  let x := s.die d
  match firstRecord x.pending with
  | none => s
  | some r =>
    let n := 2 ^ x.frCfg.toNat
    let head := dieLoad64 s d (x.frWords.toNat + 128)
    if x.frTail - head = n then s
    else
      let bytes := r.bytes.take 48 ++ leBytes 8 x.rseq ++ r.bytes.drop 56
      let at_ := x.frBase.toNat + 64 * (x.frTail % n)
      let s1 := if isMerging s (lineOf at_) none then s else dieStore s d (placed at_ bytes)
      if isMerging s1 (lineOf at_) none then s1
      else
        let s2 := s1.modDie d fun x => { x with pending := x.pending.erase r, rseq := x.rseq + 1, frTail := x.frTail + 1 }
        let s3 := dieStore s2 d (placed x.frWords.toNat (leBytes 8 (x.frTail + 1)))
        match findEntry s3 d r.pseq with
        | some e => syncEntry s3 d e
        | none => s3

end Sys2Proof.Machine
end

