-- ==== Sys2Proof/Machine/Bounded.lean ====
section
/-!
DEFINITION. Bounded-value regions (R257, R260 to R262, R297 to R299, R393, R394): shares, grants, drains,
recalls, and what an ACC, a load, a store, a DRAIN, a BREG and a BFREE do to them.
-/
namespace Sys2Proof.Machine

/-! ## binary32 arithmetic of shares (R297) -/

def addF (m : RMode) (x y : W32) : W32 := b32 (opFadd .f32 { mode := m } [x.toNat, y.toNat] 1).pat
def absF (x : W32) : W32 := x &&& 0x7FFFFFFF
/-- x ≤ y; false for a NaN. -/
def leV (x y : FVal) : Bool := !FVal.isNan x && !FVal.isNan y && decide (FVal.cmp x y ≤ 0)
def leF (x y : W32) : Bool := leV (valF x) (valF y)
/-- RZ(x / 2). -/
def halfV (x : FVal) : W32 := rzV (FVal.mul x (.fin false ⟨1, 2⟩)).1
/-- F = L / 1024. -/
def floorF (l : W32) : W32 := b32 (FF.put .f32 {} 1 (FVal.mul (valF l) (.fin false ⟨1, 1024⟩)).1).pat
/-- tol(e) of R8 as a binary32 pattern: 2^(e−32). -/
def tolF (e : BitVec 6) : W32 := if e = 0 then 0 else b32 ((e.toNat + 95) * 2 ^ 23)

/-! ## Regions and shares -/

/-- The region of a die's table that holds a virtual address. -/
def findRegion (s : State) (d vd va : Nat) : Option (Nat × Bound) :=
  (s.die d).bound.find? fun e => e.2.st != .free && e.2.vd == vd && decide (e.2.base ≤ va) && decide (va < e.2.base + e.2.size)

def setBound (s : State) (d i : Nat) (b : Bound) : State := s.modDie d fun x => { x with bound := Tab.set {} x.bound i b }

/-- Names a share: holder, VD, region base, die of the authority. -/
structure ShareKey where
  who : Holder
  vd : Nat
  base : Nat
  home : Nat
deriving DecidableEq, Repr

def Share.is (x : Share) (k : ShareKey) : Bool := x.who == k.who && x.vd == k.vd && x.base == k.base && x.home == k.home
def share (s : State) (k : ShareKey) : Share :=
  (s.shares.find? (·.is k)).getD { who := k.who, vd := k.vd, base := k.base, home := k.home }
/-- A holder with nothing is not listed. -/
def setShare (s : State) (k : ShareKey) (x : Share) : State :=
  let rest := s.shares.filter fun y => !y.is k
  { s with shares := if x.g = 0 && x.t = 0 && x.deltas.isEmpty then rest else rest ++ [x] }

/-- The parent of a holder: the RDC of its die, or none for the authority. -/
def parentKey (k : ShareKey) : Option ShareKey :=
  match k.who with
  | .l1 c => if dieOf c = k.home then none else some { k with who := .rdc (dieOf c) }
  | .rdc _ => none

/-- Grants that a parent has out; none for the authority. -/
def grantsOf (s : State) (k : ShareKey) (q : Option ShareKey) : List Share :=
  s.shares.filter fun x => x.vd == k.vd && x.base == k.base && x.home == k.home && x.g != 0 &&
    match q with
    | some p => (match x.who, p.who with | .l1 c, .rdc d => dieOf c == d | _, _ => false)
    | none => (match x.who with | .l1 c => dieOf c == k.home | .rdc _ => true)

def Share.key (x : Share) : ShareKey := { who := x.who, vd := x.vd, base := x.base, home := x.home }
def holderRank : Holder → Nat | .l1 c => c | .rdc d => 1000 + d

/-- The largest grant; ties go to the lowest core or die. -/
def largestShare : List Share → Option Share
  | [] => none
  | x :: t =>
    match largestShare t with
    | none => some x
    | some y =>
      if !leF x.g y.g then some x
      else if leF y.g x.g && decide (holderRank x.who ≤ holderRank y.who) then some x else some y

def sumV (gs : List Share) : FVal := gs.foldl (fun t x => addV t (valF x.g)) zeroV

/-- What an RDC would have in its pool with a tracker of T (R297). -/
def rdcPool (s : State) (q : ShareKey) (t : W32) : FVal :=
  subV (subV (valF (share s q).g) (valF t)) (sumV (grantsOf s q (some q)))

/-- The pool of a parent, as the invariants of R297 give it: L less the grants, or g_R less T_R and the sub-shares. -/
def poolV (s : State) (k : ShareKey) (q : Option ShareKey) : FVal :=
  match q with
  | none => (match findRegion s k.home k.vd k.base with | some (_, b) => subV (valF b.limit) (sumV (grantsOf s k none)) | none => zeroV)
  | some p => rdcPool s p (share s p).t

/-! ## Deferral (R297, R393) -/

def ShareKey.authority (k : ShareKey) : Authority := { home := k.home, vd := k.vd, base := k.base }

/-- The authorities whose region words some bytes touch. -/
def authoritiesOf (s : State) (part vd va pa n : Nat) : List Authority :=
  (List.range n).foldl (fun as i =>
    match paKind (pa + i) with
    | .hbm d =>
      match (if partOfDie s d = part then findRegion s d vd (va + i) else none) with
      | some (_, b) => let a : Authority := { home := d, vd := vd, base := b.base }; if as.contains a then as else as ++ [a]
      | none => as
    | _ => as) []

/-! ## Drains -/

/-- word := RNE(word + δ) at the home; a poisoned word stays as it is. Log entry 27: DEDUCED. -/
def applyWord (s : State) (pa : Nat) (x : W32) : State :=
  if s.poisoned pa then s
  else sysWrite s (placed pa (leBytes 4 (addF .rne (b32 (leNat (s.readBytes pa 4))) x).toNat))

/-- The authority applies deltas: word address, physical address and delta of each. -/
def applyAll (s : State) (ds : List (Nat × Nat × W32)) : State := ds.foldl (fun s d => applyWord s d.2.1 d.2.2) s

/-- Does a closed port stand between a holder and the authority (R27)? -/
def holderCut (s : State) (k : ShareKey) : Bool :=
  let d := match k.who with | .l1 c => dieOf c | .rdc d => d
  !linkOpen s d k.home

/-- Deltas that a holder sends to the authority; a closed port refuses them, and they are dropped (R27). -/
def applyFrom (s : State) (k : ShareKey) (ds : List (Nat × Nat × W32)) : State :=
  if holderCut s k then (ds.head?.map fun d => countRefused s (match k.who with | .l1 c => dieOf c | .rdc d => d) d.2.1).getD s
  else applyAll s ds

def Share.list (x : Share) : List (Nat × Nat × W32) := x.deltas.map fun d => (d.1, Tab.get 0 x.pas d.1, d.2)

/-- An RDC, or an L1 below the authority, drains itself into the authority. -/
def drainToHome (s : State) (k : ShareKey) : State :=
  let x := share s k
  let s1 := applyFrom s k x.list
  setShare s1 k { x with deltas := [], pas := [], t := 0 }

/-- Can an RDC take deltas with a tracker of T, its pool not falling below 0? -/
def rdcTakes (s : State) (q : ShareKey) (t : W32) : Bool :=
  (share s q).g != 0 && leV zeroV (rdcPool s q (addF .rup (share s q).t t))

/-- Deltas with tracker T go from a holder to its parent (R297 "Drain of H into Q"); false where a closed port refused them. -/
def drainInto (s : State) (k : ShareKey) (ds : List (Nat × Nat × W32)) (t : W32) : State × Bool :=
  let pass := fun (s : State) => (applyFrom s k ds, !holderCut s k)
  match parentKey k with
  | none => pass s
  | some q =>
    let s1 := if (share s q).g = 0 || rdcTakes s q t then s else drainToHome s q
    let r := share s1 q
    if !rdcTakes s1 q t then pass s1
    else (setShare s1 q { r with
      t := addF .rup r.t t
      deltas := ds.foldl (fun m d => Tab.set 0 m d.1 (addF .rne (Tab.get 0 m d.1) d.2.2)) r.deltas
      pas := ds.foldl (fun m d => Tab.set 0 m d.1 d.2.1) r.pas }, true)

/-- H drains: its deltas and its tracker are zero and g is kept. -/
def drainHolder (s : State) (k : ShareKey) : State :=
  match parentKey k with
  | none => drainToHome s k
  | some _ =>
    let x := share s k
    let s1 := (drainInto s k x.list x.t).1
    setShare s1 k { share s1 k with deltas := [], pas := [], t := 0 }

/-! ## Recalls -/

/-- Recall of a holder without holders below it. -/
def recallOne (s : State) (k : ShareKey) : State :=
  let s1 := drainHolder s k
  setShare s1 k { share s1 k with g := 0 }

/-- Recall of H: an RDC first recalls each of its sub-shares. A recall that comes to a closed port waits (R27). -/
def recallHolder (s : State) (k : ShareKey) : State :=
  match k.who with
  | .l1 _ => recallOne s k
  | .rdc _ => if holderCut s k then s else recallOne ((grantsOf s k (some k)).foldl (fun s x => recallOne s x.key) s) k

/-- Recalls grants, largest first, while a condition holds; the requester's own is spared. -/
def recallWhile (q : Option ShareKey) (k : ShareKey) (spare : Option Holder) (cond : State → List Share → Bool) : Nat → State → State
  | 0, s => s
  | n + 1, s =>
    let gs := (grantsOf s k q).filter fun x => some x.who != spare
    if cond s gs then
      match largestShare gs with
      | some x => recallWhile q k spare cond n (recallHolder s x.key)
      | none => s
    else s

/-- Every grant of an authority is recalled. -/
def recallAll (s : State) (k : ShareKey) : State := recallWhile none k none (fun _ gs => !gs.isEmpty) 64 s

/-- Any holder's key at an authority; it names the grants of the authority. -/
def Authority.key (a : Authority) : ShareKey := { who := .rdc a.home, vd := a.vd, base := a.base, home := a.home }

/-- The next recall that some authorities owe: the largest grant of the first one that has a grant out. -/
def recallNext (s : State) : List Authority → Option State
  | [] => none
  | a :: t =>
    match largestShare (grantsOf s a.key none) with
    | some x => some (recallHolder s x.key)
    | none => recallNext s t

/-! ## Grants -/

/-- One grant from a parent, after the recalls that it forces; true when it was made. -/
def grantFrom (s : State) (k : ShareKey) (q : Option ShareKey) (floor : W32) : State × Bool :=
  let s1 := recallWhile q k none (fun s gs => !gs.isEmpty && !leF floor (halfV (poolV s k q))) 64 s
  let g := halfV (poolV s1 k q)
  if leF floor g then (setShare s1 k { share s1 k with g := g }, true) else (s1, false)

/-- Grant to H (R297): an RDC without a share, or whose pool has fallen below the floor, turns to the
authority and retries; behind a closed port it cannot. While the authority defers its grants there is no answer. -/
def grantTo (s : State) (k : ShareKey) (floor : W32) : Option (State × Bool) :=
  let open_ := !authorityDefers s k.authority
  match parentKey k with
  | none => if open_ then some (grantFrom s k none floor) else none
  | some q =>
    if (share s q).g = 0 && holderCut s q then some (s, false)
    else if (share s q).g = 0 && !open_ then none
    else
      let s1 := if (share s q).g = 0 then (grantFrom s q none floor).1 else s
      let r := grantFrom s1 k (some q) floor
      if r.2 then some r
      else if (share r.1 q).g = 0 || holderCut s q then some (r.1, false)
      else if !open_ then none
      else
        let s2 := recallOne r.1 q
        let s3 := (grantFrom s2 q none floor).1
        if (share s3 q).g = 0 then some (s3, false) else some (grantFrom s3 k (some q) floor)

/-! ## The accesses -/

/-- ACC of x into a region word (R257, R297), with the flags of its own addition, or MERR where a closed port refused it
(R27); none while it waits for a grant that the authority defers. -/
def accRegion (s : State) (core : Nat) (d : Nat) (b : Bound) (va pa : Nat) (x : W32) (ovfsat : Bool) : Option (State × BitVec 6) :=
  let k : ShareKey := { who := .l1 core, vd := b.vd, base := b.base, home := d }
  let a := absF x
  (if (share s k).g = 0 then (grantTo s k (floorF b.limit)).map (·.1) else some s).map fun s1 =>
    let h := share s1 k
    let pass := fun (s : State) => let r := drainInto s k [(va, pa, x)] a; (r.1, flagIf (!r.2) flagMerr)
    if h.g = 0 then pass s1
    else if leF (addF .rup h.t a) h.g then
      let r := opFadd .f32 { ovfsat := ovfsat } [(Tab.get 0 h.deltas va).toNat, x.toNat] 1
      (setShare s1 k { h with deltas := Tab.set 0 h.deltas va (b32 r.pat), pas := Tab.set 0 h.pas va pa, t := addF .rup h.t a }, r.flags)
    else
      let s2 := drainHolder s1 k
      let h2 := share s2 k
      if leF a h2.g then
        (setShare s2 k { h2 with deltas := Tab.set 0 h2.deltas va x, pas := Tab.set 0 h2.pas va pa, t := addF .rup h2.t a }, 0)
      else pass s2

/-- The next recall that a load of a region word with tolerance t waits for (R297): of the authority's grants but the
requester's while their sum is above t, then of the other sub-shares of its RDC while theirs is above the slack. -/
def loadRecall (s : State) (core : Nat) (d : Nat) (b : Bound) (t : W32) : Option State :=
  let k : ShareKey := { who := .l1 core, vd := b.vd, base := b.base, home := d }
  let top := match parentKey k with | none => k | some q => q
  let others := (grantsOf s k none).filter fun x => x.who != top.who
  if !others.isEmpty && !leV (sumV others) (valF t) then (largestShare others).map fun x => recallHolder s x.key
  else
    match parentKey k with
    | none => none
    | some q =>
      let slack := subV (valF t) (sumV others)
      let subs := (grantsOf s k (some q)).filter fun x => x.who != k.who
      if !subs.isEmpty && !leV (sumV subs) slack then (largestShare subs).map fun x => recallHolder s x.key else none

/-- The value of a region word for a load of a core, once no recall is owed: the word, the deltas of the requester's
RDC for a remote word, the deltas of its L1 (R297). -/
def regionValue (s : State) (core : Nat) (d : Nat) (b : Bound) (va pa : Nat) : W32 :=
  let k : ShareKey := { who := .l1 core, vd := b.vd, base := b.base, home := d }
  let word := b32 (leNat (s.readBytes pa 4))
  match parentKey k with
  | none => addF .rne word (Tab.get 0 (share s k).deltas va)
  | some q => addF .rne (addF .rne word (Tab.get 0 (share s q).deltas va)) (Tab.get 0 (share s k).deltas va)

/-- Every holder of a region on every die of the partition drains; L1s before RDCs (R260). -/
def drainRegion (s : State) (part vd base : Nat) : State :=
  let mine := s.shares.filter fun x => x.vd == vd && x.base == base && partOfDie s x.home == part
  let l1 := mine.filter fun x => match x.who with | .l1 _ => true | _ => false
  let s1 := l1.foldl (fun s x => drainHolder s x.key) s
  (s1.shares.filter fun x => x.vd == vd && x.base == base && partOfDie s x.home == part).foldl (fun s x => drainHolder s x.key) s1

/-! ## Regions come and go (R261, R262, R394) -/

/-- Does every page of a range translate through a leaf of class BV, whatever its rights? -/
def allBv (s : State) (part vd lo : Nat) : Nat → Nat → Bool
  | 0, _ => true
  | n + 1, va =>
    match s.vd part vd with
    | none => false
    | some v =>
      match (if Config.addrLimit ≤ va then Walked.fail { cause := .notPresent } else walkFrom s ((partDies s part).headD 0) part va 4 0 v.ptroot) with
      | .leaf l => l.cls == .bv && (let next := vpBase va l.pgsz + pageBytes l.pgsz
                                     if lo ≤ next then true else allBv s part vd lo n next)
      | .fail _ => false

/-- A free entry of a die's table: the lowest of 1,024. -/
def freeBound (s : State) (d : Nat) : Option Nat :=
  (List.range 1024).find? fun i => (Tab.get {} (s.die d).bound i).st == .free

def overlapsRegion (s : State) (part vd base size : Nat) : Bool :=
  (partDies s part).any fun d => (s.die d).bound.any fun e =>
    e.2.st != .free && e.2.vd == vd && decide (e.2.base < base + size) && decide (base < e.2.base + e.2.size)

/-- BREG (R261): the entries of every die, or nothing. -/
def registerRegion (s : State) (part vd base size : Nat) (limit : W32) : State × Bool :=
  let ds := partDies s part
  if allBv s part vd (base + size) (size / 65536 + 2) base && !overlapsRegion s part vd base size && ds.all fun d => (freeBound s d).isSome then
    (ds.foldl (fun s d => match freeBound s d with
      | some i => setBound s d i { base := base, size := size, vd := vd, st := .active, limit := limit }
      | none => s) s, true)
  else (s, false)

/-- The base of the region of a VD that holds an address. -/
def regionBase (s : State) (part vd va : Nat) : Option Nat :=
  (partDies s part).findSome? fun d => (findRegion s d vd va).map (·.2.base)

def removing (b : Bound) (vd base : Nat) : Bool := b.st == .removing && b.vd == vd && b.base == base

/-- Is a region of the partition on its way out, other than a region of a VD at a base? -/
def anyRemoving (s : State) (part : Nat) (but : Option (Nat × Nat)) : Bool :=
  (partDies s part).any fun d => (s.die d).bound.any fun e => e.2.st == .removing && some (e.2.vd, e.2.base) != but

/-- Every entry of a region that is REMOVING goes once none of them has a grant out (R394). -/
def settleRemoving (s : State) (part vd base : Nat) : State :=
  if s.shares.any fun x => x.vd == vd && x.base == base && partOfDie s x.home == part then s
  else (partDies s part).foldl (fun s d => s.modDie d fun x =>
    { x with bound := x.bound.filter fun e => !removing e.2 vd base }) s

/-- BFREE (R262, R394): every entry moves to REMOVING and every holder drains; then each step makes one recall, and
with no grant left the entries go. -/
def freeRegion (s : State) (part vd base : Nat) : State :=
  let as : List Authority := (partDies s part).map fun d => { home := d, vd := vd, base := base }
  if (partDies s part).any fun d => (s.die d).bound.any fun e => removing e.2 vd base then
    match recallNext s as with
    | some s1 => settleRemoving s1 part vd base
    | none => settleRemoving s part vd base
  else
    let s1 := drainRegion s part vd base
    settleRemoving ((partDies s1 part).foldl (fun s d => s.modDie d fun x =>
      { x with bound := x.bound.map fun e => if e.2.st == .active && e.2.vd == vd && e.2.base == base then (e.1, { e.2 with st := .removing }) else e })
      s1) part vd base

/-- Before a write of an engine to region words: the authority of each word recalls every grant; none while a grant lies behind
a closed port. Log entry 25: DEDUCED. -/
def recallFor (s : State) (part vd va pa n : Nat) : Option State :=
  let as := authoritiesOf s part vd va pa n
  let s1 := as.foldl (fun s a => recallAll s a.key) s
  if as.all fun a => (grantsOf s1 a.key none).isEmpty then some s1 else none

/-! ## Steps of holders and parents -/

def execDeltaDrain (who : Holder) (vd base home : Nat) (s : State) : Out :=
  .next (drainHolder s { who := who, vd := vd, base := base, home := home })

/-- A holder's share goes back; an entry that is REMOVING and has no grant left goes (R394). -/
def giveBack (s : State) (k : ShareKey) : State := settleRemoving (recallHolder s k) (partOfDie s k.home) k.vd k.base

def execShareRecall (who : Holder) (vd base home : Nat) (s : State) : Out :=
  .next (giveBack s { who := who, vd := vd, base := base, home := home })

/-- A holder drains, or drains and returns its share, of its own accord (R298). -/
def execHolderReturn (who : Holder) (vd base home : Nat) (give : Bool) (s : State) : Out :=
  let k : ShareKey := { who := who, vd := vd, base := base, home := home }
  .next (if give then giveBack s k else drainHolder s k)

end Sys2Proof.Machine
end

