-- ==== Sys2Proof/Machine/Control.lean ====
section
/-!
DEFINITION. Control: branches, calls, joins, forks, exits, traps and register blocks, 0x01 to 0x11 but REP
(R168 to R181), the joins' completion and expiry, the posy former and rotation (R47 to R57).
-/
namespace Sys2Proof.Machine

/-- PC + 4·sext(imm) (R169). -/
def immTarget (pc : Nat) (i : Imm) : Nat := (b64 pc + 4 * Imm.sext i).toNat

/-- A register target that ILLEGAL_SPAN refuses (R169). -/
def badTarget (v : BitVec 64) : Bool := v.extractLsb' 0 2 != 0 || v.extractLsb' 52 12 != 0

/-- A whole-posy instruction has no guard. -/
def plainHdr (h : Hdr) : Hdr := { h with gp := 0, gn := false }

def execNop (o : Ops) (s : State) : Out := issue s {} o.h fun e _ => commit s e o.h.len {}

/-! ## Branches (R169 to R172) -/

def goto (s : State) (e : Env) (pc : Nat) : Out := .next (s.setPosy e.key (some (e.p.goto pc)))

def jmpNeed (o : Ops) : Need :=
  match o.b with
  | .imm _ => {}
  | .reg b => { type := b.cls == .s, regs := [opdUse b 1 1 false] }

def execJmp (o : Ops) (s : State) : Out :=
  issue s (jmpNeed o) o.h fun e act =>
    match o.b with
    | .imm i => goto s e (immTarget e.p.pc i)
    | .reg b =>
      let t := e.f.sreg b.n.toNat
      if badTarget t then trap s e .illegalSpan act else goto s e t.toNat

def execBra (o : Ops) (s : State) : Out :=
  issue s { type := o.a.cls == .s, regs := [opdUse o.a 1 1 false] } o.h fun e _ =>
    let taken := (e.f.sreg o.a.n.toNat == 0) == (o.sub == 1)
    match o.b with
    | .imm i => if taken then goto s e (immTarget e.p.pc i) else commit s e o.h.len {}
    | .reg _ => commit s e o.h.len {}

/-- Groups of R40: index 0 takes the branch, index 1 goes on; a target that is the next instruction leaves one group, as
R40 groups by destination; it names groups 0 and 1 of BR without that case. Log entry 102: DESIGN CHOICE. -/
def brGroups (o : Ops) (e : Env) : List Group :=
  let target := match o.b with | .imm i => immTarget e.p.pc i | .reg _ => 0
  let (yes, no) := e.p.present.partition (e.p.guard o.h.gp o.h.gn)
  no.foldl (fun gs L => addGroup (e.p.pc + 4 * Len.words o.h.len) e.p.wbase L gs)
    (yes.foldl (fun gs L => addGroup target e.p.wbase L gs) [])

def execBr (o : Ops) (s : State) : Out := issue s { ban := true, regs := [guardUse o.h] } (plainHdr o.h) fun e _ => diverge s e (brGroups o e)

/-- Predicate of pair i of BR4. -/
def br4Pred (o : Br4Ops) (i : Nat) : BitVec 4 := match i with | 0 => o.p0 | 1 => o.p1 | 2 => o.p2 | _ => o.p3

/-- The group of a lane: the first pair whose predicate is true (R171). -/
def br4Group (o : Br4Ops) (p : Posy) (L : Nat) : Nat :=
  ((List.range 4).find? fun i => p.pred (br4Pred o i).toNat L != o.neg.getLsbD i).getD 4

def br4Dest (o : Br4Ops) (pc i : Nat) : Nat :=
  if i < 4 then (b64 pc + 4 * (o.disp.extractLsb' (16 * i) 16).signExtend 64).toNat else pc + 16

/-- Groups with equal destinations are one, under the lowest index. -/
def br4Groups (o : Br4Ops) (e : Env) : List Group :=
  (List.range 5).foldl (fun gs i =>
    (e.p.present.filter fun L => br4Group o e.p L == i).foldl (fun gs L => addGroup (br4Dest o e.p.pc i) e.p.wbase L gs) gs) []

def execBr4 (o : Br4Ops) (s : State) : Out :=
  issue s { ban := true, regs := (List.range 4).map fun i => { sp := .p, n := (br4Pred o i).toNat } } { len := .w4, y := o.y } fun e _ =>
    diverge s e (br4Groups o e)

/-! ## Calls (R173, R174) -/

/-- The links into v[n−2] and v[n−1], the window slid up, PC at the target. -/
def callTo (s : State) (e : Env) (n target : Nat) (len : Len) : Out :=
  let ret := e.p.pc + 4 * Len.words len
  let r := e.p.wbase + n - 2
  let e' := e.apply
    { vw := e.p.present.flatMap fun L => [(r, L, b32 ret), (r + 1, L, b32 (ret / 2 ^ 32 % 2 ^ 20 + n * 2 ^ 20))]
      tags := [(r, 0), (r + 1, 0)] }
  .next ({ e' with p := { e'.p.goto target with wbase := e.p.wbase + n } }.put s)

/-- The slide count is below the window size. -/
def slideFits (o : Ops) (e : Env) : Bool := decide (o.d.n.toNat < e.p.wsize)
/-- The link registers. -/
def linkRegs (o : Ops) : RegUse := { sp := .v, n := o.d.n.toNat - 2, count := 2 }

/-- Log entry 44: DEDUCED. -/
def execCall (o : Ops) (s : State) : Out :=
  issue s { regs := [linkRegs o], regOk := slideFits o } o.h fun e _ =>
    match o.b with
    | .imm i => callTo s e o.d.n.toNat (immTarget e.p.pc i) o.h.len
    | .reg _ => commit s e o.h.len {}

/-- Log entry 44: DEDUCED. -/
def execCalli (o : Ops) (s : State) : Out :=
  issue s { type := o.a.cls == .s, regs := [linkRegs o, opdUse o.a 1 1 false], regOk := slideFits o } o.h fun e act =>
    let t := e.f.sreg o.a.n.toNat
    if badTarget t then trap s e .illegalSpan act else callTo s e o.d.n.toNat t.toNat o.h.len

/-- The link of a lane: target and slide count. Log entry 87: DEDUCED. -/
def linkOf (p : Posy) (L : Nat) : Nat × Nat :=
  let hi := p.reg (p.wbase - 1) L
  ((p.reg (p.wbase - 2) L).toNat + 2 ^ 32 * (hi.extractLsb' 0 20).toNat, (hi.extractLsb' 20 8).toNat)

/-- The check of a lane's link, with the trap it raises. -/
def linkTrap (p : Posy) (L : Nat) : Option Trap :=
  let hi := p.reg (p.wbase - 1) L
  let (t, c) := linkOf p L
  if hi.extractLsb' 28 4 ≠ 0 ∨ c % 2 = 1 ∨ c < 2 ∨ p.wbase < c then some .illegalReg
  else if t % 4 ≠ 0 then some .illegalSpan else none

def retGroups (e : Env) : List Group :=
  e.p.present.foldl (fun gs L => let (t, c) := linkOf e.p L; addGroup t (e.p.wbase - c) L gs) []

/-- Is an allocation register below the window pending? -/
def lowPends (e : Env) (r n : Nat) : Bool :=
  e.t.loads.any fun l => l.dcls == .v && l.uid == e.p.uid && decide (l.dst < r + n) && decide (r < l.dst + l.count)

/-- Log entry 87: DEDUCED. -/
def execRet (o : Ops) (s : State) : Out :=
  issue s { regOk := fun e => decide (2 ≤ e.p.wbase), ban := true } o.h fun e act =>
    if lowPends e (e.p.wbase - 2) 2 then .next s
    else
      match e.p.present.findSome? (linkTrap e.p) with
      | some t => trap s e t act
      | none => diverge s e (retGroups e)

/-! ## Joins, forks, exits, traps (R175 to R178) -/

def execJoin (o : Ops) (s : State) : Out := issue s { ban := true } o.h fun e _ => arrive s e o.h.len none

/-- Signed, clamped to 0 to 2^32 − 1. -/
def joinwBound (v : BitVec 64) : Nat := (min (max v.toInt 0) 4294967295).toNat

def execJoinw (o : Ops) (s : State) : Out :=
  issue s { jmpNeed o with ban := true } o.h fun e _ =>
    arrive s e o.h.len (some (joinwBound (match o.b with | .imm i => Imm.sext i | .reg b => e.f.sreg b.n.toNat)))

/-- FORK reads every uniform register of the frame, which it copies (R59): one that is pending stalls it. -/
def execFork (o : Ops) (s : State) : Out :=
  issue s { type := o.d.cls == .s && o.a.cls == .s
            regs := [opdUse o.d 1 1 true, opdUse o.a 1 1 false, { sp := .s, n := 0, count := 32 }], full := true, ban := true } o.h fun e _ =>
    match o.b with
    | .imm i => fork s e (e.f.sreg o.a.n.toNat).toNat (immTarget e.p.pc i) o.d.n.toNat o.h.len
    | .reg _ => commit s e o.h.len {}

def execExit (o : Ops) (s : State) : Out :=
  issue s { ban := true } o.h fun e act => if act.isEmpty then commit s e o.h.len {} else .next (exitLanes s e act o.h.len)

def execTrap (o : Ops) (s : State) : Out :=
  issue s {} o.h fun e act =>
    if act.isEmpty then commit s e o.h.len {} else .next (takeTrap s e .swtrap act o.x10.toNat)

def execBrk (o : Ops) (s : State) : Out :=
  issue s {} o.h fun e act => if act.isEmpty then commit s e o.h.len {} else .next (takeTrap s e .break_ act 0)

/-! ## Register blocks (R181) -/

def blockSize (o : Ops) : Nat := match o.b with | .imm i => (Imm.sext i).toNat | .reg _ => 0

/-- Posies that wait in XACQ in the same bay and tried first. -/
def earlierXacq (s : State) (e : Env) (mine : Nat) : Bool :=
  (s.posiesAt e.core).any fun q => q.1 != e.key && q.1 % Config.slots % 4 == e.slot % 4 &&
    match q.2.xseq with | some x => decide (x < mine) | none => false

/-- Registers from n up hold nothing: they read zero with tag RAW. -/
def Posy.cut (p : Posy) (n : Nat) : Posy :=
  { p with v := p.v.filter fun x => decide (x.1 < 64 * n), tags := p.tags.filter fun x => decide (x.1 < n) }

def execXacq (o : Ops) (s : State) : Out :=
  issue s {} o.h fun e act =>
    let n := blockSize o
    if 256 < e.p.alloc + n then trap s e .xblock act
    else
      let c := s.core e.core
      let mine := e.p.xseq.getD c.xseq
      let reserve := if e.slot < Config.firstReserved then bayReserve s e.core (e.slot % 4) else 0
      if n + reserve ≤ bayFree s e.core (e.slot % 4) ∧ !earlierXacq s e mine then
        .next (s.setPosy e.key (some { (e.p.cut e.p.alloc).advance o.h.len with alloc := e.p.alloc + n }))
      else
        .next ((s.setPosy e.key (some { e.p.block s.cycle with xseq := some mine })).setCore e.core
          { c with xseq := if e.p.xseq.isSome then c.xseq else c.xseq + 1 })

def topPends (s : State) (e : Env) (n : Nat) : Bool :=
  pends s e { sp := .v, n := e.p.alloc - n - e.p.wbase, count := n }

def execXrel (o : Ops) (s : State) : Out :=
  issue s {} o.h fun e act =>
    let n := blockSize o
    if e.p.alloc ≤ n + e.p.wbase ∨ e.p.alloc < n + 8 then trap s e .xblock act
    else if topPends s e n then .next s
    else .next (s.setPosy e.key (some { (e.p.cut (e.p.alloc - n)).advance o.h.len with alloc := e.p.alloc - n }))

/-! ## Steps of the core's posy former -/

/-- Log entry 46: DESIGN CHOICE. -/
def execJoinComplete (team frame i : Nat) (s : State) : Out :=
  match s.team team with
  | none => .next s
  | some t =>
    match t.frame frame with
    | none => .next s
    | some f =>
      match f.join i with
      | some j => if j.open_ ∧ t.running ∧ joinMet s t frame f j then .next (withSpawn s team (joinFinish s team frame i)) else .next s
      | none => .next s

/-- No bay of the core issues any more in this cycle: the expiry test of its joins has come (R56, R175). -/
def closeBays (s : State) (core : Nat) : State :=
  s.modCore core fun c => { c with issued := Tab.setAll 0 c.issued ((List.range Config.bays).map fun b => (b, s.cycle + 1)) }

/-- Log entry 46: DESIGN CHOICE. -/
def execJoinExpiry (team frame i : Nat) (s : State) : Out :=
  match s.team team with
  | none => .next s
  | some t =>
    match (t.frame frame).bind (·.join i) with
    | some j => if joinDue s t j then .next (closeBays (withSpawn s team (joinFinish s team frame i)) t.core) else .next s
    | none => .next s

def execPosyForm (core : Nat) (s : State) : Out := .next (formPosy s core)
def execRotation (core slot : Nat) (s : State) : Out := .next (rotate s core slot)

end Sys2Proof.Machine
end

