-- ==== Sys2Proof/Machine/Int.lean ====
section
/-!
DEFINITION. The integer instructions, moves and class changes, 0x20 to 0x44 (R151 to R165).
-/
namespace Sys2Proof.Machine

/-! ## Element operations (R155 to R157): width, signedness, patterns -/

abbrev IntOp := Nat → Bool → List Nat → Nat × BitVec 6

def x0 (xs : List Nat) : Nat := xs.getD 0 0
def x1 (xs : List Nat) : Nat := xs.getD 1 0
def x2 (xs : List Nat) : Nat := xs.getD 2 0

def opAdd (sat : Bool) : IntOp := fun w sg xs => intRes sat w sg (readInt w sg (x0 xs) + readInt w sg (x1 xs))
def opSub (sat : Bool) : IntOp := fun w sg xs => intRes sat w sg (readInt w sg (x0 xs) - readInt w sg (x1 xs))
def opMul (sat : Bool) : IntOp := fun w sg xs => intRes sat w sg (readInt w sg (x0 xs) * readInt w sg (x1 xs))
def opMulh : IntOp := fun w sg xs => wrapRes w ((readInt w sg (x0 xs) * readInt w sg (x1 xs)).fdiv (2 ^ w))
def opMad : IntOp := fun w sg xs => wrapRes w (readInt w sg (x0 xs) * readInt w sg (x1 xs) + readInt w sg (x2 xs))

/-- DIV (R156). -/
def opDiv : IntOp := fun w sg xs =>
  let x := readInt w sg (x0 xs)
  let y := readInt w sg (x1 xs)
  if y = 0 then (2 ^ w - 1, flagDz) else wrapRes w (x.tdiv y)

/-- REM (R156). -/
def opRem : IntOp := fun w sg xs =>
  let x := readInt w sg (x0 xs)
  let y := readInt w sg (x1 xs)
  if y = 0 then (wrapInt w x, flagDz) else wrapRes w (x - x.tdiv y * y)

def opAnd : IntOp := fun _ _ xs => (x0 xs &&& x1 xs, 0)
def opOr : IntOp := fun _ _ xs => (x0 xs ||| x1 xs, 0)
def opXor : IntOp := fun _ _ xs => (x0 xs ^^^ x1 xs, 0)
def opNot : IntOp := fun w _ xs => (2 ^ w - 1 - x0 xs, 0)
def opShl : IntOp := fun w _ xs => (x0 xs * 2 ^ (x1 xs % w) % 2 ^ w, 0)
def opShr : IntOp := fun w _ xs => (x0 xs / 2 ^ (x1 xs % w), 0)
/-- SAR fills with bit w − 1 of x, whatever the format's signedness (R157). -/
def opSar : IntOp := fun w _ xs => wrapRes w ((readInt w true (x0 xs)).fdiv (2 ^ (x1 xs % w)))
def opMin : IntOp := fun w sg xs => (if readInt w sg (x1 xs) < readInt w sg (x0 xs) then x1 xs else x0 xs, 0)
def opMax : IntOp := fun w sg xs => (if readInt w sg (x0 xs) < readInt w sg (x1 xs) then x1 xs else x0 xs, 0)
def opAbs (sat : Bool) : IntOp := fun w sg xs => intRes sat w sg ((readInt w sg (x0 xs)).natAbs : Int)
def opNeg (sat : Bool) : IntOp := fun w sg xs => intRes sat w sg (-readInt w sg (x0 xs))

/-- Bits of a pattern, from bit 0. -/
def bitsOf (w v : Nat) : List Nat := (List.range w).map fun i => v / 2 ^ i % 2

def opPopc : IntOp := fun w _ xs => ((bitsOf w (x0 xs)).sum, 0)
def opClz : IntOp := fun w _ xs => (if x0 xs = 0 then w else w - 1 - Nat.log2 (x0 xs), 0)
def opBrev : IntOp := fun w _ xs => (packElems 1 (bitsOf w (x0 xs)).reverse, 0)

/-- LOP3: bit i is table[4·x_i + 2·y_i + z_i]. -/
def opLop3 (table : Nat) : IntOp := fun w _ xs =>
  (packElems 1 ((List.range w).map fun i =>
    table / 2 ^ (4 * (x0 xs / 2 ^ i % 2) + 2 * (x1 xs / 2 ^ i % 2) + x2 xs / 2 ^ i % 2) % 2), 0)

/-- BFX (R160). -/
def opBfx (len : Nat) : IntOp := fun w sg xs =>
  let f := x0 xs / 2 ^ (x1 xs % w) % 2 ^ len
  (if sg then wrapInt w (readInt len true f) else f, 0)

/-- BFI (R160): sources x, position y, z. -/
def opBfi (len : Nat) : IntOp := fun w _ xs =>
  let pos := x1 xs % w
  let m := (2 ^ len - 1) * 2 ^ pos % 2 ^ w
  ((x2 xs &&& (2 ^ w - 1 - m)) ||| (x0 xs * 2 ^ pos % 2 ^ w &&& m), 0)

/-- The conditions of CMP (R158). -/
def cmpHolds (cond : Nat) (w x y : Nat) : Bool :=
  let sx := readInt w true x
  let sy := readInt w true y
  match cond with
  | 0 => x == y | 1 => x != y | 2 => decide (sx < sy) | 3 => decide (sx ≤ sy) | 4 => decide (sy < sx) | 5 => decide (sy ≤ sx)
  | 6 => decide (x < y) | 7 => decide (x ≤ y) | 8 => decide (y < x) | _ => decide (y ≤ x)

def opCmp (cond : Nat) : IntOp := fun w _ xs => (if cmpHolds cond w (x0 xs) (x1 xs) then 1 else 0, 0)

/-! ## Affine forms (R85) -/

abbrev Aff := BitVec 64 × BitVec 64

def aff0 (xs : List Aff) : Aff := xs.getD 0 (0, 0)
def aff1 (xs : List Aff) : Aff := xs.getD 1 (0, 0)
def aff2 (xs : List Aff) : Aff := xs.getD 2 (0, 0)
def affAdd (x y : Aff) : Aff := (x.1 + y.1, x.2 + y.2)
def affSub (x y : Aff) : Aff := (x.1 - y.1, x.2 - y.2)
/-- A×S or S×A: the affine factor scaled by the uniform one, whose stride is zero. -/
def affMul (x y : Aff) (xIsA : Bool) : Aff := if xIsA then (x.1 * y.1, x.2 * y.1) else (y.1 * x.1, y.2 * x.1)
def affShl (x : Aff) (y : BitVec 64) : Aff := (x.1 <<< (y.toNat % 64), x.2 <<< (y.toNat % 64))

def Opd.isA (o : Opd) : Bool := o.cls == .a
def srcIsA (b : SrcB) : Bool := match b with | .reg o => o.cls == .a | .imm _ => false

/-! ## Shapes -/

/-- FMT 12 or 13 with SUB 0: what an A destination asks for. -/
def affFmt (o : Ops) : Bool := Fmt.wide o.fmt && o.sub == 0

/-- Two sources A and B. -/
def int2 (o : Ops) (op : IntOp) : Alu :=
  { h := o.h, d := o.d, srcs := [Ops.srcA o o.fmt, Ops.srcB o o.fmt], wide := Fmt.wide o.fmt
    sOk := !Fmt.packed o.fmt, tag := fun _ => tagOf o.fmt, fn := intFn o.fmt op }

/-- One source A. -/
def int1 (o : Ops) (op : IntOp) : Alu :=
  { h := o.h, d := o.d, srcs := [Ops.srcA o o.fmt], wide := Fmt.wide o.fmt
    sOk := !Fmt.packed o.fmt, tag := fun _ => tagOf o.fmt, fn := intFn o.fmt op }

/-- Three sources A, B and C. -/
def int3 (o : Ops) (op : IntOp) : Alu :=
  { h := o.h, d := o.d, srcs := [Ops.srcA o o.fmt, Ops.srcB o o.fmt, Ops.srcC o o.fmt], wide := Fmt.wide o.fmt
    sOk := !Fmt.packed o.fmt, tag := fun _ => tagOf o.fmt, fn := intFn o.fmt op }

/-- A shift amount or bit position accepts any tag (R153). -/
def anyTagB (o : Ops) : Src := { Ops.srcB o o.fmt with check := false }

def aluAdd (o : Ops) : Alu :=
  { int2 o (opAdd (o.sub == 1)) with aOk := affFmt o, aff := fun xs => affAdd (aff0 xs) (aff1 xs) }
def aluSub (o : Ops) : Alu :=
  { int2 o (opSub (o.sub == 1)) with aOk := affFmt o, aff := fun xs => affSub (aff0 xs) (aff1 xs) }
def aluMul (o : Ops) : Alu :=
  { int2 o (opMul (o.sub == 1)) with
    aOk := affFmt o && !(Opd.isA o.a && srcIsA o.b), aff := fun xs => affMul (aff0 xs) (aff1 xs) (Opd.isA o.a) }
def aluMulh (o : Ops) : Alu := int2 o opMulh
def aluMad (o : Ops) : Alu :=
  { int3 o opMad with
    aOk := affFmt o && !(Opd.isA o.a && srcIsA o.b) && (Opd.isA o.a || srcIsA o.b || Opd.isA o.c)
    aff := fun xs => affAdd (affMul (aff0 xs) (aff1 xs) (Opd.isA o.a)) (aff2 xs) }
def aluDiv (o : Ops) : Alu := int2 o opDiv
def aluRem (o : Ops) : Alu := int2 o opRem
def aluAnd (o : Ops) : Alu := int2 o opAnd
def aluOr (o : Ops) : Alu := int2 o opOr
def aluXor (o : Ops) : Alu := int2 o opXor
def aluNot (o : Ops) : Alu := int1 o opNot
def shiftOf (o : Ops) (op : IntOp) : Alu := { int2 o op with srcs := [Ops.srcA o o.fmt, anyTagB o] }
def aluShl (o : Ops) : Alu :=
  { shiftOf o opShl with
    aOk := affFmt o && Opd.isA o.a && !srcIsA o.b, aff := fun xs => affShl (aff0 xs) (aff1 xs).1 }
def aluShr (o : Ops) : Alu := shiftOf o opShr
def aluSar (o : Ops) : Alu := shiftOf o opSar
def aluMin (o : Ops) : Alu := int2 o opMin
def aluMax (o : Ops) : Alu := int2 o opMax
def aluAbs (o : Ops) : Alu := int1 o (opAbs (o.sub == 1))
def aluNeg (o : Ops) : Alu :=
  { int1 o (opNeg (o.sub == 1)) with
    aOk := affFmt o && Opd.isA o.a, aff := fun xs => affSub (0, 0) (aff0 xs) }
/-- CMP writes S or a predicate; FMT chooses only the width (R158). -/
def aluCmp (o : Ops) : Alu :=
  let w := if Fmt.wide o.fmt then 64 else 32
  { int2 o (opCmp o.sub.toNat) with
    wide := false, vOk := false, pOk := true
    fn := fun _ _ xs l _ => { val := (opCmp o.sub.toNat w false (xs.map fun x => x % 2 ^ w)).1, lfsr := l } }
def aluPopc (o : Ops) : Alu := int1 o opPopc
def aluClz (o : Ops) : Alu := int1 o opClz
def aluBrev (o : Ops) : Alu := int1 o opBrev
def aluBfx (o : Ops) : Alu := { int2 o (opBfx (o.x10.toNat + 1)) with srcs := [Ops.srcA o o.fmt, anyTagB o] }
def aluBfi (o : Ops) : Alu :=
  { int3 o (opBfi (o.x10.toNat + 1)) with srcs := [Ops.srcA o o.fmt, anyTagB o, Ops.srcC o o.fmt] }
def aluLop3 (o : Ops) : Alu := int3 o (opLop3 o.x10.toNat)

/-- A copy of width FMT; RAW keeps 64 bits on S (R152). -/
def copyFn (f : Fmt) : BitVec 32 → Bool → List Nat → W32 → Nat → LaneRes := fun _ s xs l _ =>
  let w := if Fmt.wide f || (s && f == .raw) then 64 else 32
  { val := extendS f s (x0 xs % 2 ^ w), lfsr := l }

/-- The tag of source A if it is varying, else RAW (R144). -/
def tagOfA (o : Ops) (e : Env) : BitVec 4 := if o.a.cls = .v then e.p.tag (e.p.wbase + o.a.n.toNat) else 0

/-- MOV (R161). -/
def aluMov (o : Ops) : Alu :=
  { h := o.h, d := o.d, srcs := [Ops.srcA o o.fmt], wide := Fmt.wide o.fmt, sOk := !Fmt.packed o.fmt
    aOk := affFmt o && Opd.isA o.a, aff := aff0
    tag := fun e => if o.fmt = .raw then tagOfA o e else tagOf o.fmt
    fn := copyFn o.fmt }

/-- SEL (R159): the condition is a third source, 1 when it holds. -/
def selTag (o : Ops) (e : Env) : BitVec 4 :=
  let ta := tagOfA o e
  let tb := match o.b with | .reg b => if b.cls = .v then e.p.tag (e.p.wbase + b.n.toNat) else 0 | .imm _ => 0
  if o.fmt = .raw then (if ta = tb then ta else 0) else tagOf o.fmt

def selNeed (o : Ops) : Need :=
  let srcs := [Ops.srcA o o.fmt, Ops.srcB o o.fmt]
  let base : Alu := { h := o.h, d := o.d, srcs := srcs, wide := Fmt.wide o.fmt, sOk := !Fmt.packed o.fmt, fn := copyFn o.fmt }
  { Alu.need base with
    type := base.typeOk && ((o.c.cls == .k && o.d.cls == .v) || o.c.cls == .s)
    regs := (Alu.need base).regs ++ [if o.c.cls = .k then kUse .p o.c.n.toNat false else opdUse o.c 1 1 false] }

def selEff (o : Ops) (e : Env) (act : List Nat) : Eff :=
  let sa := Ops.srcA o o.fmt
  let sb := Ops.srcB o o.fmt
  let uni := decide (e.f.sreg o.c.n.toNat ≠ 0)
  if o.d.cls = .s then
    { sw := [(o.d.n.toNat, b64 (copyFn o.fmt 0 true [if uni then sa.readS e else sb.readS e] 0 0).val)] }
  else
    let dr := e.p.wbase + o.d.n.toNat
    { vw := act.flatMap fun L =>
        let c := if o.c.cls = .k then e.p.pred o.c.n.toNat L else uni
        vWrites (Fmt.wide o.fmt) dr L (if c then sa.read e L else sb.read e L)
      tags := (List.range (if Fmt.wide o.fmt then 2 else 1)).map fun i => (dr + i, selTag o e) }

/-- The value LI writes (R161). -/
def liVal (o : Ops) (s : Bool) : Nat :=
  match o.b with
  | .reg _ => 0
  | .imm i =>
    if s then (if o.fmt = .raw then (Imm.sext i).toNat else extendS o.fmt true (immNarrow o.fmt i)) else immNarrow o.fmt i

/-- LI (R161). -/
def aluLi (o : Ops) : Alu :=
  { h := o.h, d := o.d, srcs := [], wide := Fmt.wide o.fmt, sOk := !Fmt.packed o.fmt, aOk := affFmt o
    aff := fun _ => (b64 (liVal o true), 0), tag := fun _ => tagOf o.fmt
    fn := fun _ s _ l _ => { val := liVal o s, lfsr := l } }

/-! ## Class changes (R162 to R165) -/

/-- PROM: the destination class strictly above the source class. -/
def aluProm (o : Ops) : Alu :=
  { h := o.h, d := o.d, srcs := [Ops.srcA o .raw], wide := Fmt.wide o.fmt, sOk := false
    aOk := Fmt.wide o.fmt && o.a.cls == .s, vOk := o.a.cls == .s || o.a.cls == .a, aff := aff0
    fn := copyFn o.fmt }

def rawPair (o : Ops) : Src := { Ops.srcA o .raw with wide := Fmt.wide o.fmt, check := false }

/-- The least of the lanes by fibre index. -/
def lowestFid (e : Env) : List Nat → Option Nat
  | [] => none
  | L :: t => match lowestFid e t with
    | none => some L
    | some M => if e.p.fid L ≤ e.p.fid M then some L else some M

/-- DEMV reads source A as data of FMT (R153, R163). -/
def demvNeed (o : Ops) : Need :=
  let src := Ops.srcA o o.fmt
  { type := o.d.cls == .s && (o.a.cls == .v || o.a.cls == .a)
    regs := opdUse o.d 1 1 true :: src.use_, full := true, tags := src.tagUse }

def demvEff (o : Ops) (e : Env) (act : List Nat) : Eff :=
  match lowestFid e act with
  | none => {}
  | some L =>
    let v := (Ops.srcA o o.fmt).read e L
    { sw := [(o.d.n.toNat, b64 (extendS o.fmt true (v % 2 ^ (if Fmt.wide o.fmt then 64 else 32))))] }

/-- The source of DEMA: a pair, or one 32-bit register under SUB 1 (R164). -/
def demaSrc (o : Ops) : Src :=
  { b := .reg o.a, use := if o.sub = 0 then o.fmt else (if o.fmt = .i64 then .i32 else .u32), wide := o.sub == 0 }

def demaVal (o : Ops) (e : Env) (L : Nat) : BitVec 64 :=
  let v := (demaSrc o).read e L
  if o.sub = 0 then b64 v else if o.fmt = .i64 then signExt 32 v else b64 v

def demaNeed (o : Ops) : Need :=
  { type := o.d.cls == .a && o.a.cls == .v
    regs := [opdUse o.d 1 1 true] ++ (demaSrc o).use_ ++
      (if o.x10 = 0 then [] else [{ sp := .p, n := o.x10.toNat, dest := true }])
    full := true, tags := (demaSrc o).tagUse }

def demaEff (o : Ops) (e : Env) (act : List Nat) : Eff :=
  match lowestFid e act with
  | none => {}
  | some L0 =>
    let f0 := e.p.fid L0
    let stride : BitVec 64 := match lowestFid e (act.filter fun L => L != L0) with
      | none => 0
      | some L1 =>
        let d := (demaVal o e L1 - demaVal o e L0).toInt
        let n : Int := (e.p.fid L1 : Int) - f0
        if d % n = 0 then BitVec.ofInt 64 (d / n) else 0
    let a : Aff := (demaVal o e L0 - stride * b64 f0, stride)
    let ok := act.all fun L => expand a (e.p.fid L) == demaVal o e L
    { aw := [(o.d.n.toNat, a)]
      pw := if o.x10 = 0 then [] else act.map fun L => (L, o.x10.toNat, ok) }

/-- BASE and STRD: S from A (R165). -/
def partNeed (o : Ops) : Need :=
  { type := o.d.cls == .s && o.a.cls == .a
    regs := [opdUse o.d 1 1 true, opdUse o.a 1 1 false], full := true }
def baseEff (o : Ops) (e : Env) : Eff := { sw := [(o.d.n.toNat, (e.f.areg o.a.n.toNat).1)] }
def strdEff (o : Ops) (e : Env) : Eff := { sw := [(o.d.n.toNat, (e.f.areg o.a.n.toNat).2)] }

/-! ## The meanings -/

def execAdd (o : Ops) (s : State) : Out := (aluAdd o).run s
def execSub (o : Ops) (s : State) : Out := (aluSub o).run s
def execMul (o : Ops) (s : State) : Out := (aluMul o).run s
def execMulh (o : Ops) (s : State) : Out := (aluMulh o).run s
def execMad (o : Ops) (s : State) : Out := (aluMad o).run s
def execDiv (o : Ops) (s : State) : Out := (aluDiv o).run s
def execRem (o : Ops) (s : State) : Out := (aluRem o).run s
def execAnd (o : Ops) (s : State) : Out := (aluAnd o).run s
def execOr (o : Ops) (s : State) : Out := (aluOr o).run s
def execXor (o : Ops) (s : State) : Out := (aluXor o).run s
def execNot (o : Ops) (s : State) : Out := (aluNot o).run s
def execShl (o : Ops) (s : State) : Out := (aluShl o).run s
def execShr (o : Ops) (s : State) : Out := (aluShr o).run s
def execSar (o : Ops) (s : State) : Out := (aluSar o).run s
def execMin (o : Ops) (s : State) : Out := (aluMin o).run s
def execMax (o : Ops) (s : State) : Out := (aluMax o).run s
def execAbs (o : Ops) (s : State) : Out := (aluAbs o).run s
def execNeg (o : Ops) (s : State) : Out := (aluNeg o).run s
def execCmp (o : Ops) (s : State) : Out := (aluCmp o).run s
def execSel (o : Ops) (s : State) : Out := issue s (selNeed o) o.h fun e act => commit s e o.h.len (selEff o e act)
def execPopc (o : Ops) (s : State) : Out := (aluPopc o).run s
def execClz (o : Ops) (s : State) : Out := (aluClz o).run s
def execBrev (o : Ops) (s : State) : Out := (aluBrev o).run s
def execBfx (o : Ops) (s : State) : Out := (aluBfx o).run s
def execBfi (o : Ops) (s : State) : Out := (aluBfi o).run s
def execMov (o : Ops) (s : State) : Out := (aluMov o).run s
def execLi (o : Ops) (s : State) : Out := (aluLi o).run s
def execLop3 (o : Ops) (s : State) : Out := (aluLop3 o).run s
def execProm (o : Ops) (s : State) : Out := (aluProm o).run s
def execDemv (o : Ops) (s : State) : Out := issue s (demvNeed o) o.h fun e act => commit s e o.h.len (demvEff o e act)
def execDema (o : Ops) (s : State) : Out := issue s (demaNeed o) o.h fun e act => commit s e o.h.len (demaEff o e act)
def execBase (o : Ops) (s : State) : Out := issue s (partNeed o) o.h fun e _ => commit s e o.h.len (baseEff o e)
def execStrd (o : Ops) (s : State) : Out := issue s (partNeed o) o.h fun e _ => commit s e o.h.len (strdEff o e)

end Sys2Proof.Machine
end

