-- ==== Sys2Proof/Machine/Lanes.lean ====
section
/-!
DEFINITION. The cross-lane instructions and the predicates, 0x70 to 0x79 (R204 to R215).
-/
namespace Sys2Proof.Machine

/-! ## SHUF (R205, R206) -/

/-- A source B of class A traps ILLEGAL_TYPE. Log entry 121: DESIGN CHOICE. -/
def shufNeed (o : Ops) : Need :=
  let w := if Fmt.wide o.fmt then 2 else 1
  { type := o.d.cls == .v && o.a.cls == .v && (match o.b with | .reg b => b.cls == .s || b.cls == .v | .imm _ => false)
    regs := [opdUse o.d w w true, opdUse o.a w w false] ++ (Ops.srcB o .raw).use_
    tags := [{ n := o.a.n.toNat, count := w, use := o.fmt }] }

def shufLane (sub g L b : Nat) : Nat :=
  let base := L - L % g
  let k := L % g
  match sub with
  | 0 => base + b % g
  | 1 => base + (k + b) % g
  | _ => base + (k ^^^ (b % g))

def shufEff (o : Ops) (e : Env) (act : List Nat) : Eff :=
  let g := (shufGroup o.x10).getD 1
  let w := if Fmt.wide o.fmt then 2 else 1
  let dr := e.p.wbase + o.d.n.toNat
  { vw := act.flatMap fun L =>
      let M := shufLane o.sub.toNat g L ((Ops.srcB o .raw).read e L % 2 ^ 32)
      (List.range w).map fun i => (dr + i, L, b32 (e.p.readV (o.a.n.toNat + i) M))
    tags := (List.range w).map fun i => (dr + i, if o.fmt = .raw then tagOfA o e else 0) }

/-! ## RED and SCAN (R207 to R210) -/

/-- The 64 lanes' values with their LFSRs, as a cross-lane operation moves them. -/
structure LaneVec where
  x : List Nat
  l : List W32
  flags : BitVec 6 := 0
deriving Inhabited

/-- The operation of SUB on two values of one lane: a mode that draws is given the LFSR. -/
def redOp (sub : Nat) (f : Fmt) (c : Ctl) (x y : Nat) (l : W32) : LaneRes :=
  if sub = 0 then flElems (flF f) (Fmt.count f) [x, y] l (fun xs l => opFadd (flF f) c xs l)
  else if sub ≤ 2 then flElems (flF f) (Fmt.count f) [x, y] l (fun xs l => opFmm (sub == 2) (flF f) c xs l)
  else
    let r := intElems f false [x, y] (match sub with
      | 3 => opAdd false | 4 => opMin | 5 => opMax | 6 => opAnd | 7 => opOr | _ => opXor)
    { r with lfsr := l }

/-- The identity of R207, in every element. -/
def redIdentity (sub : Nat) (f : Fmt) (c : Ctl) : Nat :=
  let F := flF f
  let rep := fun v => packElems F.bits (List.replicate (Fmt.count f) v)
  let w := Fmt.width f false
  match sub with
  | 0 => rep (F.signPat (c.mode != .rdn))
  | 1 => rep F.infPat
  | 2 => rep (F.signPat true + F.infPat)
  | 4 => wrapInt w (intMax w (Fmt.signed f))
  | 5 => wrapInt w (intMin w (Fmt.signed f))
  | 6 => 2 ^ w - 1
  | _ => 0

/-- SCAN rounds by RNE where the lane that rounds is vacant (R210); FTZ never applies. Log entry 33: DEDUCED. -/
def laneCtl (p : Posy) (c : Ctl) (L : Nat) : Ctl := if p.holds L then c else { c with mode := .rne }
/-- RED does so for a stochastic step only (R208). Log entry 33: DEDUCED. -/
def pairCtl (p : Posy) (c : Ctl) (L : Nat) : Ctl := if p.holds L || c.mode != .stoch then c else { c with mode := .rne }

/-- One butterfly step at distance d (R123). A pair sets its flags where one of its lanes is active (R115). -/
def redStep (p : Posy) (act : List Nat) (sub : Nat) (f : Fmt) (c : Ctl) (v : LaneVec) (d : Nat) : LaneVec :=
  let rs := (List.range 64).map fun L =>
    if L &&& d = 0 then redOp sub f (pairCtl p c L) (v.x.getD L 0) (v.x.getD (L ^^^ d) 0) (v.l.getD L 0)
    else { val := 0, lfsr := v.l.getD L 0 }
  { x := (List.range 64).map fun L => (rs.getD (if L &&& d = 0 then L else L ^^^ d) default).val
    l := rs.map (·.lfsr)
    flags := v.flags ||| orFlags (((List.range 64).filter fun L => act.contains L || act.contains (L ^^^ d)).map fun L =>
      rs.getD L default) }

def redAll (p : Posy) (act : List Nat) (sub : Nat) (f : Fmt) (c : Ctl) (v : LaneVec) : LaneVec :=
  [32, 16, 8, 4, 2, 1].foldl (redStep p act sub f c) v

/-- One scan step at distance d (R210). An active lane alone sets its flags (R115). -/
def scanStep (p : Posy) (act : List Nat) (sub : Nat) (f : Fmt) (c : Ctl) (v : LaneVec) (d : Nat) : LaneVec :=
  let rs := (List.range 64).map fun L =>
    if d ≤ L then redOp sub f (laneCtl p c L) (v.x.getD (L - d) 0) (v.x.getD L 0) (v.l.getD L 0)
    else { val := v.x.getD L 0, lfsr := v.l.getD L 0 }
  { x := rs.map (·.val), l := rs.map (·.lfsr), flags := v.flags ||| orFlags (act.map fun L => rs.getD L default) }

def scanAll (p : Posy) (act : List Nat) (sub : Nat) (f : Fmt) (c : Ctl) (v : LaneVec) : LaneVec :=
  [1, 2, 4, 8, 16, 32].foldl (scanStep p act sub f c) v

/-- A value of source A in one lane, of the width of FMT. -/
def redRead (o : Ops) (e : Env) (L : Nat) : Nat :=
  if Fmt.wide o.fmt then e.p.readV o.a.n.toNat L + 2 ^ 32 * e.p.readV (o.a.n.toNat + 1) L else e.p.readV o.a.n.toNat L

/-- The starting values: identities in the lanes that are not active. -/
def redStart (o : Ops) (sub : Nat) (c : Ctl) (e : Env) (act : List Nat) : LaneVec :=
  { x := (List.range 64).map fun L => if act.contains L then redRead o e L else redIdentity sub o.fmt c
    l := (List.range 64).map fun L => Tab.get 0 e.p.lfsr L }

def lfsrWrites (e : Env) (v : LaneVec) : List (Nat × W32) := e.p.present.map fun L => (L, v.l.getD L 0)

def redCtl (o : Ops) (e : Env) : Ctl := { ctlOf e.t.fctl o.rnd with ftz := false }

def redNeed (o : Ops) : Need :=
  let w := if Fmt.wide o.fmt then 2 else 1
  let exs := o.sub == 9
  { type := o.a.cls == .v && (o.d.cls == .v || (o.d.cls == .s && !exs && !Fmt.packed o.fmt))
    regs := [opdUse o.d (if exs then 3 else w) w true, opdUse o.a w w false]
    full := o.d.cls == .s, tags := [{ n := o.a.n.toNat, count := w, use := o.fmt }] }

/-- The fused row sequence (R209). -/
def exsEff (o : Ops) (e : Env) (act : List Nat) : Eff :=
  let c := redCtl o e
  let mx := redAll e.p act 2 .f32 c (redStart o 2 c e act)
  let m := mx.x.getD 0 0
  let ts := (List.range 64).map fun L =>
    if act.contains L then
      let t := opFsub .f32 c [redRead o e L, m] (Tab.get 0 e.p.lfsr L)
      let x := SfuOp.ex2.eval .f32 { c with mode := .rne } t.lfsr t.pat
      ({ val := x.pat, flags := t.flags ||| x.flags, lfsr := x.lfsr } : LaneRes)
    else { val := redIdentity 0 .f32 c, lfsr := Tab.get 0 e.p.lfsr L }
  let sum := redAll e.p act 0 .f32 c { x := ts.map (·.val), l := ts.map (·.lfsr) }
  let dr := e.p.wbase + o.d.n.toNat
  { vw := act.flatMap fun L =>
      [(dr, L, b32 m), (dr + 1, L, b32 (ts.getD L default).val), (dr + 2, L, b32 (sum.x.getD L 0))]
    tags := [(dr, 1), (dr + 1, 1), (dr + 2, 1)]
    lf := lfsrWrites e sum, flags := mx.flags ||| orFlags ts ||| sum.flags }

/-- RED into S or V. Where a stochastic step leaves the lanes with different totals, S takes lane 0's. Log entry 106:
DESIGN CHOICE. -/
def redEff (o : Ops) (e : Env) (act : List Nat) : Eff :=
  if o.sub = 9 then exsEff o e act
  else
    let c := redCtl o e
    let v := redAll e.p act o.sub.toNat o.fmt c (redStart o o.sub.toNat c e act)
    if o.d.cls = .s then
      { sw := [(o.d.n.toNat, b64 (extendS o.fmt true (v.x.getD 0 0)))], lf := lfsrWrites e v, flags := v.flags }
    else
      let dr := e.p.wbase + o.d.n.toNat
      { vw := act.flatMap fun L => vWrites (Fmt.wide o.fmt) dr L (v.x.getD L 0)
        tags := (List.range (if Fmt.wide o.fmt then 2 else 1)).map fun i => (dr + i, tagOf o.fmt)
        lf := lfsrWrites e v, flags := v.flags }

def scanNeed (o : Ops) : Need :=
  let w := if Fmt.wide o.fmt then 2 else 1
  { type := o.a.cls == .v && o.d.cls == .v
    regs := [opdUse o.d w w true, opdUse o.a w w false]
    tags := [{ n := o.a.n.toNat, count := w, use := o.fmt }] }

def scanEff (o : Ops) (e : Env) (act : List Nat) : Eff :=
  let c := redCtl o e
  let v := scanAll e.p act o.sub.toNat o.fmt c (redStart o o.sub.toNat c e act)
  let res := fun L =>
    if o.x10 = 0 then v.x.getD L 0 else if L = 0 then redIdentity o.sub.toNat o.fmt c else v.x.getD (L - 1) 0
  let dr := e.p.wbase + o.d.n.toNat
  { vw := act.flatMap fun L => vWrites (Fmt.wide o.fmt) dr L (res L)
    tags := (List.range (if Fmt.wide o.fmt then 2 else 1)).map fun i => (dr + i, tagOf o.fmt)
    lf := lfsrWrites e v, flags := v.flags }

/-! ## Predicates (R211 to R215) -/

/-- A predicate source in field A. -/
def predA (o : Ops) : RegUse := kUse .p o.a.n.toNat false
def predD (o : Ops) : RegUse := kUse .p o.d.n.toNat true

/-- A bit into the predicate D, or 1 or 0 into S D. -/
def bitEff (o : Ops) (act : List Nat) (b : Bool) : Eff :=
  if o.d.cls = .s then { sw := [(o.d.n.toNat, if b then 1 else 0)] }
  else { pw := act.map fun L => (L, o.d.n.toNat, b) }

def voteNeed (o : Ops) : Need :=
  { type := o.a.cls == .k && (o.d.cls == .k || o.d.cls == .s)
    regs := [opdUse o.d 1 1 true, predA o], full := o.d.cls == .s }

def voteEff (o : Ops) (e : Env) (act : List Nat) : Eff :=
  let ps := act.map (e.p.pred o.a.n.toNat)
  bitEff o act (match o.sub.toNat with
    | 0 => ps.any id
    | 1 => ps.all id
    | _ => ps.all id || !ps.any id)

def ballotNeed (o : Ops) : Need :=
  { type := o.a.cls == .k && (o.d.cls == .v || o.d.cls == .s)
    regs := [opdUse o.d 2 2 true, predA o], full := o.d.cls == .s }

def ballotEff (o : Ops) (e : Env) (act : List Nat) : Eff :=
  let m := maskOf (act.filter (e.p.pred o.a.n.toNat))
  if o.d.cls = .s then { sw := [(o.d.n.toNat, b64 m)] }
  else
    let dr := e.p.wbase + o.d.n.toNat
    { vw := act.flatMap fun L => vWrites true dr L m, tags := [(dr, 0), (dr + 1, 0)] }

def plogNeed (o : Ops) : Need :=
  { type := o.a.cls == .k && o.d.cls == .k, regs := [predD o, predA o, { sp := .p, n := o.x10.toNat % 16 }] }

def plogBit (o : Ops) (p : Posy) (L : Nat) : Bool :=
  let a := p.pred o.a.n.toNat L != o.x10.getLsbD 4
  let q := p.pred (o.x10.toNat % 16) L != o.x10.getLsbD 5
  match o.sub.toNat with
  | 0 => a && q | 1 => a || q | 2 => a != q | _ => a && !q

def plogEff (o : Ops) (e : Env) (act : List Nat) : Eff :=
  { pw := act.map fun L => (L, o.d.n.toNat, plogBit o e.p L) }

def pnotNeed (o : Ops) : Need := { type := o.a.cls == .k && o.d.cls == .k, regs := [predD o, predA o] }
def pnotEff (o : Ops) (e : Env) (act : List Nat) : Eff :=
  { pw := act.map fun L => (L, o.d.n.toNat, !e.p.pred o.a.n.toNat L) }

/-- The four forms of PMOV (R214). -/
def pmovNeed (o : Ops) : Need :=
  match o.sub.toNat with
  | 0 => { type := o.a.cls == .k && o.d.cls == .k, regs := [predD o, predA o] }
  | 1 => { type := o.d.cls == .v, regs := [opdUse o.d 1 1 true, { sp := .p, n := 0, count := 16 }] }
  | 2 => { type := o.a.cls == .v && o.d.cls == .k, regs := [predD o, opdUse o.a 1 1 false] }
  | _ => { type := o.a.cls == .v, regs := [opdUse o.a 1 1 false, { sp := .p, n := 1, count := 15, dest := true }] }

/-- p15 to p0 of a lane as a word; p0 reads true. -/
def predWord (p : Posy) (L : Nat) : W32 := ((Tab.get 0 p.preds L).setWidth 32) ||| 1

def pmovEff (o : Ops) (e : Env) (act : List Nat) : Eff :=
  match o.sub.toNat with
  | 0 => { pw := act.map fun L => (L, o.d.n.toNat, e.p.pred o.a.n.toNat L) }
  | 1 =>
    let dr := e.p.wbase + o.d.n.toNat
    { vw := act.map fun L => (dr, L, predWord e.p L), tags := [(dr, 0)] }
  | 2 => { pw := act.map fun L => (L, o.d.n.toNat, (e.p.readV o.a.n.toNat L).testBit o.x10.toNat) }
  | _ => { pw := act.flatMap fun L => (List.range 15).map fun i => (L, i + 1, (e.p.readV o.a.n.toNat L).testBit (i + 1)) }

def pcntNeed (o : Ops) : Need :=
  { type := o.a.cls == .k && (o.d.cls == .v || (o.d.cls == .s && o.sub == 0))
    regs := [opdUse o.d 1 1 true, predA o], full := o.d.cls == .s }

def pcntEff (o : Ops) (e : Env) (act : List Nat) : Eff :=
  let hits := act.filter (e.p.pred o.a.n.toNat)
  if o.d.cls = .s then { sw := [(o.d.n.toNat, b64 hits.length)] }
  else
    let dr := e.p.wbase + o.d.n.toNat
    { vw := act.map fun L => (dr, L, b32 (if o.sub = 0 then hits.length else (hits.filter (· < L)).length))
      tags := [(dr, 0)] }

/-! ## The meanings -/

def execShuf (o : Ops) (s : State) : Out := issue s (shufNeed o) o.h fun e act => commit s e o.h.len (shufEff o e act)
def execRed (o : Ops) (s : State) : Out := issue s (redNeed o) o.h fun e act => commit s e o.h.len (redEff o e act)
def execScan (o : Ops) (s : State) : Out := issue s (scanNeed o) o.h fun e act => commit s e o.h.len (scanEff o e act)
def execVote (o : Ops) (s : State) : Out := issue s (voteNeed o) o.h fun e act => commit s e o.h.len (voteEff o e act)
def execBallot (o : Ops) (s : State) : Out := issue s (ballotNeed o) o.h fun e act => commit s e o.h.len (ballotEff o e act)
def execPlog (o : Ops) (s : State) : Out := issue s (plogNeed o) o.h fun e act => commit s e o.h.len (plogEff o e act)
def execPnot (o : Ops) (s : State) : Out := issue s (pnotNeed o) o.h fun e act => commit s e o.h.len (pnotEff o e act)
def execPmov (o : Ops) (s : State) : Out := issue s (pmovNeed o) o.h fun e act => commit s e o.h.len (pmovEff o e act)
def execPcnt (o : Ops) (s : State) : Out := issue s (pcntNeed o) o.h fun e act => commit s e o.h.len (pcntEff o e act)

end Sys2Proof.Machine
end

