-- ==== Sys2Proof/Machine/Sx.lean ====
section
/-!
DEFINITION. The shared-exponent formats (R118 to R120): byte layout, decoding and encoding of a group.
-/
namespace Sys2Proof.Machine

/-- Magnitude bits m. -/
def sxM : SxFmt → Nat | .sx2 => 2 | .sx4 => 4 | .sx7 => 7

/-- Bytes of a group. -/
def sxGroupBytes : SxFmt → Nat | .sx2 => 8 | .sx4 => 12 | .sx7 => 18

/-- Is a block scale invalid: negative, infinite or NaN (R119)? −0 is a zero. Log entry 43: DEDUCED. -/
def scaleBad (scale : Nat) : Bool :=
  match FF.bf16.decode scale with
  | .nan | .inf _ => true
  | .fin neg x => neg && decide (0 < x.n)

/-- μ[i]. -/
def muBit (mu : Byte) (i : Nat) : Nat := mu.toNat / 2 ^ i % 2

/-- Element j of a group under a block scale (R119); true when the scale is invalid. -/
def SxGroup.elem (g : SxGroup) (m : SxFmt) (scale : Nat) (j : Nat) : FVal × Bool :=
  if scaleBad scale then (.nan, true)
  else if g.e = 255 then (.nan, false)
  else if g.e = 0 then (.fin false ⟨0, 1⟩, false)
  else
    let f := g.f.getD j (false, 0)
    let x := Mag.ofScaled f.2 ((g.e.toNat : Int) - 127 - muBit g.mu (j / 2) - (sxM m - 1))
    match FF.bf16.decode scale with
    | .fin _ c => (.fin f.1 (Mag.mul x c), false)
    | _ => (.nan, true)

/-- The magnitude of y as R120 takes it: an infinity stands as 2^128. -/
def sxMag (v : FVal) : Mag := match v with | .fin _ x => x | _ => ⟨2 ^ 128, 1⟩

def maxMag : List Mag → Mag
  | [] => ⟨0, 1⟩
  | x :: t => let r := maxMag t; if Mag.lt r x then x else r

/-- roundRNE of a magnitude over 2^q. -/
def rneScaled (x : Mag) (q : Int) : Nat :=
  let y := Mag.scale x q
  (roundInt .rne 0 false y.n y.d).1

/-- Encodes up to 16 inputs under a positive block scale c (R120); missing ones are +0. -/
def SxGroup.encode (m : SxFmt) (c : Mag) (xs : List FVal) : SxGroup × BitVec 6 :=
  let xs := (List.range 16).map fun j => xs.getD j (.fin false ⟨0, 1⟩)
  let zeros := List.replicate 16 (false, 0)
  if xs.any FVal.isNan then ({ e := 255, mu := 0, f := zeros }, 0)
  else
    let infs := xs.any fun v => match v with | .inf _ => true | _ => false
    -- an infinite y stands as 2^128 after the division
    let ys := xs.map fun v => match v with | .fin _ x => Mag.div x c | v => sxMag v
    let big := maxMag ys
    if big.n = 0 then ({ e := 0, mu := 0, f := zeros }, 0)
    else
      let mm : Int := (sxM m : Int) - 1
      let top := 2 ^ sxM m - 1
      let e0 := Mag.log2 big
      let e1 := if rneScaled big (e0 - mm) = 2 ^ sxM m then e0 + 1 else e0
      let e2 := if 127 < e1 then 127 else if e1 < -126 then -126 else e1
      let bits := (List.range 8).map fun i =>
        let p := maxMag [ys.getD (2 * i) ⟨0, 1⟩, ys.getD (2 * i + 1) ⟨0, 1⟩]
        if rneScaled p (e2 - 1 - mm) ≤ top then 1 else 0
      let raw := (List.range 16).map fun j => rneScaled (ys.getD j ⟨0, 1⟩) (e2 - (bits.getD (j / 2) 0 : Nat) - mm)
      let clamp := raw.any fun q => decide (top < q)
      let unf := decide (e2 = -126) &&
        (List.range 16).any fun j => decide (raw.getD j 0 = 0) && decide (0 < (ys.getD j ⟨0, 1⟩).n)
      let f := (List.range 16).map fun j =>
        (FVal.isNeg (xs.getD j .nan), min (raw.getD j 0) top)
      ({ e := BitVec.ofInt 8 (e2 + 127), mu := BitVec.ofNat 8 (packElems 1 bits), f := f },
       flagIf (infs || clamp) flagSat ||| flagIf unf flagUnf)

/-- The field of an element: the sign above the magnitude. -/
def sxField (m : SxFmt) (f : Bool × Nat) : Nat := f.2 % 2 ^ sxM m + (if f.1 then 2 ^ sxM m else 0)

/-- A group as bytes (R118). -/
def SxGroup.bytes (m : SxFmt) (g : SxGroup) : List Byte :=
  let area := packElems (1 + sxM m) ((List.range 16).map fun j => sxField m (g.f.getD j (false, 0)))
  g.e :: g.mu :: (List.range (sxGroupBytes m - 2)).map fun k => BitVec.ofNat 8 (area / 2 ^ (8 * k))

/-- A group from bytes. -/
def SxGroup.ofBytes (m : SxFmt) (bs : List Byte) : SxGroup :=
  let area := packElems 8 ((bs.drop 2).map BitVec.toNat)
  { e := bs.getD 0 0, mu := bs.getD 1 0
    f := (List.range 16).map fun j =>
      let x := elemAt (1 + sxM m) area j
      (decide (2 ^ sxM m ≤ x), x % 2 ^ sxM m) }

/-- A block from bytes: scale and eight groups used by the kiln, or all that are given (R118). -/
def SxRow.ofBytes (m : SxFmt) (groups : Nat) (bs : List Byte) : SxRow :=
  { scale := bs.getD 1 0 ++ bs.getD 0 0
    groups := (List.range groups).map fun g =>
      SxGroup.ofBytes m ((bs.drop (8 + g * sxGroupBytes m)).take (sxGroupBytes m)) }

end Sys2Proof.Machine
end

