-- ==== Sys2Proof/Machine/Mem.lean ====
section
/-!
DEFINITION. The memory instructions as they issue, 0x80 to 0x8A (R225, R226, R241 to R262): addresses, checks,
and the requests they put into the request queue. Machine/Order.lean gives what happens to the requests.
-/
namespace Sys2Proof.Machine

/-! ## Addresses (R225, R242, R244) -/

def signedN (w v : Nat) : Int := readInt w true (v % 2 ^ w)

/-- The displacement: DISP20, or the 52 bits of F128M for the instructions of R242 that have DHI. -/
def memDisp (o : MemOps) (dhi : Bool) : Int :=
  if dhi && o.h.len == .w4 then signedN 52 (o.w3.toNat * 2 ^ 20 + o.disp.toNat) else signedN 20 o.disp.toNat

/-- The unwrapped address operand of a lane. -/
def addrBase (e : Env) (a : Opd) (L : Nat) : Int :=
  match a.cls with
  | .s => ((e.f.sreg a.n.toNat).toNat : Int)
  | .a => let r := e.f.areg a.n.toNat; (r.1.toNat : Int) + r.2.toInt * (e.p.fid L : Int)
  | _ => ((e.p.readV a.n.toNat L + 2 ^ 32 * e.p.readV (a.n.toNat + 1) L : Nat) : Int)

/-- The address operand is an even register pair when it is V (R243). -/
def addrUse (a : Opd) : RegUse := opdUse a 2 2 false

/-- Does the segment admit an access? -/
def segOk (g : SegReg) (off : Int) (size : Nat) (r w : Bool) : Bool :=
  g.val && decide (0 ≤ off) && decide (off + (size : Int) ≤ (g.limit : Int)) && (!r || g.rd) && (!w || g.wr)

/-- What an access is: its size, and whether it reads and writes. -/
structure AccKind where
  size : Nat
  r : Bool := false
  w : Bool := false
  /-- Natural alignment asked for, 1 for none (R244). -/
  align : Nat := 1
  dhi : Bool := true

/-- The addresses of the active lanes, in lane order: one for an S operand, which is checked once. SEG comes
before ALIGN; without an active lane nothing is checked. -/
def memAddrs (e : Env) (o : MemOps) (k : AccKind) (act : List Nat) : Except Trap (List (Nat × Nat)) :=
  let g := e.t.seg o.seg
  let offs := act.map fun L => (L, addrBase e o.a L + memDisp o k.dhi)
  if !(offs.all fun x => segOk g x.2 k.size k.r k.w) then .error .seg
  else
    let as := offs.map fun x => (x.1, g.addr + x.2.toNat)
    if as.any fun x => decide (x.2 % k.align ≠ 0) then .error .align else .ok as

/-! ## Requests -/

/-- Cuts a range at line boundaries (R363). -/
def pieces (addr : Nat) : Nat → Nat → List (Nat × Nat)
  | 0, _ => []
  | n + 1, size =>
    if size = 0 then []
    else
      let k := min size (128 - addr % 128)
      (addr, k) :: pieces (addr + k) n (size - k)

def cutLines (addr size : Nat) : List (Nat × Nat) := pieces addr (size / 128 + 2) size

/-- A request of the posy that issues. -/
def baseReq (e : Env) (o : MemOps) (kind : ReqKind) : Req :=
  { seq := e.t.nextSeq, kind := kind, scratch := o.seg == .scr, acq := o.ord == .acq || o.ord == .acqrel
    rel := o.ord == .rel || o.ord == .acqrel, tol := o.tol, core := e.core, slot := e.slot
    priv := e.p.privileged, ovfsat := e.t.fctl.getLsbD 2, fmt := o.fmt }

/-- Numbers the requests of an instruction. -/
def numbered (rs : List Req) : List Req := ((List.range rs.length).zip rs).map fun x => { x.2 with sub := x.1 }

/-- Puts the requests of an instruction at the tail of the request queue. -/
def pushReqs (t : Team) (rs : List Req) : Team := { t with reqs := t.reqs ++ numbered rs, nextSeq := t.nextSeq + 1 }

def fidsOf (e : Env) (ls : List Nat) : List Nat := ls.map e.p.fid

/-- The requests for one range of bytes. -/
def rangeReqs (r : Req) (lanes fids : List Nat) (addr size : Nat) : List Req :=
  (cutLines addr size).map fun x => { r with addr := x.1, size := x.2, lanes := lanes, fids := fids }

/-- Requests issue, the PC goes on, and a load operation, if any, waits for its replies. -/
def sendReqs (s : State) (e : Env) (len : Len) (rs : List Req) (l : Option LoadOp) (flags : BitVec 6) : Out :=
  let t := pushReqs e.t rs
  commit s { e with t := { t with loads := t.loads ++ l.toList } } len { flags := flags }

/-! ## LD (R246, R247) -/

/-- R100: a memory word that names SPN or CTX is privileged. -/
def segPriv (g : Seg) : Bool := g == .spn || g == .ctx

def accSize (sub : BitVec 4) : Nat := 2 ^ sub.toNat
/-- Registers of a V access of a size. -/
def vCount (size : Nat) : Nat := if size ≤ 4 then 1 else size / 4

def Cls.le (a b : Cls) : Bool :=
  match a, b with
  | .s, .s | .s, .a | .s, .v | .a, .a | .a, .v | .v, .v => true
  | _, _ => false

def ldNeed (o : MemOps) : Need :=
  let n := vCount (accSize o.sub)
  { type := (o.d.cls == .v || (o.d.cls == .s && !Fmt.packed o.fmt && o.sub != 4)) && Cls.le o.a.cls o.d.cls
    regs := [opdUse o.d n n true, addrUse o.a], priv := segPriv o.seg, full := o.d.cls == .s }

/-- The first destination as the scoreboard names it. -/
def dstOf (e : Env) (d : Opd) : Nat := if d.cls = .v then e.p.wbase + d.n.toNat else d.n.toNat

def newLoad (e : Env) (d : Opd) (count : Nat) (kind : LoadKind) (lanes : List LaneLoad) : LoadOp :=
  { seq := e.t.nextSeq, uid := e.p.uid, dcls := d.cls, dst := dstOf e d, count := count, frame := e.p.frame
    kind := kind, lanes := lanes }

def tagAll (r n : Nat) (tag : BitVec 4) : List (Nat × BitVec 4) := (List.range n).map fun i => (r + i, tag)

def ordAlign (o : MemOps) (size : Nat) : Nat := if o.ord = .plain then 1 else size

/-- The request numbers of each group of requests when groups follow one another. -/
def subsFrom : Nat → List (List Req) → List (List Nat)
  | _, [] => []
  | n, g :: t => ((List.range g.length).map fun i => n + i) :: subsFrom (n + g.length) t

def execLd (o : MemOps) (s : State) : Out :=
  issue s (ldNeed o) o.h fun e act =>
    let size := accSize o.sub
    let n := vCount size
    match memAddrs e o { size := size, r := true, align := ordAlign o size } act with
    | .error t => trap s e t act
    | .ok as =>
      let r := baseReq e o .load
      match as with
      | [] => commit s e o.h.len { tags := if o.d.cls = .v then tagAll (dstOf e o.d) n (tagOf o.fmt) else [] }
      | (L0, a0) :: _ =>
        let one := o.a.cls == .s
        let groups := if one then [rangeReqs r act (fidsOf e act) a0 size]
          else as.map fun x => rangeReqs r [x.1] [e.p.fid x.1] x.2 size
        let subs := subsFrom 0 groups
        let lanes := if o.d.cls = .s then [{ lane := L0, fid := e.p.fid L0, addr := a0, subs := subs.getD 0 [] }]
          else ((List.range as.length).zip as).map fun x =>
            { lane := x.2.1, fid := e.p.fid x.2.1, addr := x.2.2, subs := subs.getD (if one then 0 else x.1) [] }
        sendReqs s e o.h.len groups.flatten (some (newLoad e o.d n (.plain size o.fmt) lanes)) 0

/-! ## ST (R248, R249) -/

/-- The data source. -/
def dataUse (o : MemOps) (n : Nat) : List RegUse :=
  match o.b with | .reg b => [opdUse b n n false] | .imm _ => []
def dataTags (o : MemOps) (n : Nat) : List TagUse :=
  match o.b with
  | .reg b => if b.cls = .v then [{ n := b.n.toNat, count := n, use := o.fmt }] else []
  | .imm _ => []
def dataOk (o : MemOps) : Bool := match o.b with | .reg b => b.cls == .s || b.cls == .v | .imm _ => true
def dataIsV (o : MemOps) : Bool := match o.b with | .reg b => b.cls == .v | .imm _ => false
def addrOk (a : Opd) : Bool := a.cls != .k

def stNeed (o : MemOps) : Need :=
  let n := vCount (accSize o.sub)
  { type := addrOk o.a && dataOk o && !(o.sub == 4 && !dataIsV o), regs := addrUse o.a :: dataUse o n, priv := segPriv o.seg
    tags := dataTags o n }

/-- The bytes that a lane stores. -/
def storeBytes (e : Env) (o : MemOps) (size L : Nat) : List Byte :=
  match o.b with
  | .imm i => leBytes size (if size = 8 then (Imm.sext i).toNat else immNarrow o.fmt i)
  | .reg b =>
    if b.cls = .v then
      ((List.range (vCount size)).flatMap fun j => leBytes 4 (e.p.readV (b.n.toNat + j) L)).take size
    else leBytes size (e.f.sreg b.n.toNat).toNat

/-- Attaches the bytes of a range to the requests that cover it. -/
def withData (bytes : List (Nat × Byte)) (r : Req) : Req :=
  { r with data := bytes.filter fun x => decide (r.addr ≤ x.1) && decide (x.1 < r.addr + r.size) }

/-- The byte image of the active lanes of a store to one address: the highest lane writes last. -/
def lastBytes (e : Env) (o : MemOps) (size : Nat) (act : List Nat) : List Byte :=
  match act.getLast? with | some L => storeBytes e o size L | none => []

def execSt (o : MemOps) (s : State) : Out :=
  issue s (stNeed o) o.h fun e act =>
    let size := accSize o.sub
    match memAddrs e o { size := size, w := true, align := ordAlign o size } act with
    | .error t => trap s e t act
    | .ok as =>
      let r := baseReq e o .store
      match as with
      | [] => commit s e o.h.len {}
      | (_, a0) :: _ =>
        let rs := if o.a.cls = .s then
            (rangeReqs r act (fidsOf e act) a0 size).map (withData (placed a0 (lastBytes e o size act)))
          else as.flatMap fun x =>
            (rangeReqs r [x.1] [e.p.fid x.1] x.2 size).map (withData (placed x.2 (storeBytes e o size x.1)))
        sendReqs s e o.h.len rs none 0

/-! ## LDSX and STSX (R252, R253) -/

def sxOf (sub : BitVec 4) : SxFmt := if sub = 0 then .sx2 else if sub = 1 then .sx4 else .sx7

def ldsxNeed (o : MemOps) : Need :=
  let c := sxCount o
  { type := o.d.cls == .v && addrOk o.a && (match o.b with | .reg b => b.cls != .k | .imm _ => false)
    regs := [opdUse o.d c 1 true, addrUse o.a] ++ dataUse o 1, priv := segPriv o.seg }

/-- The groups that elements e to e + n − 1 of a block lie in, for each first element e of a list; each group once. -/
def sxGroups (es : List Nat) (n : Nat) : List Nat :=
  (es.flatMap fun e => (List.range n).map fun j => (e + j) % 256 / 16).foldl (fun gs g => if gs.contains g then gs else gs ++ [g]) []

/-- The byte ranges of a block's header and of some groups. -/
def sxRanges (m : SxFmt) (block : Nat) (gs : List Nat) : List (Nat × Nat) :=
  (block, 8) :: gs.map fun g => (block + 8 + g * sxGroupBytes m, sxGroupBytes m)

/-- LDSX. An S address with an S or A index makes one access for the posy (R245). -/
def execLdsx (o : MemOps) (s : State) : Out :=
  issue s (ldsxNeed o) o.h fun e act =>
    let m := sxOf o.sub
    let c := sxCount o
    let n := c * sxPer o.fmt
    match memAddrs e o { size := SxFmt.blockBytes m, r := true, align := 8 } act with
    | .error t => trap s e t act
    | .ok as =>
      let r := baseReq e o .load
      let idx := fun L => (Src.read e { b := o.b, use := .raw, check := false } L) % 256
      let one := o.a.cls == .s && !dataIsV o
      let reqs := fun (ls : List Nat) (a : Nat) => (sxRanges m a (sxGroups (ls.map idx) n)).flatMap fun g => rangeReqs r ls (fidsOf e ls) g.1 g.2
      let groups := if one then (as.take 1).map fun x => reqs act x.2 else as.map fun x => reqs [x.1] x.2
      let subs := subsFrom 0 groups
      let lanes := ((List.range as.length).zip as).map fun x =>
        { lane := x.2.1, fid := e.p.fid x.2.1, addr := x.2.2, subs := subs.getD (if one then 0 else x.1) [], idx := idx x.2.1 }
      if as.isEmpty then commit s e o.h.len { tags := tagAll (dstOf e o.d) c (tagOf o.fmt) }
      else sendReqs s e o.h.len groups.flatten
        (some (newLoad e o.d c (.sx m o.fmt c (e.t.fctl.getLsbD 2)) lanes)) 0

def stsxNeed (o : MemOps) : Need :=
  let c := sxCount o
  { type := o.a.cls == .s && dataIsV o, priv := segPriv o.seg
    -- a run of c registers, at any first number (R253)
    regs := addrUse o.a :: (match o.b with | .reg b => [opdUse b c 1 false] | .imm _ => [])
    tags := match o.b with | .reg b => [{ n := b.n.toNat, count := c, use := o.fmt }] | .imm _ => [] }

/-- The elements a lane supplies, register by register, element 0 first. -/
def sxElems (e : Env) (o : MemOps) (act : List Nat) (L : Nat) : List FVal :=
  let b := match o.b with | .reg b => b.n.toNat | .imm _ => 0
  let F := flF o.fmt
  (List.range (sxCount o)).flatMap fun j => (List.range (sxPer o.fmt)).map fun i =>
    if act.contains L then FF.decode F (elemAt F.bits (e.p.readV (b + j) L) i) else .fin false ⟨0, 1⟩

/-- The bytes of a block and the flags of its encoding. -/
def sxBlock (m : SxFmt) (scale : Nat) (xs : List FVal) : List Byte × BitVec 6 :=
  let c := match FF.decode .bf16 scale with | .fin _ x => x | _ => ⟨1, 1⟩
  let gs := (List.range 16).map fun g => SxGroup.encode m c ((xs.drop (16 * g)).take 16)
  (leBytes 8 scale ++ gs.flatMap (fun g => SxGroup.bytes m g.1), gs.foldl (fun f g => f ||| g.2) 0)

def execStsx (o : MemOps) (s : State) : Out :=
  issue s (stsxNeed o) o.h fun e act =>
    let m := sxOf o.sub
    let size := SxFmt.blockBytes m
    let n := sxCount o * sxPer o.fmt
    let g := 256 / n
    let scale := if o.h.len = .w4 then o.w3.toNat else 0x3F80
    let used := (List.range (64 / g)).filter fun k => act.any fun L => L / g == k
    let sg := e.t.seg o.seg
    let off := fun k => addrBase e o.a 0 + memDisp o false + ((k * size : Nat) : Int)
    if used.any fun k => !segOk sg (off k) size false true then trap s e .seg act
    else
      let addr := fun k => sg.addr + (off k).toNat
      if used.any fun k => decide (addr k % 8 ≠ 0) then trap s e .align act
      else
        let r := baseReq e o .store
        let parts := used.map fun k =>
          let lanes := (List.range g).map fun i => k * g + i
          let mine := act.filter lanes.contains
          let b := sxBlock m scale (lanes.flatMap (sxElems e o act))
          ((rangeReqs r mine (fidsOf e act) (addr k) size).map (withData (placed (addr k) b.1)), b.2)
        if parts.isEmpty then commit s e o.h.len {}
        else sendReqs s e o.h.len (parts.flatMap (·.1)) none (parts.foldl (fun f x => f ||| x.2) 0)

/-! ## ATOM and ACC (R254 to R257) -/

def atomSize (f : Fmt) : Nat := if Fmt.wide f then 8 else 4
/-- The tag of a return: FMT 1 to 3, or RAW. -/
def atomTag (f : Fmt) : BitVec 4 := if Fmt.inRange f 1 3 then tagOf f else 0

/-- Log entry 50: DEDUCED. -/
def atomNeed (o : MemOps) : Need :=
  let n := if Fmt.wide o.fmt then 2 else 1
  let nr := MemOps.nr o
  let cas := o.sub == 10
  { type := addrOk o.a && dataOk o &&
      (nr || ((o.d.cls == .v || (o.d.cls == .s && !Fmt.packed o.fmt)) && Cls.le o.a.cls o.d.cls &&
              (match o.b with | .reg b => Cls.le b.cls o.d.cls | .imm _ => false)))
    regs := addrUse o.a :: dataUse o n ++ (if nr then [] else [opdUse o.d n n true])
    priv := segPriv o.seg, full := !nr && o.d.cls == .s
    tags := dataTags o n ++ (if cas && o.d.cls == .v then [{ n := o.d.n.toNat, count := n, use := o.fmt }] else []) }

/-- The lanes of each location, in increasing lane order, locations by their first lane. Log entry 49: DEDUCED. -/
def byAddr : List (Nat × Nat) → List (Nat × List Nat)
  | [] => []
  | (L, a) :: t =>
    let rest := byAddr t
    match rest.find? fun x => x.1 == a with
    | some x => (a, L :: x.2) :: rest.filter fun y => y.1 != a
    | none => (a, [L]) :: rest

def atomOperand (e : Env) (o : MemOps) (L : Nat) : BitVec 64 :=
  let src : Src := { b := o.b, use := o.fmt, wide := Fmt.wide o.fmt }
  b64 (src.read e L % 2 ^ (8 * atomSize o.fmt))

/-- The expected value of a CAS: register D before any write. -/
def atomExpected (e : Env) (o : MemOps) (L : Nat) : BitVec 64 :=
  if o.d.cls = .v then
    b64 (if Fmt.wide o.fmt then e.p.readV o.d.n.toNat L + 2 ^ 32 * e.p.readV (o.d.n.toNat + 1) L else e.p.readV o.d.n.toNat L)
  else b64 ((e.f.sreg o.d.n.toNat).toNat % 2 ^ (8 * atomSize o.fmt))

def execAtom (o : MemOps) (s : State) : Out :=
  issue s (atomNeed o) o.h fun e act =>
    let size := atomSize o.fmt
    let nr := MemOps.nr o
    let n := if Fmt.wide o.fmt then 2 else 1
    match memAddrs e o { size := size, r := true, w := true, align := size } act with
    | .error t => trap s e t act
    | .ok as0 =>
      let uniform := !nr && o.d.cls == .s
      let as := if uniform then as0.take 1 else as0
      let r := { baseReq e o .atomic with op := o.sub, nr := nr, size := size }
      let rs := (byAddr as).map fun x =>
        { r with addr := x.1, lanes := if uniform then act else x.2, fids := fidsOf e act
                 opnds := x.2.map fun L => { lane := L, x := atomOperand e o L, expected := if o.sub = 10 then atomExpected e o L else 0 } }
      if as.isEmpty then
        commit s e o.h.len { tags := if !nr && o.d.cls == .v then tagAll (dstOf e o.d) n (atomTag o.fmt) else [] }
      else
        let lanes := as.map fun x => ({ lane := x.1, fid := e.p.fid x.1, addr := x.2 } : LaneLoad)
        sendReqs s e o.h.len rs (if nr then none else some (newLoad e o.d n (.atom o.fmt) lanes)) 0

def accNeed (o : MemOps) : Need :=
  { type := addrOk o.a && dataOk o, regs := addrUse o.a :: dataUse o 1, priv := segPriv o.seg, tags := dataTags o 1 }

/-- Log entry 49: DEDUCED. -/
def execAcc (o : MemOps) (s : State) : Out :=
  issue s (accNeed o) o.h fun e act =>
    match memAddrs e o { size := 4, r := true, w := true, align := 4 } act with
    | .error t => trap s e t act
    | .ok as =>
      let r := { baseReq e o .acc with op := 1, nr := true, size := 4 }
      let rs := (byAddr as).map fun x =>
        { r with addr := x.1, lanes := x.2, fids := fidsOf e act, opnds := x.2.map fun L => { lane := L, x := atomOperand e o L } }
      if as.isEmpty then commit s e o.h.len {} else sendReqs s e o.h.len rs none 0

/-! ## FENCE (R258, R285) -/

/-- A request of a kind that serves one of the posy's fibres. -/
def hasReq (e : Env) (kind : ReqKind) : Bool :=
  e.t.reqs.any fun r => r.kind == kind && r.fids.any (e.p.present.map e.p.fid).contains

/-- A waiting instruction: its request enters the queue once and the posy waits until it is gone. -/
def execFence (o : Ops) (s : State) : Out :=
  issue s {} o.h fun e act =>
    if e.p.phase then (if hasReq e .fence then .next (s.setPosy e.key (some (e.p.block s.cycle))) else commit s e o.h.len {})
    else
      let r : Req := { seq := e.t.nextSeq, kind := .fence, fids := fidsOf e act, core := e.core, slot := e.slot, width := .sys }
      .next ((s.setTeam e.p.team (some (pushReqs e.t [r]))).setPosy e.key (some { e.p.block s.cycle with phase := true, again := true }))

/-! ## DRAIN, BREG, BFREE (R260 to R262) -/

def regionNeed (o : MemOps) : Need := { type := o.a.cls == .s, regs := [addrUse o.a] }

/-- DRAIN and BFREE name a region by an address inside it. -/
def regionReq (s : State) (o : MemOps) (kind : ReqKind) : Out :=
  issue s (regionNeed o) o.h fun e act =>
    match memAddrs e o { size := 1, r := true, w := true, dhi := false } act with
    | .error t => trap s e t act
    | .ok as =>
      match as with
      | [] => commit s e o.h.len {}
      | (_, a) :: _ =>
        sendReqs s e o.h.len [{ baseReq e o kind with addr := a, size := 1, lanes := act, fids := fidsOf e act }] none 0

def execDrain (o : MemOps) (s : State) : Out := regionReq s o .drain
def execBfree (o : MemOps) (s : State) : Out := regionReq s o .bfree

def bregNeed (o : MemOps) : Need :=
  { type := o.a.cls == .s && (match o.b with | .reg b => b.cls == .s | .imm _ => false) && (o.d == {} || o.d.cls == .k)
    regs := addrUse o.a :: dataUse o 1 ++ (if o.d = {} then [] else [kUse .p o.d.n.toNat true]) }

def execBreg (o : MemOps) (s : State) : Out :=
  issue s (bregNeed o) o.h fun e act =>
    let size := (match o.b with | .reg b => (e.f.sreg b.n.toNat).toNat | .imm _ => 0)
    match act with
    | [] => commit s e o.h.len {}
    | L0 :: _ =>
      let off := addrBase e o.a L0 + memDisp o false
      let g := e.t.seg o.seg
      if !segOk g off size true true then trap s e .seg act
      else
        let a := g.addr + off.toNat
        if a % 128 ≠ 0 ∨ size = 0 ∨ size % 128 ≠ 0 ∨ 2 ^ 34 < size then trap s e .align act
        else
          let lanes := act.map fun L => ({ lane := L, fid := e.p.fid L, addr := a, subs := [0] } : LaneLoad)
          sendReqs s e o.h.len
            [{ baseReq e o .breg with addr := a, size := size, lanes := act, fids := fidsOf e act
                                      opnds := [{ lane := L0, x := o.w3.setWidth 64 }] }]
            (if o.d = {} then none else some { newLoad e o.d 1 .verdict lanes with dst := o.d.n.toNat }) 0

end Sys2Proof.Machine
end

