-- ==== Sys2Proof/Machine/Order.lean ====
section
/-!
DEFINITION. The ordering machine of a posy's requests (R275 to R285, R290 to R294, R300 to R303, R363, R367): when a
request may leave its queue, what it does then, how it parks, and how its reply lands.
-/
namespace Sys2Proof.Machine

/-! ## How a request is ordered -/
def ReqKind.isMem : ReqKind → Bool | .load | .store | .atomic | .acc | .sig => true | _ => false
def ReqKind.isKstore : ReqKind → Bool | .kstore _ => true | _ => false
/-- DRAIN, BREG and BFREE act on regions and never park. -/
def ReqKind.isRegion : ReqKind → Bool | .drain | .breg | .bfree => true | _ => false

def needOf : ReqKind → Rights
  | .load | .sig => { r := true }
  | .store => { w := true }
  | _ => { r := true, w := true }

def parkedReq (r : Req) : Bool := match r.stage with | .parked _ _ => true | _ => false
def refusedReq (r : Req) : Bool := match r.stage with | .refused _ => true | _ => false
/-- Performed: bound, applied and acknowledged (R278). -/
def performedReq (r : Req) : Bool := r.stage == .replied

def walkReq (s : State) (t : Team) (r : Req) : Walked :=
  translate s t.part t.vd (some r.core) (dieOf r.core) r.addr (needOf r.kind) r.priv

/-! ### The region words of a request (R292) -/

/-- A region that holds a byte of the request on a BV page: the die and the entry. -/
def regionOf (s : State) (t : Team) (l : Leaf) (va : Nat) : Option (Nat × Bound) :=
  match paKind (l.pa_ va) with
  | .hbm d => if l.cls = .bv ∧ partOfDie s d = t.part then (findRegion s d t.vd va).map fun x => (d, x.2) else none
  | _ => none

def touchesRegion (s : State) (t : Team) (l : Leaf) (r : Req) : Bool :=
  (List.range r.size).any fun i => (regionOf s t l (r.addr + i)).isSome

/-- The authorities of the region words of a request. -/
def reqAuthorities (s : State) (t : Team) (l : Leaf) (r : Req) : List Authority :=
  if l.cls = .bv then authoritiesOf s t.part t.vd r.addr (l.pa_ r.addr) r.size else []

/-- A request that touches no region word of its BV page is ordered as UN (R292). -/
def plainBv (s : State) (t : Team) (l : Leaf) (r : Req) (o : PageCls × Width) : PageCls × Width :=
  if o.1 = .bv ∧ !touchesRegion s t l r then (.un, o.2) else o

/-- Class and width by which a request is ordered: by its page where it has been translated or refused, else by
the page it would translate through now (R279, R300). Scratch is RC at CORE width (R234). -/
def orderOf (s : State) (t : Team) (r : Req) : PageCls × Width :=
  if r.scratch || !r.kind.isMem then (.rc, .core)
  else if r.stage = .queued then
    match walkReq s t r with
    | .leaf l => plainBv s t l r (effOrder r.core l.cls l.width l.inst (some (l.pa_ r.addr)))
    | .fail f => effOrder r.core f.cls f.width f.inst none
  else (r.cls, r.width)

/-- Is a request issued from outside its page's instance (R279)? -/
def outOf (s : State) (t : Team) (r : Req) : Bool :=
  if r.scratch || !r.kind.isMem then false
  else if r.stage = .queued then
    match walkReq s t r with
    | .leaf l => !inWidth r.core l.width l.inst
    | .fail f => !inWidth r.core f.width f.inst
  else r.out

def meaningful (c : PageCls) : Bool := c != .un
/-- An acquire or a release counts on SO, RC and BV pages within width (R283, R284). -/
def isAcq (s : State) (t : Team) (r : Req) : Bool := r.acq && meaningful (orderOf s t r).1
def isRel (s : State) (t : Team) (r : Req) : Bool := r.rel && meaningful (orderOf s t r).1

def sameIssuer (a b : Req) : Bool := a.fids.any b.fids.contains

/-- Two requests touch a common byte, by virtual address, or by scratch offset (R280). Log entry 110: DESIGN CHOICE. -/
def overlap (a b : Req) : Bool :=
  a.scratch == b.scratch && decide (a.addr < b.addr + b.size) && decide (b.addr < a.addr + a.size)

/-- Older requests of one issuer (R277). -/
def olderReqs (t : Team) (r : Req) : List Req := t.reqs.filter fun q => decide (q.seq < r.seq) && sameIssuer q r

/-- Lanes of one store apply in lane order (R249). -/
def earlierLane (t : Team) (r : Req) : Bool :=
  t.reqs.any fun q => q.seq == r.seq && decide (q.sub < r.sub) && q.kind == .store && overlap q r && !performedReq q

/-- R280, with an atomic or a write-through that has left but is not performed: a common byte holds the
younger request. -/
def byteHeld (t : Team) (r : Req) : Bool :=
  r.kind.isMem && ((olderReqs t r).any (fun q => (q.kind.isMem || q.kind.isKstore) && overlap q r && !performedReq q && !parkedReq q) || earlierLane t r)

/-- R283 and R285: an older acquire that is not performed, or a FENCE. -/
def acqHeld (s : State) (t : Team) (r : Req) : Bool :=
  (olderReqs t r).any fun q => q.kind == .fence || (isAcq s t q && !performedReq q && !parkedReq q)

/-- R293: the requests older than the FORK of a fibre are performed at CORE width before any of its own. -/
def forkHeld (t : Team) (r : Req) : Bool :=
  t.reqs.any fun q => decide (q.seq < r.seq) && q.forked.any r.fids.contains && (q.kind.isMem || q.kind.isKstore) &&
    !(performedReq q || (q.kind == .store && q.stage == .atHome))

/-- R282 for an SO request within width. -/
def soHeld (s : State) (t : Team) (r : Req) : Bool :=
  (olderReqs t r).any fun q => q.kind.isMem && (orderOf s t q).1 == .so && !performedReq q && !parkedReq q

/-- R284 clause 1. -/
def relHeld (s : State) (t : Team) (r : Req) : Bool :=
  (olderReqs t r).any fun q =>
    (q.kind.isMem || q.kind.isKstore) && meaningful (orderOf s t q).1 && !performedReq q && !parkedReq q

/-- Does r touch q's page? -/
def samePage (q r : Req) : Bool := !q.scratch && !r.scratch && vpBase r.addr q.pgsz == vpBase q.addr q.pgsz

/-- R301: does a parked (or refused) q hold a younger request ordered as `o`, a release or not, issued from outside
its page's instance or not? An out-of-width request follows only under the same-page rule (R279). -/
def leads (q r : Req) (o : PageCls × Width) (rel out : Bool) : Bool :=
  samePage q r || (q.cls == .so && o.1 == .so) || (meaningful q.cls && rel) ||
  (q.acq && (q.cls == .rc || q.cls == .bv) && !out)

/-- The parked leaders of a request, in program order. -/
def leadersOf (s : State) (t : Team) (r : Req) : List Req :=
  let o := orderOf s t r
  (olderReqs t r).filter fun q => parkedReq q && leads q r o (isRel s t r) (outOf s t r)

/-- The nearest parked leader in program order. -/
def leaderOf (s : State) (t : Team) (r : Req) : Option Req := (leadersOf s t r).getLast?

/-- A refused leader holds the request in the queue (R303). -/
def refusedLeader (s : State) (t : Team) (r : Req) : Bool :=
  (olderReqs t r).any fun q => refusedReq q && leads q r (orderOf s t r) (isRel s t r) (outOf s t r)

/-- Followers of one leader replay in program order, and followers of one issuer in ISEQ order (R302, R374): an older
one that replays, or that still waits for a common leader, is translated first. -/
def replayHeld (t : Team) (r : Req) : Bool :=
  r.replay && !r.followed.isEmpty && (olderReqs t r).any fun q =>
    !q.followed.isEmpty && ((q.replay && (q.stage == .queued || refusedReq q)) || (parkedReq q && q.followed.any r.followed.contains))

/-- The parts of one lane's store to registers or to a peer window are written in address order (R232). -/
def partHeld (t : Team) (r : Req) (l : Leaf) : Bool :=
  match paKind (l.pa_ r.addr) with
  | .dev | .peer _ => t.reqs.any fun q => q.seq == r.seq && decide (q.sub < r.sub) && q.lanes == r.lanes && q.kind == .store && !performedReq q
  | _ => false

/-! ### Atomic operations (R254, R255) -/

/-- The new value at a location, and the flags of an FADD. -/
def atomNew (op : BitVec 4) (f : Fmt) (ovfsat : Bool) (m b expected : Nat) : Nat × BitVec 6 :=
  let w := if Fmt.wide f then 64 else 32
  match op.toNat with
  | 0 => ((m + b) % 2 ^ w, 0)
  | 1 => let r := flElems (flF f) (Fmt.count f) [m, b] 1 (fun xs l => opFadd (flF f) { ovfsat := ovfsat } xs l); (r.val, r.flags)
  | 2 => (if readInt w true b < readInt w true m then b else m, 0)
  | 3 => (if readInt w true m < readInt w true b then b else m, 0)
  | 4 => (min m b, 0)
  | 5 => (max m b, 0)
  | 6 => (m &&& b, 0)
  | 7 => (m ||| b, 0)
  | 8 => (m ^^^ b, 0)
  | 9 => (b, 0)
  | _ => (if m = expected then b else m, 0)

/-- Each lane in turn: the olds, the last value, the flags. -/
def atomAll (r : Req) (m : Nat) : List AtomOp → List (Nat × BitVec 64) × Nat × BitVec 6
  | [] => ([], m, 0)
  | x :: t =>
    let n := atomNew r.op r.fmt r.ovfsat m x.x.toNat x.expected.toNat
    let rest := atomAll r n.1 t
    ((x.lane, b64 m) :: rest.1, rest.2.1, n.2 ||| rest.2.2)

/-- The lane-combined addend of an ACC: the lanes summed first, in order (R257). -/
def accSum (r : Req) : Nat × BitVec 6 :=
  match r.opnds with
  | [] => (0, 0)
  | x :: t => let a := atomAll r x.x.toNat t; (a.2.1, a.2.2)

/-- Applies an atomic or ACC to a value: olds, new value, flags. -/
def applyAtom (r : Req) (m : Nat) : List (Nat × BitVec 64) × Nat × BitVec 6 :=
  if r.kind = .acc then
    let x := accSum r
    let n := atomNew 1 .f32 r.ovfsat m x.1 0
    ([], n.1, x.2 ||| n.2)
  else atomAll r m r.opnds

/-- The payload of an entry, and the extensions it takes (R364). -/
def payloadOf (r : Req) : List Byte :=
  match r.kind with
  | .store => padTo 128 ((List.range 128).map fun i =>
      ((r.data.find? fun x => x.1 == r.addr - r.addr % 128 + i).map (·.2)).getD 0)
  | .atomic =>
    r.opnds.flatMap (fun x => leBytes r.size x.x.toNat) ++
      (if r.op = 10 then r.opnds.flatMap fun x => leBytes r.size x.expected.toNat else [])
  | .acc => leBytes 4 (accSum r).1
  | _ => []
def extOf (r : Req) : Nat := ((payloadOf r).length - 1) / 128

/-- R367: the load-store unit holds at most 64 refused entries of a posy, extensions included; a request that would
pass that number if it were refused is not sent. -/
def posyFull (t : Team) (r : Req) : Bool :=
  decide (64 < ((t.reqs.filter fun q => refusedReq q && q.core == r.core && q.slot == r.slot).map fun q => 1 + extOf q).sum + 1 + extOf r)

/-! ## Leaving -/

inductive Verdict where
  | wait
  /-- A release at the head of the queue notes the lines it waits for (R284 clause 2). -/
  | note (w : Width)
  /-- A store that starts a TINV notes all of them (R388). -/
  | noteAll
  | go (l : Leaf) (o : PageCls × Width)
  | fail (f : Fail) (o : PageCls × Width)
  | follow (q : Req) (o : PageCls × Width)
deriving DecidableEq, Repr

/-- A store that starts a TINV: every earlier store of the agent is performed at SYS width first (R388). -/
def startsTinv (r : Req) (l : Leaf) : Bool :=
  r.kind == .store && r.data.any fun x => l.pa_ x.1 == 0x1000000200010 && x.2 == 1

/-- What stands before a memory request at the head of its queue. A scratch request behind a parked acquire waits (R233, R301).
Log entry 109: DESIGN CHOICE. -/
def verdict (s : State) (t : Team) (r : Req) : Verdict :=
  if byteHeld t r || acqHeld s t r || forkHeld t r || replayHeld t r || (!refusedReq r && !r.replay && posyFull t r) then .wait
  else
    let o := orderOf s t { r with stage := .queued }
    let rel := r.rel && meaningful o.1
    if (o.1 == .so && soHeld s t r) || (rel && relHeld s t r) || refusedLeader s t r then .wait
    else
      match leaderOf s t r with
      | some q => if r.scratch then .wait else .follow q o
      | none =>
        let noted := !rel || o.2 == .core || r.snap == some []
        if r.scratch then (if noted then .go {} o else .note o.2)
        else
          match walkReq s t r with
          | .fail f => .fail f o
          | .leaf l =>
            if partHeld t r l then .wait
            else if startsTinv r l && ((olderReqs t r).any fun q => (q.kind == .store || q.kind == .atomic || q.kind == .acc) && !performedReq q) then .wait
            else if startsTinv r l && r.snap != some [] then (if r.snap = none then .noteAll else .wait)
            else if noted then .go l o else if r.snap = none then .note o.2 else .wait

/-- Replaces a request of a team by its number. -/
def modReq (s : State) (tid : Nat) (r : Req) (f : Req → Req) : State :=
  s.modTeam tid fun t => { t with reqs := t.reqs.map fun q => if q.seq = r.seq ∧ q.sub = r.sub then f q else q }

def dropReq (s : State) (tid : Nat) (r : Req) : State :=
  s.modTeam tid fun t => { t with reqs := t.reqs.filter fun q => !(q.seq == r.seq && q.sub == r.sub) }

/-- Log entry 68: DEDUCED. -/
def flagTeam (s : State) (tid : Nat) (f : BitVec 6) : State := s.modTeam tid fun t => t.raise f

/-- A load or atomic bound or answered: its reply is on the way. -/
def replyWith (s : State) (tid : Nat) (r : Req) (bytes : List (Nat × Byte)) (olds : List (Nat × BitVec 64)) (merr : Bool)
    (flags : BitVec 6) : State :=
  modReq s tid r fun q => { q with stage := .replied, reply := bytes, olds := olds, merr := merr, flags := flags, defers := [] }

def ones (n : Nat) : List Byte := List.replicate n 0xFF

/-- An answer that is poison (R23, R273): a load reads 0xFF, an atomic returns poison, a store or ACC is
dropped; MERR. -/
def poisonReply (s : State) (tid : Nat) (r : Req) : State :=
  match r.kind with
  | .load | .sig => replyWith s tid r (placed r.addr (ones r.size)) [] true 0
  | .atomic => replyWith s tid r [] (r.opnds.map fun x => (x.lane, b64 (2 ^ (8 * r.size) - 1))) true 0
  | _ => dropReq (flagTeam s tid flagMerr) tid r

/-! ### Scratch (R233, R234, R221) -/

def scratchPoisoned (t : Team) (a : Nat) : Bool := Tab.get false t.spoison (a / 8)
def scratchByte (t : Team) (a : Nat) : Byte := if scratchPoisoned t a then 0xFF else Tab.get 0 t.scratch a
def scratchRead (t : Team) (a n : Nat) : List Byte := (List.range n).map fun i => scratchByte t (a + i)
def scratchBad (t : Team) (a n : Nat) : Bool := (List.range n).any fun i => scratchPoisoned t (a + i)
def scratchWrite (t : Team) (w : List (Nat × Byte)) : Team :=
  { t with scratch := Tab.setAll 0 t.scratch w, spoison := Tab.setAll false t.spoison ((wholeWords w).map fun k => (k, false)) }

/-- An atomic add to a landing counter (R414); a negative number takes one back. -/
def addCounter (t : Team) (lc : Nat) (n : Int) : Team :=
  scratchWrite t (placed lc (leBytes 8 (((leNat (scratchRead t lc 8) : Int) + n) % 2 ^ 64).toNat))

/-- Makes an addition of the cycle to a landing counter, or notes that it fails on a poisoned one (R414). -/
def addLanding (t : Team) (lc n : Nat) : Team :=
  if scratchBad t lc 8 then { t with added := t.added ++ [(lc, n, false)] }
  else { addCounter t lc n with added := t.added ++ [(lc, n, true)] }

/-- A store to the scratchpad: it comes before the additions that its bytes meet in the same cycle (R414). -/
def scratchStore (t : Team) (w : List (Nat × Byte)) : Team :=
  let meets := fun (a : Nat × Nat × Bool) => w.any fun x => decide (a.1 ≤ x.1) && decide (x.1 < a.1 + 8)
  let met := t.added.filter meets
  let before := (met.filter (·.2.2)).foldl (fun t a => addCounter t a.1 (-a.2.1)) { t with added := t.added.filter fun a => !meets a }
  met.foldl (fun t a => addLanding t a.1 a.2.1) (scratchWrite before w)

/-- The cycle's additions to landing counters are over: one that found its counter poisoned sets MERR (R265, R414). -/
def Team.landEnd (t : Team) : Team :=
  { t with added := [], flags := t.flags ||| flagIf (t.added.any fun a => !a.2.2) flagMerr }

/-- Does a host range or the page refuse atomics (R256, R448)? -/
def inHna (s : State) (pa : Nat) : Bool :=
  (List.range 4).any fun n =>
    let b := Tab.get 0 s.xd.hnaBase n
    let h := pa - Config.hostBase
    let lo := field b 12 40 * 4096
    b.getLsbD 63 && decide (lo ≤ h) && decide (h < lo + field (Tab.get 0 s.xd.hnaLim n) 12 40 * 4096)

/-- Operations that a peer performs (R256). Log entry 84: DESIGN CHOICE. -/
def peerOp (op : BitVec 4) : Bool := [0, 6, 7, 8, 9, 10].contains op.toNat

/-! ### Performing -/

/-- The point of coherence of an SO access (R278): none for the home, or an RDC. -/
def pocOf (core : Nat) (w : Width) (pa : Nat) : Option Nat :=
  match w, paKind pa with
  | .quad, .hbm d | .die, .hbm d => if d = dieOf core then none else some (dieOf core)
  | _, _ => none

/-- A byte at the point of coherence: the home's, or what the RDC holds before the home's. -/
def pocByte (s : State) (p : Option Nat) (pa : Nat) : Byte × Bool :=
  byteVia s (match p with | none => [] | some d => [.rdc d]) pa

def pocBusy (s : State) (p : Option Nat) (line : Nat) : Bool := isMerging s line p || isMerging s line none

/-- A load that leaves. One of CORE width binds in the L1 from host memory too: R278 says so, R305 would bind it at the host.
Log entry 23: DESIGN CHOICE. Log entry 99: DEDUCED. -/
def goLoad (s : State) (tid : Nat) (t : Team) (r : Req) (l : Leaf) (o : PageCls × Width) : State :=
  let pa := l.pa_ r.addr
  let put := fun (xs : List (Byte × Bool)) =>
    replyWith s tid r ((List.range r.size).map fun i => (r.addr + i, (xs.getD i (0, false)).1)) [] (xs.any (·.2)) 0
  match paKind pa with
  | .dev => replyWith s tid r (placed r.addr (devLoad s pa r.size)) [] false 0
  | .peer _ =>
    replyWith { s with fresh := s.fresh + 1 } tid r ((List.range r.size).map fun i => (r.addr + i, Config.peerByte s.fresh (pa + i))) [] false 0
  | .none => poisonReply s tid r
  | _ =>
    if touchesRegion s t l r then modReq s tid r fun q => { q with stage := .atHome, snap := none, defers := reqAuthorities s t l r }
    else if o.1 = .so ∧ o.2 ≠ .core then
      let p := pocOf r.core o.2 pa
      if pocBusy s p (lineOf pa) then s else put ((List.range r.size).map fun i => pocByte s p (pa + i))
    else if (List.range r.size).any fun i => bindWaits s r.core (pa + i) then s
    else
      let xs := (List.range r.size).map fun i => bindByte s r.core (pa + i)
      replyWith (fetchLine s r.core pa r.size) tid r ((List.range r.size).map fun i => (r.addr + i, (xs.getD i (0, false)).1)) [] (xs.any (·.2)) 0

/-- The bytes of a store at their physical addresses. -/
def paBytes (l : Leaf) (r : Req) : List (Nat × Byte) := r.data.map fun x => (l.pa_ x.1, x.2)
def lineBytes (bs : List (Nat × Byte)) : List (Nat × Byte) := bs.map fun x => (x.1 % 128, x.2)

/-- A request at the authorities of its region words: grants are deferred, each step makes one recall, and with no grant
out it goes on (R297). -/
def regionStep (s : State) (tid : Nat) (r : Req) (as : List Authority) (go : State → State) : State :=
  match recallNext s as with
  | some s1 => modReq s1 tid r fun q => { q with defers := as }
  | none => go s

/-- The read of a SIGWAIT at the point of coherence of its page's width, never from a replica (R413). -/
def goSig (s : State) (tid : Nat) (t : Team) (r : Req) (l : Leaf) (o : PageCls × Width) : State :=
  let pa := l.pa_ r.addr
  let put := fun (s : State) (xs : List (Byte × Bool)) =>
    replyWith s tid r ((List.range r.size).map fun i => (r.addr + i, (xs.getD i (0, false)).1)) [] (xs.any (·.2)) 0
  match paKind pa with
  | .hbm _ | .host =>
    if o.2 = .core then
      if (List.range r.size).any fun i => bindWaits s r.core (pa + i) then s
      else put s ((List.range r.size).map fun i => bindByte s r.core (pa + i))
    else
      let p := pocOf r.core o.2 pa
      if pocBusy s p (lineOf pa) || !pathClean s r.core (lineOf pa) then s
      else
        regionStep s tid r (reqAuthorities s t l r) fun s => put s ((List.range r.size).map fun i => pocByte s p (pa + i))
  | _ => goLoad s tid t r l o

/-- A store that goes through to a point of coherence, an RDC with room for its line or the home, and waits there. -/
def writeThrough (s : State) (tid : Nat) (r : Req) (p : Option Nat) (bs : List (Nat × Byte)) (pa : Nat) (defers : List Authority) : State :=
  if !pathClean s r.core (lineOf pa) || pocBusy s p (lineOf pa) then s
  else match (match p with | some d => makeRoom s (.rdc d) (lineOf pa) | none => some s) with
  | none => s
  | some s => beginMerge (modReq s tid r fun q => { q with stage := .atHome, snap := none, defers := [] }) (lineOf pa) p (lineBytes bs) none
    (some (tid, r.seq, r.sub)) 0 defers [tid]

/-- A store that leaves; one of CORE width to host memory enters the L1 (R278).
Log entry 23: DESIGN CHOICE. Log entry 99: DEDUCED. -/
def goStore (s : State) (tid : Nat) (t : Team) (r : Req) (l : Leaf) (o : PageCls × Width) : State :=
  let pa := l.pa_ r.addr
  let bs := paBytes l r
  match paKind pa with
  | .dev =>
    let x := devStore s bs
    dropReq (if x.2 then flagTeam x.1 tid flagMerr else x.1) tid r
  | .peer _ => dropReq s tid r
  | .none => poisonReply s tid r
  | _ =>
    if touchesRegion s t l r then
      let as := reqAuthorities s t l r
      regionStep s tid r as fun s => writeThrough s tid r none bs pa as
    else if o.1 = .so ∧ o.2 ≠ .core then writeThrough s tid r (pocOf r.core o.2 pa) bs pa []
    else
      match bufferBytes s r.core tid bs (o.2 == .core) with
      | none => s
      | some s1 =>
      let s2 := if r.rel && meaningful o.1 then forceBack s1 (.l1 r.core) (lineOf pa) else s1
      if r.replay && o.2 != .core then
        modReq s2 tid r fun q => { q with stage := .atHome, snap := some (List.replicate (owed s2 (.l1 r.core) (lineOf pa)) (.l1 r.core, lineOf pa)) }
      else dropReq s2 tid r

/-- An atomic or an ACC to memory that leaves. -/
def goAtomic (s : State) (tid : Nat) (t : Team) (r : Req) (l : Leaf) : State :=
  let pa := l.pa_ r.addr
  let region := if r.kind = .acc then regionOf s t l r.addr else none
  match region with
  | some (d, b) =>
    if b.st = .active then
      let x := accSum r
      match accRegion s r.core d b r.addr pa (b32 x.1) r.ovfsat with
      | some a => dropReq (flagTeam a.1 tid (if a.2 = flagMerr then a.2 else x.2 ||| a.2)) tid r
      | none => s
    else s
  | none =>
    match paKind pa with
    | .hbm _ | .host =>
      if l.noatom || (paKind pa == .host && inHna s pa) then poisonReply s tid r
      else if pathClean s r.core (lineOf pa) then
        modReq s tid r fun q => { q with stage := .atHome, snap := none, defers := reqAuthorities s t l r }
      else s
    | .peer _ =>
      if l.noatom || !peerOp r.op then poisonReply s tid r
      else
        let a := applyAtom r (leNat ((List.range r.size).map fun i => Config.peerByte s.fresh (pa + i)))
        let s1 := { s with fresh := s.fresh + 1 }
        if r.kind = .acc then dropReq s1 tid r else replyWith s1 tid r [] a.1 false 0
    | _ => poisonReply s tid r

/-- A scratch request performs at its core as it leaves. -/
def goScratch (s : State) (tid : Nat) (t : Team) (r : Req) : State :=
  match r.kind with
  | .load | .sig => replyWith s tid r (placed r.addr (scratchRead t r.addr r.size)) [] (scratchBad t r.addr r.size) 0
  | .store => dropReq (s.setTeam tid (some (scratchStore t r.data))) tid r
  | _ =>
    if scratchBad t r.addr r.size then poisonReply s tid r
    else
      let a := applyAtom r (leNat (scratchRead t r.addr r.size))
      let s1 := s.setTeam tid (some (scratchWrite t (placed r.addr (leBytes r.size a.2.1))))
      if r.kind = .acc then dropReq (flagTeam s1 tid a.2.2) tid r else replyWith s1 tid r [] a.1 false a.2.2

/-- Does a request of a core to HBM go on by the caches of its own die, or by the shares of a region, whatever the link to the home
passes (R27)? An ACC that no share takes is refused there. -/
def staysLocal (s : State) (t : Team) (r : Req) (l : Leaf) (o : PageCls × Width) : Bool :=
  let pa := l.pa_ r.addr
  let held := fun (cs : List Sharer) => (List.range r.size).all fun i => cs.any fun c => (s.cline c (lineOf (pa + i))).has ((pa + i) % 128)
  (match paKind pa with | .hbm _ => true | _ => false) &&
  match r.kind with
  | .acc => (match regionOf s t l r.addr with | some (_, b) => b.st == .active | none => false)
  | _ => !touchesRegion s t l r && match r.kind with
  | .load =>
    if o.1 = .so ∧ o.2 ≠ .core then (match pocOf r.core o.2 pa with | some d => held [.rdc d] | none => false)
    else held (pathOf r.core pa)
  | .store => if o.1 = .so ∧ o.2 ≠ .core then (pocOf r.core o.2 pa).isSome else true
  | _ => false

/-- A translated request goes on its way; a range that cannot be reached is refused (R23, R27). -/
def goReq (s : State) (tid : Nat) (t : Team) (r0 : Req) (l : Leaf) (o : PageCls × Width) : State :=
  let r := { r0 with cls := o.1, width := o.2, inst := l.inst, pgsz := l.pgsz, pa := l.pa_ r0.addr }
  if r.scratch then goScratch s tid t r
  else
    let pa := l.pa_ r.addr
    let s1 := modReq (tlbFill s t.part t.vd (some r.core) (dieOf r.core) r.addr l) tid r fun q =>
      { q with cls := o.1, width := o.2, inst := l.inst, pgsz := l.pgsz, pa := pa, pcls := l.cls, out := !inWidth r.core l.width l.inst
               stage := .queued, reissue := false }
    if !reaches s (dieOf r.core) pa && !staysLocal s t r l o then poisonReply (countRefused s1 (dieOf r.core) pa) tid r
    else
      match r.kind with
      | .load => goLoad s1 tid t r l o
      | .sig => goSig s1 tid t r l o
      | .store => goStore s1 tid t r l o
      | _ => goAtomic s1 tid t r l

/-! ### Requests that are not accesses -/

/-- A FENCE is over when every older request of its issuer is performed and the lines dirty at its head have
merged at SYS width (R258, R285). -/
def stepFence (s : State) (tid : Nat) (t : Team) (r : Req) : State :=
  if (olderReqs t r).any fun q => !q.kind.isEngine && !performedReq q then s
  else
    match r.snap with
    | none => modReq s tid r fun q => { q with snap := some (fullSnap s r.core), full := true }
    | some [] => dropReq s tid r
    | some _ => s

/-- A parked acquire on an RC or BV page holds what cannot park (R283, R301). -/
def parkedAcq (t : Team) (r : Req) : Bool :=
  (olderReqs t r).any fun q => q.acq && parkedReq q && (q.cls == .rc || q.cls == .bv)

/-- DRAIN, BREG and BFREE (R260 to R262); a BREG or BFREE waits for the end of another BFREE of the partition (R394). Log entry 25: DEDUCED. -/
def stepRegion (s : State) (tid : Nat) (t : Team) (r : Req) : State :=
  if acqHeld s t r || parkedAcq t r || forkHeld t r || (olderReqs t r).any (fun q => q.kind.isRegion) then s
  else
    match r.kind with
    | .breg =>
      if anyRemoving s t.part none then s
      else
      let x := registerRegion s t.part t.vd r.addr r.size (match r.opnds with | x :: _ => x.x.setWidth 32 | [] => 0)
      replyWith x.1 tid r [(r.addr, if x.2 then 1 else 0)] [] false 0
    | k =>
      if (olderReqs t r).any fun q => q.kind == .acc then s
      else
        match regionBase s t.part t.vd r.addr with
        | none => dropReq s tid r
        | some b =>
          if k = .drain then dropReq (drainRegion s t.part t.vd b) tid r
          else if anyRemoving s t.part (some (t.vd, b)) then s
          else
            let s1 := freeRegion s t.part t.vd b
            if (regionBase s1 t.part t.vd r.addr).isNone then dropReq s1 tid r else s1

/-- R294: may an engine command leave? -/
def engineMay (s : State) (t : Team) (r : Req) : Bool :=
  !((olderReqs t r).any fun q =>
    q.kind == .fence ||
    ((q.kind == .store || q.kind == .atomic || q.kind == .acc) && (q.stage == .queued || refusedReq q)) ||
    (isAcq s t q && !performedReq q && !parkedReq q)) && !parkedAcq t r && !forkHeld t r

/-! ## Parking (R300 to R303, R363 to R367) -/

def kindCode : ReqKind → Nat | .load | .sig => 0 | .store => 1 | .atomic => 2 | _ => 3

/-- The entry of a posy's request. -/
def entryOf (t : Team) (tid : Nat) (r : Req) (o : PageCls × Width) : Entry :=
  { pseq := 0, owner := .req tid r.seq r.sub, lid := t.lid, va := r.addr, size := r.size, kind := kindCode r.kind, acq := r.acq, rel := r.rel
    so := o.1 == .so, vd := t.vd, part := t.part, op := BitVec.ofNat 8 (r.op.toNat + 16 * Fmt.code r.fmt), ext := extOf r
    dreg := ((t.loads.find? fun l => l.seq == r.seq).map (·.dst)).getD 0 % 256, core := r.core, slot := r.slot
    iseq := r.seq % 2 ^ 32, lanes := b64 (maskOf r.lanes), retag := r.route.isSome, route := r.route.getD t.lid, cls := o.1, width := o.2, fids := r.fids, data := payloadOf r }

def issuerOf (t : Team) (bytes : Nat) : Issuer := { lid := t.lid, team := t.idx, queue := t.queue, bytes := bytes }

/-- The PSEQ of a parked request. -/
def pseqOf (r : Req) : Option Nat := match r.stage with | .parked _ p => some p | _ => none

/-- A request parks with its own cause or behind a leader, or is refused. Log entry 22: DESIGN CHOICE. -/
def parkReq (s : State) (tid : Nat) (t : Team) (r : Req) (f : Fail) (o : PageCls × Width) (leader : Option Req) : State :=
  let d := dieOf r.core
  let e0 := entryOf t tid r o
  let e := match leader with
    | some q => { e0 with st := .follower, cause := .order, leader := pseqOf q, pgsz := f.pgsz }
    | none => { e0 with st := .parked, cause := f.cause, missing := f.missing, pgsz := f.pgsz }
  let x := parkAs (countWalk s d f) d e (issuerOf t r.size)
  modReq x.1 tid r fun q =>
    { q with cls := o.1, width := o.2, inst := f.inst, pgsz := f.pgsz, pcls := f.cls, out := !inWidth r.core f.width f.inst, reissue := false
             followed := if leader.isSome then (leadersOf s t r).filterMap pseqOf else []
             stage := match x.2 with | some p => .parked d p | none => .refused s.cycle }

/-- What a follower's page is, as far as a walk says. -/
def followFail (s : State) (t : Team) (r : Req) : Fail :=
  match walkReq s t r with
  | .leaf l => { cause := .order, pgsz := l.pgsz, cls := l.cls, width := l.width, inst := l.inst }
  | .fail f => f

/-- May the request of an entry in REPLAY go through translation now? A read of the context engine, which makes all requests of a
piece of work at once, holds no later one up. -/
def replayGoes (s : State) (o : Owner) : Bool :=
  match o with
  | .req tid seq sub =>
    match s.team tid with
    | some t => t.reqs.any fun q => q.seq == seq && q.sub == sub && q.replay && q.stage == .queued && verdict s t q != .wait
    | none => false
  | .fetch tid core slot uid _ =>
    match s.team tid, s.posy (posyKey core slot) with
    | some t, some p => p.uid == uid && p.fetch == some .queued && t.running && p.hd.mode == .none && p.wait_.isNone && !p.joining
    | _, _ => false
  | .copyR team core token part =>
    (s.core core).copies.any fun k => k.team == team && k.token == token && (k.parts[part]?).any fun p => p.st == .todo
  | .copyW team core token part dst =>
    (s.core core).copies.any fun k => k.team == team && k.token == token && (k.parts[part]?).any fun p =>
      p.dst == dst && (match p.st with | .have_ _ => true | _ => false) &&
      match s.team team with
      | some t => (match translate s t.part t.vd (some core) (dieOf core) dst { w := true } false with | .leaf l => l.cls != .bv | .fail _ => true)
      | none => false
  | .kload team core token addr =>
    (s.core core).kloads.any fun k => k.team == team && k.token == token && (k.todo.any fun x => x.1 == addr) && !k.parked.contains addr
  | .afetch team core token addr =>
    (s.core core).ring.any fun k => k.team == team && k.token == token && (k.todo.any fun x => x.1 == addr) && !k.parked.contains addr
  | .queue q _ =>
    let x := s.queue q
    x.hs == .unread && x.enable && decide (x.head < x.tail) && x.owed.isEmpty && (s.vd x.part x.vd).isSome
  | .lost _ _ _ _ => true
  | .ctx _ _ _ | .coreHdr _ _ _ => false

/-- Replays go through translation in the order in which they parked (R302, R366, R373, R378): the entries in REPLAY before the first
of an owner, one of which may go now. -/
def replayWaits (s : State) (d : Nat) (mine : Owner → Bool) : Bool :=
  let own := fun (e : Entry) => e.st == .replay && mine e.owner
  (s.die d).entries.any own && ((s.die d).entries.takeWhile fun e => !own e).any fun e => e.st == .replay && replayGoes s e.owner

/-- A request that replays waits for those that parked before it on the die. -/
def replayBehind (s : State) (tid : Nat) (r : Req) : Bool :=
  r.replay && r.stage == .queued && replayWaits s (dieOf r.core) fun o => o == .req tid r.seq r.sub

/-- The request stays unsent: its posy is saved, or a request that the save recorded has still to be reissued, an older one, or any
that may go now where this one has never been sent (R304, R367). Log entry 66: DEDUCED. -/
def unsent (s : State) (t : Team) (r : Req) : Bool :=
  r.kept || t.reqs.any fun q => q.reissue && q.core == r.core && q.slot == r.slot &&
    (decide (q.seq < r.seq) || (q.seq == r.seq && decide (q.sub < r.sub)) || (r.stage == .queued && !r.replay && !r.reissue && verdict s t q != .wait))

/-- A request at translation: it goes, or it parks. -/
def attempt (s : State) (tid : Nat) (t : Team) (r : Req) (goes parks : Bool) : State :=
  if unsent s t r || replayBehind s tid r then s
  else match verdict s t r with
  | .wait => s
  | .note w => modReq s tid r fun q => { q with snap := some (releaseSnap s r.core w), width := w }
  | .noteAll => modReq s tid r fun q => { q with snap := some (fullSnap s r.core), full := true }
  | .go l o => if goes then goReq s tid t r l o else s
  | .fail f o => if parks then parkReq s tid t r f o none else s
  | .follow q o => if parks then parkReq s tid t r (followFail s t r) o (some q) else s

/-! ## The replies -/

/-- The bytes of a lane's access from what arrived. -/
def laneBytes (l : LoadOp) (ll : LaneLoad) (addr n : Nat) : List Byte :=
  (List.range n).map fun i =>
    ((l.got.find? fun x => x.2.1 == addr + i && ll.subs.contains x.1).map (·.2.2)).getD 0xFF

/-- The bytes that the requests of a lane brought, request by request. -/
def subBytes (l : LoadOp) (ll : LaneLoad) : List Byte :=
  ll.subs.flatMap fun k => (l.got.filter fun x => x.1 == k).map (·.2.2)

/-- Extends a loaded value of 1, 2 or 4 bytes (R246). -/
def loadExt (size : Nat) (f : Fmt) (w : Nat) (v : Nat) : Nat :=
  if f = .i32 ∧ size < w / 8 then (wrapInt w (readInt (8 * size) true v)) else v

/-- The words of a V destination. -/
def loadWords (size : Nat) (f : Fmt) (bs : List Byte) : List W32 :=
  if size ≤ 4 then [b32 (loadExt size f 32 (leNat bs))]
  else (List.range (size / 4)).map fun j => b32 (leNat ((bs.drop (4 * j)).take 4))

/-- LDSX: elements decoded and rounded (R252). -/
def sxLane (l : LoadOp) (m : SxFmt) (f : Fmt) (count : Nat) (ovfsat : Bool) (ll : LaneLoad) : List W32 × BitVec 6 :=
  let F := flF f
  let per := sxPer f
  let scale := leNat (laneBytes l ll ll.addr 2)
  let gb := sxGroupBytes m
  let xs := (List.range (count * per)).map fun j =>
    let e := (ll.idx + j) % 256
    let g := SxGroup.ofBytes m (laneBytes l ll (ll.addr + 8 + e / 16 * gb) gb)
    let v := g.elem m scale (e % 16)
    let r := FF.put F { ovfsat := ovfsat } 1 v.1
    (r.pat, r.flags ||| flagIf v.2 flagInv)
  ((List.range count).map fun i => b32 (packElems F.bits (((xs.drop (i * per)).take per).map (·.1))),
   xs.foldl (fun a x => a ||| x.2) 0)

/-- What a finished load writes: register words by lane and register, tag, flags. -/
structure Landed where
  words : List (Nat × List W32) := []
  uni : Option (BitVec 64) := none
  preds : List (Nat × Bool) := []
  tag : BitVec 4 := 0
  /-- Tags register by register, where they were loaded (R438). -/
  tagList : List (Nat × BitVec 4) := []
  /-- Whole predicate words by lane. -/
  predWords : List (Nat × BitVec 16) := []
  /-- A loaded tile: its number and its words. -/
  tile : Option (Nat × Tab W32) := none
  flags : BitVec 6 := 0

/-- The tags that a load sets. -/
def landedTags (l : LoadOp) (x : Landed) : List (Nat × BitVec 4) :=
  if !x.tagList.isEmpty then x.tagList else if l.dcls = .v then tagAll l.dst l.count x.tag else []


def landed (l : LoadOp) : Landed :=
  match l.kind with
  | .plain size f =>
    if l.dcls = .s then
      { uni := l.lanes.head?.map fun ll => b64 (loadExt size f 64 (leNat (laneBytes l ll ll.addr size))) }
    else { words := l.lanes.map fun ll => (ll.lane, loadWords size f (laneBytes l ll ll.addr size)), tag := tagOf f }
  | .sx m f c ov =>
    let rs := l.lanes.map fun ll => (ll.lane, sxLane l m f c ov ll)
    { words := rs.map fun r => (r.1, r.2.1), tag := tagOf f, flags := rs.foldl (fun a r => a ||| r.2.2) 0 }
  | .atom f =>
    let old := fun L => (Tab.get 0 l.olds L).toNat
    if l.dcls = .s then { uni := l.lanes.head?.map fun ll => b64 (extendS f true (old ll.lane)) }
    else
      { words := l.lanes.map fun ll => (ll.lane, if Fmt.wide f then [b32 (old ll.lane), b32 (old ll.lane / 2 ^ 32)] else [b32 (old ll.lane)])
        tag := atomTag f }
  | .verdict => { preds := l.lanes.map fun ll => (ll.lane, laneBytes l ll ll.addr 1 == [1]) }
  | .restReg tagAddr =>
    { words := l.lanes.map fun ll => (ll.lane, (List.range l.count).map fun j => b32 (leNat (laneBytes l ll (ll.addr + 256 * j) 4)))
      tagList := match l.lanes with
        | ll :: _ => (List.range l.count).map fun j => (l.dst + j, tagOfByte ((laneBytes l ll (tagAddr + j) 1).headD 0))
        | [] => [] }
  | .restPred => { predWords := l.lanes.map fun ll => (ll.lane, BitVec.ofNat 16 (leNat (laneBytes l ll ll.addr 2))) }
  | .restTile k =>
    { tile := l.lanes.head?.map fun ll =>
        (k, Tab.ofList 0 (4096 * k) ((wordsOfBytes (subBytes l ll)).take 4096)) }
  | .sysc => { words := l.lanes.map fun ll => (ll.lane, [b32 (Tab.get 0 l.olds ll.lane).toNat, b32 ((Tab.get 0 l.olds ll.lane).toNat / 2 ^ 32)]) }
  | _ => {}

def posyOf (s : State) (uid : Nat) : Option (Nat × Posy) := (Tab.live s.posies).find? fun e => e.2.uid == uid

/-- Lanes whose fibre is still the one that loaded. -/
def Posy.sameFib (p : Posy) (l : LoadOp) (L : Nat) : Bool :=
  l.lanes.any fun ll => ll.lane == L && Tab.get none p.lanes L == some ll.fid

/-- Log entry 86: DEDUCED. -/
def landPosy (p : Posy) (l : LoadOp) (x : Landed) : Posy :=
  p.apply
    { vw := (x.words.filter fun w => p.sameFib l w.1).flatMap fun w =>
        ((List.range w.2.length).zip w.2).map fun y => (l.dst + y.1, w.1, y.2)
      tags := landedTags l x
      pw := (x.preds.filter fun w => p.sameFib l w.1).map (fun w => (w.1, l.dst, w.2)) ++
        (x.predWords.filter fun w => p.sameFib l w.1).flatMap fun w => (List.range 16).map fun i => (w.1, i, w.2.getLsbD i) }

/-- A load whose replies have all come writes its destination (R247). -/
def finishLoad (s : State) (tid : Nat) (l : LoadOp) : State :=
  let x := landed l
  let s1 := s.modTeam tid fun t =>
    let t0 := match x.tile with | some (k, ws) => { t with tiles := Tab.setAll 0 (t.tiles.filter fun e => e.1 / 4096 != k) ws } | none => t
    let t1 := { t0.raise x.flags with loads := t.loads.filter fun y => y.seq != l.seq }
    match x.uni with
    | some v => t1.modFrame l.frame fun f => { f with s := Tab.set 0 f.s l.dst v }
    | none => t1
  match posyOf s1 l.uid with
  | some (k, p) => if l.dcls = .s then s1 else s1.setPosy k (some (landPosy p l x))
  | none => s1

/-- Adds a reply to its load operation; it finishes when no other request of the instruction is left. -/
def landReply (s : State) (tid : Nat) (t : Team) (r : Req) (fin : State → LoadOp → State) : State :=
  let s1 := dropReq (flagTeam s tid (r.flags ||| flagIf r.merr flagMerr)) tid r
  match t.loads.find? fun l => l.seq == r.seq with
  | none => s1
  | some l =>
    let mine := r.reply.map fun y => (r.sub, y.1, y.2)
    let l' := { l with got := l.got ++ mine, olds := Tab.setAll 0 l.olds r.olds }
    let s2 := s1.modTeam tid fun t => { t with loads := t.loads.map fun y => if y.seq = l.seq then l' else y }
    match s2.team tid with
    | some t2 => if t2.reqs.any fun q => q.seq == r.seq then s2 else fin s2 l'
    | none => s2

end Sys2Proof.Machine
end

