-- ==== Sys2Proof/Machine/Requests.lean ====
section
/-!
DEFINITION. Steps of the ordering machine and of the park store on single requests: caches and homes, atomics
at home, region loads, PREF, parking, replays, the park commands (R230, R256, R259, R286 to R288, R297, R365 to
R374, R380).
-/
namespace Sys2Proof.Machine

/-! ## Caches and homes -/

def execWriteBack (who : Sharer) (line : Nat) (s : State) : Out := .next (writeBack s who line)
def execMerge (idx : Nat) (s : State) : Out := .next (mergeWb s idx)
def execInvalidation (who : Sharer) (line : Nat) (s : State) : Out := .next (invalidate s who line)
/-- Is a sector touched by a load, not yet answered, of a core that the cache serves (R220)? -/
def fillWanted (s : State) (who : Sharer) (line sector : Nat) : Bool :=
  (Tab.live s.teams).any fun e => e.2.reqs.any fun r =>
    r.kind == .load && !r.scratch && r.stage != .replied &&
    (match who with | .l1 c => c == r.core | .rdc d => d == dieOf r.core | .host => false) &&
    match translate s e.2.part e.2.vd (some r.core) (dieOf r.core) r.addr { r := true } r.priv with
    | .leaf l => (List.range r.size).any fun i => lineOf (l.pa_ (r.addr + i)) == line && l.pa_ (r.addr + i) % 128 / 32 == sector
    | .fail _ => false

/-- FILL: a cache fetches only the sectors that the bytes of a request touch (R220). -/
def execFill (who : Sharer) (line sector : Nat) (s : State) : Out :=
  .next (if fillWanted s who line sector then fillSector s who line sector else s)
def execDirectoryEvict (line : Nat) (s : State) : Out := .next (directoryEvict s line)
/-- The host acknowledges a back-invalidation of a line it caches (R447). -/
def execBackInvalidation (line : Nat) (s : State) : Out := .next (invalidate s .host line)

/-- Does a PREF of a line go past the caches of its core's die: a sector that they should hold is missing? -/
def prefLeaves (s : State) (core pa : Nat) (home : Bool) : Bool :=
  let path := if home then (pathOf core pa).filter fun c => match c with | .l1 _ => false | _ => true else pathOf core pa
  (List.range 4).any fun k => !path.any fun c => (s.cline c (lineOf pa)).valid.getLsbD k

/-- PREF (R259): fills for the lanes whose address passes R225 and translates; a refused one counts at the port that it reaches (R397).
Log entry 54: DESIGN CHOICE. -/
def prefLane (s : State) (e : Env) (o : MemOps) (L : Nat) : State :=
  let g := e.t.seg o.seg
  let off := addrBase e o.a L + memDisp o false
  if o.seg == .scr || !segOk g off 1 true false then s
  else
    let va := g.addr + off.toNat
    match translate s e.t.part e.t.vd (some e.core) (dieOf e.core) va { r := true } e.p.privileged with
    | .fail f => countWalk s (dieOf e.core) f
    | .leaf l =>
      let pa := l.pa_ va
      let s := if !reaches s (dieOf e.core) pa && prefLeaves s e.core pa (o.sub != 0) then countRefused s (dieOf e.core) pa else s
      if (paKind pa == .host) && !reaches s (dieOf e.core) pa then s
      else if o.sub = 0 then fetchLine s e.core (linePa (lineOf pa)) 128
      else match paKind pa with
        | .hbm d => if d = dieOf e.core then touchL2 s (.l1 e.core) (lineOf pa) 0xF
            else (List.range 4).foldl (fun s i => fillSector s (.rdc (dieOf e.core)) (lineOf pa) i) s
        | _ => s

/-- Log entry 54: DESIGN CHOICE. -/
def execPref (o : MemOps) (s : State) : Out :=
  issue s { type := addrOk o.a, regs := [addrUse o.a], priv := segPriv o.seg } o.h fun e act =>
    match commit s e o.h.len {} with
    | .next s1 => .next (act.foldl (fun s L => prefLane s e o L) s1)
    | r => r

/-- An atomic or ACC at its home, once the line is not merging and no region share is out (R256, R297). -/
def atomicAtHome (s : State) (tid : Nat) (t : Team) (r : Req) : State :=
  let line := lineOf r.pa
  if isMerging s line none || s.merging.any (fun m => m.req == some (tid, r.seq, r.sub)) then s
  else
    let as := if r.pcls = .bv then authoritiesOf s t.part t.vd r.addr r.pa r.size else []
    regionStep s tid r as fun s =>
      if (List.range r.size).any fun i => s.poisoned (r.pa + i) then poisonReply s tid r
      else
        let a := applyAtom r (leNat (s.readBytes r.pa r.size))
        let s1 := modReq s tid r fun q => { q with olds := a.1, flags := a.2.2, defers := [] }
        beginMerge s1 line none (lineBytes (placed r.pa (leBytes r.size a.2.1))) none (some (tid, r.seq, r.sub)) 0 as

def execAtomicPerform (team idx : Nat) (s : State) : Out :=
  match s.team team with
  | none => .next s
  | some t =>
    match t.reqs[idx]? with
    | some r => if r.stage = .atHome ∧ (r.kind = .atomic ∨ r.kind = .acc) then .next (atomicAtHome s team t r) else .next s
    | none => .next s

/-- The next recall that a load of region words waits for (R297). -/
def wordsRecall (s : State) (t : Team) (r : Req) (l : Leaf) (ws : List Nat) : Option State :=
  ws.findSome? fun w => match regionOf s t l w with
    | some (d, b) => if s.poisoned (l.pa_ w) then none else loadRecall s r.core d b (tolF r.tol)
    | none => none

/-- Every recall that a read of an engine waits for, at once. Log entry 25: DEDUCED. -/
def wordsRecallAll (t : Team) (r : Req) (l : Leaf) (ws : List Nat) : Nat → State → State
  | 0, s => s
  | n + 1, s => match wordsRecall s t r l ws with | some s1 => wordsRecallAll t r l ws n s1 | none => s

/-- The words of a load with region words, each resolved as a whole (R292, R297): bytes by address, and poison. -/
def regionWords (s : State) (t : Team) (r : Req) (l : Leaf) (ws : List Nat) : List (Nat × Byte) × Bool :=
  let xs : List (List (Nat × Byte) × Bool) := ws.map fun w =>
    let pa := l.pa_ w
    match regionOf s t l w with
    | some (d, b) => if s.poisoned pa then (placed w (ones 4), true)
      else (placed w (leBytes 4 (regionValue s r.core d b w pa).toNat), false)
    | none =>
      let bs := (List.range 4).map fun i => bindByte s r.core (pa + i)
      (placed w (bs.map (·.1)), bs.any (·.2))
  (xs.flatMap (·.1), xs.any (·.2))

/-- The aligned 4-byte words that a request touches. -/
def wordsTouched (addr size : Nat) : List Nat :=
  (List.range ((addr % 4 + size + 3) / 4)).map fun i => addr - addr % 4 + 4 * i

/-- REGION_LOAD_ANSWER: the next recall that the load waits for, or the answer (R297). -/
def execRegionLoadAnswer (team idx : Nat) (s : State) : Out :=
  match s.team team with
  | none => .next s
  | some t =>
    match t.reqs[idx]? with
    | some r =>
      if r.stage = .atHome ∧ r.kind = .load ∧ !isMerging s (lineOf r.pa) none then
        let l : Leaf := { pa := r.pa - r.addr % pageBytes r.pgsz, pgsz := r.pgsz, cls := r.pcls }
        let ws := wordsTouched r.addr r.size
        match wordsRecall s t r l ws with
        | some s1 => .next s1
        | none =>
          let x := regionWords s t r l ws
          .next (replyWith s team r (x.1.filter fun y => decide (r.addr ≤ y.1) && decide (y.1 < r.addr + r.size)) [] x.2 0)
      else .next s
    | none => .next s

/-! ## Parking -/

/-- An access of a posy that is at translation. -/
def withReq (s : State) (team idx : Nat) (f : Team → Req → State) : Out :=
  match s.team team with
  | none => .next s
  | some t => match t.reqs[idx]? with | some r => .next (f t r) | none => .next s

def execPark (team idx : Nat) (s : State) : Out :=
  withReq s team idx fun t r => if r.stage = .queued ∧ r.kind.isMem then attempt s team t r false true else s

/-- 256 cycles after a refusal the request is sent to translation again (R367). -/
def execParkRetry (team idx : Nat) (s : State) : Out :=
  withReq s team idx fun t r =>
    match r.stage with
    | .refused at_ => if at_ + 256 ≤ s.cycle then attempt s team t r true true else s
    | _ => s

/-- Does an older request still hold a follower (R302)? -/
def stillLeads (t : Team) (r : Req) : List Req :=
  (olderReqs t r).filter fun q =>
    q.kind.isMem && (parkedReq q || refusedReq q || (q.replay && !performedReq q)) && leads q r (r.cls, r.width) (r.rel && meaningful r.cls) r.out

/-- Sends a request back through translation (REPLAY). -/
def replayReq (s : State) (team seq sub : Nat) : State :=
  s.modTeam team fun t => { t with reqs := t.reqs.map fun q =>
    if q.seq = seq ∧ q.sub = sub then { q with stage := .queued, replay := true, snap := none } else q }

def modPart (s : State) (core team token part : Nat) (f : CpPart → CpPart) : State :=
  s.modCore core fun c => { c with copies := c.copies.map fun k =>
    if k.team = team ∧ k.token = token then
      { k with parts := ((List.range k.parts.length).zip k.parts).map fun x => if x.1 = part then f x.2 else x.2 }
    else k }

def modKload (s : State) (core team token : Nat) (f : KLoad → KLoad) : State :=
  s.modCore core fun c => { c with kloads := c.kloads.map fun k => if k.team = team ∧ k.token = token then f k else k }

def modTask (s : State) (core team token : Nat) (f : Task → Task) : State :=
  s.modCore core fun c => { c with ring := c.ring.map fun k => if k.team = team ∧ k.token = token then f k else k }

/-- The owner of an entry sends its request to translation again. -/
def ownerReplay (s : State) (o : Owner) : State :=
  match o with
  | .req team seq sub => replayReq s team seq sub
  | .fetch _ core slot uid _ => s.modPosy (posyKey core slot) fun p => if p.uid = uid then { p with fetch := some .queued } else p
  | .copyR team core token part => modPart s core team token part fun p => { p with st := .todo }
  | .copyW team core token part dst => modPart s core team token part fun p =>
      match p.st with | .parkedW _ _ bs => if p.dst = dst then { p with st := .have_ bs } else p | _ => p
  | .kload team core token line => modKload s core team token fun k => { k with parked := k.parked.erase line }
  | .afetch team core token line => modTask s core team token fun k => { k with parked := k.parked.erase line }
  | .ctx _ _ _ | .coreHdr _ _ _ => s
  | .queue q _ => s.modQueue q fun x => { x with hs := match x.hs with | .parked _ _ _ => .unread | h => h }
  | .lost _ _ _ _ => s

/-- The owner of an aborted entry receives poison (R373); a kiln command sets MERR when it completes (R361). -/
def ownerAbort (s : State) (o : Owner) (va : Nat) : State :=
  match o with
  | .req team seq sub =>
    match s.team team with
    | some t => (match t.reqs.find? fun q => q.seq == seq && q.sub == sub with | some r => poisonReply s team r | none => s)
    | none => s
  | .fetch team core slot uid _ =>
    flagTeam (s.modPosy (posyKey core slot) fun p => if p.uid = uid then { p with fetch := none, fetchOnes := some (va / 32) } else p) team flagMerr
  | .copyR team core token part =>
    flagTeam (modPart s core team token part fun p => { p with st := .have_ (ones p.len), aborted := true }) team flagMerr
  | .copyW team core token part dst =>
    flagTeam (modPart s core team token part fun p =>
      match p.st with | .parkedW _ _ bs => if p.dst = dst then { p with st := .have_ bs, dropW := true } else p | _ => p) team flagMerr
  | .kload team core token line =>
    modKload s core team token fun k => { k with parked := k.parked.erase line, aborted := line :: k.aborted }
  | .afetch team core token line =>
    modTask s core team token fun k => { k with parked := k.parked.erase line, aborted := line :: k.aborted }
  | .ctx team _ line => flagTeam (s.modTeam team fun t => { t with ctxAborted := line :: t.ctxAborted }) team flagMerr
  | .coreHdr core _ line => s.modCore core fun c => { c with hdrAborted := line :: c.hdrAborted }
  | .queue q _ => s.modQueue q fun x => { x with hs := .aborted (match x.hs with | .parked _ _ r => r | _ => none) }
  | .lost team _ _ _ => (match team with | some t => flagTeam s t flagMerr | none => s)

/-- The reply of an entry in REPLAY is discarded on arrival (R373): the issuer goes on waiting. A write is still made. -/
def ownerDiscard (s : State) (die : Nat) (e : Entry) : State :=
  match e.owner with
  | .req team seq sub => s.modTeam team fun t => { t with reqs := t.reqs.map fun q => if q.seq = seq ∧ q.sub = sub then { q with discard := true } else q }
  | .fetch _ core slot uid _ => s.modPosy (posyKey core slot) fun p => if p.uid = uid then { p with fetch := some (.parked die e.pseq) } else p
  | .copyR team core token part => modPart s core team token part fun p => { p with st := .parkedR die e.pseq }
  | .copyW team core token part _ => modPart s core team token part fun p => { p with discard := true }
  | .kload team core token line => modKload s core team token fun k => { k with parked := line :: k.parked }
  | .afetch team core token line => modTask s core team token fun k => { k with parked := line :: k.parked }
  | .ctx team _ line => s.modTeam team fun t => { t with ctxPurged := line :: t.ctxPurged }
  | _ => s

/-- Is the request of an entry in REPLAY complete? -/
def ownerDone (s : State) (o : Owner) : Bool :=
  match o with
  | .req team seq sub =>
    match s.team team with
    | some t => !t.reqs.any fun q => q.seq == seq && q.sub == sub
    | none => true
  | .fetch _ core slot uid _ => (match s.posy (posyKey core slot) with | some p => p.uid != uid || p.fetch != some .queued | none => true)
  | .copyR team core token part =>
    match (s.core core).copies.find? fun k => k.team == team && k.token == token with
    | some k => (match k.parts[part]? with | some p => p.st != .todo | none => true)
    | none => true
  | .copyW team core token part dst =>
    match (s.core core).copies.find? fun k => k.team == team && k.token == token with
    | some k => (match k.parts[part]? with | some p => p.dst != dst || (match p.st with | .done => true | _ => false) | none => true)
    | none => true
  | .kload team core token addr =>
    !(s.core core).kloads.any fun k => k.team == team && k.token == token && (k.todo.any fun x => x.1 == addr) && !k.parked.contains addr
  | .afetch team core token addr =>
    !(s.core core).ring.any fun k => k.team == team && k.token == token && (k.todo.any fun x => x.1 == addr) && !k.parked.contains addr
  | .ctx team _ line => (match s.team team with | some t => t.ctxPurged.contains line | none => true)
  | .coreHdr core _ _ => (s.core core).nextVd.isNone
  | .queue q _ => (match (s.queue q).hs with | .unread => false | _ => true)
  | .lost _ _ _ _ => true

/-- Does an older follower of the issuer replay first: one with no leader left, or one of a common leader
(R302, R374)? -/
def followerBefore (t : Team) (r : Req) : Bool :=
  (olderReqs t r).any fun q => !q.followed.isEmpty && parkedReq q && ((stillLeads t q).isEmpty || q.followed.any r.followed.contains)

/-- A follower whose leaders have all completed replays; when its nearest leader has completed, one with an
older leader still parked takes the next of them as LEADER (R374). -/
def execFollowerReplay (die pseq : Nat) (s : State) : Out :=
  match findEntry s die pseq with
  | some e =>
    match e.st, e.owner with
    | .follower, .req team seq sub =>
      match s.team team with
      | some t =>
        match t.reqs.find? fun q => q.seq == seq && q.sub == sub with
        | some r =>
          let ls := stillLeads t r
          if ls.isEmpty && followerBefore t r then .next s
          else if ls.isEmpty then .next (ownerReplay (setEntry s die { e with st := .replay }) e.owner)
          else
            match (ls.filterMap pseqOf).getLast? with
            | some p => if (s.die die).entries.any fun x => some x.pseq == e.leader then .next s else .next (setEntry s die { e with leader := some p })
            | none => .next s
        | none => .next s
      | none => .next s
    | _, _ => .next s
  | none => .next s

/-- The fault that a read nobody waits for meets again. -/
def lostFail (s : State) (die : Nat) (e : Entry) : Option Fail :=
  match e.owner with
  | .lost _ core priv _ =>
    match translate s e.part e.vd core die e.va (if core.isSome then { x := true } else { r := true }) priv with
    | .fail f => some f
    | .leaf _ => none
  | _ => none

/-- REPLAY_COMPLETE. A read nobody waits for delivers nothing; it parks again if its page still fails. -/
def execReplayComplete (die pseq : Nat) (s : State) : Out :=
  match findEntry s die pseq with
  | some e =>
    if e.st ≠ .replay then .next s
    else
      match lostFail s die e with
      | some f => .next (parkAs s die { e with st := .parked, cause := f.cause, pgsz := f.pgsz, missing := f.missing } {
          lid := match e.owner with | .lost (some t) _ _ _ => ((s.team t).map (·.lid)).getD 0 | _ => 0
          team := match e.owner with | .lost (some t) _ _ _ => ((s.team t).map (·.idx)).getD 0 | _ => 0
          queue := match e.owner with | .lost (some t) _ _ _ => ((s.team t).map (·.queue)).getD 0 | _ => 0
          bytes := e.size }).1
      | none => if ownerDone s e.owner then .next (freeEntry s die e) else .next s
  | none => .next s

def execFaultRecordPost (die : Nat) (s : State) : Out := .next (postFault s die)

/-! ## The park commands (R372, R373) -/

def ownerTeam : Owner → Option Nat
  | .req t _ _ | .fetch t _ _ _ _ | .copyR t _ _ _ | .copyW t _ _ _ _ | .kload t _ _ _ | .afetch t _ _ _ | .ctx t _ _ => some t
  | .queue _ _ | .coreHdr _ _ _ => none
  | .lost t _ _ _ => t

/-- Is an entry in the scope of a command? -/
def inScope (c : ParkCmd) (e : Entry) : Bool :=
  c.limit.contains e.pseq &&
  match c.scope with
  | 0 => e.pseq == c.arg.toNat % 2 ^ 32
  | 1 => e.vd == c.vd && vpBase e.va c.pgsz == c.arg.toNat
  | _ => e.lid == c.arg.toNat

/-- Ends the command with the number of entries it changed. -/
def endCmd (s : State) (d n : Nat) : State := s.modDie d fun x => { x with parkCmd := none, parkCount := b32 n }

/-- Runs a command of an OP on the entries it affects. -/
def runCmd (s : State) (d op : Nat) (hit : Entry → Bool) (act : State → Entry → State) : Out :=
  match (s.die d).parkCmd with
  | some c =>
    if c.op = op then
      let es := (s.die d).entries.filter fun e => inScope c e && hit e
      .next (endCmd (es.foldl act s) d es.length)
    else .next s
  | none => .next s

def execRelease (die : Nat) (s : State) : Out :=
  runCmd s die 1 (fun e => e.st == .parked && e.cause != .order)
    fun s e => ownerReplay (setEntry s die { e with st := .replay }) e.owner

def execAbort (die : Nat) (s : State) : Out :=
  runCmd s die 2 (fun e => e.st == .parked || e.st == .follower)
    fun s e => freeEntry (ownerAbort s e.owner e.va) die e

/-- What a kill or a watchdog purges: every entry of a launch but those in REPLAY (R304, R327, R373). -/
def purgeLaunch (s : State) (lid : Nat) : State :=
  (List.range 4).foldl (fun s d =>
    ((s.die d).entries.filter fun e => e.lid == lid && (ownerTeam e.owner).isSome && e.st != .replay).foldl (fun s e => freeEntry s d e) s) s

/-! ## Writes of park and fault registers (R368, R369) -/

def execParkLimitWrite (die : Nat) (v : BitVec 64) (s : State) : Out := .next (if die < 4 then writeParkLimit s die v else s)
def execOverflowConfigWrite (die : Nat) (cfg : Bool) (v : BitVec 64) (s : State) : Out :=
  .next (if die < 4 then writeOverflow s die cfg v else s)
def execFaultRingConfigWrite (die : Nat) (which : BitVec 2) (v : BitVec 64) (s : State) : Out :=
  .next (if die < 4 then writeFaultRing s die which.toNat v else s)

end Sys2Proof.Machine
end

