-- ==== Sys2Proof/Machine/Engine.lean ====
section
/-!
DEFINITION. Requests of the copy unit and the kiln (R265, R295, R341, R345, R363): translation, reads through
the core's L1, writes, parking; and the handles of a team (R130, R264, R267 to R272, R296).
-/
namespace Sys2Proof.Machine

/-! ## Translation and parking -/

/-- Engine requests are ordered as UN and are not privileged (R295, R384). -/
def engWalk (s : State) (t : Team) (core va : Nat) (need : Rights) : Walked :=
  translate s t.part t.vd (some core) (dieOf core) va need false

/-- The entry of an engine request: `unit` is 0 for the copy unit and 1 for the kiln (R364). -/
def engEntry (t : Team) (core va size : Nat) (owner : Owner) (write : Bool) (unit : Nat) (data : List Byte) (f : Fail) : Entry :=
  { pseq := 0, owner := owner, lid := t.lid, va := va, size := size, cause := f.cause, kind := if write then 6 else 5, vd := t.vd, part := t.part
    dreg := unit, core := core, route := t.lid, pgsz := f.pgsz, missing := f.missing, cls := .un, inst := f.inst
    data := if data.isEmpty then [] else padTo 128 (List.replicate (va % 128) 0 ++ data) }

/-- An engine request parks at the die of its core, or is refused. -/
def engPark (s : State) (t : Team) (core va size : Nat) (owner : Owner) (write : Bool) (unit : Nat) (data : List Byte) (f : Fail) :
    State × Option Nat :=
  parkAs (countWalk s (dieOf core) f) (dieOf core) (engEntry t core va size owner write unit data f) (issuerOf t size)

/-! ## Reads -/

/-- A read of an engine seen as a load of its core. -/
def engReq (core va pa n pgsz : Nat) : Req := { seq := 0, kind := .load, addr := va, size := n, core := core, pa := pa, pgsz := pgsz }

/-- Reads bytes of one line through a leaf and the core's caches, which take the sectors it misses; none while the line is merging. The flag says that a byte was
poisoned or refused. -/
def engRead (s : State) (t : Team) (core : Nat) (l : Leaf) (va n : Nat) : Option (State × List Byte × Bool) :=
  let pa := l.pa_ va
  let r := engReq core va pa n l.pgsz
  match paKind pa with
  | .none => some (s, ones n, true)
  | .dev => some (s, devLoad s pa n, false)
  | _ =>
    let held := (List.range n).all fun i => (pathOf core pa).any fun c => (s.cline c (lineOf (pa + i))).has ((pa + i) % 128)
    if !reaches s (dieOf core) pa && (touchesRegion s t l r || !held) then some (countRefused s (dieOf core) pa, ones n, true)
    else
      match paKind pa with
      | .peer _ => some ({ s with fresh := s.fresh + 1 }, (List.range n).map fun i => Config.peerByte s.fresh (pa + i), false)
      | _ =>
        if touchesRegion s t l r then
          if isMerging s (lineOf pa) none then none
          else
            let ws := wordsTouched va n
            let s1 := wordsRecallAll t r l ws 2048 s
            let x := regionWords s1 t r l ws
            some (s1, ((x.1.filter fun y => decide (va ≤ y.1) && decide (y.1 < va + n)).map (·.2)), x.2)
        else if (List.range n).any fun i => bindWaits s core (pa + i) then none
        else
          let bs := (List.range n).map fun i => bindByte s core (pa + i)
          some (fetchLine s core pa n, bs.map (·.1), bs.any (·.2))

/-! ## Writes -/

/-- Dirty bytes of a line that a later write of the same core replaces are as if they had merged first. -/
def supersede (s : State) (who : Sharer) (line : Nat) (idx : List Nat) : State :=
  let x := s.cline who line
  let m := idx.foldl (fun m i => m ||| BitVec.twoPow 128 i) (0 : BitVec 128)
  let s1 := if x = {} then s else s.setCline who line (CLine.tidy { x with dirty := x.dirty &&& ~~~m, sent := x.sent &&& ~~~m })
  let s2 := { s1 with wbs := s1.wbs.map fun w =>
      if w.from_ = who ∧ w.line = line then { w with bytes := w.bytes.filter fun b => !idx.contains b.1 } else w }
  mapSnaps s2 fun _ _ => snapTrim (who, line) (owed s2 who line)

/-- A write of bytes of one line, applied at the home; the line merges until its sharers have acknowledged. The flag
says that it was refused; none while it waits for a recall. -/
def engWrite (s : State) (t : Team) (core : Nat) (l : Leaf) (va : Nat) (bytes : List Byte) : Option (State × Bool) :=
  let pa := l.pa_ va
  match paKind pa with
  | .none => some (s, true)
  | .dev => some (devStore s (placed pa bytes))
  | _ =>
    if !reaches s (dieOf core) pa then some (countRefused s (dieOf core) pa, true)
    else
      match paKind pa with
      | .peer _ => some (s, false)
      | _ =>
        let as := if l.cls = .bv then authoritiesOf s t.part t.vd va pa bytes.length else []
        (if l.cls = .bv then recallFor s t.part t.vd va pa bytes.length else some s).map fun s0 =>
          let idx := (List.range bytes.length).map fun i => pa % 128 + i
          let s1 := (pathOf core pa).foldl (fun s c => supersede s c (lineOf pa) idx) s0
          (sysWriteBy none s1 (placed pa bytes) as (some (dieOf core)), false)

/-! ## Context images (R436) -/

/-- CTX offsets of a team's layer area and of its pieces (R432). -/
def Team.layer (t : Team) : Nat := t.place * Config.coreArea + 4096 + t.prio * Config.layerArea
def Team.header (t : Team) : Nat := t.layer + 4096 + 8192 * t.hunit
def Team.sunit (t : Team) (g : Nat) : Nat := t.layer + 184320 + 4096 * g
def Team.tunit (t : Team) (u : Nat) : Nat := t.layer + 708608 + 16384 * u
def Team.punit (t : Team) (j : Nat) : Nat := t.layer + 1232896 + 81920 * j

/-- The virtual address of a CTX offset of the team's VD. -/
def ctxVa (s : State) (t : Team) (off : Nat) : Nat := (match s.vd t.part t.vd with | some v => v.ctxva | none => 0) + off

/-- The first piece whose page cannot be used. -/
def ctxBlocked (s : State) (t : Team) (write : Bool) (ps : List (Nat × Nat)) : Option ((Nat × Nat) × Fail) :=
  ps.findSome? fun p =>
    if t.ctxAborted.contains (p.1 / 128) then none
    else match engWalk s t t.core p.1 (if write then { w := true } else { r := true }) with
      | .fail f => some (p, f)
      | .leaf _ => none

/-- Does a piece wait for an answer to its parked entry, for earlier replays, or for a reply that PURGE took away (R302, R365, R373)? -/
def ctxHeld (s : State) (tid : Nat) (t : Team) (write : Bool) (ps : List (Nat × Nat)) : Bool :=
  ps.any fun p => match ownerEntry s (dieOf t.core) (.ctx tid write (p.1 / 128)) with
    | some e => e.st == .parked || replayWaits s (dieOf t.core) fun o => o == .ctx tid write (p.1 / 128)
    | none => t.ctxPurged.contains (p.1 / 128)

/-- A piece parks; a refused one is tried again after 256 cycles (R363, R367). -/
def ctxPark (s : State) (tid : Nat) (t : Team) (write : Bool) (va : Nat) (bs : List Byte) (n : Nat) (f : Fail) : State :=
  let o := Owner.ctx tid write (va / 128)
  if s.cycle < t.ctxRetry then s
  else
    let x := engPark s t t.core va n o write 1 bs f
    if x.2.isSome then x.1 else x.1.modTeam tid fun t => { t with ctxRetry := s.cycle + 256 }

/-- The replayed requests of some lines of a team's image are complete: their entries are free (R365). -/
def ctxDone (s : State) (tid : Nat) (write : Bool) (lines : List Nat) : State :=
  (List.range 4).foldl (fun s d => ((s.die d).entries.filter fun x => x.st == .replay && match x.owner with
    | .ctx t w l => t == tid && w == write && lines.contains l | _ => false).foldl (fun s x => freeEntry s d x) s) s

/-- Pieces of bytes at CTX offsets, each inside one line. -/
def ctxPieces (base : Nat) (w : List (Nat × List Byte)) : List (Nat × List Byte) :=
  w.flatMap fun x => (cutLines (base + x.1) x.2.length).map fun p => (p.1, (x.2.drop (p.1 - (base + x.1))).take p.2)

/-- Register words and tags at their places in a posy image (R434). -/
def imageWords (off : Nat) (vw : List (Nat × Nat × W32)) (tags : List (Nat × BitVec 4)) : List (Nat × List Byte) :=
  vw.map (fun w => (off + 16384 + 256 * w.1 + 4 * w.2.1, leBytes 4 w.2.2.toNat)) ++
  tags.map fun x => (off + 12800 + x.1, leBytes 1 x.2.toNat)

/-- The stores of an image, one after another; the flag says that one was refused (R23, R27). -/
def ctxStores (s : State) (t : Team) : List (Nat × List Byte) → Option (State × Bool)
  | [] => some (s, false)
  | (va, bs) :: rest =>
    if t.ctxAborted.contains (va / 128) then ctxStores s t rest
    else match engWalk s t t.core va { w := true } with
      | .fail _ => none
      | .leaf l => (engWrite s t t.core l va bs).bind fun x => (ctxStores x.1 t rest).map fun y => (y.1, x.2 || y.2)

/-- Writes bytes at CTX offsets of a team's VD, all of them or, while a page cannot be written, none. An aborted line's bytes are dropped, and refused ones set MERR (R27). Log entry 69: DEDUCED. -/
def ctxWrite (s : State) (tid : Nat) (w : List (Nat × List Byte)) : State × Bool :=
  match s.team tid with
  | none => (s, false)
  | some t =>
    let ps := ctxPieces (ctxVa s t 0) w
    if ctxHeld s tid t true (ps.map fun p => (p.1, p.2.length)) then (s, false)
    else match ctxBlocked s t true (ps.map fun p => (p.1, p.2.length)) with
    | some ((va, n), f) => (ctxPark s tid t true va ((ps.find? fun p => p.1 == va).map (·.2) |>.getD []) n f, false)
    | none =>
      match ctxStores s t ps with
      | some s1 =>
        let ls := ps.map fun p => p.1 / 128
        (ctxDone (s1.1.modTeam tid fun t => { t.raise (flagIf s1.2 flagMerr) with ctxAborted := t.ctxAborted.filter fun l => !ls.contains l }) tid true ls, true)
      | none => (s, false)

def ctxLoads (s : State) (t : Team) : List (Nat × Nat) → Option (State × List Byte × Bool)
  | [] => some (s, [], false)
  | (va, n) :: rest =>
    let one : Option (State × List Byte × Bool) :=
      if t.ctxAborted.contains (va / 128) then some (s, List.replicate n 0xFF, true)
      else match engWalk s t t.core va { r := true } with
        | .fail _ => none
        | .leaf l => engRead s t t.core l va n
    match one with
    | none => none
    | some (s1, bs, bad) => (ctxLoads s1 t rest).map fun x => (x.1, bs ++ x.2.1, bad || x.2.2)

/-- Reads ranges of CTX offsets: the bytes of each, or none while one cannot be read. An aborted line reads
ones; poison sets MERR. -/
def ctxRead (s : State) (tid : Nat) (rs : List (Nat × Nat)) : State × Option (List (List Byte)) :=
  match s.team tid with
  | none => (s, none)
  | some t =>
    let base := ctxVa s t 0
    let ps := rs.flatMap fun r => cutLines (base + r.1) r.2
    if ctxHeld s tid t false ps then (s, none)
    else match ctxBlocked s t false ps with
    | some ((va, n), f) => (ctxPark s tid t false va [] n f, none)
    | none =>
      match ctxLoads s t ps with
      | some (s1, bs, bad) =>
        let ls := ps.map fun p => p.1 / 128
        let s2 := s1.modTeam tid fun t => { t.raise (flagIf bad flagMerr) with ctxAborted := t.ctxAborted.filter fun l => !ls.contains l }
        let split := rs.foldl (fun (a : List (List Byte) × List Byte) r => (a.1 ++ [a.2.take r.2], a.2.drop r.2)) ([], bs)
        (ctxDone s2 tid false ls, some split.1)
      | none => (s, none)

/-! ## Handles -/

def Team.handle (t : Team) (tok : Nat) : Option HandleSt := Tab.get none t.handles tok
def Team.setHandle (t : Team) (tok : Nat) (h : Option HandleSt) : Team := { t with handles := Tab.set none t.handles tok h }
def Team.modHandle (t : Team) (tok : Nat) (f : HandleSt → HandleSt) : Team :=
  match t.handle tok with | some h => t.setHandle tok (some (f h)) | none => t
def modHandle (s : State) (team tok : Nat) (f : HandleSt → HandleSt) : State := s.modTeam team fun t => t.modHandle tok f

/-- handle_new(): a fresh token in a handle register of the frame (R8, R130). Log entry 36: DESIGN CHOICE. -/
def Env.newHandle (e : Env) (d : Nat) (h : HandleSt) : Env :=
  { e with
    t := { e.t.setHandle e.t.nextTok (some h) with nextTok := e.t.nextTok + 1 }
    f := { e.f with h := Tab.set 0 e.f.h d (b64 e.t.nextTok) } }

/-- A handle register named in K space. -/
def hNo (o : Opd) : Nat := o.n.toNat - 16

/-- R267: the final status. Log entry 37: DEDUCED. -/
def HandleSt.result (h : HandleSt) : Nat :=
  if h.cancelled then 2 else if h.final ≠ 1 then h.final else if h.bad then 3 else 1

/-- Takes the final status, and sets the flags of a kiln command (R117, R361); that of a saved team's handle goes into the header's table too (R433, R436).
Log entry 37: DEDUCED. -/
def completeHandle (s : State) (team token : Nat) (t : Team) (h : HandleSt) : State :=
  let done := fun (s : State) => modHandle (flagTeam s team h.flags) team token fun h => { h with status := h.result, flags := 0 }
  match t.save with
  | .saved _ =>
    let x := ctxWrite s team
      (if t.hdone < 64 then [(t.header + 5120 + 16 * t.hdone, leBytes 8 token ++ leBytes 8 h.result)] else [])
    if x.2 then (done x.1).modTeam team fun t => { t with hdone := t.hdone + 1 } else x.1
  | _ => done s

/-- HANDLE_COMPLETE: a pending handle whose command has nothing left takes its final status (R296). -/
def execHandleComplete (team token : Nat) (s : State) : Out :=
  match s.team team with
  | some t =>
    match t.handle token with
    | some h => if h.status = 0 ∧ h.ready then .next (completeHandle s team token t h) else .next s
    | none => .next s
  | none => .next s

end Sys2Proof.Machine
end

