-- ==== Sys2Proof/Machine/Copy.lean ====
section
/-!
DEFINITION. CPY, CPY2D and PUT, the copy unit, and the handle instructions, 0x8B to 0x92 (R263 to R272).
-/
namespace Sys2Proof.Machine

/-! ## The commands as they issue (R263, R264) -/

/-- C names `count` consecutive S registers. -/
def cpyNeed (o : CpyOps) (count : Nat) : Need :=
  { type := o.a.cls == .s && o.b.cls == .s && o.c.cls == .s && o.d.cls == .k
    regs := [kUse .h o.d.n.toNat true, opdUse o.a 1 1 false, opdUse o.b 1 1 false, { sp := .s, n := o.c.n.toNat, count := count }]
    priv := segPriv o.sseg || segPriv o.dseg, full := true }

/-- Rows of bytes: row length, rows, offsets and pitches. -/
structure Rows where
  rb : Nat
  rows : Nat
  src : Nat
  dst : Nat
  sp : Nat
  dp : Nat

def Rows.srcAt (g : Rows) (k : Nat) : Nat := g.src + k * g.sp
def Rows.dstAt (g : Rows) (k : Nat) : Nat := g.dst + k * g.dp

/-- Every row lies in the segment: the first and the last bound the others. -/
def rowsOk (g : SegReg) (off pitch rows rb : Nat) (rd wr : Bool) : Bool :=
  segOk g (off : Int) rb rd wr && segOk g ((off + (rows - 1) * pitch : Nat) : Int) rb rd wr

/-- Do source and destination bytes intersect? `a` and `b` are the bases added to the offsets. -/
def rowsMeet (g : Rows) (a b : Nat) : Bool :=
  (List.range g.rows).any fun i => (List.range g.rows).any fun j =>
    decide (a + g.srcAt i < b + g.dstAt j + g.rb) && decide (b + g.dstAt j < a + g.srcAt i + g.rb)

/-- The source requests of a command: row by row, each inside one line. Log entry 38: DEDUCED. -/
def copyParts (g : Rows) (a b : Nat) : List CpPart :=
  (List.range g.rows).flatMap fun k =>
    (cutLines (a + g.srcAt k) g.rb).map fun x => { src := x.1, dst := b + g.dstAt k + (x.1 - (a + g.srcAt k)), len := x.2 }

/-- The rows of a copy (R263); pitches are unsigned. Log entry 123: DESIGN CHOICE. -/
def cpyRows (e : Env) (o : CpyOps) (two : Bool) : Rows :=
  let r := fun i => (e.f.sreg (o.c.n.toNat + i)).toNat
  { rb := r 0, rows := if two then r 1 else 1, src := (e.f.sreg o.a.n.toNat).toNat, dst := (e.f.sreg o.b.n.toNat).toNat
    sp := if two then r 2 else 0, dp := if two then r 3 else 0 }

/-- A handle that is done at issue. -/
def doneAtOnce (s : State) (e : Env) (d : Nat) (kind : CmdKind) (status : Nat) (len : Len) : Out :=
  commit s (e.newHandle d { kind := kind, status := status, ready := true }) len {}

/-- The command waits in the request queue of its issuer (R294). -/
def engineCmd (s : State) (e : Env) (kind : ReqKind) (act : List Nat) (len : Len) (put : State → State) : Out :=
  let r : Req := { seq := e.t.nextSeq, kind := kind, fids := fidsOf e act, core := e.core, slot := e.slot }
  match commit s { e with t := pushReqs e.t [r] } len {} with
  | .next s1 => .next (put s1)
  | x => x

def sendCopy (s : State) (e : Env) (act : List Nat) (o : CpyOps) (c : CopyCmd) : Out :=
  engineCmd s (e.newHandle (hNo o.d) { kind := .copy }) (.copy e.t.nextTok) act o.h.len fun s =>
    s.modCore e.core fun x => { x with copies := x.copies ++ [c] }

/-- Log entry 45: DEDUCED. -/
def cpyBody (s : State) (e : Env) (act : List Nat) (o : CpyOps) (g : Rows) : Out :=
  let ss := e.t.seg o.sseg
  let ds := e.t.seg o.dseg
  let lc := o.lcoff.toNat
  if g.rb = 0 ∨ g.rows = 0 then doneAtOnce s e (hNo o.d) .copy 1 o.h.len
  else if !(rowsOk ss g.src g.sp g.rows g.rb true false && rowsOk ds g.dst g.dp g.rows g.rb false true) then trap s e .seg act
  else if o.lc && decide (e.t.scr.limit < lc + 8) then trap s e .seg act
  else if o.lc && decide (lc % 8 ≠ 0) then trap s e .align act
  else if 2 ^ 32 < g.rb * g.rows then doneAtOnce s e (hNo o.d) .copy 5 o.h.len
  else if (o.sseg == .scr) == (o.dseg == .scr) && rowsMeet g ss.addr ds.addr then doneAtOnce s e (hNo o.d) .copy 4 o.h.len
  else sendCopy s e act o { team := e.p.team, token := e.t.nextTok, srcScr := o.sseg == .scr, dstScr := o.dseg == .scr
                            parts := copyParts g ss.addr ds.addr, lc := if o.lc then some lc else none, total := g.rb * g.rows }

def execCpy (o : CpyOps) (s : State) : Out :=
  issue s (cpyNeed o 1) o.h fun e act => cpyBody s e act o (cpyRows e o false)

def execCpy2d (o : CpyOps) (s : State) : Out :=
  issue s (cpyNeed o 4) o.h fun e act => cpyBody s e act o (cpyRows e o true)

/-- The target of a PUT: place and team index; nonzero high bits name no team. Log entry 40: DEDUCED. -/
def putTarget (v : Nat) : Nat × Nat := if v < 2 ^ 48 then (v % 2 ^ 16, v / 2 ^ 16) else (2 ^ 16, 0)

/-- Log entry 40: DEDUCED. -/
def execPut (o : CpyOps) (s : State) : Out :=
  issue s (cpyNeed o 2) o.h fun e act =>
    let n := (e.f.sreg o.c.n.toNat).toNat
    let off := (e.f.sreg (o.c.n.toNat + 1)).toNat
    let g : Rows := { rb := n, rows := 1, src := (e.f.sreg o.a.n.toNat).toNat, dst := 0, sp := 0, dp := 0 }
    let ss := e.t.seg o.sseg
    if n = 0 then doneAtOnce s e (hNo o.d) .copy 1 o.h.len
    else if !rowsOk ss g.src 0 1 n true false then trap s e .seg act
    else if o.lcoff.toNat % 8 ≠ 0 then trap s e .align act
    else if 524288 < n then doneAtOnce s e (hNo o.d) .copy 5 o.h.len
    else
      let tgt := putTarget (e.f.sreg o.b.n.toNat).toNat
      let own := o.sseg == .scr && tgt.1 == e.t.place && tgt.2 == e.t.idx
      if own && decide (g.src < off + n) && decide (off < g.src + n) then doneAtOnce s e (hNo o.d) .copy 4 o.h.len
      else sendCopy s e act o { team := e.p.team, token := e.t.nextTok, srcScr := o.sseg == .scr, parts := copyParts g ss.addr 0
                                lc := some o.lcoff.toNat, put := some (tgt.1, tgt.2, off), total := n }

/-! ## The copy unit (R265) -/

/-- Its registers and scratchpad are on the core. -/
def Team.onCore (t : Team) : Bool := match t.save with | .resident | .saving _ _ => true | _ => false

def findCopy (s : State) (core team token : Nat) : Option CopyCmd :=
  (s.core core).copies.find? fun k => k.team == team && k.token == token

def modCopy (s : State) (core team token : Nat) (f : CopyCmd → CopyCmd) : State :=
  s.modCore core fun c => { c with copies := c.copies.map fun k => if k.team = team ∧ k.token = token then f k else k }

def isCancelled (t : Team) (token : Nat) : Bool := match t.handle token with | some h => h.cancelled | none => false

/-- The atomic add of a landing counter (R265); a poisoned counter stays as it is, unless a store of the same cycle mends it (R414). -/
def countLanding (s : State) (team lc n : Nat) : State :=
  s.modTeam team fun t => addLanding t lc n

def CpStage.flying : CpStage → Bool | .have_ _ | .parkedW _ _ _ | .refusedW _ _ | .merging _ _ _ => true | _ => false

/-- Ends a command that has nothing left: its handle may take its final status. -/
def settleCopy (s : State) (core team token : Nat) : State :=
  match findCopy s core team token, s.team team with
  | some c, some t =>
    let ended := if isCancelled t token then !c.parts.any fun p => p.st.flying
                else c.put.isNone && c.parts.all fun p => p.st == .done
    if ended then
      let bad := c.parts.any fun p => p.aborted
      modHandle (s.modCore core fun x => { x with copies := x.copies.filter fun k => !(k.team == team && k.token == token) })
        team token fun h => { h with ready := true, bad := h.bad || bad }
    else s
  | _, _ => s

def badPart (s : State) (team token : Nat) : State :=
  modHandle (flagTeam s team flagMerr) team token fun h => { h with bad := true }

/-- Reads the source of a part. -/
def readPart (s : State) (t : Team) (core : Nat) (c : CopyCmd) (i : Nat) (p : CpPart) : State :=
  if c.srcScr then
    if t.onCore then
      let s1 := modPart s core c.team c.token i fun q => { q with st := .have_ (scratchRead t p.src p.len) }
      if scratchBad t p.src p.len then badPart s1 c.team c.token else s1
    else s
  else if replayWaits s (dieOf core) fun o => o == .copyR c.team core c.token i then s
  else
    match engWalk s t core p.src { r := true } with
    | .fail f =>
      let x := engPark s t core p.src p.len (.copyR c.team core c.token i) false 0 [] f
      modPart x.1 core c.team c.token i fun q =>
        { q with st := match x.2 with | some n => .parkedR (dieOf core) n | none => .refused s.cycle }
    | .leaf l =>
      match engRead s t core l p.src p.len with
      | none => s
      | some (s1, bs, bad) =>
        let s2 := modPart (tlbFill s1 t.part t.vd (some core) (dieOf core) p.src l) core c.team c.token i fun q => { q with st := .have_ bs }
        if bad then badPart s2 c.team c.token else s2

/-- Bytes have been counted; what is left of the part goes on. -/
def landed_ (s : State) (core : Nat) (c : CopyCmd) (i n : Nat) (bs : List Byte) : State :=
  let s1 := modPart s core c.team c.token i fun q =>
    if q.len ≤ n then { q with st := .done } else { q with dst := q.dst + n, len := q.len - n, st := .have_ (bs.drop n) }
  let s2 := match c.lc with | some lc => countLanding s1 c.team lc n | none => s1
  settleCopy s2 core c.team c.token

/-- Bytes of a part that one destination line takes. -/
def pieceLen (p : CpPart) : Nat := min p.len (128 - p.dst % 128)

/-- Writes the bytes of a part: a PUT gathers them, a scratch destination takes them at once, memory takes
those of one line, whose landing counter waits for a team that is off the core (R265). -/
def writePart (s : State) (t : Team) (core : Nat) (c : CopyCmd) (i : Nat) (p : CpPart) (bs : List Byte) : State :=
  if c.put.isSome then
    settleCopy (modPart (modCopy s core c.team c.token fun k =>
      { k with buf := Tab.setAll none k.buf ((placed p.dst bs).map fun x => (x.1, some x.2)) }) core c.team c.token i
        fun q => { q with st := .done }) core c.team c.token
  else if c.dstScr && !t.onCore then s
  else if p.dropW then if c.lc.isSome && !t.onCore then s else
    landed_ (badPart (modPart s core c.team c.token i fun q => { q with dropW := false }) c.team c.token) core c i (pieceLen p) bs
  else if c.dstScr then landed_ (s.modTeam c.team fun t => scratchWrite t (placed p.dst bs)) core c i p.len bs
  else if replayWaits s (dieOf core) fun o => o == .copyW c.team core c.token i p.dst then s
  else
    let n := pieceLen p
    match engWalk s t core p.dst { w := true } with
    | .fail f =>
      let x := engPark s t core p.dst n (.copyW c.team core c.token i p.dst) true 0 (bs.take n) f
      modPart x.1 core c.team c.token i fun q =>
        { q with st := match x.2 with | some m => .parkedW (dieOf core) m bs | none => .refusedW s.cycle bs }
    | .leaf l =>
      match engWrite s t core l p.dst (bs.take n) with
      | none => s
      | some x =>
      let s2 := tlbFill x.1 t.part t.vd (some core) (dieOf core) p.dst l
      let s3 := if x.2 then badPart s2 c.team c.token else s2
      let line := lineOf (l.pa_ p.dst)
      if p.discard then modPart s3 core c.team c.token i fun q => { q with st := .parkedW (dieOf core) 0 bs, discard := false }
      else if isMerging s3 line none || (c.lc.isSome && !t.onCore) then modPart s3 core c.team c.token i fun q => { q with st := .merging line n bs }
      else landed_ s3 core c i n bs

/-- COPY_REQUEST: one request of a command takes its next step. Source requests go in order; a cancelled
command sends none. Log entry 39: DEDUCED. -/
def copyStep (s : State) (core team token i : Nat) : State :=
  match findCopy s core team token, s.team team with
  | some c, some t =>
    match c.parts[i]? with
    | some p =>
      let first := !(c.parts.take i).any fun q => q.st == .todo
      if !c.left then s
      else
        match p.st with
        | .todo => if first && !isCancelled t token then readPart s t core c i p else s
        | .refused at_ => if at_ + 256 ≤ s.cycle && !isCancelled t token then readPart s t core c i p else s
        | .have_ bs => writePart s t core c i p bs
        | .merging line n bs => if isMerging s line none || (c.lc.isSome && !t.onCore) then s else landed_ s core c i n bs
        | .refusedW at_ bs => if at_ + 256 ≤ s.cycle then writePart s t core c i p bs else s
        | _ => s
    | none => s
  | _, _ => s

def execCopyRequest (core team token part : Nat) (s : State) : Out := .next (copyStep s core team token part)

/-! ## PUT (R266) -/

/-- The team that a PUT names, if it belongs to the issuer's launch and ran on that place. -/
def putTeam (s : State) (t : Team) (place idx : Nat) : Option (Nat × Team) :=
  (Tab.live s.teams).find? fun e => e.2.lid == t.lid && e.2.idx == idx && e.2.place == place

def placeOk (s : State) (t : Team) (place : Nat) : Bool :=
  match s.vd t.part t.vd with
  | some v => decide (place < v.plcount) && (Tab.get {} v.places place).valid
  | none => false

def endPut (s : State) (core team token : Nat) (final : Nat) : State :=
  match findCopy s core team token with
  | some c =>
    let bad := c.parts.any fun p => p.aborted
    modHandle (s.modCore core fun x => { x with copies := x.copies.filter fun k => !(k.team == team && k.token == token) })
      team token fun h => { h with ready := true, final := final, bad := h.bad || bad }
  | none => s

/-- PUT_LANDING: all bytes land in the receiver's scratchpad, then its counter gains their number. Log entry 39: DEDUCED. -/
def landPut (s : State) (core team token : Nat) : State :=
  match findCopy s core team token, s.team team with
  | some c, some t =>
    match c.put with
    | some (place, idx, off) =>
      if !c.parts.all (fun p => p.st == .done) || isCancelled t token then s
      else
        match (if placeOk s t place then putTeam s t place idx else none) with
        | none => endPut s core team token 5
        | some (id, r) =>
          let lc := c.lc.getD 0
          if r.scr.limit < off + c.total ∨ r.scr.limit < lc + 8 then endPut s core team token 5
          else if !r.onCore then s
          else
            let bytes := (List.range c.total).map fun i => (off + i, (Tab.get none c.buf i).getD 0)
            endPut (countLanding (s.modTeam id fun r => scratchWrite r bytes) id lc c.total) core team token 1
    | none => s
  | _, _ => s

def execPutLanding (core team token : Nat) (s : State) : Out := .next (landPut s core team token)

/-! ## Handle instructions (R268 to R272) -/

/-- HWAIT and HTEST: nothing, a predicate, or a varying register. -/
def handleNeed (o : Ops) : Need :=
  let d := o.sub.toNat
  { type := o.a.cls == .k && (if d = 0 then o.d.cls == .s else if d = 1 then o.d.cls == .k else o.d.cls == .v)
    regs := kUse .h o.a.n.toNat false ::
      (if d = 0 then [] else if d = 1 then [kUse .p o.d.n.toNat true] else [opdUse o.d 1 1 true]) }

/-- The handle that A names, with its token; none is the null handle. -/
def handleOf (e : Env) (o : Ops) : Option (Nat × HandleSt) :=
  let tok := (e.f.hreg (hNo o.a)).toNat
  if tok = 0 then none else (e.t.handle tok).map fun h => (tok, h)

/-- What HWAIT and HTEST write. -/
def statusEff (e : Env) (o : Ops) (act : List Nat) (p : Bool) (st : Nat) : Eff :=
  match o.sub.toNat with
  | 0 => {}
  | 1 => { pw := act.map fun L => (L, o.d.n.toNat, p) }
  | _ => let r := e.p.wbase + o.d.n.toNat; { vw := act.map fun L => (r, L, b32 st), tags := [(r, 0)] }

def execHwait (o : Ops) (s : State) : Out :=
  issue s (handleNeed o) o.h fun e act =>
    match handleOf e o with
    | none => trap s e .handle act
    | some (_, h) =>
      if h.status = 0 then .next (s.setPosy e.key (some (e.p.block s.cycle)))
      else commit s e o.h.len (statusEff e o act (h.status == 1) h.status)

def execHtest (o : Ops) (s : State) : Out :=
  issue s (handleNeed o) o.h fun e act =>
    match handleOf e o with
    | none => trap s e .handle act
    | some (_, h) => commit s e o.h.len (statusEff e o act (h.status != 0) h.status)

def copyOwner (team token : Nat) : Owner → Bool
  | .copyR t _ k _ | .copyW t _ k _ _ => t == team && k == token
  | _ => false

/-- Stops a copy: requests not yet sent and parked ones go, those in flight land. -/
def cancelCopy (s : State) (core team token : Nat) : State :=
  let s1 := unpark s (copyOwner team token)
  let s2 := modCopy s1 core team token fun c => { c with parts := c.parts.map fun p =>
    match p.st with | .parkedR _ _ | .refused _ | .parkedW _ _ _ | .refusedW _ _ => { p with st := .todo } | _ => p }
  let s3 := s2.modTeam team fun t => { t with reqs := t.reqs.filter fun r => r.kind != .copy token }
  settleCopy s3 core team token

/-- Does the command still have a byte to count? -/
def copyOpen (s : State) (core team token : Nat) : Bool :=
  match findCopy s core team token with | some c => !c.parts.all (fun p => p.st == .done) || c.put.isSome | none => false

/-! ## HMOV and HADOPT -/

def execHmov (o : Ops) (s : State) : Out :=
  issue s { type := o.a.cls == .k && o.d.cls == .s, regs := [kUse .h o.a.n.toNat true, opdUse o.d 1 1 true], full := true } o.h fun e act =>
    match handleOf e o with
    | none => trap s e .handle act
    | some (tok, _) => commit s e o.h.len { sw := [(o.d.n.toNat, b64 tok)], hw := [(hNo o.a, 0)] }

/-- A handle register of some frame of the team holds the token. -/
def attached (t : Team) (tok : BitVec 64) : Bool :=
  (Tab.live t.frames).any fun f => f.2.h.any fun h => h.2 == tok

def execHadopt (o : Ops) (s : State) : Out :=
  issue s { type := o.d.cls == .k && o.a.cls == .s, regs := [kUse .h o.d.n.toNat true, opdUse o.a 1 1 false], full := true } o.h fun e act =>
    let tok := e.f.sreg o.a.n.toNat
    if tok = 0 ∨ (e.t.handle tok.toNat).isNone ∨ attached e.t tok then trap s e .handle act
    else commit s e o.h.len { hw := [(hNo o.d, tok)] }

end Sys2Proof.Machine
end

