-- ==== Sys2Proof/Machine/Kiln.lean ====
section
/-!
DEFINITION. The kiln: macros and tags, the tile-task ring, tile arithmetic, the order of its commands, its
instructions 0xA0 to 0xA7, and HCANCEL (R334 to R361, R124, R125, R270).
-/
namespace Sys2Proof.Machine

/-! ## Tiles and rows -/

def Team.tileAt (t : Team) (k r c : Nat) : W32 := Tab.get 0 t.tiles (4096 * k + 128 * r + c)
def Team.setTileRow (t : Team) (k r : Nat) (xs : List W32) : Team :=
  { t with tiles := Tab.setAll 0 t.tiles (((List.range 128).zip xs).map fun x => (4096 * k + 128 * r + x.1, x.2)) }

def SrcFmt.ff : SrcFmt → FF | .bf16 => .bf16 | .f16 => .f16 | .e4m3 => .e4m3 | .e5m2 => .e5m2 | _ => .f32
def one16 : BitVec 16 := 0x3F80

/-- 128 dense elements as a row in a shared-exponent form under c = 1.0 (R338, R339, R125). -/
def denseRow (m : SxFmt) (xs : List FVal) : SxRow × BitVec 6 :=
  let gs := (List.range 8).map fun g => SxGroup.encode m ⟨1, 1⟩ ((xs.drop (16 * g)).take 16)
  ({ scale := one16, groups := gs.map (·.1) }, gs.foldl (fun f g => f ||| g.2) 0)

/-- The elements of a dense row's bytes. -/
def denseElems (f : SrcFmt) (bs : List Byte) : List FVal :=
  (List.range 128).map fun i => FF.decode (SrcFmt.ff f) (leNat ((bs.drop (SrcFmt.esize f * i)).take (SrcFmt.esize f)))

/-- The two rows of a block. -/
def blockRows (m : SxFmt) (bs : List Byte) : List SxRow :=
  let r := SxRow.ofBytes m 16 bs
  [{ r with groups := r.groups.take 8 }, { r with groups := r.groups.drop 8 }]

/-! ## The arithmetic of a task (R124) -/

/-- S_g. -/
def groupSum (a b : SxGroup) : Int :=
  ((List.range 16).map fun j =>
    let x := a.f.getD j (false, 0)
    let y := b.f.getD j (false, 0)
    let m : Int := ((x.2 * 2 ^ (1 - muBit a.mu (j / 2)) * (y.2 * 2 ^ (1 - muBit b.mu (j / 2))) : Nat) : Int)
    if x.1 == y.1 then m else -m).sum

def scaleMag (c : BitVec 16) : Mag := match FF.decode .bf16 c.toNat with | .fin _ m => m | _ => ⟨0, 1⟩

/-- T_g, and whether a block scale is invalid (R119). An exact zero T_g is +0: R124 gives it no sign. Log entry 98:
DESIGN CHOICE. -/
def groupTerm (mA mB : Nat) (ca cb : BitVec 16) (a b : SxGroup) : FVal × Bool :=
  let bad := scaleBad ca.toNat || scaleBad cb.toNat
  if bad then (.nan, true)
  else if a.e = 255 ∨ b.e = 255 then (.nan, false)
  else if a.e = 0 ∨ b.e = 0 then (.fin false ⟨0, 1⟩, false)
  else
    let n := groupSum a b
    let m := Mag.mul (Mag.ofScaled n.natAbs ((a.e.toNat + b.e.toNat : Nat) - 254 - (mA - 1 : Nat) - (mB - 1 : Nat) - 2))
      (Mag.mul (scaleMag ca) (scaleMag cb))
    (.fin (decide (n < 0) && decide (0 < m.n)) m, false)

/-- One element: eight group terms, each added with one RNE rounding (R114 with OVFSAT ignored). -/
def elemTask (mA mB : Nat) (a b : SxRow) (x0 : W32) : W32 × BitVec 6 :=
  (List.range 8).foldl (fun acc g =>
    let t := groupTerm mA mB a.scale b.scale (a.groups.getD g {}) (b.groups.getD g {})
    let r := putInv .f32 {} 1 (FVal.add .rne (FF.decode .f32 acc.1.toNat) t.1)
    (b32 r.pat, acc.2 ||| r.flags ||| flagIf t.2 flagInv)) (x0, 0)

/-! ## Kiln commands and their order (R349) -/

def findTask (c : Core) (team token : Nat) : Option Task := c.ring.find? fun k => k.team == team && k.token == token
def Task.unstarted (k : Task) : Bool := match k.st with | .started _ _ => false | _ => true

/-- R358: a held team's unstarted tasks are left out of account. -/
def outOfAccount (c : Core) (e : KCmd) : Bool :=
  c.held.contains e.team &&
  match e.cmd with
  | .pend _ _ _ => true
  | .task tok _ _ => (match findTask c e.team tok with | some k => k.unstarted | none => false)
  | _ => false

/-- Does a command write a tile? A KTASK whose record is not read yet may name any tile. -/
def KCmd.writes (e : KCmd) (t : Nat) : Bool :=
  match e.cmd with
  | .zero k | .write k _ _ _ _ _ _ _ _ => k == t
  | .task _ acc _ => acc == t
  | .pend _ _ _ => true
  | _ => false

/-- Has a command a read of a tile still to make? -/
def readsTile (c : Core) (e : KCmd) (t : Nat) : Bool :=
  match e.cmd with
  | .read k _ _ _ _ _ | .store k _ _ _ _ _ _ => k == t
  | .task tok _ (some src) =>
    src == t && (match findTask c e.team tok with | some k => k.st == .entered || k.st == .fetching | none => false)
  | .pend _ _ _ => true
  | _ => false

def earlier (c : Core) (team seq : Nat) : List KCmd :=
  c.kcmds.filter fun e => e.team == team && decide (e.seq < seq) && !outOfAccount c e

/-- R349 item 1. -/
def mayRead (c : Core) (team seq t : Nat) : Bool := !(earlier c team seq).any (·.writes t)
/-- R349 items 1 and 2. -/
def mayWrite (c : Core) (team seq t : Nat) : Bool := !(earlier c team seq).any fun e => e.writes t || readsTile c e t

def dropKcmd (s : State) (core team seq : Nat) : State :=
  s.modCore core fun c => { c with kcmds := c.kcmds.filter fun e => !(e.team == team && e.seq == seq) }

/-! ## Macros and tags (R336) -/

def Core.macro_ (c : Core) (m : Nat) : Macro := Tab.get {} c.macros m
def Core.setMacro (c : Core) (m : Nat) (x : Macro) : Core := { c with macros := Tab.set {} c.macros m x }

/-- A load of a tag that is being made. -/
def loadOf (c : Core) (team tag : Nat) : Option KLoad := c.kloads.find? fun k => k.team == team && k.desc.tag == tag

/-- A tag is resident: READY in a macro, or being loaded. -/
def tagResident (c : Core) (team tag : Nat) : Bool :=
  (loadOf c team tag).isSome || (List.range 16).any fun m =>
    let x := c.macro_ m
    x.team == team && x.tag == tag && x.st == .ready

/-- Macros that hold a task's tag in the state its entry sees (R349 item 4). -/
def holders_ (c : Core) (k : Task) : List Nat :=
  (List.range 16).filter fun m =>
    let x := c.macro_ m
    x.team == k.team && x.tag == k.btag && decide (x.lseq < k.seq) &&
    (x.st == .ready || (x.st == .freeing && decide (k.seq < x.freeSeq)))

/-- A KFREE of the tag that waits for its load, entered before. -/
def freePending (c : Core) (team tag seq : Nat) : Bool :=
  c.kcmds.any fun e => e.team == team && decide (e.seq < seq) && e.cmd == .free tag

/-- A load of the task's tag that it waits for. -/
def loadAwaited (c : Core) (k : Task) : Bool :=
  match loadOf c k.team k.btag with | some l => decide (l.seq < k.seq) && !freePending c k.team k.btag k.seq | none => false

/-- Does a FREEING macro still serve a task entered before its KFREE? -/
def macroNeeded (c : Core) (x : Macro) : Bool :=
  x.running.isSome || c.ring.any (fun k => k.team == x.team && k.btag == x.tag && decide (k.seq < x.freeSeq)) ||
  c.kcmds.any fun e => e.team == x.team && decide (e.seq < x.freeSeq) && match e.cmd with | .pend _ _ _ => true | _ => false

/-- The macro a KLOAD fills. -/
def loadingMacro (l : KLoad) : Macro :=
  { st := .loading, team := l.team, tag := l.desc.tag, desc := l.desc, token := l.token, lseq := l.seq }

/-- FREEING macros that are drained become EMPTY, or go to the load that waits for them. -/
def drainMacros (c : Core) : Core :=
  (List.range 16).foldl (fun c m =>
    let x := c.macro_ m
    if x.st = .freeing ∧ !macroNeeded c x then
      match x.resv.bind (fun r => c.kloads.find? fun l => l.team == r.1 && l.token == r.2) with
      | some l => c.setMacro m (loadingMacro l)
      | none => c.setMacro m {}
    else c) c

/-! ## The task record (R342, R343, R346) -/

/-- A task's mantissa width (R356). -/
def AFmt.width (f : AFmt) : Nat := match f with | .mem (.sx m) => sxM m | _ => 7

/-- AFMT codes. -/
def afmtOf (n : Nat) : Option AFmt :=
  match n with
  | 7 => some .acc
  | n => if n < 7 then (SrcFmt.ofCode (BitVec.ofNat 4 n)).map .mem else none

/-- Bytes of the A range, and whether pitch and address suit the format. -/
def aExtent (f : SrcFmt) (rows pitch addr : Nat) : Option Nat :=
  match f with
  | .sx m =>
    if pitch % 8 = 0 ∧ SxFmt.blockBytes m ≤ pitch ∧ addr % 8 = 0 then some (((rows + 1) / 2 - 1) * pitch + SxFmt.blockBytes m) else none
  | d =>
    let z := SrcFmt.esize d
    if pitch % z = 0 ∧ 128 * z ≤ pitch ∧ addr % z = 0 then some ((rows - 1) * pitch + 128 * z) else none

/-- The fields of a record that name its A operand, checked; `none` is status 5. -/
def aFields (t : Team) (k : Task) (b : List Nat) (pitch addr : Nat) : Option Task :=
  let g := fun i => b.getD i 0
  match afmtOf (g 2) with
  | none => none
  | some .acc =>
    if 1 ≤ g 3 ∧ g 3 ≤ 32 ∧ g 4 = 0 ∧ g 5 < t.ktiles ∧ pitch = 0 ∧ addr = 0 then
      some { k with afmt := .acc, rows := g 3, aacc := g 5 }
    else none
  | some (.mem f) =>
    if 1 ≤ g 3 ∧ g 3 ≤ 32 ∧ g 4 ≤ 2 ∧ g 5 = 0 then
      match aExtent f (g 3) pitch addr with
      | some n =>
        let sg := segOfCode (g 4)
        if segOk (t.seg sg) addr n true false then
          some { k with afmt := .mem f, rows := g 3, aseg := sg, apitch := pitch, aaddr := (t.seg sg).addr + addr }
        else none
      | none => none
    else none

/-- The A fields of a sharer: those of its predecessor (R346). Its own ROWS keeps the limits of the table (R342). -/
def reuseFields (t : Team) (k : Task) (b : List Nat) (pitch addr : Nat) : Option Task :=
  if b.getD 2 0 = 0 ∧ 1 ≤ b.getD 3 0 ∧ b.getD 3 0 ≤ 32 ∧ b.getD 4 0 = 0 ∧ b.getD 5 0 = 0 ∧ pitch = 0 ∧ addr = 0 then
    match t.lastTask with
    | some p =>
      if p.afmt = .acc then none
      else some { k with reuse := true, afmt := p.afmt, rows := p.rows, aseg := p.aseg, aacc := p.aacc, apitch := p.apitch
                         aaddr := p.aaddr, block := p.block }
    | none => none
  else none

/-- The dependence tokens, kinds resolved with the handle registers as the KTASK issued. -/
def depTokens (t : Team) (hs kinds vals : List Nat) : Option (List Nat) :=
  (kinds.zip vals).foldr (fun x acc =>
    match acc with
    | none => none
    | some ts =>
      if x.1 = 0 then some ts
      else
        let tok := if x.1 = 1 then hs.getD (x.2 % 16) 0 else x.2
        if tok ≠ 0 ∧ (t.handle tok).isSome then some (tok :: ts) else none) (some [])

/-- The task of a record, if the kiln accepts it. -/
def parseTask (c : Core) (t : Team) (team token seq : Nat) (hs : List Nat) (bs : List Byte) : Option Task :=
  let b := bs.map BitVec.toNat
  let g := fun i => b.getD i 0
  let w := fun i n => leNat ((bs.drop i).take n)
  let kinds := (b.drop 48).take 3
  if 2 ≤ g 0 ∨ t.ktiles ≤ g 1 ∨ 2 ≤ g 6 ∨ g 7 ≠ 0 ∨ 2 ^ 16 ≤ w 8 4 ∨ kinds.any (fun k => decide (2 < k)) ∨
      ((b.drop 51).take 13).any (fun x => decide (x ≠ 0)) then none
  else
    let k0 : Task := { team := team, token := token, seq := seq, mul := g 0 == 1, acc := g 1, btag := w 8 4, block := seq }
    match (if g 6 = 1 then reuseFields t k0 b (w 12 4) (w 16 8) else aFields t k0 b (w 12 4) (w 16 8)),
          depTokens t hs kinds [w 24 8, w 32 8, w 40 8] with
    | some k, some ds =>
      let k := { k with deps := ds }
      if (holders_ c k).isEmpty && !loadAwaited c k then none else some k
    | _, _ => none

/-! ## A blocks (R345, R346) -/

/-- The requests of a task's A fetch. -/
def fetchReqs (k : Task) : List (Nat × Nat) :=
  match k.afmt with
  | .acc => []
  | .mem (.sx m) => (List.range ((k.rows + 1) / 2)).flatMap fun p => cutLines (k.aaddr + p * k.apitch) (SxFmt.blockBytes m)
  | .mem f => (List.range k.rows).flatMap fun r => cutLines (k.aaddr + r * k.apitch) (128 * SrcFmt.esize f)

def bufBytes (buf : Tab (Option Byte)) (a n : Nat) : List Byte := (List.range n).map fun i => (Tab.get none buf (a + i)).getD 0xFF

/-- The rows of a fetched block, with the flags of their encoding. -/
def fetchedRows (t : Team) (k : Task) : List SxRow × BitVec 6 :=
  match k.afmt with
  | .mem (.sx m) =>
    (((List.range ((k.rows + 1) / 2)).flatMap fun p => blockRows m (bufBytes k.buf (k.aaddr + p * k.apitch) (SxFmt.blockBytes m))).take k.rows, 0)
  | .mem f =>
    let rs := (List.range k.rows).map fun r =>
      denseRow .sx7 (denseElems f (bufBytes k.buf (k.aaddr + r * k.apitch) (128 * SrcFmt.esize f)))
    (rs.map (·.1), rs.foldl (fun g r => g ||| r.2) 0)
  | .acc =>
    let rs := (List.range k.rows).map fun r =>
      denseRow .sx7 ((List.range 128).map fun n => FF.decode .f32 (t.tileAt k.aacc r n).toNat)
    (rs.map (·.1), rs.foldl (fun g r => g ||| r.2) 0)

def hasBlock (c : Core) (id : Nat) : Bool := c.blocks.any fun b => b.id == id
def sharers (c : Core) (id : Nat) : List Task := c.ring.filter fun k => k.block == id

/-- Blocks that nobody holds any more go (R346). -/
def tidyBlocks (s : State) (core : Nat) : State :=
  s.modCore core fun c => { c with blocks := c.blocks.filter fun b =>
    !(sharers c b.id).isEmpty || (match s.team b.team with
      | some t => (match t.lastTask with | some p => p.block == b.id | none => false)
      | none => false) }

/-- Row-buffer entries in use. -/
def entriesUsed (c : Core) : Nat := c.blocks.length + (c.ring.filter fun k => k.st == .fetching).length

/-- Frees a held block none of whose tasks is incomplete when no entry is free. Log entry 43: DEDUCED. -/
def makeEntry (c : Core) : Core :=
  if entriesUsed c < 16 then c
  else
    match c.blocks.find? fun b => (sharers c b.id).isEmpty with
    | some b => { c with blocks := c.blocks.erase b }
    | none => c

/-! ## Dependences (R344) -/

def depStatus (t : Team) (tok : Nat) : Nat := match t.handle tok with | some h => h.status | none => 1
/-- Log entry 42: DEDUCED. -/
def depsDone (t : Team) (k : Task) : Bool := k.deps.all fun d => depStatus t d != 0
/-- The status of the first dependence that is not 1. Log entry 42: DEDUCED. -/
def depFailed (t : Team) (k : Task) : Option Nat := (k.deps.map (depStatus t)).find? fun x => x != 1

/-- Ends a command of the ring with a status and the flags that its handle's completion sets (R117, R361); its entry is not
kept. -/
def endTask (s : State) (core team token seq status : Nat) (bad : Bool) (flags : BitVec 6 := 0) : State :=
  let s1 := s.modCore core fun c => drainMacros { c with
    ring := c.ring.filter fun k => !(k.team == team && k.token == token)
    kcmds := c.kcmds.filter fun e => !(e.team == team && e.seq == seq)
    macros := c.macros.map fun m => (m.1, if m.2.running = some token ∧ m.2.team = team then { m.2 with running := none } else m.2) }
  tidyBlocks (modHandle s1 team token fun h =>
    { h with ready := true, final := status, bad := h.bad || bad, flags := flags ||| flagIf bad flagMerr }) core

/-! ## What commands do once R349 permits -/

/-- Element (row, column) of register i·q + j, lane L. -/
def rowAt (first i : Nat) : Nat := (first + i) % 32

/-- What a KREAD writes. -/
def readEff (t : Team) (p : Posy) (k dst first n : Nat) (lanes : List Nat) : Eff :=
  { vw := (List.range n).flatMap fun i => (List.range 2).flatMap fun j =>
      (lanes.filter p.holds).map fun L => (dst + 2 * i + j, L, t.tileAt k (rowAt first i) (64 * j + L))
    tags := tagAll dst (2 * n) (tagOf .f32) }

/-- A KREAD writes its registers, and the image where it holds them already (R438); none while the image cannot
be written. -/
def doRead (s : State) (team : Nat) (t : Team) (k uid dst first n : Nat) (lanes : List Nat) : State × Bool :=
  match posyOf s uid with
  | none => (s, true)
  | some (key, p) =>
    let x := readEff t p k dst first n lanes
    let late := fun (r : Nat) => p.hd.mode == .save && p.hd.late.contains r
    let w := imageWords p.hd.ctxbase (x.vw.filter fun y => late y.1) (x.tags.filter fun y => late y.1)
    let y := if w.isEmpty then (s, true) else ctxWrite s team w
    if y.2 then
      let q := p.apply x
      (y.1.setPosy key (some { q with hd := { q.hd with late := q.hd.late.filter fun r => !(x.tags.any fun z => z.1 == r) } }), true)
    else y

/-- KWRITE: one row, element by element; lanes keep their LFSRs. Log entry 34: DEDUCED. -/
def writeRow (add : Bool) (c : Ctl) (data : Tab (Option W32)) (t : Team) (k i r : Nat) (lf : Tab W32) : Team × Tab W32 × BitVec 6 :=
  (List.range 128).foldl (fun a col =>
    match Tab.get none data (128 * i + col) with
    | none => a
    | some x =>
      let at_ := 4096 * k + 128 * r + col
      if add then
        let y := opFadd .f32 c [(Tab.get 0 a.1.tiles at_).toNat, x.toNat] (Tab.get 0 a.2.1 (col % 64))
        ({ a.1 with tiles := Tab.set 0 a.1.tiles at_ (b32 y.pat) }, Tab.set 0 a.2.1 (col % 64) y.lfsr, a.2.2 ||| y.flags)
      else ({ a.1 with tiles := Tab.set 0 a.1.tiles at_ x }, a.2.1, a.2.2)) (t, lf, 0)

/-- Log entry 34: DEDUCED. -/
def doWrite (s : State) (team : Nat) (t : Team) (k first n : Nat) (add : Bool) (c : Ctl) (data : Tab (Option W32)) (uid : Nat)
    (lfsr : Tab W32) : State :=
  let p := posyOf s uid
  let lf0 := match p with | some (_, q) => q.lfsr | none => lfsr
  let r := (List.range n).foldl (fun (a : Team × Tab W32 × BitVec 6) i =>
    let x := writeRow add c data a.1 k i (rowAt first i) a.2.1
    (x.1, x.2.1, a.2.2 ||| x.2.2)) (t, lf0, 0)
  let s1 := s.setTeam team (some (r.1.raise r.2.2))
  match p with | some (key, q) => s1.setPosy key (some { q with lfsr := r.2.1 }) | none => s1

/-- The bytes of a KSTORE, with flags (R353, R354). -/
def storeForm (t : Team) (k first n : Nat) (fmt : Fmt) (sx : Option SxFmt) (ovfsat : Bool) : List Byte × BitVec 6 :=
  match sx with
  | some m =>
    let bs := (List.range (n / 2)).map fun i =>
      sxBlock m 0x3F80 ((List.range 2).flatMap fun j => (List.range 128).map fun c =>
        FF.decode .f32 (t.tileAt k (first + 2 * i + j) c).toNat)
    (bs.flatMap (·.1), bs.foldl (fun f b => f ||| b.2) 0)
  | none =>
    let es := (List.range n).flatMap fun i => (List.range 128).map fun c => t.tileAt k (first + i) c
    if fmt = .f32 then (es.flatMap fun x => leBytes 4 x.toNat, 0)
    else
      let F := flF fmt
      let rs := es.map fun x => FF.put F { ovfsat := ovfsat } 1 (FF.decode .f32 x.toNat)
      (rs.flatMap fun r => leBytes (F.bits / 8) r.pat, rs.foldl (fun f r => f ||| r.flags) 0)

def dropKreq (s : State) (team seq : Nat) : State :=
  s.modTeam team fun t => { t with reqs := t.reqs.filter fun r => r.kind != .kstore seq }

/-- A KTASK whose record may be read enters the ring, or is refused (R343). -/
def enterTask (s : State) (core : Nat) (e : KCmd) (t : Team) (token off : Nat) (hs : List Nat) : State :=
  let gone := fun (s : State) => s.modTeam e.team fun t => { t with lastTask := none }
  if scratchBad t off 64 then endTask (gone s) core e.team token e.seq 1 true
  else
    match parseTask (s.core core) t e.team token e.seq hs (scratchRead t off 64) with
    | none => endTask (gone s) core e.team token e.seq 5 false
    | some k =>
      let k := { k with todo := fetchReqs k }
      let s1 := s.modCore core fun c => drainMacros { c with
        ring := c.ring ++ [k]
        kcmds := c.kcmds.map fun x => if x.team = e.team ∧ x.seq = e.seq then
          { x with cmd := .task token k.acc (if k.afmt = .acc then some k.aacc else none) } else x }
      tidyBlocks (s1.modTeam e.team fun t => { t with lastTask := some k }) core

/-- One command of the kiln takes effect if its turn has come. Log entry 83: DEDUCED. -/
def actKcmd (s : State) (core : Nat) (e0 : KCmd) : State :=
  let c := s.core core
  match c.kcmds.find? fun e => e.team == e0.team && e.seq == e0.seq, s.team e0.team with
  | some e, some t =>
    match e.cmd with
    | .zero k =>
      if mayWrite c e.team e.seq k then
        dropKcmd (s.setTeam e.team (some { t with tiles := t.tiles.filter fun x => x.1 / 4096 != k })) core e.team e.seq
      else s
    | .read k uid dst first n lanes =>
      if mayRead c e.team e.seq k then
        let x := doRead s e.team t k uid dst first n lanes
        if x.2 then dropKcmd x.1 core e.team e.seq else x.1
      else s
    | .write k first n add rnd fctl data uid lf =>
      if mayWrite c e.team e.seq k then
        dropKcmd (doWrite s e.team t k first n add { ctlOf fctl rnd with ftz := false } data uid lf) core e.team e.seq
      else s
    | .store k off first n fmt sx ovf =>
      if e.entered && mayRead c e.team e.seq k then
        let x := storeForm t k first n fmt sx ovf
        let t' := scratchStore t (placed off x.1)
        dropKreq (dropKcmd (s.setTeam e.team (some (t'.raise x.2))) core e.team e.seq) e.team e.seq
      else s
    | .pend token off hs =>
      let before := c.kcmds.any fun x => x.team == e.team && decide (x.seq < e.seq) && match x.cmd with | .pend _ _ _ => true | _ => false
      if e.entered && !before then enterTask s core e t token off hs else s
    | _ => s
  | _, _ => s

/-- Every command of a core that may act does, in entry order. Log entry 83: DEDUCED. -/
def kilnSettle (s : State) (core : Nat) : State := (s.core core).kcmds.foldl (fun s e => actKcmd s core e) s

/-! ## Reads of the kiln (R345, R350) -/

inductive KGot where
  | wait
  | parked (s : State)
  | refused (s : State)
  | got (s : State) (bytes : List Byte) (bad : Bool)

/-- Reads one request of a load or a fetch. -/
def kilnRead (s : State) (t : Team) (core : Nat) (scr : Bool) (aborted : List Nat) (addr len : Nat) (owner : Nat → Owner) : KGot :=
  if aborted.contains addr then .got s (ones len) true
  else if scr then (if t.onCore then .got s (scratchRead t addr len) (scratchBad t addr len) else .wait)
  else if replayWaits s (dieOf core) fun o => o == owner addr then .wait
  else
    match engWalk s t core addr { r := true } with
    | .fail f =>
      let x := engPark s t core addr len (owner addr) false 1 [] f
      if x.2.isSome then .parked x.1 else .refused x.1
    | .leaf l =>
      match engRead s t core l addr len with
      | none => .wait
      | some (s1, bs, bad) => .got (tlbFill s1 t.part t.vd (some core) (dieOf core) addr l) bs bad

def putBuf (buf : Tab (Option Byte)) (addr : Nat) (bs : List Byte) : Tab (Option Byte) :=
  Tab.setAll none buf ((placed addr bs).map fun x => (x.1, some x.2))

/-- The next request that is not parked. -/
def nextReq (todo : List (Nat × Nat)) (parked : List Nat) : Option (Nat × Nat) := todo.find? fun x => !parked.contains x.1

/-! ## KLOAD (R340, R341) -/

def kloadSize (f : SrcFmt) (pitch : Nat) : Nat :=
  match f with
  | .sx m => 63 * pitch + SxFmt.blockBytes m
  | d => 127 * pitch + 128 * SrcFmt.esize d

/-- Address of a load's source: segment base and offset. -/
def kloadReqs (d : KDesc) : List (Nat × Nat) :=
  match d.sfmt with
  | .sx m => (List.range 64).flatMap fun j => cutLines (d.src + j * d.pitch) (SxFmt.blockBytes m)
  | f => (List.range 128).flatMap fun n => cutLines (d.src + n * d.pitch) (128 * SrcFmt.esize f)

def isReserved (c : Core) (m : Nat) : Bool := (c.macro_ m).resv.isSome
def takable (c : Core) : List Nat :=
  (List.range 16).filter fun m => ((c.macro_ m).st == .empty || (c.macro_ m).st == .freeing) && !isReserved c m

/-- Gives macros to a load: EMPTY ones load at once, FREEING ones are waited for. -/
def takeMacros (c : Core) (l : KLoad) (ms : List Nat) : Core :=
  ms.foldl (fun c m =>
    let x := c.macro_ m
    if x.st = .empty then c.setMacro m (loadingMacro l) else c.setMacro m { x with resv := some (l.team, l.token) }) c

def kloadNeed (o : KloadOps) : Need :=
  { type := o.a.cls == .s && o.b.cls == .s && o.d.cls == .k
    regs := [kUse .h o.d.n.toNat true, opdUse o.a 1 1 false, opdUse o.b 1 1 false], priv := segPriv o.sseg, full := true }

/-- The next entry number of a core's kiln. -/
def nextKseq (s : State) (core : Nat) : Nat := (s.core core).kseq

def addKcmd (c : Core) (e : KCmd) : Core := { c with kcmds := c.kcmds ++ [e], kseq := c.kseq + 1 }

def execKload (o : KloadOps) (s : State) : Out :=
  issue s (kloadNeed o) o.h fun e act =>
    let src := (e.f.sreg o.a.n.toNat).toNat
    let tag := (e.f.sreg o.b.n.toNat).toNat
    let g := e.t.seg o.sseg
    let al := match o.sfmt with | .sx _ => 8 | d => SrcFmt.esize d
    let c := s.core e.core
    let n := o.nmac.toNat + 1
    if !segOk g (src : Int) (kloadSize o.sfmt o.pitch.toNat) true false then trap s e .seg act
    else if src % al ≠ 0 then trap s e .align act
    else if e.p.privileged ∨ 2 ^ 16 ≤ tag then doneAtOnce s e (hNo o.d) .kload 5 o.h.len
    else if tagResident c e.p.team tag then doneAtOnce s e (hNo o.d) .kload 4 o.h.len
    else if (takable c).length < n then doneAtOnce s e (hNo o.d) .kload 5 o.h.len
    else
      let d : KDesc := { src := g.addr + src, sseg := o.sseg, sfmt := o.sfmt, mfmt := o.mfmt, pitch := o.pitch.toNat, nmac := n, tag := tag }
      let l : KLoad := { team := e.p.team, token := e.t.nextTok, seq := c.kseq, desc := d, macros := (takable c).take n, todo := kloadReqs d }
      engineCmd s (e.newHandle (hNo o.d) { kind := .kload }) (.kiln c.kseq) act o.h.len fun s =>
        s.modCore e.core fun c =>
          addKcmd { takeMacros c l l.macros with kloads := c.kloads ++ [l] }
            { team := e.p.team, seq := l.seq, cmd := .load l.token, entered := false }

/-- The columns of a macro from a load's bytes, with flags. -/
def loadColumns (l : KLoad) : List SxRow × BitVec 6 :=
  match l.desc.sfmt with
  | .sx m => ((List.range 64).flatMap fun j => blockRows m (bufBytes l.buf (l.desc.src + j * l.desc.pitch) (SxFmt.blockBytes m)), 0)
  | f =>
    let rs := (List.range 128).map fun n =>
      denseRow l.desc.mfmt (denseElems f (bufBytes l.buf (l.desc.src + n * l.desc.pitch) (128 * SrcFmt.esize f)))
    (rs.map (·.1), rs.foldl (fun g r => g ||| r.2) 0)

/-- A KFREE of a tag that waits for its load: the entry number. -/
def waitingFree (c : Core) (team tag : Nat) : Option Nat := (c.kcmds.find? fun e => e.team == team && e.cmd == .free tag).map (·.seq)

/-- The load is over: its macros are READY, or FREEING under a KFREE that waited. Its flags are set when its handle completes,
those of a reload now (R117, R361). -/
def finishLoad_ (s : State) (core : Nat) (l : KLoad) : State :=
  let x := loadColumns l
  let s1 := s.modCore core fun c =>
    let fr := waitingFree c l.team l.desc.tag
    let c1 := l.macros.foldl (fun c m =>
      c.setMacro m { loadingMacro l with
        st := if fr.isSome then .freeing else .ready, cols := x.1, freeSeq := fr.getD 0 }) c
    drainMacros { c1 with
      kloads := c.kloads.filter fun k => !(k.team == l.team && k.token == l.token && k.seq == l.seq)
      kcmds := c.kcmds.filter fun e => !(e.team == l.team && (e.seq == l.seq || e.cmd == .free l.desc.tag)) }
  let flags := x.2 ||| flagIf l.bad flagMerr
  if l.reload then flagTeam s1 l.team flags
  else modHandle s1 l.team l.token fun h => { h with ready := true, bad := h.bad || l.bad, flags := flags }

/-- A reload of a resume takes its macros once NMAC are EMPTY (R359). -/
def reloadTake (c : Core) (l : KLoad) : Core :=
  let free := (List.range 16).filter fun m => (c.macro_ m).st == .empty
  if l.desc.nmac ≤ free.length then
    let l' := { l with macros := free.take l.desc.nmac }
    { takeMacros c l' l'.macros with kloads := c.kloads.map fun k => if k = l then l' else k }
  else c

/-- KLOAD_COMPLETE: the load reads its next request, and when all are read it writes its macros. Log entry 41: DEDUCED. -/
def kloadStep (s : State) (core team token : Nat) : State :=
  let c := s.core core
  match c.kloads.find? (fun k => k.team == team && k.token == token), s.team team with
  | some l, some t =>
    let entered := l.reload || !c.kcmds.any fun e => e.team == team && e.seq == l.seq && !e.entered
    if l.macros.isEmpty then s.setCore core (reloadTake c l)
    else if !entered || l.macros.any (fun m => (c.macro_ m).st != .loading) || s.cycle < l.retry then s
    else
      match nextReq l.todo l.parked with
      | none => if l.todo.isEmpty then finishLoad_ s core l else s
      | some (a, n) =>
        match kilnRead s t core (l.desc.sseg == .scr) l.aborted a n (.kload team core token) with
        | .wait => s
        | .parked s1 => modKload s1 core team token fun k => { k with parked := a :: k.parked }
        | .refused s1 => modKload s1 core team token fun k => { k with retry := s.cycle + 256 }
        | .got s1 bs bad => modKload s1 core team token fun k =>
            { k with todo := k.todo.erase (a, n), buf := putBuf k.buf a bs, bad := k.bad || bad }
  | _, _ => s

def execKloadComplete (core team token : Nat) (s : State) : Out := .next (kilnSettle (kloadStep s core team token) core)

/-! ## KTASK, fetch, start, completion (R343 to R348) -/

def ringUsed (c : Core) : Nat :=
  c.ring.length + (c.kcmds.filter fun e => match e.cmd with | .pend _ _ _ => true | _ => false).length

def execKtask (o : MemOps) (s : State) : Out :=
  issue s { type := o.a.cls == .s && o.d.cls == .k, regs := [kUse .h o.d.n.toNat true, opdUse o.a 1 1 false], full := true } o.h fun e act =>
    let off := ((e.f.sreg o.a.n.toNat).toNat : Int) + memDisp o false
    let c := s.core e.core
    if !segOk e.t.scr off 64 true false then trap s e .seg act
    else if off.toNat % 64 ≠ 0 then trap s e .align act
    else if e.p.privileged then doneAtOnce s e (hNo o.d) .ktask 5 o.h.len
    else if 64 ≤ ringUsed c then .next s
    else
      let hs := (List.range 16).map fun i => (e.f.hreg i).toNat
      engineCmd s (e.newHandle (hNo o.d) { kind := .ktask }) (.kiln c.kseq) act o.h.len fun s =>
        s.modCore e.core fun c =>
          addKcmd c { team := e.p.team, seq := c.kseq, cmd := .pend e.t.nextTok off.toNat hs, entered := false }

/-- The task whose block a sharer uses waits for a dependence: the block is not fetched before (R345). -/
def ownerWaits (c : Core) (t : Team) (k : Task) : Bool :=
  c.ring.any fun x => x.team == k.team && x.block == k.block && !x.reuse && x.seq != k.seq && !depsDone t x

/-- May a task begin or go on with its fetch? -/
def fetchMay (c : Core) (t : Team) (k : Task) : Bool :=
  !c.held.contains k.team && depsDone t k && (depFailed t k).isNone && !ownerWaits c t k && !hasBlock c k.block &&
  !(c.ring.any fun x => x.block == k.block && x.seq != k.seq && x.team == k.team && x.st == .fetching) &&
  match k.afmt with
  | .acc => mayRead c k.team k.seq k.aacc
  | _ => !(earlier c k.team k.seq).any fun e => match e.cmd with | .store _ _ _ _ _ _ _ => true | _ => false

/-- The block is in its entry. -/
def blockIn (s : State) (core : Nat) (t : Team) (k : Task) : State :=
  let x := fetchedRows t k
  s.modCore core fun c => { c with
    blocks := c.blocks ++ [{ id := k.block, team := k.team, rows := x.1, mA := AFmt.width k.afmt, bad := k.bad, flags := x.2 }]
    ring := c.ring.map fun y => if y.team = k.team ∧ y.token = k.token then { y with st := .fetched, buf := [], todo := [] } else y }

/-- A_FETCH: a task takes a row-buffer entry and reads its next request; earlier tasks that could take the
entry take it first. Log entry 41: DEDUCED. -/
def fetchStep (s : State) (core team token : Nat) : State :=
  let c := s.core core
  match findTask c team token, s.team team with
  | some k, some t =>
    if k.st = .entered then
      let first := !(c.ring.any fun x => decide (x.seq < k.seq) && x.st == .entered &&
        match s.team x.team with | some u => fetchMay c u x | none => false)
      let c' := makeEntry c
      if fetchMay c t k && first && decide (entriesUsed c' < 16) then
        let s1 := modTask (s.setCore core c') core team token fun k => { k with st := .fetching }
        if k.afmt = .acc then blockIn s1 core t k else s1
      else s
    else if k.st = .fetching then
      if s.cycle < k.retry ∨ c.held.contains team then s
      else
        match nextReq k.todo k.parked with
        | none => if k.todo.isEmpty then blockIn s core t k else s
        | some (a, n) =>
          match kilnRead s t core (k.aseg == .scr) k.aborted a n (.afetch team core token) with
          | .wait => s
          | .parked s1 => modTask s1 core team token fun k => { k with parked := a :: k.parked }
          | .refused s1 => modTask s1 core team token fun k => { k with retry := s.cycle + 256 }
          | .got s1 bs bad => modTask s1 core team token fun k =>
              { k with todo := k.todo.erase (a, n), buf := putBuf k.buf a bs, bad := k.bad || bad }
    else s
  | _, _ => s

def execAFetch (core team token : Nat) (s : State) : Out := .next (kilnSettle (fetchStep s core team token) core)

/-- The macro on which a task may start now (R347). -/
def startOn (c : Core) (t : Team) (k : Task) : Option Nat :=
  if k.unstarted && k.st != .fetching && !c.held.contains k.team && depsDone t k && (depFailed t k).isNone &&
     mayWrite c k.team k.seq k.acc && hasBlock c k.block then
    (holders_ c k).find? fun m => (c.macro_ m).running.isNone
  else none

/-- A task that cannot run any more: the status it ends with (R344, R349 item 4). -/
def taskFails (c : Core) (t : Team) (k : Task) : Option Nat :=
  if !k.unstarted || c.held.contains k.team || !depsDone t k then none
  else
    match depFailed t k with
    | some x => some x
    | none => if (holders_ c k).isEmpty && !loadAwaited c k then some 5 else none

def unparkTask (s : State) (team token : Nat) : State :=
  unpark s fun o => match o with | .afetch t _ k _ => t == team && k == token | _ => false

/-- TASK_START: the oldest task that fails ends, else the oldest eligible one starts. -/
def taskStart (s : State) (core : Nat) : State :=
  let c := s.core core
  let of_ := fun (f : Team → Task → Option Nat) (k : Task) => (s.team k.team).bind fun t => (f t k).map fun x => (k, x)
  match c.ring.findSome? (of_ (taskFails c)) with
  | some (k, st) => endTask (unparkTask s k.team k.token) core k.team k.token k.seq st false
  | none =>
    match c.ring.findSome? (of_ (startOn c)) with
    | some (k, m) =>
      s.setCore core { c.setMacro m { c.macro_ m with running := some k.token } with
        ring := c.ring.map fun y =>
          if y.team = k.team ∧ y.token = k.token then { y with st := .started m (s.cycle + 32 * AFmt.width k.afmt) } else y }
    | none => s

def execTaskStart (core : Nat) (s : State) : Out := .next (kilnSettle (taskStart s core) core)

/-- The rows of the destination after a task, with flags. -/
def taskRows (t : Team) (k : Task) (b : ABlock) (x : Macro) : List (Nat × List W32) × BitVec 6 :=
  let mB := sxM x.desc.mfmt
  let rs := (List.range k.rows).map fun r =>
    let es := (List.range 128).map fun n =>
      elemTask b.mA mB (b.rows.getD r {}) (x.cols.getD n {}) (if k.mul then 0 else t.tileAt k.acc r n)
    (r, es.map (·.1), es.foldl (fun f e => f ||| e.2) (0 : BitVec 6))
  (rs.map fun r => (r.1, r.2.1), rs.foldl (fun f r => f ||| r.2.2) b.flags)

/-- The macros that a team holds are empty, once no task runs on them (R359, R360). -/
def emptyMacros (c : Core) (team : Nat) : Core :=
  drainMacros { c with macros := c.macros.map fun m =>
    (m.1, if m.2.team = team ∧ m.2.st ≠ .empty then { m.2 with st := .freeing, freeSeq := 0 } else m.2) }

/-- When the last started task of a team that is gone has ended, its macros are empty and its tiles unowned (R360). -/
def ghostEnd (s : State) (core team : Nat) : State :=
  s.modCore core fun c =>
    if c.ring.any fun k => k.team == team then c else { emptyMacros c team with ghosts := c.ghosts.filter fun g => g.1 != team }

/-- TASK_COMPLETE: a started task that has occupied its macro writes its tile; the results of a team that is
gone are discarded (R348, R360). Its flags are set when its handle completes (R117, R361). -/
def taskComplete (s : State) (core team token : Nat) : State :=
  let c := s.core core
  match findTask c team token with
  | none => s
  | some k =>
    match k.st with
    | .started m end_ =>
      if s.cycle < end_ then s
      else
        match s.team team, c.blocks.find? (fun b => b.id == k.block) with
        | some t, some b =>
          let x := taskRows t k b (c.macro_ m)
          let t' := x.1.foldl (fun t r => t.setTileRow k.acc r.1 r.2) t
          endTask (s.setTeam team (some t')) core team token k.seq 1 b.bad x.2
        | _, _ => ghostEnd (endTask s core team token k.seq 1 false) core team
    | _ => s

def execTaskComplete (core team token : Nat) (s : State) : Out := .next (kilnSettle (taskComplete s core team token) core)

/-! ## KZERO, KREAD, KWRITE, KSTORE (R351 to R354) -/

/-- A command that enters the kiln at issue. -/
def enterNow (s : State) (e : Env) (len : Len) (cmd : KCmdKind) : Out :=
  match commit s e len {} with
  | .next s1 => .next (kilnSettle (s1.modCore e.core fun c => addKcmd c { team := e.p.team, seq := c.kseq, cmd := cmd }) e.core)
  | r => r

def kNo (o : Opd) : Nat := o.n.toNat - 32

def kzeroNeed (o : Ops) : Need := { type := o.d.cls == .k, regs := [kUse .k o.d.n.toNat true], full := true }
def execKzero (o : Ops) (s : State) : Out := issue s (kzeroNeed o) o.h fun e _ => enterNow s e o.h.len (.zero (kNo o.d))

/-- The first row: an immediate, or s[B] mod 32. -/
def firstRow (e : Env) (b : SrcB) : Nat :=
  match b with | .imm i => (Imm.sext i).toNat % 32 | .reg r => (e.f.sreg r.n.toNat).toNat % 32
def rowB (b : SrcB) : Bool × List RegUse := match b with | .imm _ => (true, []) | .reg r => (r.cls == .s, [opdUse r 1 1 false])
def rowCount (o : Ops) : Nat := o.sub.toNat % 8 + 1

def kreadNeed (o : Ops) : Need :=
  { type := o.d.cls == .v && o.a.cls == .k && (rowB o.b).1
    regs := [opdUse o.d (2 * rowCount o) 1 true, kUse .k o.a.n.toNat false] ++ (rowB o.b).2 }

def execKread (o : Ops) (s : State) : Out :=
  issue s (kreadNeed o) o.h fun e act =>
    enterNow s e o.h.len (.read (kNo o.a) e.p.uid (dstOf e o.d) (firstRow e o.b) (rowCount o) act)

def kwriteNeed (o : Ops) : Need :=
  { type := o.d.cls == .k && o.a.cls == .v && (rowB o.b).1
    regs := [kUse .k o.d.n.toNat true, opdUse o.a (2 * rowCount o) 1 false] ++ (rowB o.b).2, full := true
    tags := [{ n := o.a.n.toNat, count := 2 * rowCount o, use := .f32 }] }

/-- The source words by row·128 + column; vacant lanes supply none. -/
def kwriteData (e : Env) (o : Ops) : Tab (Option W32) :=
  (List.range (rowCount o)).flatMap fun i => (List.range 128).filterMap fun col =>
    if e.p.holds (col % 64) then some (128 * i + col, some (b32 (e.p.readV (o.a.n.toNat + 2 * i + col / 64) (col % 64)))) else none

def execKwrite (o : Ops) (s : State) : Out :=
  issue s (kwriteNeed o) o.h fun e _ =>
    enterNow s e o.h.len (.write (kNo o.d) (firstRow e o.b) (rowCount o) (decide (8 ≤ o.sub.toNat)) o.rnd e.t.fctl (kwriteData e o) e.p.uid e.p.lfsr)

/-- Bytes of a KSTORE. -/
def kstoreBytes (o : MemOps) : Nat :=
  let n := (kstoreRows o.x10).2
  match o.sub.toNat with
  | 0 => n * (if o.fmt = .f32 then 512 else 128 * ((flF o.fmt).bits / 8))
  | 1 => n / 2 * SxFmt.blockBytes .sx2
  | 2 => n / 2 * SxFmt.blockBytes .sx4
  | _ => n / 2 * SxFmt.blockBytes .sx7

def kstoreForm (o : MemOps) : Option SxFmt := match o.sub.toNat with | 0 => none | 1 => some .sx2 | 2 => some .sx4 | _ => some .sx7

def kstoreNeed (o : MemOps) : Need :=
  { type := o.a.cls == .k && (match o.b with | .reg b => b.cls == .s | .imm _ => false)
    regs := kUse .k o.a.n.toNat false :: dataUse o 1, full := true }

def execKstore (o : MemOps) (s : State) : Out :=
  issue s (kstoreNeed o) o.h fun e act =>
    let b := match o.b with | .reg b => (e.f.sreg b.n.toNat).toNat | .imm _ => 0
    let off := (b : Int) + memDisp o false
    let len := kstoreBytes o
    let (first, n) := kstoreRows o.x10
    if !segOk e.t.scr off len false true then trap s e .seg act
    else if off.toNat % 8 ≠ 0 then trap s e .align act
    else
      let q := nextKseq s e.core
      let r : Req := { seq := e.t.nextSeq, kind := .kstore q, scratch := true, addr := off.toNat, size := len, fids := fidsOf e act
                       core := e.core, slot := e.slot }
      match commit s { e with t := pushReqs e.t [r] } o.h.len {} with
      | .next s1 => .next (s1.modCore e.core fun c =>
          addKcmd c { team := e.p.team, seq := q, entered := false
                      cmd := .store (kNo o.a) off.toNat first n o.fmt (kstoreForm o) (e.t.fctl.getLsbD 2) })
      | x => x

/-! ## KFREE and KSTAT (R355) -/

def tagB (e : Env) (b : SrcB) : Nat := match b with | .imm i => (Imm.sext i).toNat | .reg r => (e.f.sreg r.n.toNat).toNat

def freeTag (c : Core) (team tag : Nat) : Core :=
  let seq := c.kseq
  if 2 ^ 16 ≤ tag then { c with kseq := seq + 1 }
  else if (loadOf c team tag).isSome then
    (if (waitingFree c team tag).isSome then { c with kseq := seq + 1 } else addKcmd c { team := team, seq := seq, cmd := .free tag })
  else
    drainMacros { c with
      kseq := seq + 1
      macros := c.macros.map fun m =>
        (m.1, if m.2.team = team ∧ m.2.tag = tag ∧ m.2.st = .ready then { m.2 with st := .freeing, freeSeq := seq } else m.2) }

def execKfree (o : Ops) (s : State) : Out :=
  issue s { type := (rowB o.b).1, regs := (rowB o.b).2, full := true } o.h fun e _ =>
    match commit s e o.h.len {} with
    | .next s1 => .next (s1.modCore e.core fun c => freeTag c e.p.team (tagB e o.b))
    | r => r

def kstatVal (s : State) (e : Env) (o : Ops) : Nat :=
  let c := s.core e.core
  let mine := c.kcmds.filter fun x => x.team == e.p.team
  match o.sub.toNat with
  | 0 => (mine.filter fun x => match x.cmd with | .task _ _ _ | .pend _ _ _ => true | _ => false).length
  | 1 =>
    let tag := tagB e o.b
    let ms := (List.range 16).map c.macro_ |>.filter fun m => m.team == e.p.team && m.tag == tag
    (ms.filter fun m => m.st == .ready).length + (if (loadOf c e.p.team tag).isSome then 256 else 0) +
      (if ms.any (fun m => m.st == .freeing) || (waitingFree c e.p.team tag).isSome then 512 else 0)
  | 2 => ((List.range 16).filter fun m => (c.macro_ m).st == .empty).length
  | _ => maskOf ((List.range 32).filter fun k => mine.any fun x =>
      (match x.cmd with | .pend _ _ _ => false | _ => x.writes k) ||
      (match x.cmd with
       | .read j _ _ _ _ _ | .store j _ _ _ _ _ _ => j == k
       | .task _ _ (some src) => src == k
       | _ => false))

def execKstat (o : Ops) (s : State) : Out :=
  issue s { type := (o.d.cls == .s || o.d.cls == .v) && (o.sub != 1 || (rowB o.b).1)
            regs := opdUse o.d 1 1 true :: (if o.sub = 1 then (rowB o.b).2 else []), full := o.d.cls == .s } o.h fun e act =>
    let v := kstatVal s e o
    if o.d.cls = .s then commit s e o.h.len { sw := [(o.d.n.toNat, b64 v)] }
    else let r := dstOf e o.d; commit s e o.h.len { vw := act.map fun L => (r, L, b32 v), tags := [(r, 0)] }

/-! ## Cancellation (R357, R270) -/

/-- A KLOAD that is not complete: its macros empty, and tasks that waited for it are refused. -/
def cancelLoad (s : State) (core : Nat) (l : KLoad) : State :=
  let s1 := unpark s fun o => match o with | .kload t _ k _ => t == l.team && k == l.token | _ => false
  let s2 := s1.modCore core fun c =>
    let c1 := (List.range 16).foldl (fun c m =>
      let x := c.macro_ m
      if x.st = .loading ∧ x.team = l.team ∧ x.token = l.token then c.setMacro m {}
      else if x.resv = some (l.team, l.token) then c.setMacro m { x with resv := none } else c) c
    { c1 with
      kloads := c.kloads.erase l
      kcmds := c.kcmds.filter fun e => !(e.team == l.team && (e.seq == l.seq || e.cmd == .free l.desc.tag)) }
  let waiting := (s2.core core).ring.filter fun k => k.team == l.team && k.btag == l.desc.tag && decide (l.seq < k.seq) && k.unstarted
  let s3 := waiting.foldl (fun s k => endTask (unparkTask s k.team k.token) core k.team k.token k.seq 5 false) s2
  let s4 := s3.modTeam l.team fun t => { t with reqs := t.reqs.filter fun r => r.kind != .kiln l.seq }
  modHandle s4 l.team l.token fun h => { h with ready := true, cancelled := true }

/-- A KTASK that has not started. -/
def cancelTask (s : State) (core team token : Nat) : State :=
  let c := s.core core
  let seq : Option Nat := match findTask c team token with
    | some k => if k.unstarted then some k.seq else none
    | none => (c.kcmds.find? fun (e : KCmd) => e.team == team && match e.cmd with | .pend tok _ _ => tok == token | _ => false).map (·.seq)
  match seq with
  | none => s
  | some q =>
    let s1 := endTask (unparkTask s team token) core team token q 1 false
    let s2 := s1.modTeam team fun t => { t with reqs := t.reqs.filter fun r => r.kind != .kiln q }
    modHandle s2 team token fun h => { h with cancelled := true }

/-- A LAUNCH that the queue engine has not accepted (R329). -/
def cancelAppend (s : State) (team token : Nat) : State :=
  match s.team team with
  | some t =>
    if t.reqs.any fun r => r.kind == .append token then
      modHandle (s.modTeam team fun t => { t with reqs := t.reqs.filter fun r => r.kind != .append token }) team token
        fun h => { h with ready := true, cancelled := true }
    else s
  | none => s

/-- HCANCEL (R270). A call that SYSC has written stays with the service. -/
def cancelHandle (s : State) (core team token : Nat) (h : HandleSt) : State :=
  if h.status ≠ 0 ∨ h.ready then s
  else
    match h.kind with
    | .copy =>
      if copyOpen s core team token then cancelCopy (modHandle s team token fun h => { h with cancelled := true }) core team token else s
    | .kload =>
      match (s.core core).kloads.find? fun k => k.team == team && k.token == token && !k.reload with
      | some l => kilnSettle (cancelLoad s core l) core
      | none => s
    | .ktask => kilnSettle (cancelTask s core team token) core
    | .launch => cancelAppend s team token
    | .sysc => s

def execHcancel (o : Ops) (s : State) : Out :=
  issue s { type := o.a.cls == .k, regs := [kUse .h o.a.n.toNat false], full := true } o.h fun e act =>
    match handleOf e o with
    | none => trap s e .handle act
    | some (tok, h) =>
      match commit s e o.h.len {} with
      | .next s1 => .next (cancelHandle s1 e.core e.p.team tok h)
      | r => r

/-! ## Hold, save and end of a team (R358 to R360) -/

/-- The kiln holds a team: it starts none of its tasks and frees the blocks fetched for unstarted ones. -/
def kilnHold (s : State) (core team : Nat) : State :=
  let s1 := unpark s fun o => match o with | .afetch t _ _ _ => t == team | _ => false
  let s2 := s1.modCore core fun c =>
    let ring := c.ring.map fun k =>
      if k.team = team ∧ k.unstarted then { k with st := .entered, todo := fetchReqs k, buf := [], parked := [], aborted := [], bad := false } else k
    { c with
      held := if c.held.contains team then c.held else c.held ++ [team]
      ring := ring
      blocks := c.blocks.filter fun b => b.team != team || ring.any fun k => k.block == b.id && !k.unstarted }
  kilnSettle s2 core

/-- May the save of a held team end: its commands are entered or refused, its loads complete, a resume's reload that has its
macros among them, its started tasks and tile commands done? -/
def kilnQuiet (s : State) (core team : Nat) : Bool :=
  let c := s.core core
  !c.kloads.any (fun l => l.team == team && !(l.reload && l.macros.isEmpty)) &&
  c.kcmds.all fun e => e.team != team ||
    match e.cmd with
    | .task tok _ _ => (match findTask c team tok with | some k => k.unstarted | none => false)
    | _ => false

/-- Takes a team's kiln work off the core: started tasks run to their end with their results discarded, and until then the
team's macros and tiles stay (R360). -/
def kilnDrop (s : State) (core team : Nat) : State :=
  let s1 := unpark s fun o => match o with
    | .afetch t _ _ _ | .kload t _ _ _ => t == team
    | _ => false
  s1.modCore core fun c =>
    let ring := c.ring.filter fun k => k.team != team || !k.unstarted
    let tiles := match s.team team with | some t => t.tileNos | none => []
    let c1 := { c with
      ring := ring
      kcmds := c.kcmds.filter fun e => e.team != team
      kloads := c.kloads.filter fun l => l.team != team
      held := c.held.erase team
      blocks := c.blocks.filter fun b => b.team != team || ring.any fun k => k.block == b.id
      macros := c.macros.map fun m =>
        let resv := match m.2.resv with | some (t, _) => if t = team then none else m.2.resv | none => none
        (m.1, { m.2 with resv := resv }) }
    if ring.any fun k => k.team == team then { drainMacros c1 with ghosts := c1.ghosts ++ [(team, tiles)] } else emptyMacros c1 team

end Sys2Proof.Machine
end

