-- ==== Sys2Proof/Machine/Counters.lean ====
section
/-!
DEFINITION. Counters, 0xB0 to 0xB7 (R403 to R418): barriers, signals, landing counters, the timebase, the flag
word; and the release that a waiting instruction makes before it takes effect (R293, R284).
-/
namespace Sys2Proof.Machine

/-! ## Releases of waiting instructions -/

def waitHere (s : State) (e : Env) : Out := .next (s.setPosy e.key (some (e.p.block s.cycle)))

/-- Clause 1 of R284, a parked request included: nothing older of the posy's is left to perform. A TRET, marked
by `nr`, waits for stores only, and not for parked ones (R440, R354). A LAUNCH, marked by `strict`, waits for every parked request
(R329, R301). -/
def releaseClear (s : State) (t : Team) (r : Req) : Bool :=
  if r.nr then !((olderReqs t r).any fun q => (q.kind == .store || q.kind.isKstore) && !performedReq q && !parkedReq q)
  else
    !((olderReqs t r).any fun q =>
      q.kind == .fence || (r.strict && (parkedReq q || refusedReq q)) ||
      ((q.kind.isMem || q.kind.isKstore) && meaningful (orderOf s t q).1 && !performedReq q))

/-- The release request of a posy's instruction at its PC. -/
def ownRelease (e : Env) : Option Req :=
  e.t.reqs.find? fun r => r.kind == .rel_ && r.core == e.core && r.slot == e.slot && r.addr == e.p.pc

/-- The posy stays at its instruction; `hold` says that this is a waiting instruction of R50. -/
def stayHere (hold : Bool) (s : State) (e : Env) : Out := if hold then waitHere s e else .next s

/-- Runs a body once a release at a width holds: at once, or when the posy's request for it has performed. -/
def releaseThenBy (soft strict hold : Bool) (s : State) (e : Env) (act : List Nat) (w : Width) (body : State → Env → Out) : Out :=
  match ownRelease e with
  | some r =>
    if performedReq r then
      let e' := { e with t := e.t.dropWaits e.core e.slot }
      body (e'.put s) e'
    else stayHere hold s e
  | none =>
    let r : Req := { seq := e.t.nextSeq, kind := .rel_, addr := e.p.pc, fids := fidsOf e act, core := e.core, slot := e.slot, width := w, nr := soft, strict := strict }
    if releaseClear s e.t r && (releaseSnap s e.core w).isEmpty then body s e
    else stayHere hold (s.setTeam e.p.team (some (pushReqs e.t [r]))) { e with t := pushReqs e.t [r] }

def releaseThen (hold : Bool) (s : State) (e : Env) (act : List Nat) (w : Width) (body : State → Env → Out) : Out :=
  releaseThenBy false false hold s e act w body

/-- The release of a waiting instruction at the head of its queue (R284). -/
def stepRelease (s : State) (tid : Nat) (t : Team) (r : Req) : State :=
  if !releaseClear s t r then s
  else
    match r.snap with
    | none =>
      let x := releaseSnap s r.core r.width
      modReq s tid r fun q => { q with snap := some x, stage := if x.isEmpty then .replied else q.stage }
    | some [] => modReq s tid r fun q => { q with stage := .replied }
    | some _ => s

/-! ## Barriers (R404 to R411) -/

/-- A barrier's state. -/
structure Bar where
  phase : Nat
  exp : Nat
  arr : Nat
deriving DecidableEq, Repr

def Bar.ofWord (w : BitVec 64) : Bar := { phase := field w 40 24, exp := field w 20 20, arr := field w 0 20 }
def Bar.word (b : Bar) : BitVec 64 := b64 (b.phase * 2 ^ 40 + b.exp * 2 ^ 20 + b.arr)

/-- The completions of R406: one each time ARR reaches EXP. -/
def Bar.settle (b : Bar) : Bar :=
  if b.exp = 0 then b else { b with arr := b.arr % b.exp, phase := (b.phase + b.arr / b.exp) % 2 ^ 24 }

/-- R406 for n arrivals; `expv` is the count that EXPV offers. -/
def Bar.arrive (b : Bar) (expv : Option Nat) (drop : Bool) (n : Nat) : Bar :=
  let b1 := match expv with | some v => if b.exp = 0 ∧ v ≠ 0 then { b with exp := v } else b | none => b
  Bar.settle (if drop then { b1 with exp := b1.exp - n } else { b1 with arr := min (b1.arr + n) (2 ^ 20 - 1) })

/-- The width of a level. -/
def levelWidth (l : Nat) : Width := match l with | 0 => .core | 1 => .quad | 2 => .die | _ => .dev
/-- Where a barrier of a level above CORE lies in its VD. -/
def barKey (core l b : Nat) : Nat := l * 4096 + (match l with | 1 => quadOf core | 2 => dieOf core | _ => 0) * 16 + b

def barGet (s : State) (e : Env) (l b : Nat) : Bar :=
  if l = 0 then Bar.ofWord (Tab.get 0 (s.core e.core).bars b)
  else match s.vd e.t.part e.t.vd with
    | some v => Bar.ofWord (Tab.get 0 v.bars (barKey e.core l b))
    | none => Bar.ofWord 0

def barSet (s : State) (e : Env) (l b : Nat) (x : Bar) : State :=
  if l = 0 then s.modCore e.core fun c => { c with bars := Tab.set 0 c.bars b (Bar.word x) }
  else s.modVd e.t.part e.t.vd fun v => { v with bars := Tab.set 0 v.bars (barKey e.core l b) (Bar.word x) }

/-- A level above the launch's CORES level (R64, R410). -/
def barLevelBad (s : State) (t : Team) (l : Nat) : Bool :=
  decide (0 < l) && (match s.launch t.lid with | some x => decide (x.r.cores < l + 1) | none => true)

/-- The trap of an armed flag (R410). -/
def armedTrap (t : Team) : Option Trap :=
  if t.flags &&& t.arm = 0 then none else if t.flags &&& t.arm &&& flagMerr ≠ 0 then some .merr else some .saturate

/-- s[B] when EXPV is set; a value outside 1 to 2^20 − 1 is ignored (R406). -/
def expvOf (e : Env) (o : Ops) : Option Nat :=
  let v := match o.b with | .reg b => (e.f.sreg b.n.toNat).toNat | .imm _ => 0
  if barExpv o.x10 && decide (v < 2 ^ 20) then some v else none

def barB (o : Ops) : List RegUse := match o.b with | .reg b => [opdUse b 1 1 false] | .imm _ => []

/-- Tokens of the active lanes. -/
def tokenEff (e : Env) (o : Ops) (act : List Nat) (phase : Nat) : Eff :=
  let r := dstOf e o.d
  { vw := act.map fun L => (r, L, b32 phase), tags := [(r, 0)] }

/-- The arrival of the active lanes: the barrier after it, and the writes. R405 writes V and its tag where the table of
R150 has a dash: the instruction's own rule is followed, here and wherever the two differ. Log entry 100: DEDUCED. -/
def arrivalEff (s : State) (e : Env) (o : Ops) (act : List Nat) (token : Bool) : State × Eff :=
  let l := barLevel o.x10
  let b := barGet s e l (barNum o.x10)
  (barSet s e l (barNum o.x10) (b.arrive (expvOf e o) (barDrop o.x10) act.length),
   if token && !barDrop o.x10 then tokenEff e o act b.phase else {})

def arriveNeed (o : Ops) : Need :=
  { type := o.d == {} || o.d.cls == .v, regs := (if o.d = {} then [] else [opdUse o.d 1 1 true]) ++ barB o }

/-- R410 before an arrival. -/
def arriveChecks (s : State) (e : Env) (o : Ops) : Option Trap :=
  if barLevelBad s e.t (barLevel o.x10) then some .xblock else armedTrap e.t

def execBarArrive (o : Ops) (s : State) : Out :=
  issue s (arriveNeed o) o.h fun e act =>
    match arriveChecks s e o with
    | some t => trap s e t act
    | none =>
      if act.isEmpty then commit s e o.h.len {}
      else releaseThen false s e act (levelWidth (barLevel o.x10)) fun s e =>
        let x := arrivalEff s e o act (o.d != {})
        commit x.1 e o.h.len x.2

/-- Does a lane still hold the token of the current phase? -/
def tokenWaits (s : State) (e : Env) (o : Ops) (act : List Nat) (tok : Nat → Nat) : Bool :=
  let b := barGet s e (barLevel o.x10) (barNum o.x10)
  act.any fun L => tok L % 2 ^ 24 == b.phase

def waitTok (e : Env) (a : Opd) (L : Nat) : Nat :=
  if a.cls = .v then e.p.readV a.n.toNat L else (e.f.sreg a.n.toNat).toNat

def execBarWait (o : Ops) (s : State) : Out :=
  issue s { type := o.a.cls == .s || o.a.cls == .v, regs := [opdUse o.a 1 1 false] } o.h fun e act =>
    if barLevelBad s e.t (barLevel o.x10) then trap s e .xblock act
    else if tokenWaits s e o act (waitTok e o.a) then waitHere s e
    else commit s e o.h.len {}

def syncNeed (o : Ops) : Need := { type := o.d.cls == .v, regs := opdUse o.d 1 1 true :: barB o }

/-- The waiting phase of a SYNC: its token lies in D. -/
def syncWait (s : State) (e : Env) (o : Ops) (act : List Nat) : Out :=
  if tokenWaits s e o act (e.p.readV o.d.n.toNat) then waitHere s e else commit s e o.h.len {}

def execBarSync (o : Ops) (s : State) : Out :=
  issue s (syncNeed o) o.h fun e act =>
    if barLevelBad s e.t (barLevel o.x10) then trap s e .xblock act
    else if e.p.phase then syncWait s e o act
    else
      match armedTrap e.t with
      | some t => trap s e t act
      | none =>
        if act.isEmpty then commit s e o.h.len {}
        else releaseThen true s e act (levelWidth (barLevel o.x10)) fun s e =>
          let x := arrivalEff s e o act true
          let e1 := e.apply x.2
          let e2 := { e1 with p := { e1.p with phase := true } }
          syncWait (e2.put x.1) e2 o act

def queryNeed (o : Ops) : Need :=
  { type := o.d.cls == .s || o.d.cls == .v, regs := [opdUse o.d 2 2 true], full := o.d.cls == .s }

def execBarQuery (o : Ops) (s : State) : Out :=
  issue s (queryNeed o) o.h fun e act =>
    if barLevelBad s e.t (barLevel o.x10) then trap s e .xblock act
    else
      let w := Bar.word (barGet s e (barLevel o.x10) (barNum o.x10))
      if o.d.cls = .s then commit s e o.h.len { sw := [(o.d.n.toNat, w)] }
      else
        let r := dstOf e o.d
        commit s e o.h.len { vw := act.flatMap fun L => vWrites true r L w.toNat, tags := [(r, 0), (r + 1, 0)] }

/-! ## Signals (R412, R413) -/

/-- s[B] or the immediate of a signal or landing counter, as 64 bits. -/
def sigB (e : Env) (b : SrcB) : BitVec 64 := match b with | .imm i => Imm.sext i | .reg r => e.f.sreg r.n.toNat
def sigBOk (b : SrcB) : Bool := match b with | .imm _ => true | .reg r => r.cls == .s
def sigBUse (b : SrcB) : List RegUse := match b with | .imm _ => [] | .reg r => [opdUse r 1 1 false]

def sigaddNeed (o : MemOps) : Need :=
  { type := o.a.cls == .s && sigBOk o.b, regs := addrUse o.a :: sigBUse o.b, priv := segPriv o.seg }

/-- The request of a SIGADD: ATOM ADD of I64 with NR, as a release. -/
def sigaddReq (e : Env) (o : MemOps) (act : List Nat) (addr : Nat) : Req :=
  let v := sigB e o.b
  { baseReq e o .atomic with op := 0, fmt := .i64, nr := true, rel := true, size := 8, addr := addr, lanes := act
                             fids := fidsOf e act
                             opnds := [{ lane := act.headD 0, x := if o.sub = 1 then v * b64 act.length else v }] }

def execSigadd (o : MemOps) (s : State) : Out :=
  issue s (sigaddNeed o) o.h fun e act =>
    match memAddrs e o { size := 8, r := true, w := true, align := 8, dhi := false } act with
    | .error t => trap s e t act
    | .ok as =>
      match as with
      | [] => commit s e o.h.len {}
      | (_, a) :: _ => sendReqs s e o.h.len [sigaddReq e o act a] none 0

/-- The comparison of a SIGWAIT. -/
def sigMet (sub : BitVec 4) (v b : Int) : Bool :=
  match sub.toNat with
  | 0 => decide (v ≤ b) | 1 => decide (v < b) | 2 => decide (v = b) | 3 => decide (v ≠ b) | 4 => decide (b ≤ v)
  | _ => decide (b < v)

def sigwaitNeed (o : MemOps) : Need :=
  { type := o.a.cls == .s && sigBOk o.b && (o.d == {} || o.d.cls == .v)
    regs := (if o.d = {} then [] else [opdUse o.d 2 2 true]) ++ addrUse o.a :: sigBUse o.b, priv := segPriv o.seg }

/-- The newest signal read of the posy. -/
def ownSig (e : Env) : Option Req :=
  (e.t.reqs.filter fun r => r.kind == .sig && r.core == e.core && r.slot == e.slot).getLast?

/-- Signal reads of the posy that are answered go. -/
def Team.dropSigs (t : Team) (core slot : Nat) : Team :=
  { t with reqs := t.reqs.filter fun r => !(r.kind == .sig && r.core == core && r.slot == slot && r.landed) }

/-- Log entry 55: DEDUCED. -/
def sigRead (s : State) (e : Env) (o : MemOps) (act : List Nat) (addr : Nat) : Out :=
  let r := { baseReq e o .sig with acq := true, addr := addr, size := 8, lanes := act, fids := fidsOf e act }
  let t := pushReqs e.t [r]
  .next ((s.setTeam e.p.team (some t)).setPosy e.key (some { e.p.block s.cycle with phase := true, again := true }))

/-- What an answered read writes once it satisfies the wait. -/
def sigEff (e : Env) (o : MemOps) (act : List Nat) (v : Nat) : Eff :=
  let d := dstOf e o.d
  { vw := if o.d = {} then [] else act.flatMap fun L => vWrites true d L v
    tags := if o.d = {} then [] else [(d, 0), (d + 1, 0)] }

/-- Log entry 55: DEDUCED. -/
def execSigwait (o : MemOps) (s : State) : Out :=
  issue s (sigwaitNeed o) o.h fun e act =>
    match memAddrs e o { size := 8, r := true, align := 8, dhi := false } act with
    | .error t => trap s e t act
    | .ok as =>
      match as with
      | [] => commit s e o.h.len { tags := if o.d = {} then [] else tagAll (dstOf e o.d) 2 0 }
      | (_, a) :: _ =>
        if !e.p.phase then sigRead s e o act a
        else
          match ownSig e with
          | none => sigRead s e o act a
          | some r =>
            if !r.landed then waitHere s e
            else
              let v : Nat := if r.merr then 2 ^ 64 - 1 else leNat (r.reply.map (·.2))
              let e1 := { e with t := e.t.dropSigs e.core e.slot }
              if sigMet o.sub (b64 v).toInt (sigB e o.b).toInt then commit s e1 o.h.len (sigEff e o act v)
              else if r.stale then sigRead s e1 o act a
              else waitHere s e

/-! ## Landing counters (R414) -/

def ctwaitNeed (o : MemOps) : Need :=
  { type := o.a.cls == .s && sigBOk o.b, regs := addrUse o.a :: sigBUse o.b }

/-- Does something older hold the read of a counter (R280, R283, R285)? -/
def counterHeld (s : State) (e : Env) (o : MemOps) (act : List Nat) (a : Nat) : Bool :=
  match verdict s e.t { baseReq e o .load with addr := a, size := 8, fids := fidsOf e act } with
  | .go _ _ => false
  | _ => true

def execCtwait (o : MemOps) (s : State) : Out :=
  issue s (ctwaitNeed o) o.h fun e act =>
    match memAddrs e o { size := 8, r := true, align := 8, dhi := false } act with
    | .error t => trap s e t act
    | .ok as =>
      match as with
      | [] => commit s e o.h.len {}
      | (_, a) :: _ =>
        if counterHeld s e o act a then waitHere s e
        else if scratchBad e.t a 8 then commit s e o.h.len { flags := flagMerr }
        else if (sigB e o.b).toNat ≤ leNat (scratchRead e.t a 8) then commit s e o.h.len {}
        else waitHere s e

/-! ## Time (R415) -/

/-- A posy in its handler runs until the budget is out (R420, R430). -/
def handlerRuns (s : State) (e : Env) : Bool :=
  e.p.privileged && !(match e.t.save with | .saving _ _ => budgetLeft s e.t == 0 | _ => false)

def twaitNeed (o : Ops) : Need := { type := sigBOk o.b, regs := sigBUse o.b }

/-- The tick of the timebase that ends the wait: for `.abs` the one of the present turn of the 64-bit TIME. A relative
wait keeps the one taken when it began. -/
def twaitEnd (s : State) (e : Env) (o : Ops) : Nat :=
  if o.sub = 0 then s.time / 2 ^ 64 * 2 ^ 64 + (sigB e o.b).toNat
  else match e.p.wait_ with
    | some w => w.1
    | none => s.time + (sigB e o.b).toInt.toNat

def execTwait (o : Ops) (s : State) : Out :=
  issue s (twaitNeed o) o.h fun e act =>
    let d := twaitEnd s e o
    if act.isEmpty || decide (d ≤ s.time) then commit s e o.h.len {}
    else .next (s.setPosy e.key (some { e.p.block s.cycle with wait_ := some (d, e.p.pc + 4 * Len.words o.h.len) }))

/-- TWAIT_EXPIRY: the timebase has reached the end of a posy's TWAIT, and the posy goes on: one of a running team, or one in
its handler, where TWAIT acts as elsewhere (R429). -/
def execTwaitExpiry (core slot : Nat) (s : State) : Out :=
  match envAt s (posyKey core slot) with
  | some e =>
    match e.p.wait_ with
    | some w => if w.1 ≤ s.time ∧ e.t.stopped.isNone ∧ (e.t.running || handlerRuns s e) then .next (s.setPosy e.key (some (e.p.goto w.2))) else .next s
    | none => .next s
  | none => .next s

/-! ## Flags (R416) -/

def flagrNeed (o : Ops) : Need :=
  { type := o.d.cls == .s || o.d.cls == .v, regs := [opdUse o.d 1 1 true], full := o.d.cls == .s }

def execFlagr (o : Ops) (s : State) : Out :=
  issue s (flagrNeed o) o.h fun e act =>
    if o.d.cls = .s then commit s e o.h.len { sw := [(o.d.n.toNat, b64 (flagWord e.t))] }
    else
      let r := dstOf e o.d
      commit s e o.h.len { vw := act.map fun L => (r, L, b32 (flagWord e.t)), tags := [(r, 0)] }

def flagmNeed (o : Ops) : Need := { type := sigBOk o.b, regs := sigBUse o.b }
def flagMask (e : Env) (o : Ops) : BitVec 6 := (sigB e o.b).setWidth 6

/-- A clear removes only the sets of earlier cycles (R117). -/
def execFlagc (o : Ops) (s : State) : Out :=
  issue s (flagmNeed o) o.h fun e act =>
    if act.isEmpty then commit s e o.h.len {}
    else commit s { e with t := { e.t with flags := e.t.flags &&& ~~~(flagMask e o &&& ~~~e.t.flagsNew) } } o.h.len {}

def execFlaga (o : Ops) (s : State) : Out :=
  issue s (flagmNeed o) o.h fun e act =>
    if act.isEmpty then commit s e o.h.len {}
    else commit s { e with t := { e.t with arm := flagMask e o } } o.h.len {}

end Sys2Proof.Machine
end

