-- ==== Sys2Proof/Machine/Queues.lean ====
section
/-!
DEFINITION. The queue engine (R308 to R320, R326 to R328): its accesses, tails, dispatch, dependencies, signals,
completion, the watchdog; and the end of a launch's teams (R58, R304, R360).
-/
namespace Sys2Proof.Machine

/-! ## Accesses of the queue engine, at SYS width and homed -/

/-- The die through which the queue engine and the context engine of a partition walk and park. -/
def engineDie (s : State) (part : Nat) : Nat := (partDies s part).headD 0

/-- The X-die's links are never closed (R27). -/
def qReaches (s : State) (part pa : Nat) : Bool :=
  match paKind pa with
  | .hbm _ | .dev => true
  | .host => portUp s pa
  | .peer p => s.xd.peerUp.getLsbD p && partOfPort s p == part
  | .none => false

/-- Log entry 56: DEDUCED. -/
def qWalk (s : State) (part vd va : Nat) (need : Rights) : Walked := translate s part vd none (engineDie s part) va need false

/-- What a read gives; a line that is merging makes it wait (R287). -/
inductive QGot where
  | wait
  | fail (f : Fail) (va : Nat)
  | bytes (bs : List Byte) (bad : Bool)

/-- Bytes of one line at a physical address, with poison. -/
def qBytes (s : State) (part pa n : Nat) : List Byte × Bool :=
  if !qReaches s part pa then (ones n, true)
  else
    match paKind pa with
    | .dev => (devLoad s pa n, false)
    | .peer _ => ((List.range n).map fun i => Config.peerByte s.fresh (pa + i), false)
    | _ => (s.readBytes pa n, (List.range n).any fun i => s.poisoned (pa + i))

/-- Reads line by line. -/
def qReadLines (s : State) (part vd : Nat) : List (Nat × Nat) → QGot
  | [] => .bytes [] false
  | (va, n) :: t =>
    match qWalk s part vd va { r := true } with
    | .fail f => .fail f va
    | .leaf l =>
      if isMerging s (lineOf (l.pa_ va)) none then .wait
      else
        let x := qBytes s part (l.pa_ va) n
        match qReadLines s part vd t with
        | .bytes bs bad => .bytes (x.1 ++ bs) (x.2 || bad)
        | g => g

def qRead (s : State) (part vd va n : Nat) : QGot := qReadLines s part vd (cutLines va n)

/-- Values that a peer's memory answers are fresh at each step of the engine. -/
def State.nextFresh (s : State) : State := { s with fresh := s.fresh + 1 }

/-- Stores bytes of one line through a leaf; none while the line is merging. A refused store is dropped. -/
def qStore (s : State) (part vd : Nat) (l : Leaf) (va : Nat) (bs : List Byte) : Option State :=
  let pa := l.pa_ va
  if !qReaches s part pa then some s
  else
    match paKind pa with
    | .dev => some (devStore s (placed pa bs)).1
    | .peer _ | .none => some s
    | _ =>
      if isMerging s (lineOf pa) none then none
      else (if l.cls = .bv then recallFor s part vd va pa bs.length else some s).map fun s1 => sysWrite s1 (placed pa bs)

/-- Writes bytes at a virtual address, or nothing: none where a page cannot be written yet. Log entry 56: DEDUCED. -/
def qWrite (s : State) (part vd va : Nat) (bs : List Byte) : Option State :=
  (cutLines va bs.length).foldlM (fun s x =>
    match qWalk s part vd x.1 { w := true } with
    | .fail _ => none
    | .leaf l => qStore s part vd l x.1 ((bs.drop (x.1 - va)).take x.2)) s

/-- Is the line of an address merging? -/
def qBusy (s : State) (part vd va : Nat) : Bool :=
  match qWalk s part vd va { w := true } with | .leaf l => isMerging s (lineOf (l.pa_ va)) none | .fail _ => false

/-- An atomic on a signal (R316, R320): `f` gives the new value. A NOATOM page, a no-atomic host range, a
poisoned word and a refused range leave it as it is; none where it cannot be reached yet. Log entry 57: DEDUCED. -/
def qSignal (s : State) (part vd va : Nat) (f : Nat → Nat) : Option State :=
  match qWalk s part vd va { r := true, w := true } with
  | .fail _ => none
  | .leaf l =>
    let pa := l.pa_ va
    match paKind pa with
    | .hbm _ | .host =>
      if l.noatom || !qReaches s part pa || (paKind pa == .host && inHna s pa) then some s
      else if isMerging s (lineOf pa) none then none
      else (recallFor s part vd va pa 8).map fun s1 =>
        if s1.poisoned pa then s1 else sysWrite64 s1 pa (f (s1.read64 pa) % 2 ^ 64)
    | _ => some s

/-- The error value of a code (R320). -/
def errorValue (code : Nat) : Nat := 2 ^ 63 + code
def isErrorValue (v : Nat) : Bool := v / 256 == 2 ^ 55

/-- Posts a failure to a completion signal (R320); none while the signal cannot be reached. -/
def postError (s : State) (part vd csig code : Nat) : Option State :=
  if csig = 0 ∨ csig % 8 ≠ 0 then some s else qSignal s part vd csig fun _ => errorValue code

/-- CSIG of a record in the ring; 0 where the record is poisoned, none while it cannot be read. -/
def ringCsig (s : State) (x : Queue) (n : Nat) : Option Nat :=
  match qRead s x.part x.vd (x.ring + 128 * (n % 2 ^ x.logsize) + 40) 8 with
  | .bytes bs bad => some (if bad then 0 else leNat bs)
  | _ => none

/-- Are writes of a dispatch that has begun still to be acknowledged? -/
def sendBusy (s : State) (x : Queue) : Bool :=
  match x.hs with | .sent _ _ _ _ lines => lines.any fun l => isMerging s l none | _ => false

/-- What a post to a signal waits for: it is a release after the engine's writes of the head word, before which LID and the capture
entry are acknowledged, and of a dispatch that has begun (R320), and every dropped request has left the park store (R327). -/
def postReady (s : State) (x : Queue) : Bool :=
  !qBusy s x.part x.vd (x.taila + 128) && !sendBusy s x &&
  !(List.range 4).any fun d => (s.die d).entries.any fun e => e.st == .replay && match ownerTeam e.owner with | some t => (s.team t).isNone | none => false

/-- The header of a team that is gone reads free, unless another team has taken its unit (R442). -/
def freeHeader (s : State) (part vd va : Nat) : Option State :=
  if (s.vd part vd).isNone || (Tab.live s.teams).any (fun t => t.2.part == part && t.2.vd == vd && t.2.save != .resident && ctxVa s t.2 t.2.header + 14 == va) then some s
  else qWrite s part vd va [0]

/-- Makes one owed write, if its page and line can take it now. -/
def postOne (s : State) (x : Queue) : Post → Option State
  | .head tail => qWrite s x.part x.vd (x.taila + 128) (leBytes 8 tail)
  | .error csig code => if postReady s x then postError s x.part x.vd csig code else none
  | .free part vd va => freeHeader s part vd va
  | .discarded n => if n + 2 ^ x.logsize < x.tail then some s else if postReady s x then (ringCsig s x n).bind fun csig => postError s x.part x.vd csig 5 else none

/-- Does a write keep the later ones waiting? STATE 0 of a header does not. -/
def Post.ordered : Post → Bool | .free _ _ _ => false | _ => true

/-- Makes owed writes in their order until one must wait: the state, and those that are left. -/
def postAll (x : Queue) : List Post → State → State × List Post
  | [], s => (s, [])
  | p :: ps, s =>
    match postOne s x p with
    | some s1 => postAll x ps s1
    | none => if p.ordered then (s, p :: ps) else let r := postAll x ps s; (r.1, p :: r.2)

/-- The queue engine owes writes of a queue: it makes them as soon as they can be made, in order. None is lost (R319).
Log entry 57: DEDUCED. -/
def owe (s : State) (q : Nat) (ps : List Post) : State :=
  let x := s.queue q
  let r := postAll x (x.owed ++ ps) s
  if x.owed = [] ∧ r.2 = [] then r.1 else r.1.modQueue q fun x => { x with owed := r.2 }

/-- A dispatch has begun whose head word is not written. -/
def Queue.sending (x : Queue) : Bool := match x.hs with | .sent _ _ _ _ _ => true | _ => false

/-- The head word is still to be written: the queue dispatches nothing before (R327). -/
def Queue.owesHead (x : Queue) : Bool := x.owed.any fun p => match p with | .head _ => true | _ => false

/-! ## Trap records and queue errors (R311, R422, R423) -/

/-- Clears MODE.ENABLE in the cached copy and in memory (R401). -/
def clearEnable (s : State) (q : Nat) : State :=
  let at_ := s.xd.qdtBase.toNat + 64 * q + 19
  sysWrite (s.modQueue q fun x => { x with enable := false }) [(at_, (s.homeByte at_) &&& 0xFE)]

/-- A queue-error record. -/
def queueErrorRecord (s : State) (q : Nat) : List Byte :=
  leBytes 1 1 ++ leBytes 1 1 ++ leBytes 26 0 ++ leBytes 2 q ++ leBytes 1 (s.queue q).vd ++ leBytes 9 0 ++ leBytes 8 s.time ++ leBytes 16 0

def queueError (s : State) (q : Nat) : State :=
  let s1 := clearEnable s q
  { s1 with traps := s1.traps ++ [(q, queueErrorRecord s q)] }

/-- The team of a trap record. -/
def recordTeam (s : State) (bs : List Byte) : Option Team :=
  if bs.getD 0 0 = 0 then
    ((Tab.live s.teams).find? fun t => t.2.lid == leNat ((bs.drop 16).take 8) && t.2.idx == leNat ((bs.drop 24).take 4)).map (·.2)
  else none

/-- Does a record raised inside a handler still wait for its team's save (R431)? -/
def recordWaits (s : State) (bs : List Byte) : Bool :=
  (bs.getD 31 0).getLsbD 0 && (match recordTeam s bs with | some t => t.occupies | none => false)

/-- The record as it is posted: FLAGS[1] says that its team is saved. -/
def postedRecord (s : State) (bs : List Byte) : List Byte :=
  let saved := match recordTeam s bs with | some t => !t.occupies | none => false
  if saved then bs.set 31 (bs.getD 31 0 ||| 2) else bs

/-- TRAP_RECORD_POST: the queue's first record goes to its trap ring if there is room, and once its write is acknowledged the
tail advances: a release at SYS width (R422). -/
def postTrap (s : State) (q : Nat) : State :=
  let x := s.queue q
  match s.traps.find? fun r => r.1 == q with
  | none => s
  | some r =>
    if recordWaits s r.2 then s
    else
      match qRead s x.part x.vd x.trapr 8, qRead s x.part x.vd (x.trapr + 128) 8 with
      | .bytes tb _, .bytes hb _ =>
        let tail := leNat tb
        if (tail + 2 ^ 64 - leNat hb) % 2 ^ 64 = 256 then s
        else
          let at_ := x.trapr + 256 + 64 * (tail % 256)
          match qWrite s x.part x.vd at_ (postedRecord s r.2) with
          | none => s
          | some s1 =>
            if qBusy s1 x.part x.vd at_ then s1
            else
              match qWrite s1 x.part x.vd x.trapr (leBytes 8 (tail + 1)) with
              | some s2 => ({ s2 with traps := s2.traps.erase r }).nextFresh
              | none => s
      | _, _ => s

def execTrapRecordPost (queue : Nat) (s : State) : Out := .next (postTrap s queue)

/-! ## The tail (R310, R311) -/

/-- A tail value is taken, or the queue is in error. -/
def takeTail (s : State) (q t : Nat) : State :=
  let x := s.queue q
  if t < x.tail ∨ x.head + 2 ^ x.logsize < t then queueError s q else s.modQueue q fun x => { x with tail := t }

def tailRead (s : State) (q : Nat) : State :=
  let x := s.queue q
  if !x.enable || !x.tailDirty then s
  else
    match qRead s x.part x.vd x.taila 8 with
    | .wait | .fail _ _ => s
    | .bytes bs _ => (takeTail (s.modQueue q fun x => { x with tailDirty := false }) q (leNat bs)).nextFresh

def execTailRead (queue : Nat) (s : State) : Out := .next (tailRead s queue)

/-! ## Launch records and kernel headers (R313 to R315) -/

def LRec.ofBytes (bs : List Byte) : LRec :=
  let w := fun i n => leNat ((bs.drop i).take n)
  { bytes := bs, entry := w 0 8, teams := w 8 4, fibres := w 12 2, regs := w 14 1, ktiles := w 15 1, scratch := w 16 4
    spawn := w 20 4, split := w 24 1, cores := w 25 1, prio := w 26 1, dep := (bs.getD 27 0).getLsbD 0
    timed := (bs.getD 27 0).getLsbD 1, serial := (bs.getD 27 0).getLsbD 2, arglen := w 28 4, args := w 32 8, csig := w 40 8
    dsig := w 48 8, dval := readInt 64 true (w 56 8), start := w 64 8, seed := b64 (w 72 8) }

/-- BADRECORD. -/
def badRecord (r : LRec) : Bool :=
  decide (r.entry % 4 ≠ 0) || decide (r.teams < 1) || decide (2 ^ 24 < r.teams) || decide (r.fibres < 1) || decide (1024 < r.fibres) ||
  decide (r.regs < 1) || decide (32 < r.regs) || decide (32 < r.ktiles) || decide (524288 < r.scratch) || decide (r.spawn % 4096 ≠ 0) ||
  !(decide (r.split ≤ 8) || r.split == 15) || decide (4 < r.cores) || decide (7 < r.prio) || decide (7 < (r.bytes.getD 27 0).toNat) ||
  decide (65536 < r.arglen) || decide (r.csig % 8 ≠ 0) || decide (r.dsig % 8 ≠ 0) || ((r.bytes.drop 88).take 40).any (· != 0)

/-- BADHEADER. -/
def badHeader (r : LRec) (bs : List Byte) : Bool :=
  let w := fun i n => leNat ((bs.drop i).take n)
  decide (w 0 4 ≠ 0x5A4E4B48) || decide (w 4 1 ≠ 1) || decide (w 14 2 ≠ 0) || decide (w 20 4 ≠ 0) || decide (1 < w 11 1) ||
  decide (w 6 1 < w 5 1) || (decide (w 11 1 = 1) && decide (w 13 1 < w 12 1)) || decide (r.regs < w 5 1) || decide (r.ktiles < w 7 1) ||
  decide (w 8 2 < r.fibres) || decide (r.cores < w 10 1) || decide (r.scratch < w 16 4)

def KHdr.ofBytes (bs : List Byte) : KHdr :=
  { winmax := 8 * (bs.getD 6 0).toNat
    vol := if bs.getD 11 0 = 1 then some ((bs.getD 12 0).toNat, (bs.getD 13 0).toNat) else none }

/-- FEATURE: a feature bit that was not accepted (R452). -/
def badFeature (s : State) (bs : List Byte) : Bool :=
  b64 (leNat ((bs.drop 24).take 8)) &&& ~~~(s.xd.accept.setWidth 64) != 0

/-! ## Placement (R321, R322) -/

def teamsOn (s : State) (core : Nat) : List (Nat × Team) := (Tab.live s.teams).filter fun e => e.2.core == core && e.2.occupies

/-- Granules of the scratch area that the core's granule map gives to no team (R233, R235). -/
def freeGranules (c : Core) : List Nat := (List.range (16 * c.lsplit)).filter fun g => (Tab.get none c.gmap g).isNone
def scratchFree (s : State) (core : Nat) : Nat := (freeGranules (s.core core)).length
/-- The map gives a team its granules, the lowest free ones; and takes them back (R233, R240). -/
def mapGranules (s : State) (core team n : Nat) : State :=
  s.modCore core fun c => { c with
    gmap := Tab.setAll none c.gmap (((List.range n).zip (freeGranules c)).map fun x => (x.2, some (team, x.1))) }
def unmapGranules (s : State) (core team : Nat) : State :=
  s.modCore core fun c => { c with gmap := c.gmap.filter fun x => match x.2 with | some y => y.1 != team | none => false }
/-- Tiles that teams which are gone keep until their started tasks end (R360). -/
def ghostTiles (s : State) (core : Nat) : List Nat := (s.core core).ghosts.flatMap (·.2)
def tilesFree (s : State) (core : Nat) : Nat := 32 - ((teamsOn s core).map fun e => e.2.ktiles).sum - (ghostTiles s core).length
/-- Launch slots that unretired teams of the core have left (R37). Log entry 19: DEDUCED. -/
def idleSlots (s : State) (core : Nat) : List (Nat × Nat) := (teamsOn s core).flatMap fun e => e.2.idle
def slotFree (s : State) (core slot : Nat) : Bool :=
  (s.posy (posyKey core slot)).isNone && !(idleSlots s core).any fun x => x.1 == slot
/-- Launch slots that the distributor may fill. -/
def slotsFree (s : State) (core : Nat) : List Nat := (List.range 22).filter (slotFree s core)
/-- Registers of a bay's pool that the distributor may give out. -/
def bayOpen (s : State) (core bay : Nat) : Nat :=
  bayFree s core bay - ((idleSlots s core).map fun x => if x.1 % 4 = bay then x.2 else 0).sum
def reserveFor (s : State) (core win bay : Nat) : Nat := if bay = 2 ∨ bay = 3 then max (winMax s core) win else 0
/-- The pools of bays 2 and 3 each keep the reserve (R49). -/
def reserveKept (s : State) (core win : Nat) : Bool := [2, 3].all fun b => decide (reserveFor s core win b ≤ bayOpen s core b)
/-- Register granules free beyond the reserve. -/
def granulesFree (s : State) (core win : Nat) : Nat :=
  ((List.range 4).map fun b => bayOpen s core b - reserveFor s core win b).sum / 8

/-- The free slot that a posy takes: that of the pool with the most free registers, ties to the lowest. -/
def pickSlot (s : State) (core win alloc : Nat) : Option Nat :=
  ((slotsFree s core).filter fun i => decide (alloc + reserveFor s core win (i % 4) ≤ bayOpen s core (i % 4))).foldl
    (fun best i => match best with
      | some j => if bayOpen s core (j % 4) < bayOpen s core (i % 4) then some i else some j
      | none => some i) none

/-- Posies of a team. -/
def posyCount (fibres : Nat) : Nat := (fibres + 63) / 64
def scratchUnits (r : LRec) : Nat := (r.scratch + 4095) / 4096

/-- Lanes of launched posy j (R33). -/
def launchLanes (fibres j : Nat) : List (Nat × Nat) := (List.range (min 64 (fibres - 64 * j))).map fun i => (i, 64 * j + i)

def launchPosy (s : State) (team : Nat) (r : LRec) (j : Nat) : Posy :=
  let ls := launchLanes r.fibres j
  { uid := s.nextUid, team := team, frame := j, pc := r.entry, alloc := 8 * r.regs
    lanes := ls.map fun x => (x.1, some x.2), lfsr := ls.map fun x => (x.1, lfsrSeed (r.seed.toNat) x.2 0)
    since := s.cycle }

/-- Each posy in order takes its slot. -/
def placePosies (team core win : Nat) (r : LRec) : List Nat → State → Option State
  | [], s => some s
  | j :: t, s =>
    match pickSlot s core win (8 * r.regs) with
    | some i =>
      placePosies team core win r t { s.seat core i (launchPosy s team r j) with nextUid := s.nextUid + 1 }
    | none => none

/-- The tiles of lowest number that no team of the core owns. -/
def takeTiles (s : State) (core n : Nat) : List Nat :=
  ((List.range 32).filter fun k => !(ghostTiles s core).contains k && !(teamsOn s core).any fun e => e.2.tileNos.contains k).take n

/-- The frames of a new team (R34, R141). -/
def launchFrames (l : Launch) (lid idx : Nat) : Tab (Option Frame) :=
  (List.range (posyCount l.r.fibres)).map fun j =>
    (j, some { s := Tab.setAll 0 [] [(0, b64 idx), (1, b64 l.r.teams), (2, b64 l.r.args), (3, b64 l.r.fibres), (4, b64 l.queue), (5, b64 lid)]
               refs := min 64 (l.r.fibres - 64 * j) })

/-- WAVE (R146). -/
def waveOf (l : Launch) (idx : Nat) : Nat := match l.k with | some k => idx / k | none => 0

/-- The new team (R141, R224, R233). Where its spawn region lies is open, but below 2^52 (R223).
Log entry 92: DEDUCED. -/
def newTeam (s : State) (lid : Nat) (l : Launch) (v : Vd) (place core : Nat) : Team :=
  let sa := 4096 * scratchUnits l.r
  { lid := lid, idx := l.next, vd := l.vd, part := l.part, queue := l.queue, core := core, place := place, wave := waveOf l l.next
    prio := l.prio, placed := s.nextTeam
    glb := SegReg.make 0 v.asize true true true, scr := SegReg.make 0 sa true true true, cst := SegReg.make 0 v.asize true true false
    spn := SegReg.make (s.free.1.toNat % (2 ^ 52 + 1 - l.r.spawn)) l.r.spawn true true true, ctx := SegReg.make v.ctxva v.ctxsize true true true
    salloc := sa, ktiles := l.r.ktiles, tileNos := takeTiles s core l.r.ktiles, frames := launchFrames l lid l.next
    nextFid := l.r.fibres }

/-- R427: a priority pre-emption holds the core against launches of the VD that are not of higher priority.
Log entry 60: DEDUCED. -/
def heldForSaved (s : State) (l : Launch) (core : Nat) : Bool :=
  (Tab.live s.teams).any fun e => e.2.core == core && e.2.part == l.part && e.2.vd == l.vd && decide (l.prio ≤ e.2.prio) &&
    match e.2.save with | .saved b | .saving _ b => b | _ => false

/-- R237: another launch of the running VD, to which the split belongs (R239), waits on the core. -/
def waitedOn (s : State) (c : Core) (lid : Nat) : Bool :=
  c.taken != lid && c.waiting.any fun w => w != lid && match s.launch w with | some l => c.vd == some (vdKey l.part l.vd) | none => false

/-- Teams of the running VD that the end of a slice saved from the core come back before anything else is placed there or the split
changes; a stopped one waits for TRESUME (R239, R426). -/
def slicePending (s : State) (core : Nat) : Bool :=
  (Tab.live s.teams).any fun e => e.2.core == core && e.2.save == .saved false && e.2.stopped.isNone && (s.core core).vd == some (vdKey e.2.part e.2.vd)

def splitOk (c : Core) (r : LRec) : Bool := r.split == 15 || c.lsplit == r.split

/-- Places the launch's next team on a core, if it fits there (R321). -/
def placeTeam (s : State) (lid : Nat) (l : Launch) (place core : Nat) : Option State :=
  let c := s.core core
  match s.vd l.part l.vd with
  | none => none
  | some v =>
    if splitOk c l.r && !waitedOn s c lid && !c.splitting && c.vd == some (vdKey l.part l.vd) && c.nextVd.isNone && !heldForSaved s l core && !slicePending s core &&
       decide (scratchUnits l.r ≤ scratchFree s core) && decide (l.r.ktiles ≤ tilesFree s core) then
      let id := s.nextTeam
      let s0 := { s.setTeam id (some (newTeam s lid l v place core)) with nextTeam := id + 1, fresh := s.fresh + 1 }
      let s1 := (mapGranules s0 core id (scratchUnits l.r)).modCore core fun c => { c with leftScratch := [] }
      (placePosies id core l.h.winmax l.r (List.range (posyCount l.r.fibres)) s1).bind fun s2 =>
        if reserveKept s2 core l.h.winmax then some (s2.setLaunch lid (some { l with next := l.next + 1 })) else none
    else none

/-- The resources in the order of R322: scratch granules, register granules, launch slots, tiles. -/
def needs (r : LRec) : List Nat := [scratchUnits r, posyCount r.fibres * r.regs, posyCount r.fibres, r.ktiles]
def capacities (r : LRec) (win : Nat) : List Nat :=
  [16 * (if r.split ≤ 8 then r.split else 8), (4 * Config.bayPool - 2 * win) / 8, 22, 32]
def freeUnits (s : State) (core win : Nat) : List Nat :=
  [scratchFree s core, granulesFree s core win, (slotsFree s core).length, tilesFree s core]

/-- The limiting resource by its number. -/
def limiting (r : LRec) (win : Nat) : Nat :=
  (((List.range 4).filter fun i => (needs r).getD i 0 ≠ 0).foldl (fun best i =>
    let v := (capacities r win).getD i 0 / (needs r).getD i 1
    match best with
    | some (_, w) => if v < w then some (i, v) else best
    | none => some (i, v)) none).elim 0 (·.1)

/-- Places of a VD that may receive teams: place and core. -/
def openPlaces (v : Vd) : List (Nat × Nat) :=
  (List.range v.plcount).filterMap fun p =>
    let e := Tab.get {} v.places p
    if e.valid && e.pend.isNone then some (p, e.core) else none

/-- The launch's next team goes to the fitting core, of those a test allows, with the most free units of the
limiting resource; ties to the lowest place. -/
def placeOne (s : State) (lid : Nat) (l : Launch) (may : Nat → Bool) : Option State :=
  match s.vd l.part l.vd with
  | none => none
  | some v =>
    let k := limiting l.r l.h.winmax
    let fits := (openPlaces v).filterMap fun x =>
      if may x.2 then (placeTeam s lid l x.1 x.2).map fun t => ((freeUnits s x.2 l.h.winmax).getD k 0, t) else none
    (fits.foldl (fun (best : Option (Nat × State)) x => match best with
      | some b => if b.1 < x.1 then some x else best
      | none => some x) none).map (·.2)

/-- Places n teams, or none of them. -/
def placeMany (lid : Nat) (may : Nat → Bool) : Nat → State → Option State
  | 0, s => some s
  | n + 1, s =>
    match s.launch lid with
    | some l => (placeOne s lid l may).bind (placeMany lid may n)
    | none => none

/-- The cores of the instances of a CORES level (R323). -/
def inInstance (cores k core : Nat) : Bool :=
  match cores with | 1 => core == k | 2 => quadOf core == k | 3 => dieOf core == k | _ => true
def levelCount (cores : Nat) : Nat := match cores with | 1 => 192 | 2 => 48 | 3 => 4 | _ => 1

/-- All teams of a co-resident launch in the lowest-numbered instance that can hold them. -/
def placeTogether (s : State) (lid : Nat) (l : Launch) : Option State :=
  (List.range (levelCount l.r.cores)).findSome? fun k => placeMany lid (inInstance l.r.cores k) (l.r.teams - l.next) s

/-- What the launch would place now. -/
def placeNow (s : State) (lid : Nat) (l : Launch) : Option State :=
  if l.r.cores = 0 then placeOne s lid l fun _ => true else placeTogether s lid l

/-- The state with every core of a VD empty and in the split that a launch needs. -/
def emptied (s : State) (l : Launch) : State :=
  match s.vd l.part l.vd with
  | none => s
  | some v =>
    (openPlaces v).foldl (fun s x => s.setCore x.2
      { s.core x.2 with lsplit := if l.r.split ≤ 8 then l.r.split else 8, waiting := [], splitting := false, gmap := [], ghosts := [], vd := some (vdKey l.part l.vd), nextVd := none })
      { s with posies := [], teams := [] }

/-- NOFIT (R315): no team fits an empty core, or no instance can hold them all. -/
def noFit (s : State) (l : Launch) : Bool :=
  let e := (emptied s l).setLaunch 0 (some l)
  if l.r.cores = 0 then (placeOne e 0 l fun _ => true).isNone else (placeTogether e 0 l).isNone

/-! ## Dispatch (R312, R315, R328) -/

/-- VA of the record at the head. -/
def headVa (x : Queue) : Nat := x.ring + 128 * (x.head % 2 ^ x.logsize)

/-- A record's launch. -/
def launchOf (q : Nat) (x : Queue) (r : LRec) (h : KHdr) : Launch :=
  { queue := q, vd := x.vd, part := x.part, r := r, h := h, prio := min r.prio x.prio, started := !r.timed }

/-- The checks of R315 in their order; 0 is none. -/
def headCode (s : State) (q : Nat) (x : Queue) (r : LRec) (hb : List Byte) (bad : Bool) : Nat :=
  if bad then 8 else if badRecord r then 1 else if badHeader r hb then 2 else if badFeature s hb then 3
  else if noFit s (launchOf q x r (KHdr.ofBytes hb)) then 4 else 0

/-- The read of a record, or of the header of one that is read, parks with the bytes that are left of it in the line (R363, R364). -/
def parkQueue (s : State) (q : Nat) (x : Queue) (r : Option LRec) (f : Fail) (va n : Nat) : State :=
  let d := engineDie s x.part
  let n := min n (128 - va % 128)
  let e : Entry := { pseq := 0, owner := .queue q va, va := va, size := n, cause := f.cause, kind := 7, vd := x.vd, part := x.part
                     pgsz := f.pgsz, missing := f.missing, cls := f.cls, width := f.width, inst := f.inst }
  let p := parkAs (countWalk s d f) d e { queue := q, bytes := n }
  p.1.modQueue q fun x => { x with hs := match p.2 with | some n => .parked d n r | none => x.hs }

/-- Reads and checks the record at the head. -/
def readHead (s : State) (q : Nat) : State :=
  let x := s.queue q
  let set := fun (h : HeadSt) => (s.modQueue q fun x => { x with hs := h, depMet := false, depDirty := true }).nextFresh
  if replayWaits s (engineDie s x.part) fun o => match o with | .queue k _ => k == q | _ => false then s
  else match qRead s x.part x.vd (headVa x) 128 with
  | .wait => s
  | .fail f va => parkQueue s q x none f va 128
  | .bytes bs b1 =>
    let r := LRec.ofBytes bs
    if b1 then set (.failed r 8)
    else
      match qRead s x.part x.vd ((r.entry + 2 ^ 64 - 32) % 2 ^ 64) 32 with
      | .wait => s
      | .fail f va => parkQueue s q x (some r) f va ((r.entry + 2 ^ 64 - va) % 2 ^ 64)
      | .bytes hb b2 =>
        let c := headCode s q x r hb b2
        set (if c = 0 then .ok r (KHdr.ofBytes hb) else .failed r c)

/-- A record fails with UNREADABLE if its read or that of its header was aborted (R373). A record whose own read was aborted is read
once more for its CSIG, and is all ones where it cannot be. Log entry 72: DEDUCED. -/
def abortedHead (s : State) (q : Nat) (known : Option LRec) : State :=
  let x := s.queue q
  let fail := fun (r : LRec) => s.modQueue q fun x => { x with hs := .failed r 8 }
  match known with
  | some r => fail r
  | none =>
    match qRead s x.part x.vd (headVa x) 128 with
    | .wait => s
    | .bytes bs false => fail (LRec.ofBytes bs)
    | _ => fail (LRec.ofBytes (ones 128))

/-- The argument bytes that a capture copies; none while a line of them is merging. Log entry 58: DEDUCED. -/
def captureArgs (s : State) (x : Queue) (r : LRec) : Option (List Byte) :=
  match qRead s x.part x.vd r.args r.arglen with
  | .wait => none
  | .bytes bs _ => some bs
  | .fail _ _ => some (ones r.arglen)

/-- The capture entry of a dispatched record. -/
def captureEntry (s : State) (q lid : Nat) (x : Queue) (r : LRec) (args : List Byte) : List Byte :=
  leBytes 8 (lid + (if x.capLoss then 2 ^ 63 else 0)) ++ leBytes 8 s.time ++ leBytes 8 q ++ leBytes 8 r.arglen ++ leBytes 32 0 ++
  padTo 128 r.bytes ++ padTo ((r.arglen + 127) / 128 * 128) args

/-- Where the capture entry of a record goes, and its size; none for one larger than the ring (R328). -/
def capturePlace (x : Queue) (r : LRec) : Option (Nat × Nat) :=
  let size := 192 + (r.arglen + 127) / 128 * 128
  if 2 ^ x.caplog < size then none else some (if 2 ^ x.caplog < x.capPos + size then 0 else x.capPos, size)

/-- R328: the entry goes to the ring, none of it across the end; one that is too large is lost. -/
def capture (s : State) (q lid : Nat) (r : LRec) : Option State :=
  let x := s.queue q
  if !x.capture then some s
  else
    match capturePlace x r with
    | none => some (s.modQueue q fun x => { x with capLoss := true })
    | some (pos, size) =>
      (captureArgs s x r).bind fun args => (qWrite s x.part x.vd (x.capring + pos) (captureEntry s q lid x r args)).map fun s1 =>
        s1.modQueue q fun x => { x with capPos := pos + size, capLoss := false }

/-- The lines of a range as it translates now. -/
def qLines (s : State) (part vd va n : Nat) : List Nat :=
  (cutLines va n).filterMap fun p => match qWalk s part vd p.1 { w := true } with | .leaf l => some (lineOf (l.pa_ p.1)) | .fail _ => none

/-- The lines that the dispatch of the record at the head writes before the head word: LID, and its capture entry. -/
def dispatchLines (s : State) (x : Queue) (r : LRec) : List Nat :=
  qLines s x.part x.vd (headVa x + 80) 8 ++
  (if x.capture then match capturePlace x r with | some p => qLines s x.part x.vd (x.capring + p.1) p.2 | none => [] else [])

/-- Is a launch of the queue running? -/
def queueBusy (s : State) (q : Nat) : Bool := (Tab.live s.launches).any fun e => e.2.queue == q

/-- LID goes into the record; that of a failed record is dropped where the slot's page refuses it. Log entry 72: DEDUCED. -/
def lidWrite (s : State) (x : Queue) (lid : Nat) (failed : Bool) : Option State :=
  match qWalk s x.part x.vd (headVa x + 80) { w := true }, failed with
  | .fail _, true => some s
  | _, _ => qWrite s x.part x.vd (headVa x + 80) (leBytes 8 lid)

/-- Step 4 of R312: once the writes before it are acknowledged, the head word moves as a release, and the launch runs or has failed. -/
def dispatchEnd (s : State) (q : Nat) (r : LRec) (h : Option KHdr) (code lid : Nat) (lines : List Nat) : State :=
  let x := s.queue q
  if lines.any fun l => isMerging s l none then s
  else
    match qWrite s x.part x.vd (x.taila + 128) (leBytes 8 (x.head + 1)) with
    | none => s
    | some s3 =>
      let s4 := s3.modQueue q fun x => { x with head := x.head + 1, hs := .unread }
      match h with
      | some h => s4.setLaunch lid (some (launchOf q x r h))
      | none => owe s4 q [.error r.csig code]

/-- Steps 1 to 4 of R312 for the record at the head; its header if it has not failed. Log entry 72: DEDUCED. -/
def dispatchHead (s : State) (q : Nat) (r : LRec) (h : Option KHdr) (code : Nat) : State :=
  let x := s.queue q
  let lid := s.lastLid + 1
  let r' := { r with bytes := r.bytes.take 80 ++ leBytes 8 lid ++ r.bytes.drop 88 }
  let lines := dispatchLines s x r'
  match (lidWrite s x lid h.isNone).bind fun s1 => capture s1 q lid r' with
  | none => s
  | some s2 =>
    dispatchEnd { s2.modQueue q fun x => { x with hs := .sent r h code lid lines } with lastLid := lid } q r h code lid lines

/-- The record at the head is read and checked, and dispatched once it may be; a dispatch that has begun goes on after a QDISABLE. -/
def dispatchNext (s : State) (q : Nat) : State :=
  let x := s.queue q
  if x.owesHead || !(x.enable || x.sending) || (s.vd x.part x.vd).isNone || x.tail ≤ x.head then s
  else
    match x.hs with
    | .unread => readHead s q
    | .aborted r => abortedHead s q r
    | .parked _ _ _ => s
    | .failed r c => dispatchHead s q r none c
    | .sent r h c lid lines => dispatchEnd s q r h c lid lines
    | .ok r h =>
      if (r.dep && (!x.depMet || x.depDirty)) || (r.serial && queueBusy s q) then s
      else dispatchHead s q r (some h) 0

/-- DISPATCH: first the writes that the engine owes. -/
def dispatch (s : State) (q : Nat) : State := dispatchNext (owe s q []) q

def execDispatch (queue : Nat) (s : State) : Out := .next (dispatch s queue)

/-- DEPENDENCY_READ: whenever the signal's line was invalidated, also while SERIAL holds a record whose
dependency was met (R318). A page that refuses the read makes the record UNREADABLE (R315); while it moves the read waits.
Log entry 57: DEDUCED. Log entry 124: DEDUCED. -/
def dependencyRead (s : State) (q : Nat) : State :=
  let x := s.queue q
  match x.hs with
  | .ok r _ =>
    if !x.enable || !r.dep || !x.depDirty then s
    else
      match qRead s x.part x.vd r.dsig 8 with
      | .wait => s
      | .fail f _ => if f.cause = .migrating then s else s.modQueue q fun x => { x with hs := .failed r 8 }
      | .bytes bs bad =>
        let v := leNat bs
        (s.modQueue q fun x =>
          if bad then { x with hs := .failed r 8 }
          else if isErrorValue v then { x with hs := .failed r 7 }
          else { x with depDirty := false, depMet := decide (readInt 64 true v ≤ r.dval) }).nextFresh
  | _ => s

def execDependencyRead (queue : Nat) (s : State) : Out := .next (dependencyRead s queue)

/-! ## Placing, splits, starts -/

/-- Launches that place before another (R322). -/
def launchBefore (a : Nat × Launch) (lid : Nat) (l : Launch) : Bool :=
  decide (l.prio < a.2.prio) || (a.2.prio == l.prio && decide (a.1 < lid))
def unplaced (l : Launch) : Bool := decide (l.next < l.r.teams)

/-- A co-resident launch of which no instance can hold all teams now (R323). -/
def noInstance (s : State) (e : Nat × Launch) : Bool := e.2.r.cores != 0 && unplaced e.2 && (placeTogether s e.1 e.2).isNone

/-- Such a launch holds back another of lower or equal priority; of two such launches of equal priority the one of lower id
goes first (R323). -/
def holdsBack (s : State) (e : Nat × Launch) (lid : Nat) (l : Launch) : Bool :=
  noInstance s e && (decide (l.prio < e.2.prio) || (l.prio == e.2.prio && (!noInstance s (lid, l) || decide (e.1 < lid))))

/-- Its turn to place: every earlier launch of the partition has nothing that it could place, and none holds it back. -/
def turnToPlace (s : State) (lid : Nat) (l : Launch) : Bool :=
  !(Tab.live s.launches).any fun e =>
    e.1 != lid && e.2.part == l.part && unplaced e.2 &&
    (holdsBack s e lid l ||
      (launchBefore e lid l && !holdsBack s (lid, l) e.1 e.2 && (if e.2.r.cores = 0 then placeOne s e.1 e.2 fun _ => true else placeTogether s e.1 e.2).isSome))

/-- The cores whose split a launch took last place no more of its teams first. -/
def untake (s : State) (lid : Nat) : State :=
  { s with cores := s.cores.map fun c => (c.1, { c.2 with taken := if c.2.taken = lid then 0 else c.2.taken }) }

/-- Drops a launch from the cores that it waits on. -/
def stopWaiting (s : State) (lid : Nat) : State :=
  untake { s with cores := s.cores.map fun c => (c.1, { c.2 with waiting := c.2.waiting.filter (· != lid) }) } lid

/-- The cores that a launch becomes the waiting launch of (R237): a core is judged as if it were empty, whether it has the split or not.
Log entry 122: DESIGN CHOICE. -/
def waitCores (s : State) (l : Launch) : List Nat :=
  match s.vd l.part l.vd with
  | none => []
  | some v =>
    let e := (emptied s l).setLaunch 0 (some l)
    let mine := fun (may : Nat → Bool) => ((openPlaces v).filter fun x => may x.2 && !splitOk (s.core x.2) l.r).map (·.2)
    if l.r.split = 15 then []
    else if l.r.cores = 0 then (if (placeOne e 0 l fun _ => true).isSome then mine fun _ => true else [])
    else
      match (List.range (levelCount l.r.cores)).find? fun k => (placeMany 0 (inInstance l.r.cores k) l.r.teams e).isSome with
      | some k => mine (inInstance l.r.cores k)
      | none => []

/-- PLACEMENT: the launch whose turn it is places its next team, or all of them if it is co-resident; if none
fits it waits for the split of some cores. Log entry 61: DEDUCED. -/
def placement (s : State) (lid : Nat) : State :=
  match s.launch lid with
  | none => s
  | some l =>
    if !unplaced l || !turnToPlace s lid l then s
    else
      match placeNow s lid l with
      | some s1 => (match s1.launch lid with | some l1 => if unplaced l1 then s1 else stopWaiting s1 lid | none => s1)
      | none =>
        (waitCores s l).foldl (fun s c => s.modCore c fun x =>
          if x.waiting.contains lid then x else { x with waiting := x.waiting ++ [lid], taken := 0 })
          (untake s lid)

def execPlacement (lid : Nat) (s : State) : Out := .next (placement s lid)

/-- The waiting launch of the running VD that a core serves first, of those for which no saved team holds the core (R427). -/
def servedFirst (s : State) (core : Nat) : Option (Nat × Launch) :=
  ((s.core core).waiting.filterMap fun i => ((s.launch i).filter fun l => (s.core core).vd == some (vdKey l.part l.vd) && !heldForSaved s l core).map fun l => (i, l)).foldl (fun best x =>
    match best with | some b => if launchBefore x b.1 b.2 then some x else best | none => some x) none

/-- Is everything in an L1 merged and drained (R238 step 2)? -/
def l1Clean (s : State) (core : Nat) : Bool :=
  (unmergedOf s (.l1 core) (s.core core).l1).isEmpty && !s.shares.any fun x => x.who == .l1 core && !x.deltas.isEmpty

/-- The L1 gives its shares back (R238, R402: recalls at a switch). -/
def recallL1 (s : State) (core : Nat) : State :=
  (s.shares.filter fun x => x.who == .l1 core).foldl (fun s x => recallHolder s x.key) s

/-- Step 2 of R238: dirty lines are written back and deltas drained. -/
def flushL1 (s : State) (core : Nat) : State :=
  let s1 := (s.core core).l1.foldl (fun s e => writeBack s (.l1 core) e.1) s
  (s1.shares.filter fun x => x.who == .l1 core).foldl (fun s x => drainHolder s x.key) s1

/-- Another launch took the split and its teams have still to be placed (R238 step 5). -/
def placesStill (s : State) (c : Core) (lid : Nat) : Bool :=
  c.taken != lid && (match s.launch c.taken with | some l => unplaced l && turnToPlace s c.taken l | none => false)

/-- SPLIT_CHANGE (R237, R238). The local granules hold nothing from then on: their contents are undefined and no team has one. -/
def splitChange (s : State) (core : Nat) : State :=
  let c := s.core core
  match servedFirst s core with
  | none => if c.splitting then s.setCore core { c with splitting := false } else s
  | some (lid, l) =>
    if placesStill s c lid then s
    else if c.lsplit = l.r.split then s.setCore core { c with waiting := c.waiting.erase lid, taken := lid, splitting := false }
    else if !(teamsOn s core).isEmpty || slicePending s core then s
    else if !l1Clean s core then flushL1 (s.setCore core { c with splitting := true }) core
    else (dropL1 (recallL1 s core) core).modCore core fun c => { c with
      lsplit := l.r.split, gmap := [], waiting := c.waiting.erase lid, taken := lid, splitting := false }

def execSplitChange (core : Nat) (s : State) : Out := .next (splitChange s core)

/-- TIMED_START (R317). -/
def execTimedStart (lid : Nat) (s : State) : Out :=
  match s.launch lid with
  | some l => if l.r.start ≤ s.time then .next (s.setLaunch lid (some { l with started := true })) else .next s
  | none => .next s

/-! ## The end of teams and launches -/

/-- A place-table entry (R391). -/
def placeWord (p : Place) : Nat :=
  p.core + (if p.valid then 256 else 0) +
  (match p.pend with | some (c, v) => 2 ^ 48 + c * 2 ^ 40 + (if v then 2 ^ 32 else 0) | none => 0)

/-- Writes a place-table entry to the cached copy and to memory. -/
def setPlace (s : State) (part vd p : Nat) (e : Place) : State :=
  match s.vd part vd with
  | some v => sysWrite64 (s.setVd part vd (some { v with places := Tab.set {} v.places p e })) (v.pltbase + 8 * p) (placeWord e)
  | none => s

/-- A team of the VD is resident on a core or saved from it. -/
def vdOnCore (s : State) (part vd core : Nat) : Bool :=
  (Tab.live s.teams).any fun e => e.2.part == part && e.2.vd == vd && e.2.core == core

/-- Pending PLACESETs whose last team is gone take effect (R392). -/
def applyPend (s : State) (part vd : Nat) : State :=
  match s.vd part vd with
  | none => s
  | some v =>
    (List.range v.plcount).foldl (fun s p =>
      let e := Tab.get {} v.places p
      match e.pend with
      | some (c, ok) => if vdOnCore s part vd e.core then s else setPlace s part vd p { core := c, valid := ok }
      | none => s) s

/-- Takes a team off its core and out of the state; the header of its image reads free (R442). -/
def removeTeam (s : State) (id : Nat) (t : Team) : State :=
  let s1 := unmapGranules (kilnDrop s t.core id) t.core id
  let s2 := (s1.posiesOf id).foldl (fun s e => s.setPosy e.1 none) s1
  let s3 := s2.modCore t.core fun c => { c with fifo := c.fifo.filter fun e => e.1 != id, copies := c.copies.filter fun k => k.team != id }
  let s4 := s3.setTeam id none
  applyPend (if t.save = .resident then s4 else owe s4 t.queue [.free t.part t.vd (ctxVa s t t.header + 14)]) t.part t.vd

/-- Has a team nothing left (R37)?. Log entry 60: DEDUCED. -/
def teamDone (s : State) (id : Nat) (t : Team) : Bool :=
  t.running && t.liveFibres == 0 && (s.posiesOf id).isEmpty && t.reqs.isEmpty &&
  !(s.core t.core).copies.any (fun k => k.team == id) && !(s.core t.core).kcmds.any (fun e => e.team == id) &&
  !(s.core t.core).kloads.any (fun l => l.team == id) &&
  !(Tab.live t.handles).any fun h => h.2.status == 0 && h.2.kind != .sysc

/-- The watchdog's count has reached its bound (R326). -/
def Queue.expired (x : Queue) : Bool := x.timeout != 0 && decide (1000 * x.timeout ≤ x.wd)

/-- TEAM_RETIRE: the units return; the first retirement fixes k of WAVE, and the lines that its accesses left
dirty are noted (R316). When the launch's last team retires in the tick of expiry the launch completes, and its queue's count
is zero (R326). -/
def teamRetire (s : State) (id : Nat) : State :=
  match s.team id with
  | none => s
  | some t =>
    if !teamDone s id t then s
    else
      let snap := fullSnap s t.core
      let s0 := (removeTeam s id t).modCore t.core fun c => { c with leftScratch := t.scratch, leftFlags := b32 (flagWord t.landEnd) }
      let s1 := s0.modLaunch t.lid fun l =>
        { l with retired := l.retired + 1, k := some (l.k.getD l.next), snap := snap ++ l.snap.filter fun x => !snap.contains x }
      let last := match s.launch t.lid with | some l => decide (l.r.teams ≤ l.retired + 1) | none => false
      if last && (s.queue t.queue).expired then s1.modQueue t.queue fun x => { x with wd := 0 } else s1

def execTeamRetire (team : Nat) (s : State) : Out := .next (teamRetire s team)

/-- LAUNCH_COMPLETE (R316, R326). Log entry 72: DEDUCED. -/
def launchComplete (s : State) (lid : Nat) : State :=
  match s.launch lid with
  | none => s
  | some l =>
    if l.retired < l.r.teams ∨ !l.snap.isEmpty then s
    else
      let done := fun (s : State) => (s.setLaunch lid none).modQueue l.queue fun x => { x with wd := 0 }
      if l.r.csig = 0 then done s
      else (match qSignal s l.part l.vd l.r.csig fun v => v + 2 ^ 64 - 1 with | some s1 => done s1 | none => s)

def execLaunchComplete (lid : Nat) (s : State) : Out := .next (launchComplete s lid)

/-- A launch is stopped at once (R58, R304, R327): its teams, requests, parked entries, engine commands and
images go; dirty bytes still merge. -/
def stopLaunch (s : State) (lid : Nat) : State :=
  let s1 := purgeLaunch s lid
  let s2 := ((Tab.live s1.teams).filter fun e => e.2.lid == lid).foldl (fun s e => removeTeam s e.1 e.2) s1
  stopWaiting (s2.setLaunch lid none) lid

/-- What PURGE does to an entry: it is free and its request is gone, with nothing delivered (R373). -/
def purgeEntry (s : State) (d : Nat) (e : Entry) : State :=
  let s1 := freeEntry s d e
  match e.owner with
  | .req team seq sub => s1.modTeam team fun t => { t with reqs := t.reqs.filter fun q => !(q.seq == seq && q.sub == sub) }
  | .ctx _ _ _ => ownerDiscard s1 d e
  | _ => s1

/-- The rest of a PURGE: the replies of the launch's replays are discarded, and the images of its saved teams (R373, R380). -/
def purgeTeams (s : State) (die lid : Nat) : State :=
  let s1 := ((s.die die).entries.filter fun e => e.st == .replay && e.lid == lid).foldl (fun s e => ownerDiscard s die e) s
  ((Tab.live s1.teams).filter fun e => e.2.lid == lid).foldl (fun s e => match e.2.save with
    | .saved _ => removeTeam s e.1 e.2
    | _ => s) s1

/-- PURGE. -/
def execPurge (die : Nat) (s : State) : Out :=
  match (s.die die).parkCmd with
  | some c =>
    if c.op ≠ 3 then .next s
    else
      match runCmd s die 3 (fun e => e.st != .replay) fun s e => purgeEntry s die e with
      | .next s1 => .next (purgeTeams s1 die c.arg.toNat)
      | r => r
  | none => .next s

/-! ## The watchdog (R326, R327) -/

/-- Does a global tick count for a queue's watchdog? -/
def watchdogCounts (s : State) (q : Nat) (x : Queue) : Bool :=
  let key := some (vdKey x.part x.vd)
  let mine := (Tab.live s.teams).filter fun e => e.2.queue == q && (match s.launch e.2.lid with | some _ => true | none => false)
  x.timeout != 0 && queueBusy s q &&
  (if mine.isEmpty then
     (match s.vd x.part x.vd with | some v => (List.range v.plcount).any fun p => (s.core (Tab.get {} v.places p).core).vd == key | none => false)
   else mine.any fun e => (s.core e.2.core).vd == key)

/-- A launch of the queue completes in this tick, or its last team retires in it: that counts before an expiry (R326). -/
def completing (s : State) (q : Nat) : Bool :=
  ((Tab.live s.launches).any fun e => e.2.queue == q && ((launchComplete s e.1).launch e.1).isNone) ||
  (Tab.live s.teams).any fun e => e.2.queue == q && (match s.launch e.2.lid with
    | some l => decide (l.r.teams ≤ l.retired + 1) && teamDone s e.1 e.2
    | none => false)

/-- WATCHDOG_EXPIRY. The signal of a discarded record is read before the head word frees its slot; one that cannot be read yet
is read when its post is made, unless the slot has been written again. Log entry 57: DEDUCED. -/
def watchdogExpiry (s : State) (q : Nat) : State :=
  let x := s.queue q
  if !x.expired || !queueBusy s q || completing s q then s
  else
    let ls := (Tab.live s.launches).filter fun e => e.2.queue == q
    let s1 := ls.foldl (fun s e => stopLaunch s e.1) s
    let read := qRead s1 x.part x.vd x.taila 8
    let tail := match read with | .bytes bs false => leNat bs | _ => x.tail
    let s2 := (detach s1 (fun o => match o with | .queue k _ => k == q | _ => false) false).modQueue q fun x =>
      { x with wd := 0, tailDirty := match read with | .bytes _ _ => false | _ => x.tailDirty }
    let stopped := ls.map fun e => Post.error e.2.r.csig 5
    if tail < x.tail ∨ x.head + 2 ^ x.logsize < tail then owe (queueError s2 q) q stopped
    else
      let s3 := s2.modQueue q fun x => { x with head := tail, tail := tail, hs := .unread, depMet := false, depDirty := true }
      let ns := (List.range (tail - x.head)).map (x.head + ·)
      owe s3 q (.head tail :: stopped ++ ns.map fun n => match ringCsig s2 x n with | some c => .error c 5 | none => .discarded n)

def execWatchdogExpiry (queue : Nat) (s : State) : Out := .next (watchdogExpiry s queue)

/-! ## LAUNCH (R329) -/

def launchNeed (o : LaunchOps) : Need :=
  { type := o.a.cls == .s && o.b.cls == .s && o.d.cls == .k
    regs := [kUse .h o.d.n.toNat true, opdUse o.a 1 1 false, opdUse o.b 1 1 false], full := true, ban := true }

/-- The append request: the record and the queue id. -/
def appendReq (e : Env) (act : List Nat) (tok q : Nat) (bs : List Byte) : Req :=
  { seq := e.t.nextSeq, kind := .append tok, addr := q, fids := fidsOf e act, core := e.core, slot := e.slot, data := placed 0 bs }

def execLaunch (o : LaunchOps) (s : State) : Out :=
  issue s (launchNeed o) o.h fun e act =>
    let off := (e.f.sreg o.a.n.toNat).toNat
    if !segOk e.t.scr (off : Int) 128 true false then trap s e .seg act
    else if off % 8 ≠ 0 then trap s e .align act
    else releaseThenBy false true false s e act .sys fun s e =>
      let bs := scratchRead e.t off 128
      let bad := scratchBad e.t off 128
      let e1 := e.newHandle (hNo o.d) { kind := .launch, ready := bad, bad := bad }
      if bad then commit s { e1 with t := e1.t.raise flagMerr } o.h.len {}
      else
        let r := appendReq e act e.t.nextTok (e.f.sreg o.b.n.toNat).toNat bs
        commit s { e1 with t := pushReqs e1.t [r] } o.h.len {}

/-- The append is over once the write of the tail is acknowledged (R296). -/
def appendEnd (s : State) (tid : Nat) (t : Team) (r : Req) (tok : Nat) : State :=
  if qBusy s t.part t.vd (s.queue r.addr).taila then s
  else modHandle (dropReq s tid r) tid tok fun h => { h with ready := true, final := 1 }

/-- The queue engine takes an append: status 5, or the record in its slot and, once that write is acknowledged, the tail
advanced. -/
def appendRecord (s : State) (tid : Nat) (t : Team) (r : Req) (tok : Nat) : State :=
  let q := r.addr
  let x := s.queue q
  let fin := fun (s : State) (st : Nat) => modHandle (dropReq s tid r) tid tok fun h => { h with ready := true, final := st }
  if 2 ^ 16 ≤ q ∨ !x.enable ∨ x.part ≠ t.part ∨ x.vd ≠ t.vd ∨ !x.devapp then fin s 5
  else
    match qRead s x.part x.vd x.taila 8 with
    | .wait | .fail _ _ => s
    | .bytes tb _ =>
      let tail := leNat tb
      if x.head + 2 ^ x.logsize ≤ tail then fin s 5
      else
        let at_ := x.ring + 128 * (tail % 2 ^ x.logsize)
        match qWrite s x.part x.vd at_ (r.data.map (·.2)) with
        | none => s
        | some s1 =>
          if qBusy s1 x.part x.vd at_ then s1
          else
            match qWrite s1 x.part x.vd x.taila (leBytes 8 (tail + 1)) with
            | some s2 => appendEnd (modReq s2.nextFresh tid r fun q => { q with stage := .atHome }) tid t r tok
            | none => s

/-! ## SYSC (R330 to R332, R457) -/

def syscNeed (o : Ops) : Need :=
  { type := o.a.cls == .v && (if o.sub = 0 then o.d.cls == .v else o.d.cls == .k)
    regs := [{ sp := .v, n := o.a.n.toNat, count := 8, align := 2 },
             if o.sub = 0 then opdUse o.d 2 2 true else kUse .h o.d.n.toNat true]
    full := o.sub != 0, ban := true }

/-- Bytes of a call record. Log entry 59: DEDUCED. -/
def callBytes : Nat := 2880

def callArgs (e : Env) (o : Ops) (L : Nat) : List Byte := (List.range 8).flatMap fun i => leBytes 4 (e.p.readV (o.a.n.toNat + i) L)

/-- The vector call record (R331). -/
def callRecord (e : Env) (o : Ops) (act : List Nat) : List Byte :=
  leBytes 2 o.x10.toNat ++ leBytes 2 act.length ++ leBytes 1 e.t.vd ++ leBytes 1 o.sub.toNat ++ leBytes 2 0 ++ leBytes 8 (maskOf act) ++
  leBytes 8 e.t.lid ++ leBytes 4 e.t.idx ++ leBytes 2 e.t.queue ++ leBytes 2 e.p.frame ++ leBytes 32 0 ++
  (List.range 64).flatMap (fun L => if act.contains L then callArgs e o L else leBytes 32 0) ++ leBytes 512 0 ++
  (List.range 64).flatMap fun L => leBytes 4 (if act.contains L then e.p.fid L else 2 ^ 32 - 1)

/-- Writes the record into the VD's ring; none while it cannot be. Log entry 59: DEDUCED. -/
def sendCall (s : State) (e : Env) (o : Ops) (act : List Nat) (token seq : Nat) : Option State :=
  match s.vd e.t.part e.t.vd with
  | none => none
  | some v =>
    let va := v.syscring + callBytes * (v.calls % 2 ^ v.sysclog)
    match qWalk s e.t.part e.t.vd va { w := true } with
    | .fail _ => none
    | .leaf l =>
      let pa := l.pa_ va
      if s.calls.any fun c => c.pa == pa then none
      else
        (qWrite s e.t.part e.t.vd va (callRecord e o act)).map fun s1 =>
          let c : CallRec := { pa := pa, va := va, vd := e.t.vd, part := e.t.part, team := e.p.team, uid := e.p.uid
                               sub := o.sub.toNat, token := token, seq := seq }
          { s1.modVd e.t.part e.t.vd fun v => { v with calls := v.calls + 1 } with calls := s1.calls ++ [c] }

/-- The pending destination of a call with SUB 0. -/
def callLoad (e : Env) (o : Ops) (act : List Nat) : LoadOp :=
  newLoad e o.d 2 .sysc (act.map fun L => { lane := L, fid := e.p.fid L, addr := 0 })

def execSysc (o : Ops) (s : State) : Out :=
  issue s (syscNeed o) o.h fun e act =>
    if act.isEmpty then commit s e o.h.len {}
    else if e.p.phase then commit s e o.h.len { tags := if o.sub = 0 then tagAll (dstOf e o.d) 2 0 else [] }
    else releaseThen (o.sub == 0) s e act .sys fun s e =>
      if o.sub = 0 then
        match sendCall s e o act 0 e.t.nextSeq with
        | none => waitHere s e
        | some s1 =>
          let e := (envAt s1 e.key).getD e
          let t := { e.t with loads := e.t.loads ++ [callLoad e o act], nextSeq := e.t.nextSeq + 1 }
          .next ({ e with t := t, p := { e.p.block s.cycle with phase := true } }.put s1)
      else
        match sendCall s e o act e.t.nextTok 0 with
        | none => .next s
        | some s1 => commit s1 (((envAt s1 e.key).getD e).newHandle (hNo o.d) { kind := .sysc }) o.h.len {}

end Sys2Proof.Machine
end

