-- ==== Sys2Proof/Machine/Contexts.lean ====
section
/-!
DEFINITION. Saved state: SAVEK, RESTK, RDDIV, WRDIV, TRET, 0xC2 to 0xC6; triggers, handler entry, forced saves, VD
switches, restores, and completions into images (R70, R239, R324, R358, R359, R375, R376, R411, R426 to R442).
-/
namespace Sys2Proof.Machine

/-! ## SAVEK and RESTK (R437, R438) -/

/-- The base from the lowest lane that holds a fibre; the CTX offset of the instruction. Log entry 82: DEDUCED. -/
def ctxOff (e : Env) (o : MemOps) : Int := addrBase e o.a (e.p.present.headD 0) + memDisp o false

/-- The address of a byte of the image: the base and a place in it may cancel before the segment's base is added (R225, R437). -/
def ctxAt (e : Env) (o : MemOps) (rel : Nat) : Nat := e.t.ctx.addr + (ctxOff e o + rel).toNat

/-- The 18-bit immediate. -/
def ctxImm (o : MemOps) : Nat := match o.b with | .imm i => (Imm.sext i).toNat % 2 ^ 18 | .reg _ => 0
/-- First allocation register and count of the `.v` form. -/
def ctxRun (o : MemOps) : Nat × Nat := (ctxImm o % 256, ctxImm o / 256 % 256 + 1)
/-- Tile number of the `.k` form. -/
def ctxTile (o : MemOps) : Nat := ctxImm o % 32

/-- The byte ranges of an image that a form touches, relative to its offset. -/
def ctxRanges (o : MemOps) : List (Nat × Nat) :=
  let (first, n) := ctxRun o
  match o.sub.toNat with
  | 0 => [(16384 + 256 * first, 256 * n), (12800 + first, n)]
  | 1 => [(13056, 128)]
  | _ => [(0, 16384)]

/-- The checks of R437 in their order. Log entry 82: DEDUCED. -/
def ctxCheck (e : Env) (o : MemOps) (wr : Bool) : Option Trap :=
  let off := ctxOff e o
  let (first, n) := ctxRun o
  if (o.sub = 0 ∧ e.p.alloc < first + n) ∨ (o.sub = 2 ∧ e.t.ktiles ≤ ctxTile o) then some .illegalReg
  else if (ctxRanges o).any fun r => !segOk e.t.ctx (off + (r.1 : Int)) r.2 (!wr) wr then some .seg
  else if off % 256 ≠ 0 then some .align else none

def ctxNeed (o : MemOps) : Need := { regs := [addrUse o.a], priv := true }

def posyTile (t : Team) (k : Nat) : List Byte := (List.range 4096).flatMap fun i => leBytes 4 (Tab.get 0 t.tiles (4096 * k + i)).toNat
def regBytes (p : Posy) (r : Nat) : List Byte :=
  (List.range 64).flatMap fun L => leBytes 4 (if p.holds L then (p.reg r L).toNat else 0)
/-- p15 to p0 of a lane; p0 reads true. -/
def imagePreds (p : Posy) (L : Nat) : Nat := if p.holds L then (predWord p L).toNat else 0
def predBytes (p : Posy) : List Byte := (List.range 64).flatMap fun L => leBytes 2 (imagePreds p L)

/-- The volatile range of the kernel, if its header declares one (R134). -/
def volOf (s : State) (t : Team) : Option (Nat × Nat) := (s.launch t.lid).bind (·.h.vol)

/-- Is an allocation register in the kernel's volatile range (R134)? -/
def volatileReg (s : State) (t : Team) (r : Nat) : Bool :=
  match volOf s t with | some (a, b) => decide (a ≤ r) && decide (r ≤ b) | none => false

/-- The parts of a run of registers before and behind the volatile range: first register and count. -/
def keptRuns (s : State) (t : Team) (first n : Nat) : List (Nat × Nat) :=
  match volOf s t with
  | none => [(first, n)]
  | some (a, b) => [(first, min n (a - first)), (max first (b + 1), first + n - max first (b + 1))]

/-- What a SAVEK stores, relative to its offset: the registers of the run (R438) but for those of the volatile range, which
no image holds (R134). Log entry 101: DEDUCED. -/
def saveData (s : State) (e : Env) (o : MemOps) : List (Nat × List Byte) :=
  let (first, n) := ctxRun o
  match o.sub.toNat with
  | 0 => (keptRuns s e.t first n).flatMap fun k =>
      [(16384 + 256 * k.1, (List.range k.2).flatMap fun i => regBytes e.p (k.1 + i)),
       (12800 + k.1, (List.range k.2).flatMap fun i => leBytes 1 (e.p.tag (k.1 + i)).toNat)]
  | 1 => [(13056, predBytes e.p)]
  | _ => [(0, posyTile e.t (ctxTile o))]

/-- A register of the allocation is the destination of a KREAD that has not happened. -/
def readPends (s : State) (e : Env) (r : Nat) : Bool :=
  (s.core e.core).kcmds.any fun c => match c.cmd with
    | .read _ uid dst _ n _ => uid == e.p.uid && decide (dst ≤ r) && decide (r < dst + 2 * n)
    | _ => false

/-- What a SAVEK at the posy's own image marks. -/
def markSaved (s : State) (e : Env) (o : MemOps) : Env :=
  let (first, n) := ctxRun o
  let all := (List.range n).map fun i => first + i
  let rs := all.filter fun r => !volatileReg s e.t r
  match o.sub.toNat with
  | 0 =>
    let hd := { e.p.hd with saved := Tab.setAll false e.p.hd.saved (all.map fun r => (r, true))
                            late := e.p.hd.late ++ rs.filter fun r => readPends s e r && !e.p.hd.late.contains r }
    { e with
      p := { e.p with hd := hd }
      t := { e.t with loads := e.t.loads.map fun l =>
        if l.uid = e.p.uid ∧ l.dcls = .v then
          { l with through := l.through ++ rs.filter fun r => decide (l.dst ≤ r) && decide (r < l.dst + l.count) && !l.through.contains r }
        else l } }
  | 1 => { e with p := { e.p with hd := { e.p.hd with savedPreds := true } } }
  | _ => e

def execSavek (o : MemOps) (s : State) : Out :=
  issue s (ctxNeed o) (plainHdr o.h) fun e act =>
    match ctxCheck e o true with
    | some t => trap s e t act
    | none =>
      let off := ctxOff e o
      let c := s.core e.core
      if o.sub = 2 && !mayRead c e.p.team c.kseq (ctxTile o) then .next s
      else
        let rs := (saveData s e o).flatMap fun x =>
          let a := ctxAt e o x.1
          (rangeReqs (baseReq e o .store) act (fidsOf e act) a x.2.length).map (withData (placed a x.2))
        let e1 := if (e.p.hd.mode == .save || e.p.hd.mode == .restore) && off == (e.p.hd.ctxbase : Int) then markSaved s e o else e
        let mine := o.sub == 2 && off == (e.t.tunit (e1.t.tunits.getD (ctxTile o) 255) : Int)
        let e2 := if mine then { e1 with t := { e1.t with tileSaved := e1.t.tileSaved ||| BitVec.twoPow 32 (ctxTile o) } } else e1
        sendReqs s e2 o.h.len rs none 0

/-- Is an allocation register of a run pending? -/
def runPends (s : State) (e : Env) (first n : Nat) : Bool :=
  (e.t.loads.any fun l => l.dcls == .v && l.uid == e.p.uid && decide (l.dst < first + n) && decide (first < l.dst + l.count)) ||
  (List.range n).any fun i => readPends s e (first + i)

/-- The load operation of a RESTK. -/
def restLoad (e : Env) (o : MemOps) (act : List Nat) (subs : List Nat) : LoadOp :=
  let (first, n) := ctxRun o
  let a := ctxAt e o
  let lane := fun (at_ L : Nat) => ({ lane := L, fid := e.p.fid L, addr := at_, subs := subs } : LaneLoad)
  match o.sub.toNat with
  | 0 => { newLoad e {} n (.restReg (a (12800 + first))) (act.map fun L => lane (a (16384 + 256 * first + 4 * L)) L) with dcls := .v, dst := first }
  | 1 => { newLoad e {} 15 .restPred (act.map fun L => lane (a (13056 + 2 * L)) L) with dcls := .k, dst := 1 }
  | _ => { newLoad e {} 0 (.restTile (ctxTile o)) [lane (a 0) (act.headD 0)] with dcls := .k, dst := 0 }

def execRestk (o : MemOps) (s : State) : Out :=
  issue s (ctxNeed o) (plainHdr o.h) fun e act =>
    match ctxCheck e o false with
    | some t => trap s e t act
    | none =>
      let (first, n) := ctxRun o
      if o.sub = 0 && runPends s e first n then .next s
      else
        let rs := (ctxRanges o).flatMap fun r => rangeReqs (baseReq e o .load) act (fidsOf e act) (ctxAt e o r.1) r.2
        sendReqs s e o.h.len rs (some (restLoad e o act (List.range rs.length))) 0

/-! ## RDDIV and WRDIV (R439) -/

/-- The divergence descriptor. -/
def divBytes (t : Team) (part : List Nat) : List Byte :=
  let at_ := fun (i : Option Nat) => match i with | some r => recOffset t r | none => allOnes64
  leBytes 8 (at_ part.head?) ++ leBytes 8 (at_ part.getLast?) ++ leBytes 4 part.length ++ leBytes 4 t.liveFibres ++
  leBytes 4 t.nextFid ++ leBytes 4 0 ++
  leBytes 8 ((Tab.live t.recs).foldl (fun m r => max m r.2.seq) 0) ++ leBytes 24 0

/-- The checks of the address: SEG before ALIGN. -/
def divCheck (e : Env) (o : MemOps) (wr : Bool) : Option Trap :=
  if !segOk e.t.ctx (ctxOff e o) 64 (!wr) wr then some .seg
  else if (e.t.ctx.addr + (ctxOff e o).toNat) % 64 ≠ 0 then some .align else none

def execRddiv (o : MemOps) (s : State) : Out :=
  issue s (ctxNeed o) (plainHdr o.h) fun e act =>
    match divCheck e o true with
    | some t => trap s e t act
    | none =>
      let a := e.t.ctx.addr + (ctxOff e o).toNat
      let rs := (rangeReqs (baseReq e o .store) act (fidsOf e act) a 64).map
        (withData (placed a (divBytes e.t (teamFifo s e.p.team e.t))))
      sendReqs s e o.h.len rs none 0

/-- An offset that names no record of the SPN segment. -/
def badLink (t : Team) (v : Nat) : Bool := v != allOnes64 && (decide (v % 64 ≠ 0) || decide (t.spn.limit < v + 64))

/-- The records from the one at an offset to the one at another, along the links, at most n. At an offset where no record
of the team stands, the record is what lies there. A link that cannot be read is taken from the FIFO, and sets MERR where it was
refused (R23, R27). Answers the team with the records read so. Log entry 18: DEDUCED. -/
def linkedPart (s : State) (team : Nat) (last : Nat) : Nat → Nat → Team → Team × List Nat
  | 0, _, t => (t, [])
  | n + 1, off, t =>
    if off = allOnes64 then (t, [])
    else
      let known := (Tab.live t.recs).find? fun r => recOffset t r.1 == off
      let id := (known.map (·.1)).getD t.nextRec
      let t1 := match known with
        | some _ => t
        | none =>
          { t with recs := Tab.set none t.recs t.nextRec (some { recOfBytes (fun o k => spawnRead s t (off + o) k) with off := some off })
                   nextRec := t.nextRec + 1 }
      let there := (List.range 8).all fun i => (spawnPa s t (off + 32 + i)).isSome
      let link := match known with
        | some r => if there then leNat (spawnRead s t (off + 32) 8) else recLink s team t r.1
        | none => leNat (spawnRead s t (off + 32) 8)
      let t1 := t1.raise (flagIf (spawnRefused s t off) flagMerr)
      if off = last then (t1, [id])
      else
        let rest := linkedPart s team last n link t1
        (rest.1, id :: rest.2)

/-- Puts a team's part of the FIFO in place of the one that is there. Log entry 18: DEDUCED. -/
def replaceFifo (s : State) (team core : Nat) (part : List Nat) : State :=
  s.modCore core fun c => { c with fifo := (c.fifo.filter fun e => e.1 != team) ++ part.map fun r => (team, r) }

/-- A part of the FIFO with the records that became runnable since the save began behind it (R70, R443). -/
def withLate (t : Team) (part : List Nat) : List Nat :=
  part ++ t.lateRecs.filter fun r => !part.contains r && (Tab.get none t.recs r).isSome

/-- A descriptor taken for a team: the records that it names, in order, and the next fibre index (R439). The number of live
fibres is that of the team's frames. Log entry 18: DEDUCED. -/
def takeDescriptor (s : State) (team : Nat) (t : Team) (bs : List Byte) : Team × List Nat :=
  let f := fun i n => leNat ((bs.drop i).take n)
  let x := linkedPart s team (f 8 8) (f 16 4 % 4096 + 1) (f 0 8) t
  ({ x.1 with nextFid := f 24 4 }, withLate x.1 x.2)

/-- A core's next SEQ is above the highest that a descriptor names (R47, R439). -/
def raiseSeq (s : State) (core : Nat) (bs : List Byte) : State :=
  s.modCore core fun c => { c with seq := max c.seq (leNat ((bs.drop 32).take 8) % 2 ^ 64 + 1) }

def wrdivRead (s : State) (e : Env) (o : MemOps) (act : List Nat) (a : Nat) : Out :=
  let r := { baseReq e o .sig with addr := a, size := 64, lanes := act, fids := fidsOf e act }
  .next ((s.setTeam e.p.team (some (pushReqs e.t [r]))).setPosy e.key (some { e.p.block s.cycle with phase := true, again := true }))

def execWrdiv (o : MemOps) (s : State) : Out :=
  issue s (ctxNeed o) (plainHdr o.h) fun e act =>
    if e.p.hd.mode ≠ .restore then trap s e .priv act
    else
      match divCheck e o false with
      | some t => trap s e t act
      | none =>
        let a := e.t.ctx.addr + (ctxOff e o).toNat
        match (if e.p.phase then ownSig e else none) with
        | none => wrdivRead s e o act a
        | some r =>
          if !r.landed then waitHere s e
          else
            let bs := r.reply.map (·.2)
            let first := leNat (bs.take 8)
            let last := leNat ((bs.drop 8).take 8)
            let e1 := { e with t := e.t.dropSigs e.core e.slot }
            if badLink e.t first || badLink e.t last then trap s { e1 with p := { e1.p with phase := false } } .seg act
            else
              let w := ctxWrite s e.p.team [(e.t.header + 112, bs)]
              match (if w.2 then envAt w.1 e.key else none) with
              | none => .next w.1
              | some e2 =>
                let x := takeDescriptor w.1 e.p.team (e2.t.dropSigs e.core e.slot) bs
                commit (raiseSeq (replaceFifo w.1 e.p.team e.core x.2) e.core bs) { e2 with t := x.1 } o.h.len {}

/-! ## What a save writes (R433 to R436) -/

/-- The image of a posy. -/
def Team.image (t : Team) (slot : Nat) : Option Image := t.images.find? fun i => i.slot == slot

/-- A request of a posy: made in its slot by one of its fibres. -/
def Posy.owns (p : Posy) (core slot : Nat) (r : Req) : Bool :=
  r.core == core && r.slot == slot && r.fids.any (p.present.map p.fid).contains

/-- Has a request not left its queue, and stays there while its posy is saved? What stands before a kiln command, a KSTORE or an
append of the posy goes on with it (R329, R354, R359). Log entry 66: DEDUCED. -/
def unsentReq (e : Env) (r : Req) : Bool :=
  r.stage == .queued && !r.replay && !(e.t.reqs.any fun q => decide (r.seq ≤ q.seq) && q.stage == .queued && e.p.owns e.core e.slot q &&
    match q.kind with | .kiln _ | .kstore _ | .append _ => true | _ => false)

/-- Requests of a posy that wait for a completion (R375), and those that the replay list records: the refused ones. The
unsent ones are neither (R367). Log entry 66: DEDUCED. -/
def owedReqs (e : Env) : List Req :=
  e.t.reqs.filter fun r => e.p.owns e.core e.slot r && (r.kind.isMem || r.kind == .breg) && !refusedReq r && !unsentReq e r &&
    !(r.kind == .sig && performedReq r)
/-- Log entry 66: DEDUCED. -/
def nackedReqs (e : Env) : List Req := e.t.reqs.filter fun r => e.p.owns e.core e.slot r && r.kind.isMem && refusedReq r

/-- A store, ACC or store-form atomic. -/
def Req.noReturn (r : Req) : Bool := match r.kind with | .store | .acc => true | .atomic => r.nr | _ => false

def owedOf (e : Env) (r : Req) : Owed := { seq := r.seq, sub := r.sub, slot := e.slot, store := r.noReturn }

/-- The entries of the replay list: the layout of R364 with CAUSE and STATE zero, and 4 in extensions. -/
def replayBytes (e : Env) (tid : Nat) (rs : List Req) : List Byte :=
  (rs.flatMap fun r =>
    let x := entryOf e.t tid r (r.cls, r.width)
    (List.range (1 + x.ext)).flatMap fun n =>
      let b := x.block false n
      if n = 0 then b.take 16 ++ [0, 0] ++ b.drop 18 else b).take 12288

/-- How a posy is written: the resume address, STATE, REP byte and PHASE. -/
structure SaveAs where
  pc : Nat
  state : Nat
  rep : Nat
  phase : Bool

/-- R435. -/
def imageHeader (e : Env) (x : SaveAs) : List Byte :=
  let nacks := nackedReqs e
  let owed := owedReqs e
  leBytes 8 x.pc ++ leBytes 1 x.state ++ leBytes 1 x.rep ++ leBytes 2 e.p.frame ++ leBytes 2 e.p.wbase ++ leBytes 2 e.p.alloc ++
  leBytes 1 e.slot ++ leBytes 1 (if x.phase then 1 else 0) ++ leBytes 2 0 ++ leBytes 4 owed.length ++ leBytes 8 (maskOf e.p.present) ++
  leBytes 4 (owed.filter Req.noReturn).length ++ leBytes 2 ((nacks.map fun r => 1 + extOf r).sum) ++ leBytes 2 0 ++
  leBytes 8 e.t.header ++ leBytes 8 e.t.layer ++ leBytes 8 0 ++
  (List.range 32).map (fun i => BitVec.ofNat 8 (maskOf ((List.range 8).filter fun j => Tab.get false e.p.hd.saved (8 * i + j)))) ++
  leBytes 1 (if e.p.hd.savedPreds then 1 else 0) ++ leBytes 31 0 ++
  (List.range 16).flatMap (fun i => leBytes 8 (e.f.hreg i).toNat) ++
  (List.range 64).flatMap fun L => leBytes 4 (if e.p.holds L then e.p.fid L else 2 ^ 32 - 1)

/-- What TRET writes of a posy: header, replay list, LFSRs and the zeros behind them. -/
def posyWrites (e : Env) (off : Nat) (x : SaveAs) : List (Nat × List Byte) :=
  [(off, imageHeader e x), (off + 512, replayBytes e e.p.team (nackedReqs e)),
   (off + 13184, ((List.range 64).flatMap fun L => leBytes 4 (Tab.get 0 e.p.lfsr L).toNat) ++ List.replicate 2944 0)]

/-- What a forced save adds: registers and predicates that the handler has not saved (R430). -/
def forcedWrites (s : State) (e : Env) (off : Nat) : List (Nat × List Byte) :=
  ((List.range e.p.alloc).filter fun r => !volatileReg s e.t r && !Tab.get false e.p.hd.saved r).flatMap (fun r =>
    [(off + 16384 + 256 * r, regBytes e.p r), (off + 12800 + r, leBytes 1 (e.p.tag r).toNat)]) ++
  (if e.p.hd.savedPreds then [] else [(off + 13056, predBytes e.p)])

def segBytes (g : SegReg) : List Byte := leBytes 8 g.base.toNat ++ leBytes 8 g.lim.toNat

/-- The bytes of a kiln load descriptor in the header. The spec gives its size and no format. -/
def openBytes (fresh n : Nat) : List Byte := (List.range n).map fun i => (Config.freeWord (fresh + i)).setWidth 8

/-- Codes of AFMT and ASEG (R342). -/
def AFmt.code (f : AFmt) : Nat := ((List.range 8).find? fun n => afmtOf n == some f).getD 0
def Seg.code (g : Seg) : Nat := ((List.range 5).find? fun n => segOfCode n == g).getD 0

/-- A tile task in the header: the record of R342 with its dependences resolved to tokens (R343, R359). A sharer's record
holds the ROWS that it takes from its predecessor. Log entry 67: DEDUCED. -/
def taskRecord (t : Team) (k : Task) : List Byte :=
  let own := fun (n v : Nat) => leBytes n (if k.reuse then 0 else v)
  let mem := fun (n v : Nat) => own n (if k.afmt = .acc then 0 else v)
  leBytes 1 (if k.mul then 1 else 0) ++ leBytes 1 k.acc ++ own 1 k.afmt.code ++ leBytes 1 k.rows ++ mem 1 (Seg.code k.aseg) ++
  own 1 k.aacc ++ leBytes 1 (if k.reuse then 1 else 0) ++ leBytes 1 0 ++ leBytes 4 k.btag ++ mem 4 k.apitch ++
  mem 8 (b64 k.aaddr - b64 (t.seg k.aseg).addr).toNat ++ (List.range 3).flatMap (fun i => leBytes 8 (k.deps.getD i 0)) ++
  (List.range 3).flatMap (fun i => leBytes 1 (if i < k.deps.length then 2 else 0)) ++ leBytes 13 0

/-- The team header (R433). -/
def headerBytes (s : State) (t : Team) (part : List Nat) (state : Nat) (tasks : List Task) (loads : List KDesc) : List Byte :=
  leBytes 8 t.lid ++ leBytes 4 t.idx ++ leBytes 2 t.queue ++ leBytes 1 state ++ leBytes 1 t.images.length ++
  segBytes t.glb ++ segBytes t.scr ++ segBytes t.cst ++ segBytes t.spn ++ segBytes t.ctx ++
  leBytes 4 t.fctl.toNat ++ leBytes 4 (flagWord t) ++ leBytes 4 t.tileSaved.toNat ++ leBytes 4 t.ktiles ++ divBytes t part ++
  (List.range 24).flatMap (fun i => leBytes 1 (match t.images[i]? with | some m => m.unit | none => 0xFF)) ++
  (List.range 32).flatMap (fun k => leBytes 1 (t.tunits.getD k 0xFF)) ++ leBytes 24 0 ++
  (List.range 128).flatMap (fun g => leBytes 2 (t.sunits.getD g 0xFFFF)) ++
  padTo 512 (openBytes s.fresh (32 * loads.length)) ++ padTo 4096 (tasks.flatMap (taskRecord t)) ++
  leBytes 3072 0

/-- Unstarted tasks of a team in the ring, and its load descriptors (R359). -/
def heldTasks (c : Core) (team : Nat) : List Task := c.ring.filter fun k => k.team == team && k.unstarted
def heldLoads (c : Core) (team : Nat) : List KDesc :=
  (((List.range 16).map fun m => c.macro_ m).filter fun x => x.team == team && x.st == .ready).foldl
    (fun ds x => if ds.contains x.desc then ds else ds ++ [x.desc]) [] ++
  (c.kloads.filter fun l => l.team == team).map (·.desc)

/-- What the end of a save writes of the team: header, scratch, and the tiles of a forced save.
Log entry 62: DEDUCED. Log entry 67: DEDUCED. -/
def teamWrites (s : State) (team : Nat) (t : Team) (forced : Bool) : List (Nat × List Byte) :=
  let c := s.core t.core
  (t.header, headerBytes s t (teamFifo s team t) 2 (t.savedTasks ++ heldTasks c team) (t.savedLoads ++ heldLoads c team)) ::
  ((List.range (t.salloc / 4096)).map fun g => (t.sunit (t.sunits.getD g 0), scratchRead t (4096 * g) 4096)) ++
  (if forced then
     ((List.range t.ktiles).filter fun k => !t.tileSaved.getLsbD k).map fun k => (t.tunit (t.tunits.getD k 0), posyTile t k)
   else [])

/-- The team as the image holds it: off the core, its kiln work kept for the resume (R359, R436), with what an earlier image
held and a trapped restore routine did not bring back (R431). `was`: the flags that the header holds. -/
def endSave (s : State) (team : Nat) (forced : Bool) (was : BitVec 6) : State :=
  match s.team team with
  | none => s
  | some t =>
    let c := s.core t.core
    let part := teamFifo s team t
    let prio := match t.save with | .saving _ b => b | _ => false
    let t1 := { t with
      save := .saved prio, fifoPart := part, savedTasks := t.savedTasks ++ heldTasks c team, savedLoads := t.savedLoads ++ heldLoads c team, scratch := []
      tiles := [], tileNos := [], flags := t.flags &&& ~~~was, lastTask := none, hdone := 0, forced := forced }
    let s1 := kilnDrop { s.setTeam team (some t1) with fresh := s.fresh + 8192 } t.core team
    (unmapGranules s1 t.core team).modCore t.core fun c => { c with fifo := c.fifo.filter fun e => e.1 != team }

/-- The place in an image that an owed request completes into (R375 ROUTE). -/
def routeOf (s : State) (t : Team) (off : Nat) (r : Req) : Nat :=
  if r.noReturn then ctxVa s t (off + 32)
  else ctxVa s t (off + 16384 + 256 * ((t.loads.find? fun l => l.seq == r.seq).map (·.dst)).getD 0)

/-- A frame that no posy of the core references any more goes to its frame record, its first one where the region has room
for it (R39, R128, R487). Log entry 16: DESIGN CHOICE. -/
def storeFrame (s : State) (team frame : Nat) : State :=
  s.modTeam team fun t =>
    if (s.posiesOf team).any (fun x => x.2.frame == frame) || !((t.frame frame).any (·.spawned) || t.spawnFits frameBytes) then t
    else t.placeFrame frame

/-- Takes a posy whose image is written out of its slot: its open requests are retagged, its refused ones leave
the request queue for the replay list, its unsent ones stay (R367, R375, R440 steps 3 and 4), and its frame is written back with the last posy (R128). Log entry 64: DEDUCED. -/
def leaveSlot (s : State) (e : Env) (off : Nat) : State :=
  let owed := owedReqs e
  let nacks := nackedReqs e
  let mine := fun (rs : List Req) (r : Req) => rs.any fun q => q.seq == r.seq && q.sub == r.sub
  let s1 := owed.foldl (fun s r => match r.stage with
    | .parked d n => (match findEntry s d n with
      | some x => setEntry s d { x with retag := true, route := routeOf s e.t off r }
      | none => s)
    | _ => s) s
  let s2 := detach s1 (fun o => match o with | .fetch _ c k u _ => c == e.core && k == e.slot && u == e.p.uid | _ => false) e.p.privileged
  let s3 := (s2.setPosy e.key none).modTeam e.p.team fun t => { (t.dropWaits e.core e.slot).keepSlot e.slot e.p.alloc with
    reqs := ((t.dropWaits e.core e.slot).reqs.filter fun r =>
      !mine nacks r && !(r.kind == .sig && performedReq r && e.p.owns e.core e.slot r)).map fun r =>
        if mine owed r then { r with route := some (routeOf s e.t off r) }
        else if e.p.owns e.core e.slot r && unsentReq e r then { r with kept := true } else r
    images := t.images.map fun m => if m.slot = e.slot then { m with alloc := e.p.alloc } else m
    retagged := t.retagged ++ owed.map (owedOf e)
    nacks := t.nacks ++ nacks }
  withSpawn s e.p.team (storeFrame s3 e.p.team e.p.frame)

/-! ## Triggers (R426 to R428, R432) -/

/-- Teams that hold pieces of a layer. -/
def layerPeers (s : State) (team : Nat) (t : Team) : List Team :=
  ((Tab.live s.teams).filter fun e => e.1 != team && e.2.part == t.part && e.2.vd == t.vd && e.2.place == t.place &&
    e.2.prio == t.prio && e.2.save != .resident).map (·.2)

/-- A trigger: the team is being saved from this cycle, and its pieces take the lowest free units of its layer. A
team already being saved is left as it is. -/
def trigger (s : State) (team : Nat) (prio : Bool) : State :=
  match s.team team with
  | none => s
  | some t =>
    if t.save ≠ .resident then s
    else
      let peers := layerPeers s team t
      let ps := s.posiesOf team
      let us := lowestFree (peers.flatMap fun u => u.images.map (·.unit)) ps.length
      let imgs := (us.zip ps).map fun x =>
        ({ slot := x.2.1 % Config.slots, unit := x.1, off := t.punit x.1, uid := x.2.2.uid } : Image)
      s.setTeam team (some { t with
        save := .saving s.cycle prio, images := imgs, hunit := (lowestFree (peers.map (·.hunit)) 1).headD 0
        sunits := lowestFree (peers.flatMap (·.sunits)) (t.salloc / 4096), tunits := lowestFree (peers.flatMap (·.tunits)) t.ktiles
        tileSaved := 0, hdone := 0, forced := false, ctxAborted := [], ctxPurged := [], lateRecs := [] })

/-- The holder of a join that waits becomes a waiting record, and its slot is free (R182). Log entry 65: DEDUCED. -/
def holderToRecord (s : State) (e : Env) : State :=
  let s1 := s.modTeam e.p.team fun t => { t.modFrame e.p.frame fun f => { f with joins := f.joins.map fun x =>
      (x.1, x.2.map fun j => if j.holder = some e.slot ∧ j.pc = e.p.pc then { j with holder := none } else j) } with
    images := t.images.filter fun i => i.slot != e.slot }
  withSpawn s e.p.team (freePosy (addRec s1 e.p.team (e.p.record e.p.present e.p.pc e.p.wbase .waiting false) false) e.key)

/-- The posy in its handler at an address (R428). -/
def Posy.inHandler (p : Posy) (hd : Handler) (pc : Nat) : Posy := { p.goto pc with hd := hd, rep := none, fetch := none, fetchOnes := none }

/-- HANDLER_ENTRY. Log entry 64: DEDUCED. Log entry 65: DEDUCED. -/
def handlerEntry (s : State) (core slot : Nat) : State :=
  match envAt s (posyKey core slot) with
  | none => s
  | some e =>
    let q := s.queue e.t.queue
    match e.t.save, e.t.image slot with
    | .saving _ _, some m =>
      if q.saveh = 0 || e.t.stopped.isSome || budgetLeft s e.t == 0 || e.p.hd.mode != .none then s
      else if e.p.joining && fibPending s e e.p.present then s
      else
        let x := ctxWrite s e.p.team [(e.t.header + 14, [1])]
        if !x.2 then x.1
        else if e.p.joining then kilnHold (holderToRecord x.1 e) core e.p.team
        else
          let hd : Handler := { mode := .save, hepc := e.p.pc, hcause := 0x10, hrep := BitVec.ofNat 8 (repByte e.p), ctxbase := m.off
                                phase := keptPhase e }
          let s1 := detach x.1 (fun o => match o with | .fetch _ c k u _ => c == core && k == slot && u == e.p.uid | _ => false) false
          let s2 := (s1.setPosy e.key (some (e.p.inHandler hd q.saveh))).modTeam e.p.team fun t => t.dropWaits core slot
          kilnHold s2 core e.p.team
    | _, _ => s

def execHandlerEntry (core slot : Nat) (s : State) : Out := .next (handlerEntry s core slot)

/-! ## TRET (R440) -/

def tretNeed : Need := { priv := true }

/-- The end of a save handler: the image is written, the posy leaves, and with the last one the save ends. -/
def tretSave (s : State) (e : Env) : Out :=
  match e.t.image e.slot with
  | none => waitHere s e
  | some m =>
    let last := (s.posiesOf e.p.team).length == 1
    if anyReadPending s e || (last && !kilnQuiet s e.core e.p.team) then waitHere s e
    else
      let as : SaveAs := { pc := e.p.hd.hepc, state := 1, rep := e.p.hd.hrep.toNat, phase := e.p.hd.phase }
      let x := ctxWrite s e.p.team (posyWrites e m.off as ++ (if last then teamWrites s e.p.team e.t false else []))
      if !x.2 then .next x.1
      else
        match envAt x.1 e.key with
        | none => .next x.1
        | some e1 =>
          let s1 := leaveSlot x.1 e1 m.off
          .next (if last then endSave s1 e.p.team false e.t.flags else s1)
where
  anyReadPending (s : State) (e : Env) : Bool :=
    (s.core e.core).kcmds.any fun c => match c.cmd with | .read _ uid _ _ _ _ => uid == e.p.uid | _ => false

def LoadKind.isRest : LoadKind → Bool | .restReg _ | .restPred | .restTile _ => true | _ => false

/-- The end of a restore routine: the posy is held at its resume address. -/
def tretRestore (s : State) (e : Env) : Out :=
  if e.t.loads.any fun l => l.uid == e.p.uid && l.kind.isRest then .next s
  else
    let h := e.p.hd
    let rep := if h.hrep.getLsbD 7 then some (h.hrep.toNat % 64) else none
    .next (s.setPosy e.key (some { e.p.goto h.hepc with rep := rep, phase := h.phase, hd := { mode := .held } }))

def execTret (o : Ops) (s : State) : Out :=
  issue s tretNeed o.h fun e act =>
    if e.p.hd.mode = .restore then tretRestore s e
    else releaseThenBy true false false s e act .dev fun s e => tretSave s e

/-! ## Forced saves (R430, R431) -/

/-- Must the context engine save the team by itself? -/
def mustForce (s : State) (team : Nat) (t : Team) : Bool :=
  match t.save with
  | .saving _ _ => budgetLeft s t == 0 || (s.queue t.queue).saveh == 0 || t.stopped.isSome || (s.posiesOf team).isEmpty
  | _ => false

/-- How a forced save writes a posy. -/
def forcedAs (e : Env) : SaveAs :=
  if e.p.privileged then { pc := e.p.hd.hepc, state := 3, rep := e.p.hd.hrep.toNat, phase := e.p.hd.phase }
  else { pc := e.p.pc, state := 2, rep := repByte e.p, phase := keptPhase e }

/-- A forced save of the team: it is held and its header says so, and then every posy that is left is saved, and the team. -/
def forcedSave (s : State) (team : Nat) : State :=
  match s.team team with
  | none => s
  | some t =>
    if !mustForce s team t then s
    else if !(s.core t.core).held.contains team then
      let x := ctxWrite s team [(t.header + 14, [1])]
      if x.2 then kilnHold x.1 t.core team else x.1
    else
      let envs := (s.posiesOf team).filterMap fun p => envAt s p.1
      match envs.find? fun e => e.p.joining && e.p.hd.mode == .none with
      | some e => if fibPending s e e.p.present then s else holderToRecord s e
      | none =>
        if !kilnQuiet s t.core team then s
        else
          let one := fun (e : Env) => match t.image e.slot with
            | some m => posyWrites e m.off (forcedAs e) ++ forcedWrites s e m.off
            | none => []
          let x := ctxWrite s team (envs.flatMap one ++ teamWrites s team t true)
          if !x.2 then x.1
          else
            let s1 := envs.foldl (fun s e => match envAt s e.key, t.image e.slot with
              | some e1, some m => leaveSlot s e1 m.off
              | _, _ => s) x.1
            endSave s1 team true t.flags

def execBudgetExpiry (team : Nat) (s : State) : Out := .next (forcedSave s team)

end Sys2Proof.Machine
end

