-- ==== Sys2Proof/Machine/Restore.lean ====
section
/-!
DEFINITION. Which teams leave and come back: priority pre-emption, time slices, VD switches, restores; and requests
that complete into an image (R239, R324, R359, R376, R411, R426, R427, R436, R441).
-/
namespace Sys2Proof.Machine

/-! ## Priority pre-emption (R324, R427) -/

/-- Before in the order of R324: lower priority first, then the most recently placed. -/
def victimBefore (a b : Team) : Bool := decide (a.prio < b.prio) || (a.prio == b.prio && decide (b.placed < a.placed))

def insertVictim (x : Nat × Team) : List (Nat × Team) → List (Nat × Team)
  | [] => [x]
  | y :: t => if victimBefore x.2 y.2 then x :: y :: t else y :: insertVictim x t

/-- The teams of a core that a launch may have removed, in order. One that is being saved already counts. -/
def victims (s : State) (l : Launch) (core : Nat) : List (Nat × Team) :=
  ((Tab.live s.teams).filter fun e => e.2.core == core && e.2.part == l.part && e.2.vd == l.vd && decide (e.2.prio < l.prio) &&
    match e.2.save with | .resident | .saving _ _ => true | _ => false).foldr insertVictim []

/-- The state without some teams. -/
def without (s : State) (ts : List (Nat × Team)) : State :=
  ts.foldl (fun s e => unmapGranules (((s.posiesOf e.1).foldl (fun s p => s.setPosy p.1 none) s).setTeam e.1 none) e.2.core e.1) s

/-- How many victims must go before the launch's next team fits a core. -/
def fitsAfter (s : State) (lid : Nat) (l : Launch) (place core : Nat) : Option Nat :=
  let vs := victims s l core
  (List.range (vs.length + 1)).find? fun n => (placeTeam (without s (vs.take n)) lid l place core).isSome

/-- The victims of the core that needs the fewest; ties to the lowest place. Log entry 70: DEDUCED. -/
def chooseVictims (s : State) (lid : Nat) (l : Launch) : List (Nat × Team) :=
  match s.vd l.part l.vd with
  | none => []
  | some v =>
    let c := (openPlaces v).filterMap fun x => (fitsAfter s lid l x.1 x.2).map fun n => (n, x.2)
    match c.foldl (fun best x => match best with
        | some b => if x.1 < b.1 then some x else best
        | none => some x) (none : Option (Nat × Nat)) with
    | some (n, core) => (victims s l core).take n
    | none => []

/-- A team is chosen; the teams of a co-resident launch go together. -/
def triggerWhole (s : State) (team : Nat) (t : Team) : State :=
  let whole := match s.launch t.lid with | some l => l.r.cores != 0 | none => false
  if whole then ((Tab.live s.teams).filter fun e => e.2.lid == t.lid).foldl (fun s e => trigger s e.1 true) s
  else trigger s team true

/-- PRIORITY_PREEMPT. -/
def priorityPreempt (s : State) (lid : Nat) : State :=
  match s.launch lid with
  | none => s
  | some l =>
    if !unplaced l || !turnToPlace s lid l || (placeOne s lid l fun _ => true).isSome then s
    else (chooseVictims s lid l).foldl (fun s e => triggerWhole s e.1 e.2) s

def execPriorityPreempt (lid : Nat) (s : State) : Out := .next (priorityPreempt s lid)

/-! ## Time slices (R426) -/

/-- Does a VD name a core? -/
def namesCore (v : Vd) (core : Nat) : Bool :=
  (List.range v.plcount).any fun p => let e := Tab.get {} v.places p; e.valid && e.core == core

/-- The core without teams, held by a VD, in the split that the VD would set: a core that nobody holds in the split that a
launch needs, another one in the VD's saved split if it has one (R426). -/
def coreFor (s : State) (core part vd split : Nat) : State :=
  let e := without s (teamsOn s core)
  e.modCore core fun c => { c with
    vd := some (vdKey part vd), nextVd := none, waiting := [], splitting := false, gmap := []
    lsplit := match c.vd.bind fun _ => (s.vd part vd).map fun v => Tab.get 0 v.splits core with
      | some (n + 1) => n
      | _ => if split ≤ 8 then split else c.lsplit }

/-- The first launch of a VD with an unplaced team that would fit a core which the VD takes. -/
def launchFor (s : State) (core part vd : Nat) (v : Vd) : Option Launch :=
  ((Tab.live s.launches).find? fun l => l.2.part == part && l.2.vd == vd && unplaced l.2 &&
    (openPlaces v).any fun x => x.2 == core && (placeTeam (coreFor s core part vd l.2.r.split) l.1 l.2 x.1 core).isSome).map (·.2)

/-- Has a VD a team for a core: a saved team of it, or an unplaced team that would fit? -/
def hasTeamFor (s : State) (core part vd : Nat) (v : Vd) : Bool :=
  ((Tab.live s.teams).any fun e => e.2.core == core && e.2.part == part && e.2.vd == vd && !e.2.occupies) ||
  (launchFor s core part vd v).isSome

/-- The VDs of a core's partition in the order in which they take it after one of them. -/
def vdsAfter (s : State) (core : Nat) (after : Option Nat) : List (Nat × Vd) :=
  let part := partOfCore s core
  let all := (List.range 64).filterMap fun n => (s.vd part n).map fun v => (n, v)
  match after with
  | some k => all.filter (fun x => decide (k < x.1)) ++ all.filter fun x => decide (x.1 < k)
  | none => all

/-- The VD that takes the core next. -/
def nextVdFor (s : State) (core : Nat) (after : Option Nat) : Option Nat :=
  ((vdsAfter s core after).find? fun x => namesCore x.2 core && hasTeamFor s core (partOfCore s core) x.1 x.2).map (·.1)

/-- SLICE_END: a core that nobody holds is taken; at the end of a slice the core goes to the next VD that has a
team for it, or the slice restarts. Log entry 71: DEDUCED. -/
def sliceEnd (s : State) (core : Nat) : State :=
  let c := s.core core
  let part := partOfCore s core
  if c.nextVd.isSome || decide (Config.coreCount ≤ core) then s
  else
    match c.vd.bind fun k => Tab.get none s.vds k with
    | none =>
      match nextVdFor s core none with
      | some n => s.setCore core { c with vd := none, nextVd := some (vdKey part n) }
      | none => s
    | some v =>
      let mine := (teamsOn s core).map (·.1)
      let busy := mine.any fun i => match s.team i with | some t => t.save == .restoring | none => false
      if busy || decide (s.time < c.sliceAt + 1000 * v.slice) then s
      else
        match nextVdFor s core (c.vd.map (· % 64)) with
        | some n => mine.foldl (fun s i => trigger s i false) (s.setCore core { c with nextVd := some (vdKey part n) })
        | none => s.setCore core { c with sliceAt := s.time }

def execSliceEnd (core : Nat) (s : State) : Out := .next (sliceEnd s core)

/-! ## VD switch (R239, R411, R436) -/

/-- Place of a core in a VD's table. -/
def placeOf (v : Vd) (core : Nat) : Option Nat :=
  (List.range v.plcount).find? fun p => let e := Tab.get {} v.places p; e.valid && e.core == core

/-- A core header. -/
def coreHeader (c : Core) : List Byte :=
  leBytes 1 c.lsplit ++ leBytes 63 0 ++ ((List.range 64).flatMap fun b => leBytes 8 (Tab.get 0 c.bars b).toNat) ++ List.replicate 3520 0

/-- Writes and reads of a core header are requests of a team of the VD that is saved from the core. -/
def savedFrom (s : State) (core part vd : Nat) : Option Nat :=
  ((Tab.live s.teams).find? fun e => e.2.core == core && e.2.part == part && e.2.vd == vd && !e.2.occupies).map (·.1)

/-- The access of a core header of a VD that has no team saved from the core waits, and parks where its page fails (R436). None:
it may go. Log entry 69: DEDUCED. -/
def hdrBlocked (s : State) (core part vd : Nat) (write : Bool) (va n : Nat) : Option State :=
  let d := engineDie s part
  let ps := (cutLines va n).filter fun p => !(s.core core).hdrAborted.contains (p.1 / 128)
  if ps.any fun p => match ownerEntry s d (.coreHdr core write (p.1 / 128)) with | some e => e.st == .parked | none => false then some s
  else (ps.findSome? fun p => match qWalk s part vd p.1 (if write then { w := true } else { r := true }) with
    | .fail f => some (p, f) | .leaf _ => none).map fun x =>
      if s.cycle < (s.core core).hdrRetry then s
      else
        let y := parkAs (countWalk s d x.2) d
          { pseq := 0, owner := .coreHdr core write (x.1.1 / 128), va := x.1.1, size := x.1.2, cause := x.2.cause, kind := if write then 6 else 5
            vd := vd, part := part, dreg := 1, core := core, pgsz := x.2.pgsz, missing := x.2.missing, cls := .un, inst := x.2.inst
            data := if write then coreHeader (s.core core) |>.drop (x.1.1 - va) |>.take x.1.2 else [] } { bytes := x.1.2 }
        if y.2.isSome then y.1 else y.1.modCore core fun c => { c with hdrRetry := s.cycle + 256 }

/-- The access is over: its replayed entries are free. -/
def hdrDone (s : State) (core part : Nat) (write : Bool) : State :=
  let d := engineDie s part
  (((s.die d).entries.filter fun x => x.st == .replay && match x.owner with | .coreHdr c w _ => c == core && w == write | _ => false).foldl
    (fun s x => freeEntry s d x) s).modCore core fun c => { c with hdrAborted := [] }

def putCoreHeader (s : State) (core part vd : Nat) (v : Vd) (p : Nat) : State × Bool :=
  let at_ := p * Config.coreArea
  match savedFrom s core part vd with
  | some t => ctxWrite s t [(at_, coreHeader (s.core core))]
  | none =>
    let va := v.ctxva + at_
    match hdrBlocked s core part vd true va 4096 with
    | some s1 => (s1, false)
    | none =>
      let bs := coreHeader (s.core core)
      let gone := (s.core core).hdrAborted
      match ((cutLines va 4096).filter fun p => !gone.contains (p.1 / 128)).foldlM (fun s p =>
          qWrite s part vd p.1 ((bs.drop (p.1 - va)).take p.2)) s with
      | some s1 => (hdrDone s1 core part true, true)
      | none => (s, false)

/-- The outgoing VD's split and barrier words go into its core header. -/
def switchOut (s : State) (core : Nat) : State × Bool :=
  let c := s.core core
  match c.vd with
  | none => (s, true)
  | some k =>
    match s.vd (k / 64) (k % 64) with
    | none => (s, true)
    | some v =>
      let keep := fun (s : State) => s.modVd (k / 64) (k % 64) fun v => { v with
        splits := Tab.set 0 v.splits core (c.lsplit + 1), barSaved := Tab.set false v.barSaved core true }
      match placeOf v core with
      | none => (keep s, true)
      | some p => let x := putCoreHeader s core (k / 64) (k % 64) v p; (if x.2 then keep x.1 else x.1, x.2)

/-- The 64 words of a core header's bytes. -/
def headerBars (bs : List Byte) : Tab (BitVec 64) :=
  Tab.ofList 0 0 ((List.range 64).map fun b => b64 (leNat ((bs.drop (64 + 8 * b)).take 8)))

/-- The incoming VD's barrier words: zero where it never gave them up. -/
def barsIn (s : State) (core part vd : Nat) (v : Vd) : State × Option (Tab (BitVec 64)) :=
  if !Tab.get false v.barSaved core then (s, some [])
  else
    match placeOf v core with
    | none => (s, some [])
    | some p =>
      match savedFrom s core part vd with
      | some t => let x := ctxRead s t [(p * Config.coreArea, 576)]; (x.1, x.2.map fun bs => headerBars (bs.headD []))
      | none =>
        let va := v.ctxva + p * Config.coreArea
        match hdrBlocked s core part vd false va 576 with
        | some s1 => (s1, none)
        | none =>
          let gone := (s.core core).hdrAborted
          let got := (cutLines va 576).map fun x => if gone.contains (x.1 / 128) then QGot.bytes (ones x.2) true else qRead s part vd x.1 x.2
          if got.any (fun g => match g with | .bytes _ _ => false | _ => true) then (s, none)
          else (hdrDone s.nextFresh core part false, some (headerBars (got.flatMap fun g => match g with | .bytes bs _ => bs | _ => [])))

/-- The split that a VD sets as it takes a core: the saved one, else the one that its team's launch needs (R239, R426). -/
def switchSplit (s : State) (core part vd : Nat) (v : Vd) : Nat :=
  match Tab.get 0 v.splits core with
  | n + 1 => n
  | 0 => match (launchFor s core part vd v).map (·.r.split) with | some n => if n ≤ 8 then n else (s.core core).lsplit | none => (s.core core).lsplit

/-- A team has its granules, which the map already keeps for it or gives it now if all are free (R233, R239). -/
def giveGranules (s : State) (team : Nat) (t : Team) : State :=
  if (s.core t.core).gmap.any fun x => x.2.any fun y => y.1 == team then s
  else if scratchFree s t.core < t.salloc / 4096 then s else mapGranules s t.core team (t.salloc / 4096)

/-- The granules of the VD's teams that the end of a slice saved from the core (R239). -/
def sliceGranules (s : State) (core part vd : Nat) : State :=
  ((Tab.live s.teams).filter fun e => e.2.core == core && e.2.part == part && e.2.vd == vd && e.2.save == .saved false).foldl
    (fun s e => giveGranules s e.1 e.2) s

/-- VD_SWITCH: once the outgoing teams are saved and the L1 is merged and drained, the split and the CORE barriers
are exchanged and the incoming VD holds the core, with the granules of its teams that a slice saved from it. Log entry 71: DEDUCED. -/
def vdSwitch (s : State) (core : Nat) : State :=
  match (s.core core).nextVd with
  | none => s
  | some k =>
    if !(teamsOn s core).isEmpty then s
    else
      match s.vd (k / 64) (k % 64) with
      | none => s.modCore core fun c => { c with nextVd := none }
      | some v =>
        if !l1Clean s core then flushL1 s core
        else
          let x := barsIn s core (k / 64) (k % 64) v
          match x.2 with
          | none => x.1
          | some bars =>
            let y := switchOut x.1 core
            if !y.2 then y.1
            else
              let split := switchSplit s core (k / 64) (k % 64) v
              let z := recallL1 y.1 core
              sliceGranules ((if split = (z.core core).lsplit then z else dropL1 z core).modCore core fun c => { c with
                lsplit := split, gmap := [], bars := bars, vd := some k, nextVd := none
                sliceAt := s.time, splitting := false }) core (k / 64) (k % 64)

def execVdSwitch (core : Nat) (s : State) : Out := .next (vdSwitch s core)

/-! ## Restore (R441) -/

/-- The slot that a saved posy takes. -/
def restoreSlot (s : State) (core win slot alloc : Nat) : Option Nat :=
  let free := slotFree s core
  let bay := slot % 4
  let same := if free slot then some slot else ((List.range 6).map fun j => bay + 4 * j).find? free
  match same with
  | some i => if alloc ≤ bayOpen s core bay then some i else none
  | none => (slotsFree s core).find? fun i => decide (alloc + reserveFor s core win (i % 4) ≤ bayOpen s core (i % 4))

/-- Each image takes a slot. -/
def placeImages (team core win : Nat) : List Image → State → Option State
  | [], s => some s
  | m :: t, s =>
    match restoreSlot s core win m.slot m.alloc with
    | some i => placeImages team core win t
        (s.seat core i { uid := m.uid, team := team, frame := 0, pc := 0, alloc := m.alloc })
    | none => none

def winOf (s : State) (t : Team) : Nat := match s.launch t.lid with | some l => l.h.winmax | none => 8

/-- A team that a priority pre-emption saved fits again where no other launch waits on its core, but for one against which a saved
team holds the core (R321, R324, R427). Log entry 61: DEDUCED. -/
def resumeWaits (s : State) (t : Team) : Bool :=
  let c := s.core t.core
  t.save == .saved true && c.taken != t.lid && c.waiting.any fun w => w != t.lid && match s.launch w with
    | some l => c.vd == some (vdKey l.part l.vd) && !heldForSaved s l t.core
    | none => false

/-- May a saved team come back now, as far as its own state says? OCC is zero, it is not stopped, and no launch waits before it. -/
def restorable (s : State) (t : Team) : Bool :=
  let c := s.core t.core
  !resumeWaits s t &&
  !t.occupies && t.stopped.isNone && t.retagged.isEmpty && c.vd == some (vdKey t.part t.vd) && c.nextVd.isNone && !c.splitting

/-- The granules that the map gives a team. -/
def granulesOf (s : State) (core team : Nat) : Nat := ((s.core core).gmap.filter fun x => x.2.any fun y => y.1 == team).length

/-- The state with a saved team in its units, if it fits. -/
def fitSaved (s : State) (team : Nat) : Option State :=
  match s.team team with
  | none => none
  | some t =>
    if restorable s t && decide (t.salloc / 4096 ≤ (granulesOf (giveGranules s team t) t.core team)) && decide (t.ktiles ≤ tilesFree s t.core) then
      placeImages team t.core (winOf s t) t.images
        ((giveGranules s team t).setTeam team (some { t with save := .restoring, idle := [], tileNos := takeTiles s t.core t.ktiles }))
    else none

/-- Saved teams of the core that come back before this one. -/
def restoresFirst (s : State) (team : Nat) (t : Team) : Bool :=
  (Tab.live s.teams).any fun e => e.1 != team && e.2.core == t.core && e.2.part == t.part && e.2.vd == t.vd && restorable s e.2 &&
    (decide (t.prio < e.2.prio) || (e.2.prio == t.prio && (decide (e.2.lid < t.lid) || (e.2.lid == t.lid && decide (e.2.idx < t.idx))))) &&
    (fitSaved s e.1).isSome

/-- A launch that places before the team's, and could on its core (R322). -/
def placesFirst (s : State) (t : Team) : Bool :=
  match s.launch t.lid with
  | none => false
  | some l => (Tab.live s.launches).any fun e => e.1 != t.lid && e.2.part == t.part && unplaced e.2 && launchBefore e t.lid l &&
      (placeOne s e.1 e.2 fun c => c == t.core).isSome

/-- The teams of a co-resident launch that a priority pre-emption saved all fit again. -/
def wholeFits (s : State) (t : Team) : Bool :=
  let co := match s.launch t.lid with | some l => l.r.cores != 0 | none => false
  if co && t.save == .saved true then
    let ids := ((Tab.live s.teams).filter fun e => e.2.lid == t.lid && e.2.save == .saved true).map (·.1)
    (ids.foldlM (fun s i => fitSaved s i) s).isSome
  else true

/-- The split of the team's launch, where the core may still change it. -/
def splitFor (s : State) (t : Team) : Option Nat :=
  match s.launch t.lid with
  | some l => if splitOk (s.core t.core) l.r then none else some l.r.split
  | none => none

/-- A field of an image or header. -/
def bytesAt (bs : List Byte) (off n : Nat) : Nat := leNat ((bs.drop off).take n)

/-- What one image gave: header, LFSRs, and for a forced posy tags, predicates and registers. -/
structure ImageIn where
  m : Image
  h : List Byte
  lf : List Byte
  tags : List Byte := []
  preds : List Byte := []
  regs : List Byte := []

/-- Is an image loaded whole (R441 steps 4 and 5)? -/
def wholeImage (resth : Nat) (h : List Byte) : Bool := resth == 0 || bytesAt h 8 1 != 1

/-- n free words. -/
def freeWords (fresh n : Nat) : List W32 := (List.range n).map fun i => (Config.freeWord (fresh + i)).setWidth 32

/-- A restored posy. What its image does not give is undefined. Log entry 63: DEDUCED. -/
def restoredPosy (s : State) (team : Nat) (t : Team) (x : ImageIn) (resth fresh : Nat) : Posy :=
  let h := x.h
  let whole := wholeImage resth h
  let alloc := bytesAt h 14 2
  let mask := bytesAt h 24 8
  let lanes := (List.range 64).filter mask.testBit
  let word := fun k => b32 (bytesAt x.regs (4 * k) 4)
  let kept := fun r => whole && !volatileReg s t r
  let tag := fun r => if kept r then tagOfByte (x.tags.getD r 0) else tagOfByte ((Config.freeWord (fresh + 16384 + r)).setWidth 8)
  let pred := fun L => if whole then BitVec.ofNat 16 (bytesAt x.preds (2 * L) 2) else (Config.freeWord (fresh + 16640 + L)).setWidth 16
  let rep := bytesAt h 9 1
  let p : Posy :=
    { uid := x.m.uid, team := team, frame := bytesAt h 10 2, pc := bytesAt h 0 8, wbase := bytesAt h 12 2, alloc := alloc
      lanes := lanes.map fun L => (L, some (bytesAt h (256 + 4 * L) 4))
      preds := Tab.setAll 0 [] (lanes.map fun L => (L, pred L &&& 0xFFFE))
      v := (List.range (64 * alloc)).filterMap fun k =>
        let y := if kept (k / 64) then word k else (Config.freeWord (fresh + k)).setWidth 32
        if y = 0 ∨ !mask.testBit (k % 64) then none else some (k, y)
      tags := Tab.ofList 0 0 ((List.range alloc).map tag)
      lfsr := Tab.setAll 0 [] (lanes.map fun L => (L, b32 (bytesAt x.lf (4 * L) 4)))
      since := s.cycle }
  if whole then
    { p with hd := { mode := .held }, phase := bytesAt h 17 1 == 1, rep := if rep.testBit 7 then some (rep % 64) else none }
  else
    { p with
      pc := resth
      hd := { mode := .restore, hepc := bytesAt h 0 8, hcause := 0x11, hrep := BitVec.ofNat 8 rep &&& 0xBF, ctxbase := x.m.off
              phase := bytesAt h 17 1 == 1 } }

/-- The team with what its header gives (R441 step 2), without reserved bits (R4), but for a segment that R223 forbids; tiles that are not loaded are undefined. Log entry 63: DEDUCED.
Log entry 68: DEDUCED. -/
def restoredTeam (t : Team) (h : List Byte) (scr : List (List Byte)) (tiles : List (Nat × List Byte)) (fresh : Nat) : Team :=
  let seg := fun i =>
    let g := segOfCode i
    let r : SegReg := { base := b64 (bytesAt h (16 + 16 * i) 8 % 2 ^ 52)
                        lim := b64 (bytesAt h (24 + 16 * i) 8) &&& ~~~(b64 (0xFF * 2 ^ 53)) }
    if segldBad t g r.base r.lim then t.seg g else r
  { t with
    glb := seg 0, scr := seg 1, cst := seg 2, spn := seg 3, ctx := seg 4, fctl := BitVec.ofNat 32 (bytesAt h 96 4) &&& 7
    flags := t.flags ||| BitVec.ofNat 6 (bytesAt h 100 1), arm := BitVec.ofNat 6 (bytesAt h 101 1)
    scratch := Tab.ofList 0 0 scr.flatten, fifoPart := [], ctxAborted := [], ctxPurged := []
    tiles := (List.range t.ktiles).flatMap fun k => match tiles.find? fun x => x.1 == k with
      | some (_, bs) => Tab.ofList 0 (4096 * k) ((List.range 4096).map fun i => b32 (bytesAt bs (4 * i) 4))
      | none => Tab.ofList 0 (4096 * k) (freeWords (fresh + 4096 * k) 4096) }

/-- The ranges of a whole image beside its header and LFSRs. -/
def wholeRanges (x : ImageIn) : List (Nat × Nat) :=
  [(x.m.off + 12800, 256), (x.m.off + 13056, 128), (x.m.off + 16384, 256 * bytesAt x.h 14 2)]

/-- Hands the bytes read to the images that asked for them. -/
def fillImages (resth : Nat) : List ImageIn → List (List Byte) → List ImageIn × List (List Byte)
  | [], bs => ([], bs)
  | x :: t, bs =>
    if wholeImage resth x.h then
      let r := fillImages resth t (bs.drop 3)
      ({ x with tags := bs.getD 0 [], preds := bs.getD 1 [], regs := bs.getD 2 [] } :: r.1, r.2)
    else let r := fillImages resth t bs; (x :: r.1, r.2)

/-- The posies and the team take their places, and the descriptor of the header gives the team's part of the core FIFO (R439). -/
def installTeam (s : State) (team : Nat) (xs : List ImageIn) (h : List Byte) (scr : List (List Byte)) (tiles : List (Nat × List Byte))
    (resth : Nat) : State :=
  match fitSaved s team with
  | none => s
  | some s1 =>
    match s1.team team with
    | none => s
    | some t =>
      let s2 := ((List.range xs.length).zip xs).foldl (fun s y => match posyOf s y.2.m.uid with
        | some (k, _) => s.setPosy k (some (restoredPosy s team t y.2 resth (s.fresh + 131072 + 17000 * y.1)))
        | none => s) s1
      let images := t.images.map fun m => match posyOf s2 m.uid with | some (k, _) => { m with slot := k % Config.slots } | none => m
      let moved := fun (r : Req) => match (t.images.zip images).find? fun x => x.1.slot == r.slot with
        | some x => { r with slot := x.2.slot }
        | none => r
      let d := takeDescriptor s2 team t ((h.drop 112).take 64)
      let s3 := s2.setTeam team (some { restoredTeam d.1 h scr tiles s.fresh with
        images := images, nacks := t.nacks.map moved, reqs := t.reqs.map fun r => if r.kept then moved r else r })
      let s4 := raiseSeq (s3.modCore t.core fun c => { c with fifo := c.fifo ++ d.2.map fun r => (team, r) }) t.core ((h.drop 112).take 64)
      { s4 with fresh := s.fresh + 131072 + 17000 * 24 }

/-- The reads of a restore, and the team in its places. -/
def restoreRead (s : State) (team : Nat) (t : Team) : State :=
  let resth := (s.queue t.queue).resth
  let n := t.images.length
  let g := t.salloc / 4096
  let r1 := ctxRead s team ((t.header, 8192) :: (List.range g).map (fun i => (t.sunit (t.sunits.getD i 0), 4096)) ++
    t.images.map (fun m => (m.off, 512)) ++ t.images.map fun m => (m.off + 13184, 256))
  match r1.2 with
  | none => r1.1
  | some bs =>
    let h := bs.headD []
    let xs : List ImageIn := ((List.range n).zip t.images).map fun y =>
      { m := y.2, h := bs.getD (1 + g + y.1) [], lf := bs.getD (1 + g + n + y.1) [] }
    let whole := xs.filter fun x => wholeImage resth x.h
    let ts := if t.forced || !whole.isEmpty then
      (List.range t.ktiles).filter fun k => t.forced || (bytesAt h 104 4).testBit k else []
    let r2 := ctxRead r1.1 team (whole.flatMap wholeRanges ++ ts.map fun k => (t.tunit (t.tunits.getD k 0), 16384))
    match r2.2 with
    | none => r2.1
    | some cs =>
      let f := fillImages resth xs cs
      let w := ctxWrite r2.1 team [(t.header + 14, [3])]
      if w.2 then installTeam w.1 team f.1 h ((bs.drop 1).take g) (ts.zip f.2) resth else w.1

/-- RESTORE. -/
def restoreTeam (s : State) (team : Nat) : State :=
  match s.team team with
  | none => s
  | some t =>
    if !restorable s t then s
    else
      match splitFor s t with
      | some n =>
        if !(teamsOn s t.core).isEmpty || placesStill s (s.core t.core) t.lid then s
        else if !l1Clean s t.core then flushL1 s t.core
        else (dropL1 (recallL1 s t.core) t.core).modCore t.core fun c => { c with lsplit := n, gmap := [] }
      | none =>
        if (fitSaved s team).isNone || restoresFirst s team t || placesFirst s t || !wholeFits s t then s else restoreRead s team t

def execRestore (team : Nat) (s : State) : Out := .next (restoreTeam s team)

/-! ## The end of a restore (R441 step 6) -/

/-- The volatile registers of a resumed posy are undefined (R134). -/
def dropVolatile (s : State) (t : Team) (p : Posy) (fresh : Nat) : Posy :=
  let word := fun k => (Config.freeWord (fresh + k)).setWidth 32
  let rs := (List.range p.alloc).filter (volatileReg s t)
  { p with
    v := Tab.setAll 0 p.v (rs.flatMap fun r => p.present.map fun L => (64 * r + L, word (64 * r + L)))
    tags := Tab.setAll 0 p.tags (rs.map fun r => (r, tagOfByte ((Config.freeWord (fresh + 16384 + r)).setWidth 8))) }

/-- Puts a request at its place in program order. -/
def insertReq (r : Req) : List Req → List Req
  | [] => [r]
  | q :: t => if decide (r.seq < q.seq) || (r.seq == q.seq && decide (r.sub < q.sub)) then r :: q :: t else q :: insertReq r t

/-- The kiln takes back what the image held (R359): reloads first, then the tasks in their order. -/
def kilnResume (s : State) (team : Nat) (t : Team) : State :=
  let loads := (List.range t.savedLoads.length).zip t.savedLoads
  let c0 := s.core t.core
  let c1 := loads.foldl (fun (c : Core) x => { c with
    kseq := c.kseq + 1
    kloads := c.kloads ++ [{ team := team, token := t.nextTok + x.1, seq := c.kseq, desc := x.2, macros := [], todo := kloadReqs x.2, reload := true }] }) c0
  let renew := fun (c : Core) (k : Task) =>
    ({ k with seq := c.kseq, st := .entered, todo := fetchReqs k, buf := [], parked := [], aborted := [], bad := false } : Task)
  let c2 := t.savedTasks.foldl (fun (c : Core) k => addKcmd { c with ring := c.ring ++ [renew c k] }
    { team := team, seq := c.kseq, cmd := .task k.token k.acc (if k.afmt = .acc then some k.aacc else none) }) c1
  let last := (c2.ring.filter fun k => k.team == team).getLast?
  (s.setCore t.core c2).modTeam team fun t => { t with
    savedLoads := [], savedTasks := [], nextTok := t.nextTok + loads.length
    lastTask := last }

/-- RESTORE_END: the posies resume, without their volatile registers, whatever a restore routine left there (R134). The
ring has room for the saved tasks (R334, R359). -/
def restoreEnd (s : State) (team : Nat) : State :=
  match s.team team with
  | none => s
  | some t =>
    if t.save ≠ .restoring ∨ (s.posiesOf team).any (fun e => e.2.hd.mode != .held) ∨ 64 < ringUsed (s.core t.core) + t.savedTasks.length then s
    else
      let x := ctxWrite s team [(t.header + 14, [0])]
      if !x.2 then x.1
      else
        let ps := s.posiesOf team
        let s1 := ((List.range ps.length).zip ps).foldl (fun s y =>
          s.modPosy y.2.1 fun p => { dropVolatile s t p (s.fresh + 17000 * y.1) with hd := {} }) x.1
        let s2 := kilnResume { s1 with fresh := s1.fresh + 17000 * 24 } team t
        s2.modTeam team fun t => { t with
          save := .resident, images := [], hunit := 0, sunits := [], tunits := []
          reqs := t.nacks.foldl (fun rs r => insertReq { r with reissue := true, stage := .refused 0 } rs) (t.reqs.map fun r => { r with kept := false })
          nacks := [], hdone := 0, forced := false, tileSaved := 0, lateRecs := [] }

def execRestoreEnd (team : Nat) (s : State) : Out := .next (restoreEnd s team)

/-! ## Completions into an image (R376, R438) -/

/-- Is a store to a posy image still to be performed? A reply to one of its registers comes after it.
Log entry 81: DEDUCED. -/
def imageBusy (s : State) (t : Team) (off : Nat) : Bool :=
  let a := ctxVa s t off
  t.reqs.any fun r => r.kind == .store && !r.scratch && !performedReq r && decide (a + 12800 ≤ r.addr) && decide (r.addr < a + 81920)

/-- The image bytes of a finished load whose destination is varying or a predicate, for the registers that a test
keeps. Log entry 81: DEDUCED. -/
def landImage (s : State) (team off : Nat) (l : LoadOp) (keep : Nat → Bool) : State × Option (List (Nat × List Byte)) :=
  let x := landed l
  if l.dcls = .v then
    let vw := x.words.flatMap fun w => ((List.range w.2.length).zip w.2).map fun y => (l.dst + y.1, w.1, y.2)
    (s, some (imageWords off (vw.filter fun w => keep w.1) ((landedTags l x).filter fun w => keep w.1)))
  else
    let at_ := fun (L : Nat) => off + 13056 + 2 * L
    let r := ctxRead s team (x.preds.map fun w => (at_ w.1, 2))
    (r.1, r.2.map fun bs => (x.preds.zip bs).map fun y => (at_ y.1.1, leBytes 2 (setBit16 (BitVec.ofNat 16 (leNat y.2)) l.dst y.1.2).toNat))

/-- Has a retagged request been answered, or performed? -/
def owedDone (t : Team) (o : Owed) : Bool :=
  match t.reqs.find? fun r => r.seq == o.seq && r.sub == o.sub with
  | some r => performedReq r || (r.stage == .atHome && r.snap == some [])
  | none => true

/-- OCC and the outstanding-store count of an image. -/
def owedCounts (off slot : Nat) (rest : List Owed) : List (Nat × List Byte) :=
  let mine := rest.filter fun o => o.slot == slot
  [(off + 20, leBytes 4 mine.length), (off + 32, leBytes 4 (mine.filter (·.store)).length)]

/-- What has arrived of a load: the lanes all of whose requests have been answered (R376). -/
def arrivedPart (t : Team) (l : LoadOp) : LoadOp :=
  let open_ := fun (k : Nat) => (t.reqs ++ t.nacks).any fun r => r.seq == l.seq && r.sub == k
  { l with lanes := l.lanes.filter fun ll => !ll.subs.any open_ }

/-- The load operation that a reply completes. -/
def completes (s : State) (team seq : Nat) : Option LoadOp :=
  match s.team team with
  | some t => if t.reqs.any (fun r => r.seq == seq) || t.nacks.any (fun r => r.seq == seq) then none else t.loads.find? fun l => l.seq == seq
  | none => none

/-- RETAGGED_COMPLETION: the request completes into the image, lane by lane, and OCC falls. -/
def retaggedCompletion (s : State) (team idx : Nat) : State :=
  match s.team team with
  | none => s
  | some t =>
    match t.retagged[idx]? with
    | none => s
    | some o =>
      let rest := t.retagged.eraseIdx idx
      if !owedDone t o then s
      else
        let s1 := match t.reqs.find? fun r => r.seq == o.seq && r.sub == o.sub with
          | some r => landReply s team t r fun s _ => s
          | none => s
        let fin_ := fun (s : State) => s.modTeam team fun t => { t with retagged := rest }
        match t.image o.slot with
        | none => fin_ s1
        | some m =>
          let counts := owedCounts m.off o.slot rest
          let write := fun (s1 : State) (w : List (Nat × List Byte)) (fin : State → State) =>
            let x := ctxWrite s1 team (w ++ counts)
            if x.2 then fin_ (fin x.1) else (ctxWrite s team (w ++ counts)).1
          let load := (s1.team team).bind fun t1 => (t1.loads.find? fun l => l.seq == o.seq).map fun l => (l, arrivedPart t1 l)
          match load with
          | none => write s1 [] id
          | some (l, part) =>
            let whole := (completes s1 team o.seq).isSome
            if l.dcls = .s then write s1 [] fun s => if whole then finishLoad s team l else s
            else if imageBusy s t m.off then s
            else
              let keep := fun r => !volatileReg s t r
              let x := landImage s1 team m.off part keep
              match x.2 with
              | none => (landImage s team m.off part keep).1
              | some w => write x.1 w fun s => if !whole then s else s.modTeam team fun t => { t.raise (landed l).flags with
                  loads := t.loads.filter (fun y => y.seq != l.seq) }

def execRetaggedCompletion (team idx : Nat) (s : State) : Out := .next (retaggedCompletion s team idx)

end Sys2Proof.Machine
end

