-- ==== Sys2Proof/Machine/Leave.lean ====
section
/-!
DEFINITION. REQUEST_LEAVE and REQUEST_REPLY: requests of a team leave their queues in the order that R277 to R285 and
R294 allow, and replies land (R247, R354, R375, R438).
-/
namespace Sys2Proof.Machine

/-- An engine command leaves for its engine (R294). -/
def leaveEngine (s : State) (team : Nat) (t : Team) (r : Req) : State :=
  if !engineMay s t r then s
  else
    match r.kind with
    | .copy tok => modCopy (dropReq s team r) t.core team tok fun c => { c with left := true }
    | .append tok => appendRecord s team t r tok
    | .kiln n | .kstore n =>
      let s1 := s.modCore t.core fun c => { c with kcmds := c.kcmds.map fun e =>
        if e.team = team ∧ e.seq = n then { e with entered := true } else e }
      kilnSettle (match r.kind with | .kiln _ => dropReq s1 team r | _ => s1) t.core
    | _ => s

/-- Log entry 22: DESIGN CHOICE. -/
def leave (s : State) (team : Nat) (t : Team) (r : Req) : State :=
  if r.stage ≠ .queued ∨ unsent s t r then s
  else
    match r.kind with
    | .load | .store | .atomic | .acc | .sig => attempt s team t r true false
    | .fence => stepFence s team t r
    | .rel_ => stepRelease s team t r
    | .drain | .breg | .bfree => stepRegion s team t r
    | _ => leaveEngine s team t r

/-- REQUEST_LEAVE. -/
def execRequestLeave (team idx : Nat) (s : State) : Out := withReq s team idx fun t r => leave s team t r

/-- The reply of a signal read that no SIGWAIT or WRDIV waits for any more. -/
def staleSig (s : State) (t : Team) (r : Req) : Bool :=
  (t.reqs.any fun q => q.kind == .sig && q.core == r.core && q.slot == r.slot && decide (r.seq < q.seq)) ||
  (match s.posy (posyKey r.core r.slot) with | some p => !(p.phase && p.again && r.fids.any (p.present.map p.fid).contains) | none => true)

/-- A reply lands; one that ends a load of registers saved while it was pending goes to the image too (R438). -/
def landOne (s : State) (team : Nat) (t : Team) (r : Req) : State :=
  let late := match t.loads.find? (fun l => l.seq == r.seq) with
    | some l => if l.through.isEmpty then none else (posyOf s l.uid).bind fun p => if p.2.hd.mode = .save then some p.2.hd.ctxbase else none
    | none => none
  match late with
  | none => landReply s team t r fun s l => finishLoad s team l
  | some off =>
    let s1 := landReply s team t r fun s _ => s
    match completes s1 team r.seq with
    | none => s1
    | some l =>
      if imageBusy s t off then s
      else
        let x := landImage s1 team off l l.through.contains
        let y := ctxWrite x.1 team (x.2.getD [])
        if y.2 then finishLoad y.1 team l else (ctxWrite s team (x.2.getD [])).1

/-- REQUEST_REPLY. The reply of a purged replay is discarded (R373). -/
def reply (s : State) (team : Nat) (t : Team) (r : Req) : State :=
  if t.retagged.any fun o => o.seq == r.seq && o.sub == r.sub then s
  else if r.discard ∧ performedReq r then dropReq s team r
  else if r.stage = .atHome ∧ r.snap = some [] then dropReq s team r
  else if !performedReq r then (match r.kind, r.stage with | .append tok, .atHome => appendEnd s team t r tok | _, _ => s)
  else
    match r.kind with
    | .rel_ | .fence => s
    | .sig =>
      if staleSig s t r then dropReq (flagTeam s team (flagIf r.merr flagMerr)) team r
      else if r.landed then s
      else modReq (flagTeam s team (flagIf r.merr flagMerr)) team r fun q => { q with landed := true }
    | _ => landOne s team t r

def execRequestReply (team idx : Nat) (s : State) : Out := withReq s team idx fun t r => reply s team t r

end Sys2Proof.Machine
end

