-- ==== Sys2Proof/Machine/Tables.lean ====
section
/-!
DEFINITION. The table and trap commands (R387, R391, R392, R399 to R401, R425, R426), page moves (R377 to R379), the
writes of registers (R4, R396 to R399, R452), and the completion of calls (R332, R457).
-/
namespace Sys2Proof.Machine

/-! ## Command registers (R400) -/

/-- Ends the table command with a code; any code but 0 is an error. -/
def endTable (s : State) (code : Nat) : State :=
  { s with xd := { s.xd with cmd := none, cmdCode := code, cmdErr := s.xd.cmdErr || code != 0 } }

/-- Runs the pending table command of an OP. -/
def tableCmd (s : State) (op : Nat) (body : State → Nat → Nat → State) : Out :=
  if s.xd.cmd = some op then .next (body s s.xd.cmda0.toNat s.xd.cmda1.toNat) else .next s

def argVd (a0 : Nat) : Nat := a0 % 64
def argPart (a0 : Nat) : Nat := a0 / 2 ^ 8 % 4

/-- Does a cached translation cover a byte of [va, va + n)? -/
def TlbEntry.meets (e : TlbEntry) (va n : Nat) : Bool :=
  decide (e.vbase < va + n) && decide (va < e.vbase + pageBytes e.leaf.pgsz)

/-- TINV (R387). Log entry 73: DEDUCED. -/
def tinv (s : State) (a0 a1 : Nat) : State :=
  let scope := a0 / 2 ^ 12 % 4
  let pg := a0 / 2 ^ 16 % 4
  let hit := fun (e : TlbEntry) => e.part == argPart a0 && (scope == 0 || e.vd == argVd a0) && (scope != 2 || e.meets a1 (pageBytes pg))
  if scope = 3 ∨ pg = 3 ∨ a1 % pageBytes pg ≠ 0 then endTable s 2
  else endTable (dropTlbs s fun e => !hit e) 0

/-- A TINV waits for the merges of writes at SYS width: earlier stores of the host or the service cluster (R388). -/
def execTinv (s : State) : Out :=
  if s.merging.any fun m => m.req.isNone && (m.writer.isNone || m.writer == some .host) then .next s else tableCmd s 1 tinv

/-- Is a core named by another place, valid or pending?. Log entry 75: DEDUCED. -/
def namedElsewhere (v : Vd) (p core : Nat) : Bool :=
  (List.range v.plcount).any fun q =>
    let e := Tab.get {} v.places q
    q != p && ((e.valid && e.core == core) || (e.pend.map (·.1)) == some core)

/-- PLACESET (R391, R392). Log entry 75: DEDUCED. -/
def placeset (s : State) (a0 a1 : Nat) : State :=
  let p := a0 / 2 ^ 16 % 256
  let core := a1 % 256
  let ok := a1.testBit 8
  match s.vd (argPart a0) (argVd a0) with
  | none => endTable s 3
  | some v =>
    if v.plcount ≤ p ∨ Config.coreCount ≤ core ∨ partOfCore s core ≠ argPart a0 then endTable s 2
    else if namedElsewhere v p core then endTable s 3
    else
      let e := Tab.get {} v.places p
      let e' : Place := if vdOnCore s (argPart a0) (argVd a0) e.core then { e with pend := some (core, ok) } else { core := core, valid := ok }
      endTable (setPlace s (argPart a0) (argVd a0) p e') 0

def execPlaceset (s : State) : Out := tableCmd s 2 placeset

/-! ## Queues (R309, R400, R401) -/

/-- Bytes of a descriptor at home. -/
def descByte (bs : List Byte) (i n : Nat) : Nat := bytesAt bs i n

/-- A field that breaks R309. -/
def badQueue (bs : List Byte) : Bool :=
  let f := descByte bs
  decide (f 0 8 % 128 ≠ 0) || decide (f 8 8 % 128 ≠ 0) || decide (f 16 1 < 4) || decide (20 < f 16 1) || decide (63 < f 17 1) ||
  decide (7 < f 18 1) || decide (7 < f 19 1) || decide (f 24 8 % 128 ≠ 0) || decide (f 32 1 < 16) || decide (30 < f 32 1) ||
  decide (f 33 7 ≠ 0)

/-- The queue of a descriptor, with its head count. -/
def queueOf (part : Nat) (bs : List Byte) (head : Nat) : Queue :=
  let f := descByte bs
  { part := part, ring := f 0 8, taila := f 8 8, logsize := f 16 1, vd := f 17 1, prio := f 18 1, enable := true
    devapp := (f 19 1).testBit 1, capture := (f 19 1).testBit 2, timeout := f 20 4, capring := f 24 8, caplog := f 32 1
    saveh := f 40 8, resth := f 48 8, trapr := f 56 8, head := head, tail := head }

/-- QENABLE: no count of an earlier enable survives (R401); a dispatch that has begun ends first. Log entry 74: DEDUCED. -/
def qenable (s : State) (_ a1 : Nat) : State :=
  let q := a1 % 2 ^ 16
  let at_ := s.xd.qdtBase.toNat + 64 * q
  let bs := s.physBytes at_ 64
  if (s.queue q).enable then endTable s 3
  else
    match partOfQueue s q with
    | none => endTable s 4
    | some part =>
      let vd := descByte bs 17 1
      let ta := descByte bs 8 8
      if badQueue bs || (s.vd part vd).isNone then endTable s 4
      else
        if (s.queue q).sending && (s.vd (s.queue q).part (s.queue q).vd).isSome then s
        else match qRead s part vd (ta + 128) 8, qRead s part vd ta 8 with
        | .bytes hb false, .bytes tb false =>
          let x := { queueOf part bs (leNat hb) with owed := (s.queue q).owed.filter fun p => match p with | .error _ _ | .free _ _ _ => true | _ => false }
          let s1 := sysWrite (s.nextFresh.setQueue q x) [(at_ + 19, (bs.getD 19 0) ||| 1)]
          endTable (takeTail { s1 with xd := { s1.xd with acceptLocked := true } } q (leNat tb)) 0
        | .wait, _ | _, .wait => s
        | _, _ => endTable s 4

def execQenable (s : State) : Out := tableCmd s 3 qenable

/-- QDISABLE. -/
def qdisable (s : State) (_ a1 : Nat) : State :=
  let q := a1 % 2 ^ 16
  if !(s.queue q).enable then endTable s 3
  else
    let s1 := detach s (fun o => match o with | .queue k _ => k == q | _ => false) false
    endTable (clearEnable (s1.modQueue q fun x => { x with hs := if x.sending then x.hs else .unread }) q) 0

def execQdisable (s : State) : Out := tableCmd s 4 qdisable

/-! ## VDs (R399, R400) -/

/-- A field of a VD descriptor out of its limits; a context region that passes 2^52 is one (R223). Log entry 92: DEDUCED. -/
def badVd (bs : List Byte) : Bool :=
  let f := descByte bs
  decide (f 1 7 ≠ 0) || decide (f 8 8 % 4096 ≠ 0) || decide (Config.memBytes ≤ f 8 8) || decide (2 ^ 52 < f 16 8) ||
  decide (2 ^ 52 < f 24 8 + f 32 8) || decide (f 40 8 % 8 ≠ 0) || decide (f 48 2 < 1) || decide (192 < f 48 2) || decide (f 32 8 < f 48 2 * Config.coreArea) || decide (f 50 2 ≠ 0) ||
  decide (f 52 4 < 1) || decide (2 ^ 20 < f 52 4) || decide (f 60 4 ≠ 0) || decide (f 64 8 % 128 ≠ 0) || decide (f 72 1 < 1) ||
  decide (16 < f 72 1) || (bs.drop 73).any (· != 0)

/-- The place table in memory: core and VALID of each place. -/
def readPlaces (s : State) (base n : Nat) : Tab Place :=
  (List.range n).foldl (fun t p =>
    let w := s.phys64 (base + 8 * p)
    Tab.set {} t p { core := w % 256, valid := w.testBit 8 }) []

/-- R391 for a place table. -/
def badPlaces (s : State) (part n : Nat) (t : Tab Place) : Bool :=
  (List.range n).any fun p =>
    let e := Tab.get {} t p
    decide (Config.coreCount ≤ e.core) || partOfCore s e.core != part ||
      (e.valid && (List.range p).any fun q => (Tab.get {} t q).valid && (Tab.get {} t q).core == e.core)

/-- VDCREATE. -/
def vdcreate (s : State) (a0 _ : Nat) : State :=
  let part := argPart a0
  let vd := argVd a0
  let at_ := s.xd.vdtBase.toNat + 128 * vdKey part vd
  let bs := s.physBytes at_ 128
  let f := descByte bs
  if (s.vd part vd).isSome then endTable s 3
  else if badVd bs then endTable s 4
  else
    let places := readPlaces s (f 40 8) (f 48 2)
    if badPlaces s part (f 48 2) places then endTable s 4
    else
      let v : Vd := { ptroot := f 8 8, asize := f 16 8, ctxva := f 24 8, ctxsize := f 32 8, pltbase := f 40 8, plcount := f 48 2
                      slice := f 52 4, budget := f 56 4, syscring := f 64 8, sysclog := f 72 1, places := places }
      endTable (sysWrite (s.setVd part vd (some v)) [(at_, 1)]) 0

def execVdcreate (s : State) : Out := tableCmd s 5 vdcreate

/-- Is a VD in use? -/
def vdBusy (s : State) (part vd : Nat) : Bool :=
  s.queues.any (fun q => q.2.enable && q.2.part == part && q.2.vd == vd) ||
  (Tab.live s.teams).any (fun t => t.2.part == part && t.2.vd == vd) ||
  (partDies s part).any fun d => (s.die d).bound.any fun b => b.2.st != .free && b.2.vd == vd

/-- VDDESTROY. No VD holds its cores any more (R426). -/
def vddestroy (s : State) (a0 _ : Nat) : State :=
  let part := argPart a0
  let vd := argVd a0
  if vdBusy s part vd then endTable s 3
  else
    let key := some (vdKey part vd)
    let s1 := dropTlbs (s.setVd part vd none) fun e => !(e.part == part && e.vd == vd)
    let s2 := { s1 with cores := s1.cores.filterMap fun c =>
      let x := { c.2 with vd := if c.2.vd = key then none else c.2.vd, nextVd := if c.2.nextVd = key then none else c.2.nextVd }
      if x = {} then none else some (c.1, x) }
    endTable (sysWrite s2 [(s.xd.vdtBase.toNat + 128 * vdKey part vd, 0)]) 0

def execVddestroy (s : State) : Out := tableCmd s 6 vddestroy

/-! ## Trap commands (R425) -/

def endTrapCmd (s : State) (code : Nat) : State :=
  { s with xd := { s.xd with tcmd := none, tcmdCode := code, tcmdErr := s.xd.tcmdErr || code != 0 } }

/-- The posies that trapped: each by its slot, and whether it resumes at the next instruction (R421). -/
def Team.stops (t : Team) : List (Nat × Bool) := t.stopped.toList ++ t.trapped

/-- A stopped team by launch and index. Log entry 80: DEDUCED. -/
def stoppedTeam (s : State) (lid idx : Nat) : Option (Nat × Team) :=
  (Tab.live s.teams).findSome? fun e =>
    if e.2.lid = lid ∧ e.2.idx = idx then e.2.stopped.map fun _ => (e.1, e.2) else none

/-- The address at which a stopped posy continues. -/
def resumePc (arg : BitVec 64) (next : Bool) (pc : Nat) : Nat :=
  if arg ≠ BitVec.allOnes 64 then arg.toNat else if next then pc + 8 else pc

/-- The team is stopped no more. -/
def Team.resumed (t : Team) : Team := { t with stopped := none, trapped := [] }

/-- TRESUME of a team on its core. -/
def resumeHere (s : State) (id : Nat) (t : Team) (arg : BitVec 64) : State :=
  let ps := s.posiesOf id
  let s1 := ((List.range ps.length).zip ps).foldl (fun s x =>
    let p := dropVolatile s t x.2.2 (s.fresh + 17000 * x.1)
    match t.stops.find? fun y => y.1 == x.2.1 % Config.slots && (y.2 || arg != BitVec.allOnes 64) with
    | some y => s.setPosy x.2.1 (some { p.goto (resumePc arg y.2 p.pc) with rep := none })
    | none => s.setPosy x.2.1 (some p)) s
  { s1.modTeam id Team.resumed with fresh := s.fresh + 17000 * 24 }

/-- The images of a saved team whose resume address TRESUME changes: the offset of each, and whether its posy resumes at the
next instruction. -/
def movedImages (t : Team) (arg : BitVec 64) : List (Nat × Bool) :=
  (t.stops.filter fun y => y.2 || arg != BitVec.allOnes 64).filterMap fun y => (t.image y.1).map fun m => (m.off, y.2)

/-- TRESUME of a saved team: the resume addresses in its images change. -/
def resumeSaved (s : State) (id : Nat) (t : Team) (arg : BitVec 64) : State × Bool :=
  let ms := movedImages t arg
  let fin := fun (s : State) => s.modTeam id Team.resumed
  if ms.isEmpty then (fin s, true)
  else
    let r := ctxRead s id (ms.map fun m => (m.1, 10))
    match r.2 with
    | none => (r.1, false)
    | some bs =>
      let w := ctxWrite r.1 id ((ms.zip bs).flatMap fun x => [(x.1.1, leBytes 8 (resumePc arg x.1.2 (bytesAt x.2 0 8))), (x.1.1 + 9, [0])])
      (if w.2 then fin w.1 else w.1, w.2)

/-- TRESUME. A record that still waits for room keeps the team stopped, and the command waits with it (R422).
Log entry 80: DEDUCED. -/
def execTresume (s : State) : Out :=
  if s.xd.tcmd ≠ some 1 then .next s
  else
    let arg := s.xd.tcmda2
    match stoppedTeam s s.xd.tcmda0.toNat s.xd.tcmda1.toNat with
    | none => .next (endTrapCmd s 3)
    | some (id, t) =>
      if arg ≠ BitVec.allOnes 64 ∧ (arg.toNat % 4 ≠ 0 ∨ 2 ^ 52 ≤ arg.toNat) then .next (endTrapCmd s 2)
      else if s.traps.any fun r => (recordTeam s r.2).any fun u => u.lid == t.lid && u.idx == t.idx then .next s
      else if t.occupies then .next (endTrapCmd (resumeHere s id t arg) 0)
      else let x := resumeSaved s id t arg; .next (if x.2 then endTrapCmd x.1 0 else x.1)

/-- LKILL. -/
def execLkill (s : State) : Out :=
  if s.xd.tcmd ≠ some 2 then .next s
  else
    let lid := s.xd.tcmda0.toNat
    match s.launch lid with
    | none => .next (endTrapCmd s 2)
    | some l => .next (endTrapCmd (owe (stopLaunch s lid) l.queue [.error l.r.csig 6]) 0)

/-! ## Page moves (R377 to R379) -/

/-- Step 1. An entry behind a closed port reads as poison, which is no entry with MIG set (R27). Log entry 76: DEDUCED. -/
def moveOk (s : State) (d : Nat) (m : Move) : Bool :=
  let n := pageBytes m.pgsz
  reaches s d m.ptea && !s.poisoned m.ptea && decide (m.pgsz ≤ 2) && decide (m.va % n = 0) && decide (m.src % n = 0) && decide (m.dst % n = 0) && decide (m.ptea % 8 = 0) &&
  (s.phys64 m.ptea).testBit 5 && !m.newpte.testBit 5

/-- Step 2: a request that translated to the source is on its way. -/
def moveWaits (s : State) (m : Move) : Bool :=
  (Tab.live s.teams).any fun t => t.2.reqs.any fun r => r.stage == .atHome && !r.scratch && inRange m.src (pageBytes m.pgsz) r.pa

/-- Cached lines of a range, by cache. -/
def linesIn (s : State) (lo n : Nat) : List (Sharer × Nat × CLine) :=
  let hit := fun (who : Sharer) (t : Tab (Option CLine)) =>
    ((Tab.live t).filter fun e => inRange lo n (linePa e.1)).map fun e => (who, e.1, e.2)
  (s.cores.flatMap fun c => hit (.l1 c.1) c.2.l1) ++ s.dies.flatMap fun d => hit (.rdc d.1) d.2.rdc

/-- Step 3: dirty lines are written back, or all replicas go; one behind a closed port keeps the step waiting (R27). The reads of
SIGWAITs are out of date (R413). -/
def recallPage (s : State) (lo n : Nat) : State × Bool :=
  let ls := linesIn s lo n
  if ls.any (fun x => x.2.2.unmerged) || s.merging.any (fun x => inRange lo n (linePa x.line)) then
    (ls.foldl (fun s x => writeBack s x.1 x.2.1) s, false)
  else
    let s1 := (ls.filter fun x => !cutOff s x.2.1 x.1).foldl (fun s x => dropReplica s x.1 x.2.1) (staleSigs s none fun l => inRange lo n (linePa l))
    ({ s1 with hostLines := s1.hostLines.filter fun e => !inRange lo n (linePa e.1) }, !ls.any fun x => cutOff s x.2.1 x.1)

/-- The authorities of the regions that meet a page. -/
def pageAuthorities (s : State) (part vd va n : Nat) : List Authority :=
  (partDies s part).flatMap fun d => ((s.die d).bound.filter fun b =>
    b.2.st != .free && b.2.vd == vd && decide (b.2.base < va + n) && decide (va < b.2.base + b.2.size)).map fun b =>
      { home := d, vd := vd, base := b.2.base }

/-- Lines of a range that some cache or the host port holds. -/
def heldLines (s : State) (lo n : Nat) : List Nat :=
  ((s.dir.map (·.1)) ++ s.hostLines.map (·.1)).eraseDups.filter fun l => inRange lo n (linePa l)

/-- Does an access of the move reach a page: memory, over an open link (R23, R27)? -/
def moveReaches (s : State) (d pa : Nat) : Bool := isMem pa && reaches s d pa

/-- Step 5: bytes and poison marks. A source that does not answer reads as poison, and a destination that does not takes
nothing (R23, R27); the copies of destination lines are invalidated, the host's too (R287). Log entry 76: DEDUCED. -/
def copyPage (s : State) (d src dst n : Nat) : State :=
  let s0 := if moveReaches s d src then s else countRefused s d src
  if !moveReaches s d dst then countRefused s0 d dst
  else
    let bytes := if moveReaches s d src then (s.mem.filter fun c => inRange src n c.1).map fun c => (dst + (c.1 - src), c.2) else []
    let bad := if moveReaches s d src then (s.poison.filter fun c => inRange src n (8 * c.1)).map fun c => (dst / 8 + (c.1 - src / 8), c.2)
      else (List.range (n / 8)).map fun i => (dst / 8 + i, true)
    let ls := heldLines s0 dst n
    ls.foldl (fun s l => enterMerge s l none none none [] (some d)) (noteMerge { s0 with
      mem := Tab.setAll Memory.unlisted (s0.mem.filter fun c => !inRange dst n c.1) bytes
      poison := Tab.setAll false (s0.poison.filter fun c => !inRange dst n (8 * c.1)) bad } ls)

/-- Step 7: the parked entries of the page replay. -/
def replayPage (s : State) (part : Nat) (m : Move) : State :=
  (partDies s part).foldl (fun s d =>
    ((s.die d).entries.filter fun e => e.st == .parked && e.vd == m.vd && inRange m.va (pageBytes m.pgsz) e.va).foldl
      (fun s e => ownerReplay (setEntry s d { e with st := .replay }) e.owner) s) s

def endMove (s : State) (d stat : Nat) : State :=
  s.modDie d fun x => { x with migRun := false, migSt := .check, migStat := b64 stat }

/-- Translations of the page go (R378 step 6, R402). -/
def dropPage (s : State) (part : Nat) (m : Move) : State :=
  dropTlbs s fun e => !(e.part == part && e.vd == m.vd && e.meets m.va (pageBytes m.pgsz))

/-- Are writes of the copy still to be acknowledged? -/
def copyMerging (s : State) (m : Move) : Bool :=
  s.merging.any fun x => x.parent.isNone && inRange m.dst (pageBytes m.pgsz) (linePa x.line)

def moveTo (s : State) (d : Nat) (st : MoveSt) : State := s.modDie d fun x => { x with migSt := st }

/-- Steps 2 to 5 of a move: each waits, recalls, or goes on; step 4 makes one recall in each step. -/
def moveDrain (s : State) (d : Nat) (m : Move) : State :=
  let n := pageBytes m.pgsz
  if moveWaits s m then s
  else
    let r := recallPage s m.src n
    if !r.2 then r.1
    else
      match recallNext r.1 (pageAuthorities r.1 (partOfDie s d) m.vd m.va n) with
      | some s1 => moveTo s1 d .recall
      | none => moveTo (copyPage r.1 d m.src m.dst n) d .copied

/-- Steps 6 and 7: the entry is a release at SYS width, after the acknowledgements of the copy. -/
def moveEntry (s : State) (d : Nat) (m : Move) : State :=
  let part := partOfDie s d
  if copyMerging s m then s
  else moveTo (replayPage (dropPage (dieStore s d (placed m.ptea (leBytes 8 m.newpte))) part m) part m) d .done

/-- MIGRATION_RUN: the checks of step 1 once, with which translations of the page go (R402), then the other steps as far as they
go, and STAT once the write of the entry is acknowledged: a release at SYS width. Log entry 76: DEDUCED. -/
def migrationRun (s : State) (d : Nat) : State :=
  let x := s.die d
  let m := moveOf x
  if !x.migRun then s
  else
    match x.migSt with
    | .check => if moveOk s d m then moveTo (dropPage s (partOfDie s d) m) d .drain else endMove s d 2
    | .drain | .recall => moveDrain s d m
    | .copied => moveEntry s d m
    | .done => if isMerging s (lineOf m.ptea) none then s else endMove s d 1

def execMigrationRun (die : Nat) (s : State) : Out := .next (migrationRun s die)

/-- MIGRATION_START: a write of STAT. -/
def execMigrationStart (die : Nat) (v : BitVec 64) (s : State) : Out := .next (if die < 4 then writeMigStat s die v else s)

/-! ## Writes of registers -/

def execFirewallWrite (die port : Nat) (v : BitVec 64) (s : State) : Out :=
  .next (if die < 4 ∧ port < 3 then writeFirewall s die port v else s)
def execPartitionWrite (off : BitVec 12) (v : BitVec 64) (s : State) : Out := .next (writePartition s off.toNat v)
def execDescriptorBaseWrite (vdt : Bool) (v : BitVec 64) (s : State) : Out := .next (writeDescBase s vdt v)
def execFeatAcceptWrite (v : BitVec 64) (s : State) : Out := .next (writeAccept s v)
def execRegisterWrite (pa : Nat) (v : BitVec 64) (s : State) : Out :=
  .next (if Config.devBase ≤ pa ∧ pa < Config.devEnd ∧ pa % 8 = 0 then regWrite s pa v else s)

/-! ## Calls (R332, R457) -/

/-- The returns of a call as the values of its load. -/
def callReturns (l : LoadOp) (bs : List Byte) : LoadOp :=
  { l with olds := Tab.setAll 0 l.olds (l.lanes.map fun ll => (ll.lane, b64 (bytesAt bs (8 * ll.lane) 8))) }

/-- Returns land in the posy, or in its image. -/
def landCall (s : State) (c : CallRec) (t : Team) (l : LoadOp) : State × Bool :=
  match t.images.find? fun m => m.uid == c.uid && (posyOf s c.uid).isNone with
  | some m =>
    let x := landImage s c.team m.off l fun r => !volatileReg s t r
    let y := ctxWrite x.1 c.team (x.2.getD [])
    (if y.2 then y.1.modTeam c.team fun t => { t with loads := t.loads.filter fun q => q.seq != l.seq } else y.1, y.2)
  | none => (finishLoad s c.team l, true)

/-- STATUS goes into the record at REC (R457). -/
def storeStatus (s : State) (c : CallRec) : State :=
  let s1 := { s with calls := s.calls.map fun x => if x = c then { x with stored := true } else x }
  if qReaches s c.part c.pa then (match paKind c.pa with
    | .dev => (devStore s1 (placed (c.pa + 6) (leBytes 2 c.status))).1
    | _ => sysWrite s1 (placed (c.pa + 6) (leBytes 2 c.status)))
  else s1

/-- A call whose STATUS stands in its record completes. -/
def finishCall (s : State) (c : CallRec) : State :=
  let gone := fun (s : State) => { s with calls := s.calls.erase c }
  match s.team c.team with
    | none => gone s
    | some t =>
      if c.sub ≠ 0 then gone (modHandle s c.team c.token fun h => { h with ready := true, final := c.status })
      else
        match t.loads.find? fun l => l.seq == c.seq, qRead s c.part c.vd (c.va + 2112) 512 with
        | some l, .bytes bs bad =>
          let x := landCall s c t (callReturns l bs)
          if x.2 then gone (flagTeam x.1.nextFresh c.team (flagIf (c.status != 1 || bad) flagMerr)) else s
        | none, _ => gone s
        | _, _ => s

/-- One call whose status has been given: STATUS is set in its record, and once that write is acknowledged, a release (R332),
the call completes. -/
def completeCall (s : State) (c : CallRec) : State :=
  if isMerging s (lineOf c.pa) none then s
  else if c.stored then finishCall s c
  else
    let s1 := storeStatus s c
    if isMerging s1 (lineOf c.pa) none then s1 else finishCall s1 { c with stored := true }

/-- SYSC_DONE: a write of the register; calls with a status complete. -/
def execSyscDone (v : BitVec 64) (s : State) : Out :=
  let s1 := writeSyscDone s v
  .next ((s1.calls.filter fun c => c.status != 0).foldl completeCall s1)

end Sys2Proof.Machine
end

