-- ==== Sys2Proof/Machine/Outside.lean ====
section
/-!
DEFINITION. The world outside the C-dies: host, peers, service cluster, soft errors, bring-up, clocks and rails, link
training, attestation (R23, R221, R305, R446 to R460).
-/
namespace Sys2Proof.Machine

/-! ## Accesses from outside, performed at the home at SYS width (R305) -/

/-- The bytes of an access. -/
def OutAccess.range : OutAccess → Nat × Nat
  | .load pa n => (pa, n)
  | .store pa bs => (pa, bs.length)
  | .atomic _ pa n _ _ => (pa, n)
  | .reserve _ pa n => (pa, n)
  | .conditional _ pa bs => (pa, bs.length)

/-- An atomic at home on 4 or 8 bytes answers the old value (R306); a poisoned word stays as it is and answers ones. -/
def outAtomic (writer : Option Sharer) (s : State) (op : BitVec 4) (pa n : Nat) (x e : BitVec 64) : State :=
  if (List.range n).any fun i => s.poisoned (pa + i) then { s with answer := .data (ones n) }
  else
    let old := s.readBytes pa n
    let m := (atomNew op (if n = 8 then .i64 else .i32) false (leNat old) (x.toNat % 2 ^ (8 * n)) (e.toNat % 2 ^ (8 * n))).1
    { sysWriteBy writer s (placed pa (leBytes n m)) with answer := .data old }

/-- A load-reserved notes what it read (R306). -/
def outReserve (s : State) (who pa n : Nat) : State :=
  let old := s.readBytes pa n
  { s with answer := .data old, reserved := Tab.set none s.reserved who (some (pa, old)) }

/-- A store-conditional writes where its thread's reservation holds: the bytes read there still stand. It answers 0, or 1 where it
fails, and takes the reservation. Log entry 114: DEDUCED. -/
def outConditional (writer : Option Sharer) (s : State) (who pa : Nat) (bs : List Byte) : State :=
  let s1 := { s with reserved := Tab.set none s.reserved who none }
  if Tab.get none s.reserved who = some (pa, s.readBytes pa bs.length) then
    { sysWriteBy writer s1 (placed pa bs) with answer := .data (leBytes bs.length 0) }
  else { s1 with answer := .data (leBytes bs.length 1) }

/-- What a load from outside reads; none while a line of it is merging (R287). A place that nothing answers reads as
poison (R23). -/
def outLoad (s : State) (pa n : Nat) : Option (List Byte) :=
  match paKind pa with
  | .hbm _ | .host => if (cutLines pa n).any (fun x => isMerging s (lineOf x.1) none) then none
                      else some (if paKind pa == .host && !portUp s pa then ones n else s.readBytes pa n)
  | .dev => some (devLoad s pa n)
  | .peer p => some (if s.xd.peerUp.getLsbD p then (List.range n).map fun i => Config.peerByte s.fresh (pa + i) else ones n)
  | .none => some (ones n)

/-- Performs an access on HBM, host memory or registers. A write to a line that is merging waits; the writer keeps its own
copy of the line (R287). -/
def outPerform (s : State) (a : OutAccess) (writer : Option Sharer := none) : State :=
  let (pa, n) := OutAccess.range a
  let busy := (cutLines pa n).any fun x => isMerging s (lineOf x.1) none
  match paKind pa with
  | .hbm _ | .host =>
    match a with
    | .load _ _ => (match outLoad s pa n with | some bs => { s with answer := .data bs } | none => s)
    | .store _ bs => if busy then s else sysWriteBy writer s (placed pa bs)
    | .atomic op _ _ x e => if busy then s else outAtomic writer s op pa n x e
    | .reserve who _ _ => if busy then s else outReserve s who pa n
    | .conditional who _ bs => if busy then s else outConditional writer s who pa bs
  | .dev => (match a with
    | .store _ bs => (devStore s (placed pa bs)).1
    | .load _ _ => (match outLoad s pa n with | some bs => { s with answer := .data bs } | none => s)
    | _ => s)
  | _ => (match a, outLoad s pa n with | .load _ _, some bs => { s with answer := .data bs, fresh := s.fresh + 1 } | _, _ => s)

/-- The access at another address. -/
def OutAccess.at_ (a : OutAccess) (pa : Nat) : OutAccess :=
  match a with
  | .load _ n => .load pa n
  | .store _ bs => .store pa bs
  | .atomic op _ n x e => .atomic op pa n x e
  | .reserve who _ n => .reserve who pa n
  | .conditional who _ bs => .conditional who pa bs

/-- The host-managed device memory: 768 GiB from HDMBASE (R446). -/
def inHdm (s : State) (a n : Nat) : Bool := decide (s.hdmBase ≤ a) && decide (a + n ≤ s.hdmBase + 0xC000000000)

/-- What BAR0 reads after a failed firmware check: ones, but for LINK_STAT (R453). -/
def failedBar0 (s : State) (pa n : Nat) : List Byte :=
  (List.range n).map fun i => if (pa + i - Config.devBase) / 8 = 0x200340 / 8 then (devLoad s (pa + i) 1).headD 0xFF else 0xFF

/-- A request through BAR0 of port 0. Before the links are trained, and where port 0 is not, it is not answered (R446,
R453, R458). -/
def barRequest (s : State) (a : OutAccess) : State :=
  let (pa, n) := OutAccess.range a
  if s.xd.cxlUp.getLsbD 0 = false then { s with answer := .silent }
  else if s.bootFailed then (match a with | .load _ _ => { s with answer := .data (failedBar0 s pa n) } | _ => { s with answer := .silent })
  else if s.boot < 5 then { s with answer := .silent }
  else outPerform s a

/-- HOST_REQUEST (R446, R447, R458): the host reads or writes device memory at host physical addresses, HDMBASE above those
of the device, or registers through BAR0, at their device addresses; with `cache` it keeps the lines. Each line travels on
its port. -/
def hostRequest (s : State) (a : OutAccess) (cache : Bool) : State :=
  let (h, n) := OutAccess.range a
  if inHdm s h n then
    let pa := h - s.hdmBase
    if s.boot < 4 ∨ s.bootFailed then { s with answer := .error }
    else if (cutLines pa n).any (fun x => !portUp s x.1) then { s with answer := .silent }
    else
      let s1 := outPerform s (OutAccess.at_ a pa) (some .host)
      if cache && !(cutLines pa n).any (fun x => isMerging s (lineOf x.1) none) then
        { s1 with hostLines := Tab.setAll false s1.hostLines ((cutLines pa n).map fun x => (lineOf x.1, true)) }
      else s1
  else match paKind h with
    | .dev => barRequest s a
    | _ => s

/-- Log entry 85: DEDUCED. -/
def execHostRequest (a : OutAccess) (cache : Bool) (s : State) : Out := .next (hostRequest s a cache)

/-- HOST_SNOOP (R448): the host takes a line of its own memory from the proxy and writes it; an atomic in progress
comes first. -/
def hostSnoop (s : State) (line : Nat) (bytes : List (Nat × Byte)) : State :=
  match paKind (linePa line) with
  | .host => if isMerging s line none then s else sysWrite s ((bytes.filter fun x => decide (x.1 < 128)).map fun x => (linePa line + x.1, x.2))
  | _ => s

def execHostSnoop (line : Nat) (bytes : List (Nat × Byte)) (s : State) : Out := .next (hostSnoop s line bytes)

/-- SERVICE_CLUSTER_ACCESS (R455). A failed boot leaves the cluster halted (R453). -/
def execServiceClusterAccess (a : OutAccess) (s : State) : Out := .next (if s.bootFailed then s else outPerform s a)

/-! ## Peers (R450) -/

/-- The die whose firewall set counts a refusal of a port: that of the address, else the lowest of its partition.
Log entry 77: DEDUCED. -/
def refusalDie (s : State) (port pa : Nat) : Nat :=
  match paKind pa with | .hbm d => d | _ => (partDies s (partOfPort s port)).headD 0

/-- Log entry 77: DEDUCED. -/
def countPeer (s : State) (port pa : Nat) : State :=
  s.modDie (refusalDie s port pa) fun x =>
    let n := Tab.get 0 x.fwRefused 0
    { x with fwRefused := Tab.set 0 x.fwRefused 0 (if n.toNat = 2 ^ 32 - 1 then n else n + 1) }

/-- Does an atomic of a peer have a form that the G7 takes? -/
def peerAtomicOk : OutAccess → Bool
  | .atomic op pa n _ _ => peerOp op && (n == 4 || n == 8) && decide (pa % n = 0)
  | .reserve _ _ _ | .conditional _ _ _ => false
  | .load _ _ | .store _ _ => true

/-- PEER_INBOUND. -/
def peerInbound (s : State) (port : Nat) (a : OutAccess) : State :=
  if !s.xd.peerUp.getLsbD port then s
  else
    let inb := Tab.get 0 s.xd.peerInb port
    let (off, n) := OutAccess.range a
    let pa := field inb 0 52 + off
    let mine := fun (x : Nat) => match paKind x with | .hbm d => partOfDie s d == partOfPort s port | _ => false
    if inb.getLsbD 63 && decide (off + n ≤ (Tab.get 0 s.xd.peerInl port).toNat) && mine pa && mine (pa + n - 1) &&
       peerAtomicOk (OutAccess.at_ a pa) then
      outPerform s (OutAccess.at_ a pa)
    else countPeer { s with answer := .error } port pa

def execPeerInbound (port : Nat) (a : OutAccess) (s : State) : Out := .next (peerInbound s port a)

/-! ## Soft errors (R221) -/

/-- Marks a word of memory poisoned; replicas of its line go, so that every later read sees the mark.
Log entry 78: DEDUCED. -/
def poisonWord (s : State) (pa : Nat) : State :=
  match paKind pa with
  | .hbm _ | .host =>
    let s1 := { s with poison := Tab.set false s.poison (pa / 8) true }
    (holders s1 (lineOf pa)).foldl (fun s h => dropReplica s h (lineOf pa)) s1
  | _ => s

/-- An uncorrectable error. One in a cached word takes the dirty bytes of that word with it. Log entry 78: DEDUCED. -/
def softError (s : State) : ErrAt → State
  | .home pa => poisonWord s pa
  | .cached n isRdc line word =>
    let who : Sharer := if isRdc then .rdc n else .l1 n
    let x := s.cline who line
    if x = {} ∨ 16 ≤ word then s
    else
      let m := (List.range 8).foldl (fun m i => m ||| BitVec.twoPow 128 (8 * word + i)) (0 : BitVec 128)
      let s1 := s.setCline who line (CLine.tidy { x with dirty := x.dirty &&& ~~~m })
      poisonWord (mapSnaps s1 fun _ _ => snapTrim (who, line) (owed s1 who line)) (linePa line + 8 * word)
  | .scratch team word => s.modTeam team fun t => if 8 * word < t.salloc then { t with spoison := Tab.set false t.spoison word true } else t

def execSoftError (at_ : ErrAt) (s : State) : Out := .next (softError s at_)

/-! ## Bring-up, rails and clocks (R453, R458, R460) -/

/-- The rails are off: the module keeps nothing. Host memory is not the module's. -/
def railsOff (s : State) : State :=
  { State.reset with
    boot := 0, turns := s.turns, turnCount := s.turnCount, fresh := s.fresh, images := s.images, loaded := [], hdmBase := s.hdmBase
    mem := s.mem.filter fun c => decide (Config.hostBase ≤ c.1), poison := s.poison.filter fun c => decide (Config.hostBase ≤ 8 * c.1) }

/-- BRING_UP: the next step of R458; a failed check leaves the ports trained in CXL.io only (R453). The driver's steps 6 to 8 are register writes and commands. Log entry 3: DEDUCED.
Log entry 79: DEDUCED. -/
def bringUp (s : State) : State :=
  match s.boot with
  | 0 => { s with boot := 1 }
  | 1 =>
    if s.bootFailed then s
    else if Config.firmwareVerifies s.images then { s with boot := 2, images := s.images + 1, loaded := s.loaded ++ [s.images] }
    else { s with bootFailed := true, images := s.images + 1, xd := { s.xd with cxlUp := 3 } }
  | 2 => { s with boot := 3, mem := s.mem.filter (fun c => decide (Config.hostBase ≤ c.1)), poison := [] }
  | 3 => { s with boot := 4 }
  | 4 => { s with boot := 5, xd := { s.xd with cxlUp := 3 } }
  | _ => s

def execBringUp (s : State) : Out := .next (bringUp s)

/-- RAIL_LOSS. -/
def execRailLoss (s : State) : Out := .next (railsOff s)

/-- 1 ms in ticks. -/
def oneMs : Nat := 1000000

/-- Has a mark been set for 1 ms? -/
def heldMs (s : State) (m : Option Nat) : Bool := match m with | some t => decide (t + oneMs ≤ s.time) | none => false

/-- THERMAL_STEP_DOWN: at 95 °C at once, and again after 1 ms. -/
def execThermalStepDown (s : State) : Out :=
  if s.tj.toNat < 95 then .next s
  else if s.thermStep = 0 then .next { s with thermStep := 1, hotSince := some s.time }
  else if s.thermStep = 1 ∧ heldMs s s.hotSince then .next { s with thermStep := 2, hotSince := some s.time }
  else .next s

/-- THERMAL_STEP_UP: one step for each 1 ms below 90 °C. -/
def execThermalStepUp (s : State) : Out :=
  if s.tj.toNat < 90 ∧ 0 < s.thermStep ∧ heldMs s s.coolSince then .next { s with thermStep := s.thermStep - 1, coolSince := some s.time }
  else .next s

/-- THERMAL_SHUTDOWN: at 105 °C the module removes its rails. -/
def execThermalShutdown (s : State) : Out := if 105 ≤ s.tj.toNat then .next (railsOff s) else .next s

/-- The junction temperature changes: since when it is hot, and since when it is cool. -/
def senseTj (s : State) (tj : BitVec 8) : State :=
  { s with
    tj := tj
    hotSince := if 95 ≤ tj.toNat then some (s.hotSince.getD s.time) else none
    coolSince := if tj.toNat < 90 then some (s.coolSince.getD s.time) else none }

/-! ## Links and attestation (R449, R454) -/

/-- LINK_TRAINING_CHANGE. -/
def execLinkTrainingChange (peer : Bool) (port : Nat) (up : Bool) (s : State) : Out :=
  let put12 := fun (w : BitVec 12) => if up then w ||| BitVec.twoPow 12 port else w &&& ~~~(BitVec.twoPow 12 port)
  let put2 := fun (w : BitVec 2) => if up then w ||| BitVec.twoPow 2 port else w &&& ~~~(BitVec.twoPow 2 port)
  .next { s with xd := if peer then { s.xd with peerUp := put12 s.xd.peerUp } else { s.xd with cxlUp := put2 s.xd.cxlUp } }

/-- The report without its signature: the digests of the loaded images, the part identifier, OFFER and ACCEPT, the nonce.
Log entry 7: DESIGN CHOICE. -/
def reportBody (s : State) (nonce : List Byte) : List Byte :=
  s.loaded.flatMap (fun n => leBytes 48 (Config.imageDigest n).toNat) ++ Config.partId ++ [0xFF, s.xd.accept] ++ nonce

/-- ATTESTATION_REQUEST on a 48-byte nonce. -/
def execAttestationRequest (nonce : List Byte) (s : State) : Out :=
  if nonce.length ≠ 48 ∨ s.bootFailed then .next s
  else .next { s with reports := (reportBody s nonce ++ Config.signature (reportBody s nonce)) :: s.reports }

end Sys2Proof.Machine
end

