-- ==== Sys2Proof/Machine/Repeat.lean ====
section
/-!
DEFINITION. REP (R95 to R97, R180) and a word that holds no instruction (R71, R99).
-/
namespace Sys2Proof.Machine

/-! ## The bodies (R96) -/

/-- What a body needs (steps 4 to 6 of R101). -/
def bodyNeed : Instr → Need
  | .add o => (aluAdd o).need | .sub o => (aluSub o).need | .mul o => (aluMul o).need | .mulh o => (aluMulh o).need
  | .mad o => (aluMad o).need | .div o => (aluDiv o).need | .rem o => (aluRem o).need | .and o => (aluAnd o).need
  | .or o => (aluOr o).need | .xor o => (aluXor o).need | .not o => (aluNot o).need | .shl o => (aluShl o).need
  | .shr o => (aluShr o).need | .sar o => (aluSar o).need | .min o => (aluMin o).need | .max o => (aluMax o).need
  | .abs o => (aluAbs o).need | .neg o => (aluNeg o).need | .cmp o => (aluCmp o).need | .sel o => selNeed o
  | .popc o => (aluPopc o).need | .clz o => (aluClz o).need | .brev o => (aluBrev o).need | .bfx o => (aluBfx o).need
  | .bfi o => (aluBfi o).need | .mov o => (aluMov o).need | .li o => (aluLi o).need | .lop3 o => (aluLop3 o).need
  | .prom o => (aluProm o).need | .demv o => demvNeed o | .dema o => demaNeed o | .base o => partNeed o | .strd o => partNeed o
  | .fadd o => (aluFadd o).need | .fsub o => (aluFsub o).need | .fmul o => (aluFmul o).need | .fma o => (aluFma o).need
  | .fmin o => (aluFmin o).need | .fmax o => (aluFmax o).need | .fabs o => (aluFabs o).need | .fcmp o => (aluFcmp o).need
  | .fclass o => (aluFclass o).need | .frnd o => (aluFrnd o).need | .cvt o => (aluCvt o).need
  | .rcp o => (special .rcp o).need | .rsq o => (special .rsq o).need | .sqrt o => (special .sqrt o).need
  | .ex2 o => (special .ex2 o).need | .lg2 o => (special .lg2 o).need | .sin o => (special .sin o).need
  | .cos o => (special .cos o).need | .tanh o => (special .tanh o).need | .dot2 o => (aluDot2 o).need
  | .dot4 o => (aluDot4 o).need | .sad o => (aluSad o).need | .avg o => (aluAvg o).need | .pack o => (aluPack o).need
  | .unpk o => (aluUnpk o).need | .prmt o => (aluPrmt o).need
  | .shuf o => shufNeed o | .red o => redNeed o | .scan o => scanNeed o | .vote o => voteNeed o | .ballot o => ballotNeed o
  | .plog o => plogNeed o | .pnot o => pnotNeed o | .pmov o => pmovNeed o | .pcnt o => pcntNeed o
  | .ld o => ldNeed o | .st o => stNeed o | .ldsx o => ldsxNeed o | .stsx o => stsxNeed o | .atom o => atomNeed o
  | .acc o => accNeed o | .kzero o => kzeroNeed o | .kread o => kreadNeed o | .kwrite o => kwriteNeed o
  | .flagr o => flagrNeed o | .flagc o => flagmNeed o | .flaga o => flagmNeed o
  | _ => {}

/-- One execution of a body. -/
def bodyExec (i : Instr) (s : State) : Out :=
  match i with
  | .add o => execAdd o s | .sub o => execSub o s | .mul o => execMul o s | .mulh o => execMulh o s | .mad o => execMad o s
  | .div o => execDiv o s | .rem o => execRem o s | .and o => execAnd o s | .or o => execOr o s | .xor o => execXor o s
  | .not o => execNot o s | .shl o => execShl o s | .shr o => execShr o s | .sar o => execSar o s | .min o => execMin o s
  | .max o => execMax o s | .abs o => execAbs o s | .neg o => execNeg o s | .cmp o => execCmp o s | .sel o => execSel o s
  | .popc o => execPopc o s | .clz o => execClz o s | .brev o => execBrev o s | .bfx o => execBfx o s | .bfi o => execBfi o s
  | .mov o => execMov o s | .li o => execLi o s | .lop3 o => execLop3 o s | .prom o => execProm o s | .demv o => execDemv o s
  | .dema o => execDema o s | .base o => execBase o s | .strd o => execStrd o s | .fadd o => execFadd o s
  | .fsub o => execFsub o s | .fmul o => execFmul o s | .fma o => execFma o s | .fmin o => execFmin o s
  | .fmax o => execFmax o s | .fabs o => execFabs o s | .fcmp o => execFcmp o s | .fclass o => execFclass o s
  | .frnd o => execFrnd o s | .cvt o => execCvt o s | .rcp o => execRcp o s | .rsq o => execRsq o s | .sqrt o => execSqrt o s
  | .ex2 o => execEx2 o s | .lg2 o => execLg2 o s | .sin o => execSin o s | .cos o => execCos o s | .tanh o => execTanh o s
  | .dot2 o => execDot2 o s | .dot4 o => execDot4 o s | .sad o => execSad o s | .avg o => execAvg o s | .pack o => execPack o s
  | .unpk o => execUnpk o s | .prmt o => execPrmt o s | .shuf o => execShuf o s | .red o => execRed o s | .scan o => execScan o s
  | .vote o => execVote o s | .ballot o => execBallot o s | .plog o => execPlog o s | .pnot o => execPnot o s
  | .pmov o => execPmov o s | .pcnt o => execPcnt o s | .ld o => execLd o s | .st o => execSt o s | .ldsx o => execLdsx o s
  | .stsx o => execStsx o s | .atom o => execAtom o s | .acc o => execAcc o s | .kzero o => execKzero o s
  | .kread o => execKread o s | .kwrite o => execKwrite o s | .flagr o => execFlagr o s | .flagc o => execFlagc o s
  | .flaga o => execFlaga o s
  | _ => .next s

/-! ## Stepped fields (R95, R97) -/

/-- field + k·step, as a number. -/
def stepTo (field : BitVec 8) (step : BitVec 8) (k : Nat) : Int := (field.toNat : Int) + (k : Int) * step.toInt
def stepField (field step : BitVec 8) (k : Nat) : BitVec 8 := BitVec.ofInt 8 (stepTo field step k)
/-- Does the stepped number still fit its field? -/
def stepFits (field step : BitVec 8) (k : Nat) : Bool := decide (0 ≤ stepTo field step k) && decide (stepTo field step k < 256)

def stepOpd (x : Opd) (step : BitVec 8) (k : Nat) : Opd := { x with n := stepField x.n step k }
def stepSrcB (x : SrcB) (step : BitVec 8) (k : Nat) : SrcB := match x with | .reg r => .reg (stepOpd r step k) | .imm i => .imm i
def srcBFits (x : SrcB) (step : BitVec 8) (k : Nat) : Bool := match x with | .reg r => stepFits r.n step k | .imm _ => true

/-- The body of repeat k. -/
def repBody (o : RepOps) (k : Nat) : Body :=
  match o.body with
  | .reg c b =>
    .reg c { b with d := stepOpd b.d o.dstep k, a := stepOpd b.a o.astep k, b := stepSrcB b.b o.bstep k, c := stepOpd b.c o.cstep k }
  | .mem c b => .mem c { b with d := stepOpd b.d o.dstep k, a := stepOpd b.a o.astep k, b := stepSrcB b.b o.bstep k }

def repFits (o : RepOps) (k : Nat) : Bool :=
  match o.body with
  | .reg _ b => stepFits b.d.n o.dstep k && stepFits b.a.n o.astep k && srcBFits b.b o.bstep k && stepFits b.c.n o.cstep k
  | .mem _ b => stepFits b.d.n o.dstep k && stepFits b.a.n o.astep k && srcBFits b.b o.bstep k

def Body.hdr : Body → Hdr
  | .reg _ o => o.h
  | .mem _ o => o.h

/-- R83 holds for the registers of every repeat (R96). -/
def repInRange (o : RepOps) (e : Env) : Bool :=
  (List.range (o.cnt.toNat + 1)).all fun k =>
    repFits o k &&
    match Body.instr (repBody o k) with
    | some i => let n := bodyNeed i; n.regs.all (RegUse.ok e) && n.regOk e
    | none => false

/-! ## REP -/

/-- The PC after the last repeat. -/
def repEnd (o : RepOps) (pc : Nat) : Nat := pc + 8 + 4 * Len.words (Body.hdr o.body).len

/-- After a repeat: one that completed makes the next repeat pending, or ends the REP; one that stalled or
trapped leaves the REP as it was. -/
def repAfter (o : RepOps) (e : Env) (k : Nat) (s : State) : State :=
  s.modPosy e.key fun p =>
    if p.pc = e.p.pc then { p with rep := e.p.rep }
    else if k < o.cnt.toNat then { p with pc := e.p.pc, rep := some (k + 1) }
    else { p with pc := repEnd o e.p.pc, rep := none }

/-- One issue runs one repeat. Before repeat 0 the class combination is checked, and then the registers of
every repeat (R102). -/
def execRep (o : RepOps) (s : State) : Out :=
  match curEnv s with
  | none => .next s
  | some e =>
    let k := e.p.rep.getD 0
    let e0 := { e with p := { e.p with rep := some k } }
    match Body.instr (repBody o k) with
    | none => trap s e0 .illegalOp (e.p.active (Body.hdr o.body))
    | some i =>
      if k = 0 && (bodyNeed i).type && !repInRange o e then trap s e0 .illegalReg (e.p.active (Body.hdr o.body))
      else
        match bodyExec i (s.setPosy e.key (some e0.p)) with
        | .next s1 => .next (repAfter o e k s1)
        | r => r

/-! ## Words without an instruction -/

/-- The lanes that a decode trap reports: the guard of the word, but a BR has none. -/
def decodeLanes (p : Posy) (w : W32) : List Nat :=
  if w.extractLsb' 2 8 = 4 then p.present else p.active { gp := w.extractLsb' 10 4, gn := bit1 w 14 }

/-- LEN 0b00 or an unassigned opcode traps ILLEGAL_OP whatever the other fields hold. -/
def execUnassignedOpcode (w : W32) (s : State) : Out :=
  match curEnv s with
  | none => .next s
  | some e => trap s e .illegalOp (decodeLanes e.p w)

end Sys2Proof.Machine
end

