-- ==== Sys2Proof/Machine/Dispatch.lean ====
section
/-!
DEFINITION. One arm for each constructor of Instr: its meaning.
-/
namespace Sys2Proof.Machine

def exec (i : Instr) (s : State) : Host.Outcome State Fault Refusal :=
  match i with
  -- control, 0x01 to 0x11
  | .nop o => Sys2Proof.Machine.execNop o s
  | .jmp o => Sys2Proof.Machine.execJmp o s
  | .bra o => Sys2Proof.Machine.execBra o s
  | .br o => Sys2Proof.Machine.execBr o s
  | .br4 o => Sys2Proof.Machine.execBr4 o s
  | .join o => Sys2Proof.Machine.execJoin o s
  | .joinw o => Sys2Proof.Machine.execJoinw o s
  | .call o => Sys2Proof.Machine.execCall o s
  | .calli o => Sys2Proof.Machine.execCalli o s
  | .ret o => Sys2Proof.Machine.execRet o s
  | .fork o => Sys2Proof.Machine.execFork o s
  | .exit o => Sys2Proof.Machine.execExit o s
  | .trap o => Sys2Proof.Machine.execTrap o s
  | .brk o => Sys2Proof.Machine.execBrk o s
  | .rep o => Sys2Proof.Machine.execRep o s
  | .xacq o => Sys2Proof.Machine.execXacq o s
  | .xrel o => Sys2Proof.Machine.execXrel o s
  -- integers, 0x20 to 0x3B
  | .add o => Sys2Proof.Machine.execAdd o s
  | .sub o => Sys2Proof.Machine.execSub o s
  | .mul o => Sys2Proof.Machine.execMul o s
  | .mulh o => Sys2Proof.Machine.execMulh o s
  | .mad o => Sys2Proof.Machine.execMad o s
  | .div o => Sys2Proof.Machine.execDiv o s
  | .rem o => Sys2Proof.Machine.execRem o s
  | .and o => Sys2Proof.Machine.execAnd o s
  | .or o => Sys2Proof.Machine.execOr o s
  | .xor o => Sys2Proof.Machine.execXor o s
  | .not o => Sys2Proof.Machine.execNot o s
  | .shl o => Sys2Proof.Machine.execShl o s
  | .shr o => Sys2Proof.Machine.execShr o s
  | .sar o => Sys2Proof.Machine.execSar o s
  | .min o => Sys2Proof.Machine.execMin o s
  | .max o => Sys2Proof.Machine.execMax o s
  | .abs o => Sys2Proof.Machine.execAbs o s
  | .neg o => Sys2Proof.Machine.execNeg o s
  | .cmp o => Sys2Proof.Machine.execCmp o s
  | .sel o => Sys2Proof.Machine.execSel o s
  | .popc o => Sys2Proof.Machine.execPopc o s
  | .clz o => Sys2Proof.Machine.execClz o s
  | .brev o => Sys2Proof.Machine.execBrev o s
  | .bfx o => Sys2Proof.Machine.execBfx o s
  | .bfi o => Sys2Proof.Machine.execBfi o s
  | .mov o => Sys2Proof.Machine.execMov o s
  | .li o => Sys2Proof.Machine.execLi o s
  | .lop3 o => Sys2Proof.Machine.execLop3 o s
  -- class moves and special registers, 0x40 to 0x47
  | .prom o => Sys2Proof.Machine.execProm o s
  | .demv o => Sys2Proof.Machine.execDemv o s
  | .dema o => Sys2Proof.Machine.execDema o s
  | .base o => Sys2Proof.Machine.execBase o s
  | .strd o => Sys2Proof.Machine.execStrd o s
  | .sread o => Sys2Proof.Machine.execSread o s
  | .swrite o => Sys2Proof.Machine.execSwrite o s
  | .segld o => Sys2Proof.Machine.execSegld o s
  -- floating and packed, 0x50 to 0x6A
  | .fadd o => Sys2Proof.Machine.execFadd o s
  | .fsub o => Sys2Proof.Machine.execFsub o s
  | .fmul o => Sys2Proof.Machine.execFmul o s
  | .fma o => Sys2Proof.Machine.execFma o s
  | .fmin o => Sys2Proof.Machine.execFmin o s
  | .fmax o => Sys2Proof.Machine.execFmax o s
  | .fabs o => Sys2Proof.Machine.execFabs o s
  | .fcmp o => Sys2Proof.Machine.execFcmp o s
  | .fclass o => Sys2Proof.Machine.execFclass o s
  | .frnd o => Sys2Proof.Machine.execFrnd o s
  | .cvt o => Sys2Proof.Machine.execCvt o s
  | .rcp o => Sys2Proof.Machine.execRcp o s
  | .rsq o => Sys2Proof.Machine.execRsq o s
  | .sqrt o => Sys2Proof.Machine.execSqrt o s
  | .ex2 o => Sys2Proof.Machine.execEx2 o s
  | .lg2 o => Sys2Proof.Machine.execLg2 o s
  | .sin o => Sys2Proof.Machine.execSin o s
  | .cos o => Sys2Proof.Machine.execCos o s
  | .tanh o => Sys2Proof.Machine.execTanh o s
  | .dot2 o => Sys2Proof.Machine.execDot2 o s
  | .dot4 o => Sys2Proof.Machine.execDot4 o s
  | .sad o => Sys2Proof.Machine.execSad o s
  | .avg o => Sys2Proof.Machine.execAvg o s
  | .pack o => Sys2Proof.Machine.execPack o s
  | .unpk o => Sys2Proof.Machine.execUnpk o s
  | .prmt o => Sys2Proof.Machine.execPrmt o s
  -- lanes and predicates, 0x70 to 0x79
  | .shuf o => Sys2Proof.Machine.execShuf o s
  | .red o => Sys2Proof.Machine.execRed o s
  | .scan o => Sys2Proof.Machine.execScan o s
  | .vote o => Sys2Proof.Machine.execVote o s
  | .ballot o => Sys2Proof.Machine.execBallot o s
  | .plog o => Sys2Proof.Machine.execPlog o s
  | .pnot o => Sys2Proof.Machine.execPnot o s
  | .pmov o => Sys2Proof.Machine.execPmov o s
  | .pcnt o => Sys2Proof.Machine.execPcnt o s
  -- memory, 0x80 to 0x92
  | .ld o => Sys2Proof.Machine.execLd o s
  | .st o => Sys2Proof.Machine.execSt o s
  | .ldsx o => Sys2Proof.Machine.execLdsx o s
  | .stsx o => Sys2Proof.Machine.execStsx o s
  | .atom o => Sys2Proof.Machine.execAtom o s
  | .acc o => Sys2Proof.Machine.execAcc o s
  | .fence o => Sys2Proof.Machine.execFence o s
  | .pref o => Sys2Proof.Machine.execPref o s
  | .drain o => Sys2Proof.Machine.execDrain o s
  | .breg o => Sys2Proof.Machine.execBreg o s
  | .bfree o => Sys2Proof.Machine.execBfree o s
  | .cpy o => Sys2Proof.Machine.execCpy o s
  | .cpy2d o => Sys2Proof.Machine.execCpy2d o s
  | .put o => Sys2Proof.Machine.execPut o s
  | .hwait o => Sys2Proof.Machine.execHwait o s
  | .htest o => Sys2Proof.Machine.execHtest o s
  | .hcancel o => Sys2Proof.Machine.execHcancel o s
  | .hmov o => Sys2Proof.Machine.execHmov o s
  | .hadopt o => Sys2Proof.Machine.execHadopt o s
  -- kiln, 0xA0 to 0xA7
  | .kload o => Sys2Proof.Machine.execKload o s
  | .ktask o => Sys2Proof.Machine.execKtask o s
  | .kzero o => Sys2Proof.Machine.execKzero o s
  | .kread o => Sys2Proof.Machine.execKread o s
  | .kwrite o => Sys2Proof.Machine.execKwrite o s
  | .kstore o => Sys2Proof.Machine.execKstore o s
  | .kfree o => Sys2Proof.Machine.execKfree o s
  | .kstat o => Sys2Proof.Machine.execKstat o s
  -- counters, 0xB0 to 0xB7 (BAR is split by its SUB)
  | .barArrive o => Sys2Proof.Machine.execBarArrive o s
  | .barWait o => Sys2Proof.Machine.execBarWait o s
  | .barSync o => Sys2Proof.Machine.execBarSync o s
  | .barQuery o => Sys2Proof.Machine.execBarQuery o s
  | .sigadd o => Sys2Proof.Machine.execSigadd o s
  | .sigwait o => Sys2Proof.Machine.execSigwait o s
  | .ctwait o => Sys2Proof.Machine.execCtwait o s
  | .twait o => Sys2Proof.Machine.execTwait o s
  | .flagr o => Sys2Proof.Machine.execFlagr o s
  | .flagc o => Sys2Proof.Machine.execFlagc o s
  | .flaga o => Sys2Proof.Machine.execFlaga o s
  -- launches, calls and contexts, 0xC0 to 0xC6
  | .launch o => Sys2Proof.Machine.execLaunch o s
  | .sysc o => Sys2Proof.Machine.execSysc o s
  | .savek o => Sys2Proof.Machine.execSavek o s
  | .restk o => Sys2Proof.Machine.execRestk o s
  | .rddiv o => Sys2Proof.Machine.execRddiv o s
  | .wrdiv o => Sys2Proof.Machine.execWrdiv o s
  | .tret o => Sys2Proof.Machine.execTret o s
  -- a word whose opcode is unassigned or 0x00, or whose LEN is 0b00 (R71, R99)
  | .unassignedOpcode w => Sys2Proof.Machine.execUnassignedOpcode w s
  -- joins and timed waits
  | .joinComplete team frame rec => Sys2Proof.Machine.execJoinComplete team frame rec s
  | .joinExpiry team frame rec => Sys2Proof.Machine.execJoinExpiry team frame rec s
  | .twaitExpiry core slot => Sys2Proof.Machine.execTwaitExpiry core slot s
  -- queue engine and distributors
  | .trapRecordPost queue => Sys2Proof.Machine.execTrapRecordPost queue s
  | .tailRead queue => Sys2Proof.Machine.execTailRead queue s
  | .dispatch queue => Sys2Proof.Machine.execDispatch queue s
  | .dependencyRead queue => Sys2Proof.Machine.execDependencyRead queue s
  | .placement lid => Sys2Proof.Machine.execPlacement lid s
  | .splitChange core => Sys2Proof.Machine.execSplitChange core s
  | .timedStart lid => Sys2Proof.Machine.execTimedStart lid s
  | .teamRetire team => Sys2Proof.Machine.execTeamRetire team s
  | .launchComplete lid => Sys2Proof.Machine.execLaunchComplete lid s
  | .posyForm core => Sys2Proof.Machine.execPosyForm core s
  | .rotation core slot => Sys2Proof.Machine.execRotation core slot s
  | .watchdogExpiry queue => Sys2Proof.Machine.execWatchdogExpiry queue s
  | .priorityPreempt lid => Sys2Proof.Machine.execPriorityPreempt lid s
  -- context engine
  | .sliceEnd core => Sys2Proof.Machine.execSliceEnd core s
  | .vdSwitch core => Sys2Proof.Machine.execVdSwitch core s
  | .handlerEntry core slot => Sys2Proof.Machine.execHandlerEntry core slot s
  | .budgetExpiry team => Sys2Proof.Machine.execBudgetExpiry team s
  | .restore team => Sys2Proof.Machine.execRestore team s
  | .restoreEnd team => Sys2Proof.Machine.execRestoreEnd team s
  -- the ordering machine
  | .requestLeave team idx => Sys2Proof.Machine.execRequestLeave team idx s
  | .requestReply team idx => Sys2Proof.Machine.execRequestReply team idx s
  | .writeBack who line => Sys2Proof.Machine.execWriteBack who line s
  | .merge idx => Sys2Proof.Machine.execMerge idx s
  | .invalidation who line => Sys2Proof.Machine.execInvalidation who line s
  | .fill who line sector => Sys2Proof.Machine.execFill who line sector s
  | .directoryEvict line => Sys2Proof.Machine.execDirectoryEvict line s
  | .atomicPerform team idx => Sys2Proof.Machine.execAtomicPerform team idx s
  -- bounded values
  | .deltaDrain who vd base home => Sys2Proof.Machine.execDeltaDrain who vd base home s
  | .shareRecall who vd base home => Sys2Proof.Machine.execShareRecall who vd base home s
  | .regionLoadAnswer team idx => Sys2Proof.Machine.execRegionLoadAnswer team idx s
  | .holderReturn who vd base home give => Sys2Proof.Machine.execHolderReturn who vd base home give s
  -- the park store
  | .park team idx => Sys2Proof.Machine.execPark team idx s
  | .parkRetry team idx => Sys2Proof.Machine.execParkRetry team idx s
  | .faultRecordPost die => Sys2Proof.Machine.execFaultRecordPost die s
  | .followerReplay die pseq => Sys2Proof.Machine.execFollowerReplay die pseq s
  | .replayComplete die pseq => Sys2Proof.Machine.execReplayComplete die pseq s
  | .release die => Sys2Proof.Machine.execRelease die s
  | .abort die => Sys2Proof.Machine.execAbort die s
  | .purge die => Sys2Proof.Machine.execPurge die s
  | .parkLimitWrite die v => Sys2Proof.Machine.execParkLimitWrite die v s
  | .overflowConfigWrite die cfg v => Sys2Proof.Machine.execOverflowConfigWrite die cfg v s
  | .faultRingConfigWrite die which v => Sys2Proof.Machine.execFaultRingConfigWrite die which v s
  | .retaggedCompletion team idx => Sys2Proof.Machine.execRetaggedCompletion team idx s
  | .migrationStart die v => Sys2Proof.Machine.execMigrationStart die v s
  | .migrationRun die => Sys2Proof.Machine.execMigrationRun die s
  -- table and trap commands
  | .tinv => Sys2Proof.Machine.execTinv s
  | .placeset => Sys2Proof.Machine.execPlaceset s
  | .qenable => Sys2Proof.Machine.execQenable s
  | .qdisable => Sys2Proof.Machine.execQdisable s
  | .vdcreate => Sys2Proof.Machine.execVdcreate s
  | .vddestroy => Sys2Proof.Machine.execVddestroy s
  | .tresume => Sys2Proof.Machine.execTresume s
  | .lkill => Sys2Proof.Machine.execLkill s
  -- other register writes
  | .firewallWrite die port v => Sys2Proof.Machine.execFirewallWrite die port v s
  | .partitionWrite off v => Sys2Proof.Machine.execPartitionWrite off v s
  | .descriptorBaseWrite vdt v => Sys2Proof.Machine.execDescriptorBaseWrite vdt v s
  | .featAcceptWrite v => Sys2Proof.Machine.execFeatAcceptWrite v s
  | .syscDone v => Sys2Proof.Machine.execSyscDone v s
  | .registerWrite pa v => Sys2Proof.Machine.execRegisterWrite pa v s
  -- engines
  | .handleComplete team token => Sys2Proof.Machine.execHandleComplete team token s
  | .copyRequest core team token part => Sys2Proof.Machine.execCopyRequest core team token part s
  | .putLanding core team token => Sys2Proof.Machine.execPutLanding core team token s
  | .kloadComplete core team token => Sys2Proof.Machine.execKloadComplete core team token s
  | .aFetch core team token => Sys2Proof.Machine.execAFetch core team token s
  | .taskStart core => Sys2Proof.Machine.execTaskStart core s
  | .taskComplete core team token => Sys2Proof.Machine.execTaskComplete core team token s
  -- host, peers and housekeeping
  | .hostRequest a cache => Sys2Proof.Machine.execHostRequest a cache s
  | .backInvalidation line => Sys2Proof.Machine.execBackInvalidation line s
  | .hostSnoop line bytes => Sys2Proof.Machine.execHostSnoop line bytes s
  | .peerInbound port a => Sys2Proof.Machine.execPeerInbound port a s
  | .softError at_ => Sys2Proof.Machine.execSoftError at_ s
  | .bringUp => Sys2Proof.Machine.execBringUp s
  | .thermalStepDown => Sys2Proof.Machine.execThermalStepDown s
  | .thermalStepUp => Sys2Proof.Machine.execThermalStepUp s
  | .thermalShutdown => Sys2Proof.Machine.execThermalShutdown s
  | .serviceClusterAccess a => Sys2Proof.Machine.execServiceClusterAccess a s
  | .linkTrainingChange peer port up => Sys2Proof.Machine.execLinkTrainingChange peer port up s
  | .railLoss => Sys2Proof.Machine.execRailLoss s
  | .attestationRequest nonce => Sys2Proof.Machine.execAttestationRequest nonce s

end Sys2Proof.Machine
end

