-- ==== Sys2Proof/Machine/Fetch.lean ====
section
/-!
DEFINITION. Instruction fetch (R72, R227, R363, R367, R373), what happens around an instruction as it issues (R102,
R325, R326), the clocks (R460), and the placing of words where the next fetch reads them.
-/
namespace Sys2Proof.Machine

/-! ## Which posies issue -/

/-- No posy of the team stopped it in an earlier cycle; in the cycle of a trap the other posies that issue still do (R421). -/
def notStopped (s : State) (e : Env) : Bool :=
  match e.t.stopped with
  | none => true
  | some x => e.t.stopAt == s.cycle && !e.p.phase && e.p.xseq.isNone && x.1 != e.slot && e.t.trapped.all fun y => y.1 != e.slot

/-- The team runs, or the posy is in its handler and its budget is not out (R421, R428, R430, R441), and neither a START, a
TWAIT, a join nor a parked fetch holds the posy. -/
def mayIssue (s : State) (e : Env) : Bool :=
  notStopped s e && (e.t.save == .resident || handlerRuns s e) && e.p.hd.mode != .held &&
  (match s.launch e.t.lid with | some l => l.started || decide (l.r.start ≤ s.time) | none => true) &&
  e.p.wait_.isNone && !e.p.joining &&
  (match e.p.fetch with
   | none => true | some .queued => true
   | some (.refused at_) => decide (at_ + 256 ≤ s.cycle)
   | _ => false)

/-! ## Fetch -/

/-- The entry of a fetch, for the word at an address. -/
def fetchEntry (e : Env) (va : Nat) (f : Fail) : Entry :=
  { pseq := 0, owner := .fetch e.p.team e.core e.slot e.p.uid va, lid := e.t.lid, va := va, size := 4, cause := f.cause, kind := 4, vd := e.t.vd
    part := e.t.part, core := e.core, slot := e.slot, iseq := e.t.nextSeq % 2 ^ 32, lanes := b64 (maskOf e.p.present)
    route := e.t.lid, pgsz := f.pgsz, missing := f.missing, cls := f.cls, width := f.width, inst := f.inst }

/-- A fetch parks like a load, or is refused. Log entry 12: DEDUCED. -/
def fetchPark (s : State) (e : Env) (va : Nat) (f : Fail) : State :=
  let x := parkAs (countWalk s (dieOf e.core) f) (dieOf e.core) (fetchEntry e va f) (issuerOf e.t 4)
  x.1.modPosy e.key fun p => { p with fetch := some (match x.2 with | some n => .parked (dieOf e.core) n | none => .refused s.cycle) }

inductive Fetched where
  | held (s : State)
  | got (s : State) (bs : List Byte)

/-- Bytes of one fetch block, read at the home, once its line is not merging (R287). An unreachable or poisoned range reads as ones with MERR (R23, R221). -/
def fetchRead (s : State) (e : Env) (va n : Nat) : Fetched :=
  if e.p.fetchOnes = some (va / 32) then .got s (ones n)
  else if replayWaits s (dieOf e.core) fun o => o == .fetch e.p.team e.core e.slot e.p.uid va then .held s
  else
    match translate s e.t.part e.t.vd (some e.core) (dieOf e.core) va { x := true } e.p.privileged with
    | .fail f => .held (fetchPark s e va f)
    | .leaf l =>
      let pa := l.pa_ va
      if !reaches s (dieOf e.core) pa then
        .got (flagTeam (countRefused s (dieOf e.core) pa) e.p.team flagMerr) (ones n)
      else if isMerging s (lineOf pa) none then .held s
      else
        match paKind pa with
        | .dev => .got s (devLoad s pa n)
        | .peer _ => .got { s with fresh := s.fresh + 1 } ((List.range n).map fun i => Config.peerByte s.fresh (pa + i))
        | _ =>
          let bad := (List.range n).any fun i => s.poisoned (pa + i)
          .got (if bad then flagTeam s e.p.team flagMerr else s) (s.readBytes pa n)

/-- Is a pair of words a REP whose body the decoder goes on to (R95, R102)? -/
def repHead (w0 w1 : W32) : Bool :=
  w0.extractLsb' 0 16 &&& 0x7FFF == 0x3D && w1.extractLsb' 16 10 == 0

/-- The bytes from PC to the end of its fetch block, and after a REP at its end those of the next block.
Log entry 11: DESIGN CHOICE. Log entry 12: DEDUCED. -/
def fetchBytes (s : State) (e : Env) : Fetched :=
  match fetchRead s e e.p.pc (32 - e.p.pc % 32) with
  | .held s1 => .held s1
  | .got s1 bs =>
    let ws := fetchWords bs
    if e.p.pc % 32 = 24 ∧ repHead (ws.getD 0 0) (ws.getD 1 0) then
      match fetchRead s1 e (e.p.pc + 8) 32 with
      | .held s2 => .held s2
      | .got s2 more => .got s2 (bs ++ more)
    else .got s1 bs

/-! ## Around an instruction -/

/-- The posy's fetch is over. -/
def beforeIssue (s : State) (e : Env) : State :=
  { (s.modPosy e.key fun p => { p with fetch := none, fetchOnes := none }) with cur := (e.core, e.slot) }

/-- The first instruction that a placed team issues returns the watchdog's count to zero (R326). -/
def firstIssue (e : Env) (s : State) : State :=
  if e.t.issued then s
  else (s.modTeam e.p.team fun t => { t with issued := true }).modQueue e.t.queue fun x => { x with wd := 0 }

/-- How old the issue stamp of a slot is, in cycles; stamps have 16 bits, and Y = 1 puts one a little ahead of the clock (R325).
Log entry 13: DESIGN CHOICE. -/
def stampAge (s : State) (core slot : Nat) : Nat := ((BitVec.ofNat 16 (s.cycle + 256)) - Tab.get 0 (s.core core).stamps slot).toNat

/-- The slots of a bay. -/
def baySlots (bay : Nat) : List Nat := (List.range Config.slots).filter fun j => j % 4 == bay

/-- The stamp that an instruction gives its slot (R325): the bay's cycle count, or with Y = 1 one later than every other
stamp of the bay; Y counts once in a REP (R180). -/
def issueStamp (s : State) (e : Env) (y : Bool) : BitVec 16 :=
  let others := (baySlots (e.slot % 4)).filter (· != e.slot)
  if y && e.p.rep.isNone then
    BitVec.ofNat 16 (s.cycle + 257) - BitVec.ofNat 16 (((others.map (stampAge s e.core)).min?).getD 0)
  else BitVec.ofNat 16 s.cycle

/-- A jump, or a branch that keeps the posy whole, whose registers have landed: it issues, also where it goes to itself. -/
def goesWhole (i : Instr) (s : State) (e : Env) : Bool :=
  let landed := fun (us : List RegUse) => !us.any (pends s e)
  match i with
  | .jmp o => landed (guardUse o.h :: (jmpNeed o).regs)
  | .bra o => landed [guardUse o.h, opdUse o.a 1 1 false]
  | .br o => landed [guardUse o.h] && decide ((brGroups o e).length ≤ 1)
  | .br4 o => landed ((List.range 4).map fun i => { sp := .p, n := (br4Pred o i).toNat }) && decide ((br4Groups o e).length ≤ 1)
  | _ => false

/-- Did the instruction issue? One that stalls leaves its posy and team as they were. -/
def didIssue (i : Instr) (e : Env) (before after : State) : Bool :=
  goesWhole i before e || !(after.posy e.key == before.posy e.key && after.team e.p.team == before.team e.p.team)

/-- The posy is in the waiting phase of an instruction, so it is not ready and its bay does not issue it (R325). -/
def Posy.waiting (p : Posy) : Bool := p.phase || p.xseq.isSome

/-- The stamp of an issue, and the bay's issue of this cycle (R325). -/
def markIssue (e : Env) (y : Bool) (before after : State) : State :=
  after.modCore e.core fun c => { c with
    stamps := Tab.set 0 c.stamps e.slot (issueStamp before e y), issued := Tab.set 0 c.issued (e.slot % 4) (before.cycle + 1) }

/-- What the issue of an instruction leaves behind: that the team has issued, and the stamp unless it was in its waiting phase. -/
def afterIssue (i : Instr) (e : Env) (y : Bool) (before after : State) : State :=
  if didIssue i e before after then firstIssue e (if e.p.waiting then after else markIssue e y before after) else after

/-- A trap of steps 1 to 3 of R101, at the PC of the instruction; one in a REP reports repeat 0 (R102). -/
def decodeTrap (s : State) (tr : Trap) (w0 : W32) : State :=
  match curEnv s with
  | none => s
  | some e =>
    let p := if w0.extractLsb' 2 8 = 0x0F then { e.p with rep := some 0 } else e.p
    takeTrap s { e with p := p } tr (decodeLanes e.p w0) 0

/-! ## Clocks -/

/-- Sixths of a nanosecond in a cycle of the arithmetic clock (R460). Log entry 14: DESIGN CHOICE. Log entry 15: DEDUCED. -/
def cycleSixths (step : Nat) : Nat := match step with | 0 => 3 | 1 => 4 | _ => 6

/-- A tick of the global timebase: TIME, and the watchdogs that count it (R326). R29 lets two dies read it up to 2 ns
apart; every die of the model reads one count. Log entry 15: DEDUCED. Log entry 94: DESIGN CHOICE. -/
def timeTick (s : State) : State :=
  { s with
    time := s.time + 1
    queues := Tab.setAll {} s.queues ((s.queues.filter fun q => watchdogCounts s q.1 q.2).map fun q => (q.1, { q.2 with wd := q.2.wd + 1 })) }

/-- One cycle of the arithmetic clock; flags set in the cycle that ends may be cleared from now on (R117),
and its additions to landing counters are over (R414).
Log entry 14: DESIGN CHOICE. -/
def clockTick (s : State) : State :=
  let n := s.sixths + cycleSixths s.thermStep
  let s1 := { s with
    cycle := s.cycle + 1, sixths := n % 6
    teams := s.teams.map fun x => (x.1, x.2.map fun t => { t.landEnd with flagsNew := 0 }) }
  if 6 ≤ n then timeTick s1 else s1

/-! ## The issue of a posy -/

/-- Fetch, decode and execute the next instruction of a posy, and whether it issued. Log entry 11: DESIGN CHOICE. -/
def attemptIssue (s : State) (e : Env) : Host.Outcome State Fault Refusal × Bool :=
  match fetchBytes s e with
  | .held s1 => (.next s1, false)
  | .got s1 bs =>
    let s2 := beforeIssue s1 e
    let w0 := (fetchWords bs).getD 0 0
    match decodeBytes (e.p.pc % 32) bs with
    | .error t => (.next (firstIssue e (markIssue e false s2 (decodeTrap s2 t w0))), true)
    | .ok i =>
      match exec i s2 with
      | .next s3 => (.next (afterIssue i e (bit1 w0 15) s2 s3), didIssue i e s2 s3)
      | r => (r, false)

/-- Ready (R325): the posy may issue, is in no waiting phase, and its next instruction does not stall. -/
def ready (s : State) (k : Nat) : Bool :=
  match envAt s k with
  | some e => mayIssue s e && !e.p.waiting && (attemptIssue s e).2
  | none => false

/-- The bay has issued in this cycle. -/
def bayDone (s : State) (core bay : Nat) : Bool := Tab.get 0 (s.core core).issued bay == s.cycle + 1

/-- The bay may issue the posy of a slot: it has not issued in this cycle, and no other ready posy of it has an older stamp, or an
equal one in a lower slot (R325). -/
def bayTurn (s : State) (core slot : Nat) : Bool :=
  !bayDone s core (slot % 4) && (baySlots (slot % 4)).all fun j =>
    let older := decide (stampAge s core slot < stampAge s core j) || (stampAge s core j == stampAge s core slot && decide (j < slot))
    j == slot || !older || !ready s (posyKey core j)

/-! ## Order within a cycle (R56, R407, R421) -/

/-- The posy issues now: it is its bay's turn, or it goes on in the waiting phase of its instruction (R325). -/
def issuesNow (s : State) (e : Env) : Bool := mayIssue s e && (e.p.waiting || bayTurn s e.core e.slot)

/-- The state after the issue of the posy of a slot, if it issues now. -/
def afterTurn (s : State) (k : Nat) : State :=
  match envAt s k with
  | some e => if issuesNow s e then (match (attemptIssue s e).1 with | .next t => t | _ => s) else s
  | none => s

/-- The instruction that the posy of a slot issues now. -/
def instrNow (s : State) (k : Nat) : Option (Env × Instr) :=
  match envAt s k with
  | none => none
  | some e =>
    match issuesNow s e, fetchBytes s e with
    | true, .got _ bs => (match decodeBytes (e.p.pc % 32) bs with | .ok i => some (e, i) | .error _ => none)
    | _, _ => none

/-- The barrier of an arriving instruction: its level, the core or the VD, and its place there. -/
def barOf (e : Env) (i : Instr) : Option (Nat × Nat × Nat) :=
  match i with
  | .barArrive o | .barSync o =>
    let l := barLevel o.x10
    some (if l = 0 then (0, e.core, barNum o.x10) else (l, vdKey e.t.part e.t.vd, barKey e.core l (barNum o.x10)))
  | _ => none

/-- The barrier at which the issue of a slot arrives: the posy goes on from an arriving instruction, or to its waiting phase. -/
def barNow (s : State) (k : Nat) : Option (Nat × Nat × Nat) :=
  match instrNow s k, (afterTurn s k).posy k with
  | some x, some p => if p.pc != x.1.p.pc || (p.phase && !x.1.p.phase) then barOf x.1 x.2 else none
  | _, _ => none

/-- Does the issue of a slot arrive at a join? -/
def joinsNow (s : State) (k : Nat) : Bool :=
  match instrNow s k with
  | some (e, .join _) | some (e, .joinw _) => (attemptIssue s e).2
  | _ => false

/-- Does the issue of a slot trap, or end fibres of a frame? -/
def trapsNow (s : State) (k : Nat) : Bool := decide (s.traps.length < (afterTurn s k).traps.length)
def refsOf (s : State) (team frame : Nat) : Nat := (((s.team team).bind (·.frame frame)).map (·.refs)).getD 0
def exitsNow (s : State) (k team frame : Nat) : Bool := decide (refsOf (afterTurn s k) team frame < refsOf s team frame)

/-- The issue of a posy waits for another one of the same cycle: a trap for one of the team in a lower slot (R421), an arrival
at a barrier for one that comes first by core and slot (R407), an arrival at a join for the exits of its frame (R56). -/
def heldInCycle (s : State) (e : Env) : Bool :=
  let others := (Tab.live s.posies).filter fun x => x.1 != e.key
  (trapsNow s e.key && others.any fun x => x.2.team == e.p.team && decide (x.1 < e.key) && trapsNow s x.1) ||
  ((barNow s e.key).isSome && others.any fun x => decide (x.1 < e.key) && barNow s x.1 == barNow s e.key) ||
  (joinsNow s e.key && others.any fun x => x.2.team == e.p.team && x.2.frame == e.p.frame && exitsNow s x.1 e.p.team e.p.frame)

/-- A bay of the core has a ready posy and has not issued in this cycle. -/
def coreOwes (s : State) (core : Nat) : Bool :=
  (List.range Config.bays).any fun bay => !bayDone s core bay && (baySlots bay).any fun j => ready s (posyKey core j)

/-- What a core has to do before its cycle ends: the issues of its bays (R325), posies to form (R48) and to rotate (R50). -/
def coreWork (s : State) (core : Nat) : Bool :=
  coreOwes s core || canForm s core ||
  ((s.posiesAt core).any fun x => match envAt s x.1 with | some e => rotateDue s core e.slot e | none => false)

/-- Joins of a team that are met or due (R53, R55). -/
def joinsOwed (s : State) (t : Team) : Bool :=
  (Tab.live t.frames).any fun f => (Tab.live f.2.joins).any fun j =>
    (j.2.open_ && t.running && joinMet s t f.1 f.2 j.2) || joinDue s t j.2

/-- A watchdog expires in this tick, or a completion of its queue comes before that (R326). -/
def watchdogDue (s : State) : Bool := s.queues.any fun x => x.2.expired && queueBusy s x.1

/-- The cycle does not end while this holds: what R48, R50, R53, R55, R325 and R326 have happen in a cycle has not all happened.
Log entry 13: DESIGN CHOICE. -/
def cycleOwes (s : State) : Bool :=
  (((s.posies.map fun x => x.1 / Config.slots) ++ s.cores.map (·.1)).eraseDups.any (coreWork s)) ||
  ((Tab.live s.teams).any fun x => joinsOwed s x.2) || watchdogDue s

/-! ## Events -/

/-- Within a cycle the expiry test of a join comes after the exits and arrivals (R56). -/
def inCycleOrder (s : State) (i : Instr) : Bool :=
  match i with
  | .joinExpiry team _ _ => (match s.team team with | some t => !coreOwes s t.core | none => true)
  | _ => true

/-- The bring-up step after which an event may come (R458): until the C-dies run only bring-up, the rails, the host's own
memory and its requests; until the links are trained nothing that the driver does. -/
def bootNeeded : Instr → Nat
  | .bringUp | .railLoss | .hostSnoop _ _ | .hostRequest _ _ => 0
  | .linkTrainingChange _ _ _ | .softError _ | .thermalStepDown | .thermalStepUp | .thermalShutdown => 4
  | _ => 5

def eventMay (s : State) (i : Instr) : Bool := (encode i).isEmpty && inCycleOrder s i && decide (bootNeeded i ≤ s.boot)

/-! ## Placing an instruction -/

/-- Where the next step fetches, if it fetches from a block of HBM. -/
def fetchPlace (s : State) : Option Nat :=
  match s.turns with
  | .issue c k :: _ =>
    match envAt s (posyKey c k) with
    | some e =>
      if 4 ≤ s.boot ∧ issuesNow s e ∧ ((Tab.live s.posies).all fun x => x.1 == e.key) ∧ e.p.pc % 32 = 0 ∧ e.p.fetchOnes = none ∧ e.p.rep = none then
        match translate s e.t.part e.t.vd (some e.core) (dieOf e.core) e.p.pc { x := true } e.p.privileged with
        | .leaf l => (match paKind (l.pa_ e.p.pc) with
                      | .hbm _ => if reaches s (dieOf e.core) (l.pa_ e.p.pc) ∧ !isMerging s (lineOf (l.pa_ e.p.pc)) none then some (l.pa_ e.p.pc) else none
                      | _ => none)
        | .fail _ => none
      else none
    | none => none
  | _ => none

/-- Where `loadTeam` puts the words. -/
def loadVa : Nat := 0x10000
def loadRoot : Nat := 0x1000
/-- The tables: three pointers and the leaf of the page at `loadVa` (R, W, X, class RC, width DEV). -/
def loadTables : List (Nat × Nat) :=
  [(0x1000, 0x2001), (0x2000, 0x3001), (0x3000, 0x4001), (0x4008, 0x10000 + 0x600 + 0x80 + 0x1F)]

/-- A team of one fibre in slot 0 of core 0, under VD 0, at `loadVa`: what a launch of the program would leave.
Log entry 10: DESIGN CHOICE. -/
def loadTeam (s : State) : State :=
  let part := partOfCore s 0
  let tid := s.nextTeam
  let t : Team :=
    { lid := 0, idx := 0, vd := 0, part := part, core := 0, placed := tid
      glb := SegReg.make 0 (2 ^ 32) true true true, scr := SegReg.make 0 0x1000 true true true
      cst := SegReg.make 0 (2 ^ 32) true true false, salloc := 0x1000, ktiles := 4, tileNos := [0, 1, 2, 3]
      frames := [(0, some { refs := 1 })], nextFid := 1 }
  let p : Posy :=
    { uid := s.nextUid, team := tid, frame := 0, pc := loadVa, alloc := 256, lanes := [(0, some 0)], lfsr := [(0, 1)]
      since := s.cycle }
  let s1 := (s.setTeam tid (some t)).setPosy 0 (some p)
  let s2 := (s1.setVd part 0 (some { ptroot := loadRoot, asize := 2 ^ 32, places := [] })).setCore 0 { vd := some (vdKey part 0), lsplit := 1, gmap := [(0, some (tid, 0))] }
  let s3 := s2.modDie 0 fun x => { x with tlb := [] }
  let s4 := { s3 with nextTeam := tid + 1, nextUid := s.nextUid + 1, boot := 5, turns := .issue 0 0 :: s.turns, merging := [] }
  loadTables.foldl (fun s x => s.write64 x.1 x.2) s4

/-- Stores the words of an instruction where the next step fetches. -/
def placeWords (s : State) (ws : List W32) : State :=
  match fetchPlace s with
  | some pa => s.writeHome (placed pa (bytesOfWords ws))
  | none => (loadTeam s).writeHome (placed loadVa (bytesOfWords ws))

end Sys2Proof.Machine
end

