-- ==== Sys2Proof/Machine/Step.lean ====
section
/-!
DEFINITION. The step: the next turn (R276) is the issue of a posy, a step of another agent, or a cycle of the clock.
-/
namespace Sys2Proof.Machine

/-- The turn that comes next: the first of the list, or the arbiter's choice. Log entry 2: DESIGN CHOICE. -/
def nextTurn (s : State) : Turn × State :=
  match s.turns with
  | t :: ts => (t, { s with turns := ts })
  | [] => (Config.arbiter s.turnCount, { s with turnCount := s.turnCount + 1 })

/-- A posy issues if it is its bay's turn, or goes on in the waiting phase of its instruction (R325), and nothing of the same
cycle comes first. -/
def issueTurn (core slot : Nat) (s : State) : Host.Outcome State Fault Refusal :=
  match envAt s (posyKey core slot) with
  | none => .next s
  | some e =>
    if s.boot < 4 ∨ !issuesNow s e ∨ heldInCycle s e then .next s else (attemptIssue s e).1

/-- One turn. -/
def runTurn (t : Turn) (s : State) : Host.Outcome State Fault Refusal :=
  match t with
  | .issue core slot => issueTurn core slot s
  | .event i => if eventMay s i then exec i s else .next s
  | .tick => .next (if s.boot < 4 ∨ cycleOwes s then s else clockTick s)
  | .sense tj => .next (senseTj s tj)
  | .decoder base => .next { s with hdmBase := base }

/-- One step of the module. Log entry 1: DESIGN CHOICE. -/
def step (s : State) : Host.Outcome State Fault Refusal := runTurn (nextTurn s).1 (nextTurn s).2

/-- The state with an instruction's words where step fetches next. Log entry 10: DESIGN CHOICE. -/
def State.withFetchWord (s : State) (nbits w : Nat) : State := placeWords s (tableWords nbits w)

end Sys2Proof.Machine
end

