-- ==== Sys2Proof/Safety.lean ====
section
/-!
DEFINITION. What counts as a safe run: no step stops the machine, and the invariant of the module holds.
-/
namespace Sys2Proof

/-- The outcome of a step is a next state. -/
def Completes (o : Host.Outcome Machine.State Machine.Fault Machine.Refusal) : Prop := ∃ t, o = .next t

/-- A machine that never stops: no step from any state that `step` reaches faults or is refused. -/
def RunsFor : Nat → Machine.State → Prop
  | 0, _ => True
  | n + 1, s => ∃ t, Machine.step s = .next t ∧ RunsFor n t

/-- A run of the module. -/
def IsRun (r : Nat → Machine.State) : Prop := ∀ n, Machine.step (r n) = .next (r (n + 1))

/-- A turn that would do something. -/
def Enabled (t : Turn) (s : Machine.State) : Prop := ∃ s', Machine.runTurn t s = .next s' ∧ s' ≠ s

/-- The run takes a turn at a step. -/
def Takes (r : Nat → Machine.State) (n : Nat) (t : Turn) : Prop := (Machine.nextTurn (r n)).1 = t

/-- What the module owes nobody: what the world outside does when it likes, an error, a lost rail, and the fills and evictions that a cache may
leave undone. -/
def Optional : Turn → Bool
  | .sense _ | .decoder _ => true
  | .issue _ _ | .tick => false
  | .event i =>
    match i with
    | .hostRequest _ _ | .hostSnoop _ _ | .peerInbound _ _ | .serviceClusterAccess _ | .linkTrainingChange _ _ _ | .attestationRequest _
    | .softError _ | .railLoss | .bringUp | .fill _ _ _ | .directoryEvict _ | .holderReturn _ _ _ _ _
    | .parkLimitWrite _ _ | .overflowConfigWrite _ _ _ | .faultRingConfigWrite _ _ _ | .migrationStart _ _ | .firewallWrite _ _ _
    | .partitionWrite _ _ | .descriptorBaseWrite _ _ | .featAcceptWrite _ | .syscDone _ | .registerWrite _ _ => true
    | _ => false

/-- The runs that R276 admits: every enabled step of the module is taken in finite time, so none stays enabled for ever
without being taken. What R69 promises, it promises of these runs. -/
def FairRun (r : Nat → Machine.State) : Prop :=
  IsRun r ∧ ∀ (t : Turn) (n : Nat), Optional t = false → ∃ m, n ≤ m ∧ (Takes r m t ∨ ¬Enabled t (r m))

/-- The posy `e` of `cur` passes the checks before an instruction (R83, R101, R135, R137, R142, R429): its class
combination, registers and privilege suit it, no register it names is pending, and, where the full-mask rule
applies, every fibre of the frame is active. These are the conditions on the state and the operands under which
an instruction executes. -/
structure Machine.Passes (s : Machine.State) (e : Machine.Env) (n : Machine.Need) (h : Hdr) : Prop where
  cur : Machine.curEnv s = some e
  type : n.type = true
  regs : n.regs.all (Machine.RegUse.ok e) = true
  regOk : n.regOk e = true
  priv : n.priv = true → e.p.privileged = true
  ban : n.ban = true → e.p.privileged = false
  ready : n.regs.any (Machine.pends s e) = false
  guardReady : Machine.pends s e (Machine.guardUse h) = false
  full : n.full = true → (e.p.active h).length = e.f.refs
  tags : n.tags.all (Machine.TagUse.ok e) = true

end Sys2Proof
end

