-- ==== Sys2Proof/Certificates/Slice0/Obligations.lean ====
section
/-!
DEFINITION. The statements about the model, and the terms they are said in: what an instruction leaves behind,
which instructions a check covers, and what the spec's tables give in plain arithmetic of bit vectors.
-/
namespace Sys2Proof.Claims
open Sys2Proof.Machine

/-! ## What an instruction leaves behind -/

/-- The state after a posy's instruction: the environment with the writes `x`, and the PC at the next instruction. -/
def after (s : State) (e : Env) (l : Len) (x : Eff) : State :=
  { e.apply x with p := (e.p.apply x).advance l }.put s

/-- Everything but one posy and its team is as it was: every other posy and team, every byte of memory, the cores,
dies, queues, launches, virtual devices and registers of the module. -/
structure OnlyPosy (s t : State) (e : Env) : Prop where
  rest : t = { s with posies := t.posies, teams := t.teams }
  posies : ∀ k, k ≠ e.key → t.posy k = s.posy k
  teams : ∀ i, i ≠ e.p.team → t.team i = s.team i
  bytes : ∀ a, t.byte a = s.byte a

/-- The posy has gone on to the address `pc` with the environment `e'`: of the posy only its registers, and of its
team only the flags and the posy's frame, may differ from `e`; of the frame only its registers. -/
structure GoesTo (s t : State) (e e' : Env) (pc : Nat) : Prop where
  cur : curEnv t = some e'
  only : OnlyPosy s t e
  key : e'.key = e.key
  pc : e'.p.pc = pc
  posy : e'.p = { e.p with
    pc := e'.p.pc, v := e'.p.v, tags := e'.p.tags, preds := e'.p.preds, lfsr := e'.p.lfsr
    phase := false, wait_ := none, xseq := none, blocked := none, joining := false }
  team : e'.t = { e.t with flags := e'.t.flags, flagsNew := e'.t.flagsNew, frames := e'.t.frames }
  frames : ∀ i, i ≠ e.p.frame → e'.t.frame i = e.t.frame i
  frame : e'.f = { e.f with s := e'.f.s, abase := e'.f.abase, astride := e'.f.astride, h := e'.f.h }

/-- The address of the next instruction. -/
def nextPc (e : Env) (l : Len) : Nat := e.p.pc + 4 * Len.words l

/-! ## Lane instructions -/

/-- The instructions that compute lane by lane (R151, R185), with their shape. -/
def laneAlu : Instr → Option Alu
  | .add o => some (aluAdd o) | .sub o => some (aluSub o) | .mul o => some (aluMul o) | .mulh o => some (aluMulh o)
  | .mad o => some (aluMad o) | .div o => some (aluDiv o) | .rem o => some (aluRem o) | .and o => some (aluAnd o)
  | .or o => some (aluOr o) | .xor o => some (aluXor o) | .not o => some (aluNot o) | .shl o => some (aluShl o)
  | .shr o => some (aluShr o) | .sar o => some (aluSar o) | .min o => some (aluMin o) | .max o => some (aluMax o)
  | .abs o => some (aluAbs o) | .neg o => some (aluNeg o) | .cmp o => some (aluCmp o) | .popc o => some (aluPopc o)
  | .clz o => some (aluClz o) | .brev o => some (aluBrev o) | .bfx o => some (aluBfx o) | .bfi o => some (aluBfi o)
  | .mov o => some (aluMov o) | .li o => some (aluLi o) | .lop3 o => some (aluLop3 o) | .prom o => some (aluProm o)
  | .fadd o => some (aluFadd o) | .fsub o => some (aluFsub o) | .fmul o => some (aluFmul o) | .fma o => some (aluFma o)
  | .fmin o => some (aluFmin o) | .fmax o => some (aluFmax o) | .fabs o => some (aluFabs o) | .fcmp o => some (aluFcmp o)
  | .fclass o => some (aluFclass o) | .frnd o => some (aluFrnd o) | .cvt o => some (aluCvt o)
  | .rcp o => some (special .rcp o) | .rsq o => some (special .rsq o) | .sqrt o => some (special .sqrt o)
  | .ex2 o => some (special .ex2 o) | .lg2 o => some (special .lg2 o) | .sin o => some (special .sin o)
  | .cos o => some (special .cos o) | .tanh o => some (special .tanh o) | .dot2 o => some (aluDot2 o)
  | .dot4 o => some (aluDot4 o) | .sad o => some (aluSad o) | .avg o => some (aluAvg o) | .pack o => some (aluPack o)
  | .unpk o => some (aluUnpk o) | .prmt o => some (aluPrmt o)
  | _ => none

/-- What lane L computes for a varying or predicate destination: from the sources as lane L reads them, the lane's
LFSR, and the word that a varying destination held. -/
def laneRes (a : Alu) (e : Env) (L : Nat) : LaneRes :=
  a.fn e.t.fctl false (a.srcs.map fun r => r.read e L) (Tab.get 0 e.p.lfsr L)
    (if a.d.cls = .v then (e.p.reg (e.p.wbase + a.d.n.toNat) L).toNat else 0)

/-- What the instruction computes once, for a uniform destination. -/
def uniRes (a : Alu) (e : Env) : LaneRes := a.fn e.t.fctl true (a.srcs.map (Src.readS e)) 0 0

/-- The flags of all active lanes together. -/
def laneFlags (a : Alu) (e : Env) (act : List Nat) : BitVec 6 := act.foldl (fun f L => f ||| (laneRes a e L).flags) 0

/-- The registers after a lane instruction with a uniform, an affine, a varying and a predicate destination:
every register, predicate, LFSR, tag and flag that the form does not name keeps its value (R138, R144, R151). -/
structure LaneWrites (a : Alu) (e e' : Env) (act : List Nat) : Prop where
  uniform : ∀ n, e'.f.sreg n = if a.d.cls = .s ∧ n = a.d.n.toNat then b64 (uniRes a e).val else e.f.sreg n
  affine : ∀ n, e'.f.areg n = if a.d.cls = .a ∧ n = a.d.n.toNat then a.aff (a.srcs.map (Src.readA e)) else e.f.areg n
  handles : ∀ n, e'.f.hreg n = e.f.hreg n
  varying : ∀ r L, L < 64 → e'.p.reg r L =
    if a.d.cls = .v ∧ L ∈ act ∧ r = e.p.wbase + a.d.n.toNat then b32 (laneRes a e L).val
    else if a.d.cls = .v ∧ a.wide = true ∧ L ∈ act ∧ r = e.p.wbase + a.d.n.toNat + 1 then b32 ((laneRes a e L).val / 2 ^ 32)
    else e.p.reg r L
  tags : ∀ r, e'.p.tag r =
    if a.d.cls = .v ∧ (r = e.p.wbase + a.d.n.toNat ∨ a.wide = true ∧ r = e.p.wbase + a.d.n.toNat + 1) then a.tag e
    else e.p.tag r
  preds : ∀ n L, e'.p.pred n L =
    if a.d.cls = .k ∧ L ∈ act ∧ n = a.d.n.toNat then decide ((laneRes a e L).val % 2 = 1) else e.p.pred n L
  lfsr : ∀ L, Tab.get 0 e'.p.lfsr L =
    if (a.d.cls = .v ∨ a.d.cls = .k) ∧ L ∈ act then (laneRes a e L).lfsr else Tab.get 0 e.p.lfsr L
  flags : e'.t.flags = e.t.flags |||
    (if a.d.cls = .s then (uniRes a e).flags else if a.d.cls = .a then 0 else laneFlags a e act)

end Sys2Proof.Claims


namespace Sys2Proof.Claims
open Sys2Proof.Machine

/-! ## The integer table in arithmetic of bit vectors (R104, R105, R155 to R157, R160) -/

/-- The integer a w-bit pattern stands for. -/
def num (sg : Bool) {w : Nat} (x : BitVec w) : Int := if sg then x.toInt else (x.toNat : Int)

/-- sat(): clamped to the format, with SAT when it clamps (R105). -/
def satTo (w : Nat) (sg : Bool) (v : Int) : BitVec w × BitVec 6 :=
  let lo : Int := if sg then -(2 ^ (w - 1)) else 0
  let hi : Int := if sg then 2 ^ (w - 1) - 1 else 2 ^ w - 1
  if v < lo then (BitVec.ofInt w lo, flagSat) else if hi < v then (BitVec.ofInt w hi, flagSat) else (BitVec.ofInt w v, 0)

/-- An element operation: width, signedness and the elements x, y and z. -/
abbrev ElemOp := (w : Nat) → Bool → BitVec w → BitVec w → BitVec w → BitVec w × BitVec 6

/-- Wrapping under SUB 0, saturating under SUB 1. -/
def wrapOrSat (o : Ops) (wrap : (w : Nat) → Bool → BitVec w → BitVec w → BitVec w) (exact : Int → Int → Int) : ElemOp :=
  fun w sg x y _ => if o.sub = 1 then satTo w sg (exact (num sg x) (num sg y)) else (wrap w sg x y, 0)

/-- LOP3 as the sum of the minterms that the table holds. -/
def lop3Bits {w : Nat} (table : BitVec 10) (x y z : BitVec w) : BitVec w :=
  (List.range 8).foldl (fun acc m =>
    if table.getLsbD m then
      acc ||| ((if m / 4 % 2 = 1 then x else ~~~x) &&& (if m / 2 % 2 = 1 then y else ~~~y) &&& (if m % 2 = 1 then z else ~~~z))
    else acc) 0

/-- The rows of R155, R156 and R157. -/
def intRow : Instr → Option (Ops × ElemOp)
  | .add o => some (o, wrapOrSat o (fun _ _ x y => x + y) fun a b => a + b)
  | .sub o => some (o, wrapOrSat o (fun _ _ x y => x - y) fun a b => a - b)
  | .mul o => some (o, wrapOrSat o (fun _ _ x y => x * y) fun a b => a * b)
  | .mulh o => some (o, fun w sg x y _ =>
      (if sg then (x.signExtend (2 * w) * y.signExtend (2 * w)).extractLsb' w w
       else (x.setWidth (2 * w) * y.setWidth (2 * w)).extractLsb' w w, 0))
  | .mad o => some (o, fun _ _ x y z => (x * y + z, 0))
  | .div o => some (o, fun w sg x y _ =>
      if y = 0 then (BitVec.allOnes w, flagDz) else (if sg then x.sdiv y else x / y, 0))
  | .rem o => some (o, fun _ sg x y _ => if y = 0 then (x, flagDz) else (if sg then x.srem y else x % y, 0))
  | .and o => some (o, fun _ _ x y _ => (x &&& y, 0))
  | .or o => some (o, fun _ _ x y _ => (x ||| y, 0))
  | .xor o => some (o, fun _ _ x y _ => (x ^^^ y, 0))
  | .not o => some (o, fun _ _ x _ _ => (~~~x, 0))
  | .shl o => some (o, fun w _ x y _ => (x <<< (y.toNat % w), 0))
  | .shr o => some (o, fun w _ x y _ => (x >>> (y.toNat % w), 0))
  | .sar o => some (o, fun w _ x y _ => (x.sshiftRight (y.toNat % w), 0))
  | .min o => some (o, fun _ sg x y _ => (if (if sg then x.sle y else x.ule y) then x else y, 0))
  | .max o => some (o, fun _ sg x y _ => (if (if sg then x.sle y else x.ule y) then y else x, 0))
  | .abs o => some (o, fun w sg x _ _ =>
      if o.sub = 1 then satTo w sg (num sg x).natAbs else (if sg && x.msb then -x else x, 0))
  | .neg o => some (o, fun w sg x _ _ => if o.sub = 1 then satTo w sg (-num sg x) else (-x, 0))
  | .popc o => some (o, fun w _ x _ _ => (BitVec.ofNat w ((List.range w).countP fun i => x.getLsbD i), 0))
  | .clz o => some (o, fun w _ x _ _ => (BitVec.ofNat w ((List.range w).countP fun i => x >>> i == 0), 0))
  | .brev o => some (o, fun _ _ x _ _ => (x.reverse, 0))
  | .lop3 o => some (o, fun _ _ x y z => (lop3Bits o.x10 x y z, 0))
  | _ => none

/-- The rows of R160. -/
def fieldRow : Instr → Option (Ops × ElemOp)
  | .bfx o => some (o, fun w sg x y _ =>
      let f := (x >>> (y.toNat % w)).extractLsb' 0 (o.x10.toNat + 1)
      (if sg then f.signExtend w else f.setWidth w, 0))
  | .bfi o => some (o, fun w _ x y z =>
      let m := BitVec.setWidth w (BitVec.allOnes (o.x10.toNat + 1)) <<< (y.toNat % w)
      ((z &&& ~~~m) ||| ((x <<< (y.toNat % w)) &&& m), 0))
  | _ => none

/-- Element k of source j. -/
def elem (w : Nat) (xs : List Nat) (j k : Nat) : BitVec w := BitVec.ofNat w (xs.getD j 0 >>> (w * k))

/-- The lane function computes the element operation `f` on each element of FMT, on the widths of R152, and packs the
results; on an S destination a 32-bit result is extended by its format. -/
def ComputesElems (a : Alu) (o : Ops) (f : ElemOp) : Prop :=
  ∀ (fctl : BitVec 32) (s : Bool) (xs : List Nat) (l : W32) (old : Nat), (s = true → Fmt.packed o.fmt = false) →
    let w := Fmt.width o.fmt s
    let r := fun k => f w (Fmt.signed o.fmt) (elem w xs 0 k) (elem w xs 1 k) (elem w xs 2 k)
    let out := a.fn fctl s xs l old
    (∀ k, k < Fmt.count o.fmt → BitVec.ofNat w (out.val >>> (w * k)) = (r k).1) ∧
    (s = false → out.val < 2 ^ (w * Fmt.count o.fmt)) ∧
    (s = true → BitVec.ofNat 64 out.val = if o.fmt = .i32 then (r 0).1.signExtend 64 else (r 0).1.setWidth 64) ∧
    out.flags = (List.range (Fmt.count o.fmt)).foldl (fun g k => g ||| (r k).2) 0 ∧
    out.lfsr = l

end Sys2Proof.Claims
namespace Sys2Proof.Claims
open Sys2Proof.Machine

/-! ## Which registers an instruction writes -/

/-- No uniform, affine or handle register changes. -/
def KeepsFrame (e e' : Env) : Prop :=
  (∀ n, e'.f.sreg n = e.f.sreg n) ∧ (∀ n, e'.f.areg n = e.f.areg n) ∧ (∀ n, e'.f.hreg n = e.f.hreg n)

/-- No varying register, tag or LFSR changes. -/
def KeepsVarying (e e' : Env) : Prop :=
  (∀ r L, L < 64 → e'.p.reg r L = e.p.reg r L) ∧ (∀ r, e'.p.tag r = e.p.tag r) ∧
  (∀ L, Tab.get 0 e'.p.lfsr L = Tab.get 0 e.p.lfsr L)

/-- No predicate changes. -/
def KeepsPreds (e e' : Env) : Prop := ∀ n L, e'.p.pred n L = e.p.pred n L

/-- The uniform register `d` holds `v`; nothing else of the posy's registers and flags changes. -/
def WritesS (e e' : Env) (d : Nat) (v : BitVec 64) : Prop :=
  (∀ n, e'.f.sreg n = if n = d then v else e.f.sreg n) ∧
  (∀ n, e'.f.areg n = e.f.areg n) ∧ (∀ n, e'.f.hreg n = e.f.hreg n) ∧
  KeepsVarying e e' ∧ KeepsPreds e e' ∧ e'.t.flags = e.t.flags

/-- In the lanes of `act`, the `n` varying registers from `D` up hold `v i L`; their tags are `tag`. Every other
lane, register, predicate, LFSR, tag and flag keeps its value. -/
def WritesV (e e' : Env) (act : List Nat) (D n : Nat) (v : Nat → Nat → W32) (tag : BitVec 4) : Prop :=
  KeepsFrame e e' ∧ KeepsPreds e e' ∧ e'.t.flags = e.t.flags ∧
  (∀ r L, L < 64 → e'.p.reg r L =
    if L ∈ act ∧ e.p.wbase + D ≤ r ∧ r < e.p.wbase + D + n then v (r - e.p.wbase - D) L else e.p.reg r L) ∧
  (∀ r, e'.p.tag r = if e.p.wbase + D ≤ r ∧ r < e.p.wbase + D + n then tag else e.p.tag r) ∧
  (∀ L, Tab.get 0 e'.p.lfsr L = Tab.get 0 e.p.lfsr L)

/-- In the lanes of `act` the predicate `d` holds `b L`; nothing else of the registers and flags changes. -/
def WritesP (e e' : Env) (act : List Nat) (d : Nat) (b : Nat → Bool) : Prop :=
  KeepsFrame e e' ∧ KeepsVarying e e' ∧ e'.t.flags = e.t.flags ∧
  (∀ n L, e'.p.pred n L = if L ∈ act ∧ n = d then b L else e.p.pred n L)

/-- The low or the high word of a 64-bit value. -/
def wordOf (v : BitVec 64) (i : Nat) : W32 := v.extractLsb' (32 * i) 32

/-- The instruction answers a next state in which the posy has gone on to the next instruction, with only the registers
written that `P` names. -/
def Goes (i : Instr) (s : State) (e : Env) (l : Len) (P : Env → Prop) : Prop :=
  ∃ t e', exec i s = .next t ∧ GoesTo s t e e' (nextPc e l) ∧ P e'

/-- Lane M is the lane of the lowest fibre index (of the lowest lane, should two lanes hold one index). -/
def Lowest (e : Env) (act : List Nat) (M : Nat) : Prop :=
  M ∈ act ∧ (∀ L ∈ act, e.p.fid M ≤ e.p.fid L) ∧ ∀ L ∈ act, L < M → e.p.fid M < e.p.fid L

end Sys2Proof.Claims
namespace Sys2Proof.Claims
open Sys2Proof.Machine

/-! ## Reductions (R207) on bit vectors -/

/-- The integer operations of SUB 3 to 8. -/
def redBits (sub : Nat) (sg : Bool) {w : Nat} (x y : BitVec w) : BitVec w :=
  match sub with
  | 3 => x + y
  | 4 => if (if sg then x.sle y else x.ule y) then x else y
  | 5 => if (if sg then x.sle y else x.ule y) then y else x
  | 6 => x &&& y
  | 7 => x ||| y
  | _ => x ^^^ y

/-- Their identities. -/
def redUnit (sub : Nat) (sg : Bool) (w : Nat) : BitVec w :=
  match sub with
  | 4 => if sg then BitVec.intMax w else BitVec.allOnes w
  | 5 => if sg then BitVec.intMin w else 0
  | 6 => BitVec.allOnes w
  | _ => 0

/-- The lanes of a list combined in one value. -/
def redOver (o : Ops) (e : Env) (lanes : List Nat) (w : Nat) : BitVec w :=
  lanes.foldl (fun acc L => redBits o.sub.toNat (Fmt.signed o.fmt) acc (BitVec.ofNat w (redRead o e L)))
    (redUnit o.sub.toNat (Fmt.signed o.fmt) w)

/-- The width of FMT on a varying register or pair. -/
def laneWidth (f : Fmt) : Nat := if Fmt.wide f then 64 else 32

/-- The other lanes of the destination keep their words. -/
def KeepsOtherLanes (e e' : Env) (act : List Nat) (D n : Nat) : Prop :=
  ∀ r L, L < 64 → ¬(L ∈ act ∧ e.p.wbase + D ≤ r ∧ r < e.p.wbase + D + n) → e'.p.reg r L = e.p.reg r L

/-- R207: a floating SUB on two lane words, element by element: FADD, or FMIN and FMAX. -/
def flPair (o : Ops) (sub : Nat) (c : Ctl) (x y : Nat) (l : W32) : LaneRes :=
  flElems (flF o.fmt) (Fmt.count o.fmt) [x, y] l fun xs l => if sub = 0 then opFadd (flF o.fmt) c xs l else opFmm (sub == 2) (flF o.fmt) c xs l

/-- The identity of a floating SUB in one element (R207). -/
def flUnit (o : Ops) (sub : Nat) (c : Ctl) : Nat :=
  let F := flF o.fmt
  let one := if sub = 0 then F.signPat (decide (c.mode ≠ .rdn)) else F.signPat (sub == 2) + F.infPat
  ((List.range (Fmt.count o.fmt)).map fun i => one * 2 ^ (F.bits * i)).sum

/-- The word and the LFSR with which each lane enters (R123, R207). -/
def flEnters (o : Ops) (e : Env) (sub : Nat) (c : Ctl) (act : List Nat) (L : Nat) : Nat × W32 :=
  (if L ∈ act then redRead o e L else flUnit o sub c, Tab.get 0 e.p.lfsr L)

/-- The butterfly of R123 over distances d: the lower lane of each pair computes, both lanes take the word, and the lower lane's
LFSR moves. `op` is given the lower lane. -/
def butterfly (op : Nat → Nat → Nat → W32 → LaneRes) : List Nat → (Nat → Nat × W32) → Nat → Nat × W32
  | [], x => x
  | d :: ds, x => butterfly op ds fun L =>
      let lo := if L / d % 2 = 0 then L else L - d
      let r := op lo (x lo).1 (x (lo + d)).1 (x lo).2
      (r.val, if L = lo then r.lfsr else (x L).2)

/-- The steps of R210 over distances d: every lane from d up takes op(x[L − d], x[L]). -/
def prefixes (op : Nat → Nat → Nat → W32 → LaneRes) : List Nat → (Nat → Nat × W32) → Nat → Nat × W32
  | [], x => x
  | d :: ds, x => prefixes op ds fun L =>
      if L < d then x L else let r := op L (x (L - d)).1 (x L).1 (x L).2; (r.val, r.lfsr)

/-- R208: a stochastic step whose lower lane is vacant rounds by RNE. -/
def redMode (e : Env) (c : Ctl) (L : Nat) : Ctl := if c.mode = .stoch ∧ e.p.holds L = false then { c with mode := .rne } else c
/-- R210: a step of a vacant lane rounds by RNE. -/
def scanMode (e : Env) (c : Ctl) (L : Nat) : Ctl := if e.p.holds L then c else { c with mode := .rne }
/-- The mode and the OVFSAT of the instruction; FTZ does not apply (R208). -/
def redControl (o : Ops) (e : Env) : Ctl := { mode := rmode e.t.fctl o.rnd, ovfsat := e.t.fctl.getLsbD 2 }

/-- The lanes after the butterfly of a floating RED. -/
def redLanes (o : Ops) (e : Env) (sub : Nat) (x : Nat → Nat × W32) : Nat → Nat × W32 :=
  butterfly (fun L => flPair o sub (redMode e (redControl o e) L)) [32, 16, 8, 4, 2, 1] x

/-- In the active lanes the `n` registers from D up hold `v`, with the tag; the lanes that hold a fibre have the LFSRs `lf`. Nothing
else changes but the flags (R115). -/
def WritesFl (e e' : Env) (act : List Nat) (D n : Nat) (v : Nat → Nat → W32) (tag : BitVec 4) (lf : Nat → W32) : Prop :=
  KeepsFrame e e' ∧ KeepsPreds e e' ∧
  (∀ r L, L < 64 → e'.p.reg r L =
    if L ∈ act ∧ e.p.wbase + D ≤ r ∧ r < e.p.wbase + D + n then v (r - e.p.wbase - D) L else e.p.reg r L) ∧
  (∀ r, e'.p.tag r = if e.p.wbase + D ≤ r ∧ r < e.p.wbase + D + n then tag else e.p.tag r) ∧
  (∀ L, L < 64 → Tab.get 0 e'.p.lfsr L = if e.p.holds L then lf L else Tab.get 0 e.p.lfsr L)

end Sys2Proof.Claims
namespace Sys2Proof.Claims
open Sys2Proof.Machine

/-! ## Control -/

/-- Every register, tag, LFSR, predicate and flag keeps its value. -/
def Same (e e' : Env) : Prop := KeepsFrame e e' ∧ KeepsVarying e e' ∧ KeepsPreds e e' ∧ e'.t.flags = e.t.flags

/-- The instruction answers a next state in which the posy is at `pc`, with nothing else changed. -/
def Jumps (i : Instr) (s : State) (e : Env) (pc : Nat) : Prop :=
  ∃ t e', exec i s = .next t ∧ GoesTo s t e e' pc ∧ Same e e'

/-- The instruction takes a trap with the lanes `ls`. -/
def Traps (i : Instr) (s : State) (e : Env) (tr : Trap) (ls : List Nat) : Prop := exec i s = .next (takeTrap s e tr ls 0)

/-- The posy stays at its instruction, and waits (R50). -/
def Waits (i : Instr) (s : State) (e : Env) : Prop :=
  ∃ p', exec i s = .next (s.setPosy e.key (some p')) ∧ p' = { e.p with blocked := p'.blocked } ∧ p'.blocked ≠ none

/-- Memory outside the places of the records that the team has after the step is as it was (R44, R487): the step computes
the places from the offsets of the records and the segment SPN. -/
def KeepsMemory (s t : State) (team : Nat) : Prop :=
  ∀ tm, t.team team = some tm →
    ∀ a, a ∉ (tm.spawnHeld.flatMap fun h => (spawnBytes s tm h.1 (List.replicate h.2 0)).map (·.1)) → t.byte a = s.byte a

/-- A way in which the fibres of a posy part: each lane's destination, its window base, and the number by which R40, R171
or R174 orders its group. -/
structure Parting where
  dest : Nat → Nat
  wb : Nat → Nat
  key : Nat → Nat

/-- Two lanes are of one group. -/
def Parting.same (x : Parting) (L M : Nat) : Bool := x.dest L == x.dest M && x.wb L == x.wb M

/-- The fibres of a lane's group, and its group index: the lowest number of its lanes. -/
def Parting.size (x : Parting) (p : Posy) (L : Nat) : Nat := p.present.countP (x.same L)
def Parting.index (x : Parting) (p : Posy) (L : Nat) : Nat := ((p.present.filter (x.same L)).map x.key).foldl min (x.key L)

/-- The lane's group stays in the posy: no group is larger, and none as large has a lower index (R41). -/
def Parting.stays (x : Parting) (p : Posy) (L : Nat) : Bool :=
  p.present.all fun M => decide (x.size p M < x.size p L) || (x.size p M == x.size p L && decide (x.index p L ≤ x.index p M))

/-- The lowest lane of each group that leaves. -/
def Parting.out (x : Parting) (p : Posy) : List Nat :=
  p.present.filter fun L => !x.stays p L && p.present.all fun M => !x.same L M || decide (L ≤ M)

/-- The bytes of the records that are written: one a leaving group, and the frame's where it has none (R43, R487). -/
def Parting.need (x : Parting) (e : Env) : Nat :=
  ((x.out e.p).map fun L => recBytes (x.size e.p L) e.p.alloc).sum + if e.f.spawned then 0 else 768

/-- The record `id` of the team of `e` is the pending group of lane M, with SEQ `seq`: it carries exactly the fibres of that
group, each with its predicates and every register of the allocation, and the tags (R41, R42, R47). -/
def CarriesGroup (t : State) (e : Env) (x : Parting) (id M seq : Nat) : Prop :=
  ∃ tm r, t.team e.p.team = some tm ∧ Tab.get none tm.recs id = some r ∧ r.pc = x.dest M ∧ r.frame = e.p.frame ∧ r.wbase = x.wb M ∧
    r.wsize = e.p.alloc - x.wb M ∧ r.kind = .pending ∧ r.phase = false ∧ r.seq = seq ∧ r.fibres.length = x.size e.p M ∧
    (∀ n, Tab.get 0 r.tags n = e.p.tag n) ∧
    (∀ L ∈ e.p.present, x.same M L = true → e.p.fid L ∈ r.fibres.map (·.fid)) ∧
    ∀ f ∈ r.fibres, ∃ L ∈ e.p.present, x.same M L = true ∧ f.fid = e.p.fid L ∧ (∀ n, n ≠ 0 → f.preds.getLsbD n = e.p.pred n L) ∧
      (Tab.wf 0 e.p.v = true → ∀ n, Tab.get 0 f.regs n = e.p.reg n L)

/-- The fibres of the posy part as `x` says: one destination moves the posy as a whole and writes nothing; else the records
are tested against the SPN limit; the posy goes on with the group that stays, and each other group enters the core's FIFO as
one pending record, in increasing group index (R40 to R43, R47, R68, R487). -/
def Diverges (i : Instr) (s : State) (e : Env) (x : Parting) : Prop :=
  ((∀ L ∈ e.p.present, ∀ M ∈ e.p.present, x.same L M = true) → ∀ L ∈ e.p.present,
    ∃ t, exec i s = .next t ∧ t = s.setPosy e.key (some { e.p.goto (x.dest L) with wbase := x.wb L })) ∧
  ((∃ L ∈ e.p.present, ∃ M ∈ e.p.present, x.same L M = false) →
    let ls := e.p.present.filter fun L => !x.stays e.p L
    (e.t.spn.limit < e.t.spawnUsed + x.need e → Traps i s e .seg e.p.present) ∧
    (e.t.spawnUsed + x.need e ≤ e.t.spn.limit → fibPending s e ls = true → exec i s = .next s) ∧
    (e.t.spawnUsed + x.need e ≤ e.t.spn.limit → fibPending s e ls = false →
      ∃ (t : State) (p' : Posy) (ids : List Nat), exec i s = .next t ∧ t.posy e.key = some p' ∧ KeepsMemory s t e.p.team ∧
        (∀ k, k ≠ e.key → t.posy k = s.posy k) ∧ (∀ k, k ≠ e.p.team → t.team k = s.team k) ∧
        (∀ L ∈ e.p.present, x.stays e.p L = true → p'.pc = x.dest L ∧ p'.wbase = x.wb L) ∧
        (∀ L, L < 64 → (p'.holds L = true ↔ L ∈ e.p.present ∧ x.stays e.p L = true)) ∧
        (∀ L ∈ p'.present, p'.fid L = e.p.fid L ∧ (∀ r, p'.reg r L = e.p.reg r L) ∧ ∀ n, p'.pred n L = e.p.pred n L) ∧
        (t.core e.t.core).fifo = (s.core e.t.core).fifo ++ ids.map (fun id => (e.p.team, id)) ∧ ids.length = (x.out e.p).length ∧
        ∀ M ∈ x.out e.p, ∃ id,
          let place := (x.out e.p).countP fun N => decide (x.index e.p N < x.index e.p M)
          ids[place]? = some id ∧ CarriesGroup t e x id M ((s.core e.t.core).seq + place)))

/-- The address PC + 4·sext(imm) (R169). -/
def branchTo (e : Env) (i : Imm) : Nat := (BitVec.ofNat 64 e.p.pc + 4 * Imm.sext i).toNat

/-- A register target that is an address of an instruction (R169). -/
abbrev GoodTarget (v : BitVec 64) : Prop := v.extractLsb' 0 2 = 0 ∧ v.extractLsb' 52 12 = 0

/-- What CALL does in the lanes that hold a fibre (R173). -/
def Calls (i : Instr) (s : State) (e : Env) (l : Len) (n target : Nat) : Prop :=
  ∃ t e', exec i s = .next t ∧ curEnv t = some e' ∧ OnlyPosy s t e ∧ e'.p.pc = target ∧ e'.p.wbase = e.p.wbase + n ∧
    e'.p.alloc = e.p.alloc ∧ e'.p.lanes = e.p.lanes ∧ KeepsFrame e e' ∧ KeepsPreds e e' ∧ e'.t.flags = e.t.flags ∧
    (∀ r L, L < 64 → e'.p.reg r L =
      if L ∈ e.p.present ∧ r = e.p.wbase + n - 2 then b32 (nextPc e l)
      else if L ∈ e.p.present ∧ r = e.p.wbase + n - 1 then b32 (nextPc e l / 2 ^ 32 % 2 ^ 20 + n * 2 ^ 20)
      else e.p.reg r L) ∧
    (∀ r, e'.p.tag r = if r = e.p.wbase + n - 2 ∨ r = e.p.wbase + n - 1 then 0 else e.p.tag r) ∧
    (e.p.pc % 4 = 0 → nextPc e l < 2 ^ 52 → ∀ L ∈ e.p.present, linkOf e'.p L = (nextPc e l, n) ∧ linkTrap e'.p L = none)

end Sys2Proof.Claims
namespace Sys2Proof.Claims
open Sys2Proof.Machine

/-! ## Memory accesses -/

/-- The offset of lane L's access in its segment, unwrapped (R225, R242). -/
def offset (e : Env) (o : MemOps) (dhi : Bool) (L : Nat) : Int := addrBase e o.a L + memDisp o dhi

/-- The address of lane L's access: a virtual address, or an offset in the team's scratchpad. -/
def address (e : Env) (o : MemOps) (dhi : Bool) (L : Nat) : Nat := (e.t.seg o.seg).addr + (offset e o dhi L).toNat

/-- The segment lets an access pass: it is valid, has the rights, and holds every byte (R225, R226). -/
abbrev Admits (g : SegReg) (off : Int) (k : AccKind) : Prop :=
  g.val = true ∧ 0 ≤ off ∧ off + k.size ≤ g.limit ∧ (k.r = true → g.rd = true) ∧ (k.w = true → g.wr = true)

abbrev AllAdmitted (e : Env) (o : MemOps) (k : AccKind) (act : List Nat) : Prop :=
  ∀ L ∈ act, Admits (e.t.seg o.seg) (offset e o k.dhi L) k

/-- Every active lane's access passes its checks. -/
abbrev Clear (e : Env) (o : MemOps) (k : AccKind) (act : List Nat) : Prop :=
  AllAdmitted e o k act ∧ ∀ L ∈ act, address e o k.dhi L % k.align = 0

/-- The team's queue has the requests `rs` more, and its loads the operations `ls`; the posy is at `pc` with its registers as
they were, and nothing else in the state has changed but the posy's place and the team's flags. -/
structure SentTo (s t : State) (e e' : Env) (pc : Nat) (rs : List Req) (ls : List LoadOp) : Prop where
  cur : curEnv t = some e'
  only : OnlyPosy s t e
  pc : e'.p.pc = pc
  posy : e'.p = { e.p with
    pc := e'.p.pc, v := e'.p.v, tags := e'.p.tags, preds := e'.p.preds, lfsr := e'.p.lfsr
    phase := false, wait_ := none, xseq := none, blocked := none, joining := false }
  kept : KeepsFrame e e' ∧ KeepsVarying e e' ∧ KeepsPreds e e'
  team : e'.t = { e.t with flags := e'.t.flags, flagsNew := e'.t.flagsNew, frames := e'.t.frames, reqs := e.t.reqs ++ rs, loads := e.t.loads ++ ls, nextSeq := e.t.nextSeq + 1 }
  frames : ∀ i, i ≠ e.p.frame → e'.t.frame i = e.t.frame i
  own : ∀ r ∈ rs, r.seq = e.t.nextSeq ∧ r.stage = .queued ∧ r.core = e.core ∧ r.slot = e.slot
  subs : rs.map (·.sub) = List.range rs.length

/-- The instruction answers a next state in which its requests stand at the tail of the queue and the posy has gone on. -/
def Sends (i : Instr) (s : State) (e : Env) (l : Len) (P : Env → List Req → List LoadOp → Prop) : Prop :=
  ∃ t e' rs ls, exec i s = .next t ∧ SentTo s t e e' (nextPc e l) rs ls ∧ P e' rs ls

/-- The requests that serve lane L cover exactly `size` bytes from `a` (R363: each inside one line). -/
def Covers (rs : List Req) (L a size : Nat) : Prop :=
  ∀ b, (∃ r ∈ rs, L ∈ r.lanes ∧ r.addr ≤ b ∧ b < r.addr + r.size) ↔ a ≤ b ∧ b < a + size

def InLines (rs : List Req) : Prop := ∀ r ∈ rs, 0 < r.size ∧ r.addr / 128 = (r.addr + r.size - 1) / 128

/-- The ordering marks and the segment of a memory word, as its requests carry them. -/
def Marked (o : MemOps) (r : Req) : Prop :=
  r.acq = (o.ord == .acq || o.ord == .acqrel) ∧ r.rel = (o.ord == .rel || o.ord == .acqrel) ∧ r.tol = o.tol ∧ r.scratch = (o.seg == .scr)

/-- A load operation of the instruction: its destination, its lanes with their addresses. -/
def LoadFor (e : Env) (o : MemOps) (l : LoadOp) (n : Nat) (lanes : List Nat) (addr : Nat → Nat) : Prop :=
  l.seq = e.t.nextSeq ∧ l.uid = e.p.uid ∧ l.dcls = o.d.cls ∧ l.frame = e.p.frame ∧ l.count = n ∧
  l.dst = (if o.d.cls = .v then e.p.wbase + o.d.n.toNat else o.d.n.toNat) ∧ l.got = [] ∧
  l.lanes.map (·.lane) = lanes ∧ ∀ x ∈ l.lanes, x.fid = e.p.fid x.lane ∧ x.addr = addr x.lane

/-- Byte i of what lane L stores. -/
def dataByte (e : Env) (o : MemOps) (L i : Nat) : Byte :=
  match o.b with
  | .imm m => BitVec.ofNat 8 ((if o.sub = 3 then (Imm.sext m).toNat else immNarrow o.fmt m) / 256 ^ i)
  | .reg b =>
    if b.cls = .v then BitVec.ofNat 8 ((if e.p.holds L then (e.p.reg (e.p.wbase + b.n.toNat + i / 4) L).toNat else 0) / 256 ^ (i % 4))
    else BitVec.ofNat 8 ((e.f.sreg b.n.toNat).toNat / 256 ^ i)

/-- The accesses that R225, R226 and R244 check alike: what each needs, and what its access is. -/
def memAccess : Instr → Option (MemOps × Need × AccKind)
  | .ld o => some (o, ldNeed o, { size := accSize o.sub, r := true, align := ordAlign o (accSize o.sub) })
  | .st o => some (o, stNeed o, { size := accSize o.sub, w := true, align := ordAlign o (accSize o.sub) })
  | .ldsx o => some (o, ldsxNeed o, { size := SxFmt.blockBytes (sxOf o.sub), r := true, align := 8 })
  | .atom o => some (o, atomNeed o, { size := atomSize o.fmt, r := true, w := true, align := atomSize o.fmt })
  | .acc o => some (o, accNeed o, { size := 4, r := true, w := true, align := 4 })
  | .drain o | .bfree o => some (o, regionNeed o, { size := 1, r := true, w := true, dhi := false })
  | .sigadd o => some (o, sigaddNeed o, { size := 8, r := true, w := true, align := 8, dhi := false })
  | .sigwait o => some (o, sigwaitNeed o, { size := 8, r := true, align := 8, dhi := false })
  | .ctwait o => some (o, ctwaitNeed o, { size := 8, r := true, align := 8, dhi := false })
  | _ => none

end Sys2Proof.Claims
namespace Sys2Proof.Claims
open Sys2Proof.Machine

/-! ## Commands of engines -/

/-- A fresh handle `h` stands in handle register `d` of the frame and in the team's table; no other register, handle, predicate
or flag differs (R8, R130). -/
structure HandleMade (e e' : Env) (d : Nat) (h : HandleSt) : Prop where
  next : e'.t.nextTok = e.t.nextTok + 1
  made : e'.t.handle e.t.nextTok = some h
  others : ∀ k, k ≠ e.t.nextTok → e'.t.handle k = e.t.handle k
  regs : ∀ n, e'.f.hreg n = if n = d then b64 e.t.nextTok else e.f.hreg n
  uniform : ∀ n, e'.f.sreg n = e.f.sreg n
  affine : ∀ n, e'.f.areg n = e.f.areg n
  varying : KeepsVarying e e'
  preds : KeepsPreds e e'
  flags : e'.t.flags = e.t.flags

/-- The command is over as it issues: its handle awaits the final status. -/
def OverAtOnce (i : Instr) (s : State) (e : Env) (l : Len) (d : Nat) (kind : CmdKind) (status : Nat) : Prop :=
  ∃ t e', exec i s = .next t ∧ curEnv t = some e' ∧ OnlyPosy s t e ∧ e'.p.pc = nextPc e l ∧
    HandleMade e e' d { kind := kind, status := status, ready := true } ∧ e'.t.reqs = e.t.reqs

/-- No other posy, team or core, and no byte of memory, differs. -/
structure OnlyCore (s t : State) (e : Env) : Prop where
  rest : t = { s with posies := t.posies, teams := t.teams, cores := t.cores }
  posies : ∀ k, k ≠ e.key → t.posy k = s.posy k
  teams : ∀ i, i ≠ e.p.team → t.team i = s.team i
  cores : ∀ c, c ≠ e.core → t.core c = s.core c
  bytes : ∀ a, t.byte a = s.byte a

/-- The command goes into the request queue (R294) with a pending handle, and `Q` says what its engine on the core keeps. -/
def Queues (i : Instr) (s : State) (e : Env) (l : Len) (d : Nat) (kind : CmdKind) (rk : ReqKind) (Q : Core → Core → Prop) : Prop :=
  ∃ t e' r, exec i s = .next t ∧ curEnv t = some e' ∧ OnlyCore s t e ∧ e'.p.pc = nextPc e l ∧
    HandleMade e e' d { kind := kind } ∧ e'.t.reqs = e.t.reqs ++ [r] ∧ r.kind = rk ∧ r.seq = e.t.nextSeq ∧ r.stage = .queued ∧
    Q (s.core e.core) (t.core e.core)

/-- The bytes of a copy: `rows` rows of `rb` bytes, from `src` and to `dst`. -/
structure Shape where
  rb : Nat
  rows : Nat
  src : Nat → Nat
  dst : Nat → Nat

abbrev Shape.inside (g : Shape) (at_ : Nat → Nat) (seg : SegReg) (rd wr : Bool) : Prop :=
  ∀ k, k < g.rows → Admits seg (at_ k : Nat) { size := g.rb, r := rd, w := wr }

/-- Some source byte is a destination byte. -/
def Shape.overlap (g : Shape) (a b : Nat) : Prop :=
  ∃ i j, i < g.rows ∧ j < g.rows ∧ a + g.src i < b + g.dst j + g.rb ∧ b + g.dst j < a + g.src i + g.rb

/-- The parts of a command move every byte of the shape to its place, each source part inside one line. -/
def Shape.movedBy (g : Shape) (a b : Nat) (ps : List CpPart) : Prop :=
  (∀ k i, k < g.rows → i < g.rb → ∃ p ∈ ps, p.src ≤ a + g.src k + i ∧ a + g.src k + i < p.src + p.len ∧
    p.dst + (a + g.src k + i - p.src) = b + g.dst k + i) ∧
  (∀ p ∈ ps, 0 < p.len ∧ p.src / 128 = (p.src + p.len - 1) / 128 ∧ p.st = .todo) ∧ (ps.map (·.len)).sum = g.rb * g.rows

/-- What a handle instruction gives its destination: nothing, a predicate, or the status (R269). -/
def GivesStatus (o : Ops) (i : Instr) (s : State) (e : Env) (p : Bool) (st : Nat) : Prop :=
  Goes i s e o.h.len fun e' =>
    if o.sub = 0 then Same e e'
    else if o.sub = 1 then WritesP e e' (e.p.active o.h) o.d.n.toNat fun _ => p
    else WritesV e e' (e.p.active o.h) o.d.n.toNat 1 (fun _ _ => b32 st) 0

end Sys2Proof.Claims
namespace Sys2Proof.Claims
open Sys2Proof.Machine

/-! ## Counters -/

/-- The release of a waiting instruction at a width holds now: its own request has performed, or it has none and nothing is left
to wait for (R284, R293); a LAUNCH, `strict`, waits for parked requests too (R301). -/
def Released (s : State) (e : Env) (act : List Nat) (w : Width) (strict : Bool := false) : Prop :=
  match ownRelease e with
  | some r => r.stage = .replied
  | none => releaseSnap s e.core w = [] ∧
      releaseClear s e.t { seq := e.t.nextSeq, kind := .rel_, addr := e.p.pc, fids := act.map e.p.fid
                           core := e.core, slot := e.slot, width := w, strict := strict } = true

/-- It does not hold: the posy stays at its instruction, which R50 counts as waiting if `hold`, and its release stands in the
request queue. -/
def ReleaseWaits (i : Instr) (s : State) (e : Env) (w : Width) (hold : Bool) : Prop :=
  ∃ t p' tm, exec i s = .next t ∧ OnlyPosy s t e ∧ t.posy e.key = some p' ∧ p' = { e.p with blocked := p'.blocked } ∧
    (if hold then p'.blocked ≠ none else p'.blocked = e.p.blocked) ∧
    t.team e.p.team = some tm ∧
    (if ownRelease e = none then ∃ r, tm.reqs = e.t.reqs ++ [r] ∧ r.kind = .rel_ ∧ r.width = w ∧ r.addr = e.p.pc else tm.reqs = e.t.reqs)

/-- A barrier after n arrivals (R406): EXPV sets a count that is zero; DROP lowers the count; an arrival that meets the count starts
the next phase. -/
def barAfter (b : Bar) (expv : Nat) (drop : Bool) (n : Nat) : Bar :=
  let exp0 := if b.exp = 0 then expv else b.exp
  let exp := if drop then exp0 - n else exp0
  let arr := if drop then b.arr else min (b.arr + n) 1048575
  if exp = 0 then { phase := b.phase, exp := exp, arr := arr }
  else { phase := (b.phase + arr / exp) % 2 ^ 24, exp := exp, arr := arr % exp }

/-- s[B] or the immediate of a counter instruction. -/
def operandB (e : Env) (b : SrcB) : BitVec 64 := match b with | .imm m => Imm.sext m | .reg r => e.f.sreg r.n.toNat

/-- The team with other flags. -/
def withFlags (e : Env) (f : BitVec 6) : Env := { e with t := { e.t with flags := f } }

/-- SIGWAIT's comparison (R413). -/
def Compares (sub : BitVec 4) (v b : Int) : Prop :=
  if sub = 0 then v ≤ b else if sub = 1 then v < b else if sub = 2 then v = b else if sub = 3 then v ≠ b else if sub = 4 then b ≤ v else b < v

/-- A read of the signal at `a` enters the request queue and the posy waits for it. -/
def ReadsSignal (i : Instr) (s : State) (e : Env) (act : List Nat) (a : Nat) : Prop :=
  ∃ t p' tm r, exec i s = .next t ∧ OnlyPosy s t e ∧ t.posy e.key = some p' ∧ p' = { e.p with blocked := p'.blocked, phase := true, again := true } ∧
    t.team e.p.team = some tm ∧ tm.reqs.getLast? = some r ∧ r.kind = .sig ∧ r.addr = a ∧ r.size = 8 ∧ r.acq = true ∧ r.fids = act.map e.p.fid ∧
    r.stage = .queued

end Sys2Proof.Claims
namespace Sys2Proof.Claims
open Sys2Proof.Machine

/-! ## Steps of the module's units -/

/-- The step answers a next state of which `P` holds. -/
def Does (i : Instr) (s : State) (P : State → Prop) : Prop := ∃ t, exec i s = .next t ∧ P t

/-- The step finds nothing to do. -/
def Idle (i : Instr) (s : State) : Prop := exec i s = .next s

/-- The fibres at a join go on behind it: the holder's posy, and every waiting record, which is runnable again (R54). -/
def Proceeds (s t : State) (team : Nat) (tm : Team) (frame k : Nat) (j : JoinRec) : Prop :=
  (∀ slot p, j.holder = some slot → s.posy (posyKey tm.core slot) = some p → ∃ p', t.posy (posyKey tm.core slot) = some p' ∧
    p'.pc = j.next ∧ p'.joining = false ∧ p'.lanes = p.lanes ∧ p'.v = p.v ∧ p'.preds = p.preds) ∧
  (∀ id r, Tab.get none tm.recs id = some r → r.kind = .waiting → r.frame = frame → r.pc = j.pc → ∃ tm' r', t.team team = some tm' ∧
    Tab.get none tm'.recs id = some r' ∧ r'.pc = j.next ∧ r'.kind = .pending ∧ r'.fibres = r.fibres ∧
    (tm.occupies = true → (team, id) ∈ (t.core tm.core).fifo)) ∧
  (∃ tm' f', t.team team = some tm' ∧ tm'.frame frame = some f' ∧ ∀ j', f'.join k = some j' → j'.open_ = false) ∧
  KeepsMemory s t team

/-- The request at a place in a team's queue, after a step. -/
def ReqIs (t : State) (team idx : Nat) (P : Req → Prop) : Prop := ∃ tm r, t.team team = some tm ∧ tm.reqs[idx]? = some r ∧ P r

/-- A write of bytes at physical addresses: each reads back, and no other byte changes. -/
def Stored (s t : State) (bs : List (Nat × Byte)) : Prop :=
  (∀ x ∈ bs, t.byte x.1 = x.2) ∧ ∀ a, a ∉ bs.map (·.1) → t.byte a = s.byte a

end Sys2Proof.Claims
namespace Sys2Proof.Claims
open Sys2Proof.Machine

/-! ## The park store -/

/-- A place of an entry that no other entry has. -/
def FreePlaces (x : Die) (overflow : Bool) (is : List Nat) : Prop :=
  is.Nodup ∧ ∀ i ∈ is, ∀ e ∈ x.entries, e.overflow = overflow → i ∉ e.idxs

/-- The request has parked: its entry has the next PSEQ and its places, and a record of it waits (R365, R366, R370). -/
def Parked (s t : State) (team idx : Nat) (r : Req) (cause : Cause) (leader : Option (Option Nat)) (overflow : Bool) : Prop :=
  let d := dieOf r.core
  let x := s.die d
  ReqIs t team idx (fun q => q.stage = .parked d x.pseq) ∧ (t.die d).pseq = (x.pseq + 1) % 2 ^ 32 ∧
  (∃ e, (t.die d).entries = x.entries ++ [e] ∧ e.pseq = x.pseq ∧ e.owner = .req team r.seq r.sub ∧ e.va = r.addr ∧ e.size = r.size ∧
    e.cause = cause ∧ e.st = (if leader = none then .parked else .follower) ∧ (∀ p, leader = some p → e.leader = p) ∧
    e.overflow = overflow ∧ e.idxs.length = 1 + extOf r ∧ FreePlaces x overflow e.idxs) ∧
  (∃ n, (t.die d).pending = x.pending ++ [n] ∧ n.pseq = x.pseq) ∧ (overflow = false → t.mem = s.mem)

/-- What a request that cannot go on does: it parks on chip below the limit, else in the overflow area where there is
room, else it is refused at this cycle; a request that replays keeps its entry (R366, R367). -/
def ParksOrNot (i : Instr) (s : State) (team idx : Nat) (r : Req) (cause : Cause) (leader : Option (Option Nat)) : Prop :=
  let x := s.die (dieOf r.core)
  let n := 1 + extOf r
  let fits := ∃ is, is.length = n ∧ FreePlaces x true is ∧ ∀ j ∈ is, j < ovfSlots x
  ((∀ e ∈ x.entries, ¬(e.owner = .req team r.seq r.sub ∧ e.st = .replay)) →
    (onChip x + n ≤ x.parkLimit → Does i s fun t => Parked s t team idx r cause leader false) ∧
    (x.parkLimit < onChip x + n → fits → Does i s fun t => Parked s t team idx r cause leader true) ∧
    (x.parkLimit < onChip x + n → ¬fits → Does i s fun t =>
      ReqIs t team idx (fun q => q.stage = .refused s.cycle) ∧ t.mem = s.mem ∧
      let y := t.die (dieOf r.core)
      y.entries = x.entries ∧ y.pseq = x.pseq ∧ y.pending = x.pending)) ∧
  (∀ e, x.entries.find? (fun e => e.owner == .req team r.seq r.sub && e.st == .replay) = some e → Does i s fun t =>
    ReqIs t team idx (fun q => q.stage = .parked (dieOf r.core) e.pseq) ∧ (t.die (dieOf r.core)).pseq = x.pseq ∧
    (∃ e' ∈ (t.die (dieOf r.core)).entries, e'.pseq = e.pseq ∧ e'.cause = cause ∧ e'.idxs = e.idxs) ∧
    ∃ n, (t.die (dieOf r.core)).pending = x.pending ++ [n] ∧ n.pseq = e.pseq)

/-- The request goes to translation again. -/
def RetriesReq (t : State) (team seq sub : Nat) : Prop :=
  ∃ tm q, t.team team = some tm ∧ q ∈ tm.reqs ∧ q.seq = seq ∧ q.sub = sub ∧ q.stage = .queued ∧ q.replay = true

end Sys2Proof.Claims
namespace Sys2Proof.Claims
open Sys2Proof.Machine

/-- A table command ends with a code: it is no longer pending, and ERR is set unless the code is 0 (R400). -/
def EndsWith (i : Instr) (s : State) (code : Nat) (P : State → Prop) : Prop :=
  Does i s fun t => t.xd.cmd = none ∧ t.xd.cmdCode = code ∧ t.xd.cmdErr = (s.xd.cmdErr || code != 0) ∧ P t

/-- A trap command ends with a code (R425). -/
def EndsTrapCmd (i : Instr) (s : State) (code : Nat) (P : State → Prop) : Prop :=
  Does i s fun t => t.xd.tcmd = none ∧ t.xd.tcmdCode = code ∧ t.xd.tcmdErr = (s.xd.tcmdErr || code != 0) ∧ P t

end Sys2Proof.Claims
namespace Sys2Proof.Claims
open Sys2Proof.Machine

/-- No command of the core's kiln waits for its turn but tasks, loads and frees, which have steps of their own (R349). -/
def Settled (s : State) (core : Nat) : Prop :=
  ∀ e ∈ (s.core core).kcmds, match e.cmd with | .task _ _ _ | .load _ | .free _ => True | _ => False

end Sys2Proof.Claims
namespace Sys2Proof.Claims
open Sys2Proof.Machine

/-! ## The order of kiln commands -/

/-- R349: the command writes tile k; a KTASK whose record is not read yet may write any. -/
def TileWrites (x : KCmd) (k : Nat) : Prop :=
  match x.cmd with
  | .zero j | .write j _ _ _ _ _ _ _ _ => j = k
  | .task _ acc _ => acc = k
  | .pend _ _ _ => True
  | _ => False

/-- R349: the command has a read of tile k still to make. -/
def TileReads (c : Core) (x : KCmd) (k : Nat) : Prop :=
  match x.cmd with
  | .read j _ _ _ _ _ | .store j _ _ _ _ _ _ => j = k
  | .task tok _ src => src = some k ∧ ∃ y, c.ring.find? (fun y => y.team == x.team && y.token == tok) = some y ∧ (y.st = .entered ∨ y.st = .fetching)
  | .pend _ _ _ => True
  | _ => False

/-- R349 items 1 and 2: an earlier command of the team holds up one that enters as number `seq` and reads, or writes, tile k. R358
leaves the unstarted tasks of a held team out of account. -/
def HeldUp (c : Core) (team seq k : Nat) (writes : Bool) : Prop :=
  ∃ y ∈ c.kcmds, y.team = team ∧ y.seq < seq ∧ outOfAccount c y = false ∧ (TileWrites y k ∨ writes = true ∧ TileReads c y k)

/-- Nothing that waits in the core's kiln can act now: tasks, loads and frees have steps of their own, and every other command is held
up or has not entered (R294, R343, R349). -/
def NoneActs (c : Core) : Prop :=
  (∀ x ∈ c.kcmds, x.seq < c.kseq) ∧ ∀ x ∈ c.kcmds, match x.cmd with
    | .zero k | .write k _ _ _ _ _ _ _ _ => HeldUp c x.team x.seq k true
    | .read k _ _ _ _ _ => HeldUp c x.team x.seq k false
    | .store k _ _ _ _ _ _ => x.entered = false ∨ HeldUp c x.team x.seq k false
    | .pend _ _ _ => x.entered = false ∨ ∃ y ∈ c.kcmds, y.team = x.team ∧ y.seq < x.seq ∧ ∃ a b hs, y.cmd = .pend a b hs
    | _ => True

end Sys2Proof.Claims
namespace Sys2Proof.Claims
open Sys2Proof.Machine

/-! ## Encodings and the step -/

def rS (n : BitVec 8) : Opd := { cls := .s, n := n }
def rA (n : BitVec 8) : Opd := { cls := .a, n := n }
def rV (n : BitVec 8) : Opd := { cls := .v, n := n }
def rK (n : BitVec 8) : Opd := { cls := .k, n := n }

/-- An instruction at `off` modulo 32 stays in its fetch block; a REP may end its block and its body begin the next
(R72, R95). -/
def InBlock (off : Nat) : Instr → Prop
  | .rep o => off % 4 = 0 ∧ off + 8 ≤ 32 ∧ (off + 8) % 32 + 4 * (encBody o.body).length ≤ 32
  | i => off % 4 = 0 ∧ off + 4 * (encode i).length ≤ 32

/-- The opcodes of R99. -/
def Unassigned (c : Nat) : Prop :=
  c = 0 ∨ (0x12 ≤ c ∧ c ≤ 0x1F) ∨ (0x3C ≤ c ∧ c ≤ 0x3F) ∨ (0x48 ≤ c ∧ c ≤ 0x4F) ∨ c = 0x63 ∨ (0x6B ≤ c ∧ c ≤ 0x6F) ∨ c = 0x75 ∨
  (0x7A ≤ c ∧ c ≤ 0x7F) ∨ (0x93 ≤ c ∧ c ≤ 0x9F) ∨ (0xA8 ≤ c ∧ c ≤ 0xAF) ∨ (0xB8 ≤ c ∧ c ≤ 0xBF) ∨ 0xC7 ≤ c

/-- The field of a trap record at an offset (R423). -/
def recField (bs : List Byte) (off n : Nat) : Nat := leNat ((bs.drop off).take n)

/-- The trap of an instruction with the checks `n` before it, where it has one: class, registers, privilege, then
a mask that is not full, then a tag (R100, R101, R137, R142). While a register it names is pending it waits. -/
def FirstTrap (s : State) (e : Env) (n : Need) (h : Hdr) (i : Instr) : Prop :=
  let out := fun tr => exec i s = .next (takeTrap s e tr (e.p.active h) 0)
  let regs := (∀ u ∈ n.regs, RegUse.ok e u = true) ∧ n.regOk e = true
  let waits := (∃ u ∈ n.regs, pends s e u = true) ∨ pends s e (guardUse h) = true
  (n.type = false → out .illegalType) ∧
  (n.type = true → ¬regs → out .illegalReg) ∧
  (n.type = true → regs → n.priv = true → e.p.privileged = false → out .priv) ∧
  (n.type = true → regs → n.priv = false → n.ban = false → waits → exec i s = .next s) ∧
  (n.type = true → regs → n.priv = false → n.ban = false → ¬waits →
    (n.full = true → (e.p.active h).length ≠ e.f.refs → out .umask) ∧
    (n.full = false → (∃ u ∈ n.tags, ∃ k, k < u.count ∧ tagOk u.use (e.p.tag (e.p.wbase + u.n + k)) = false) → out .format))

/-- What an issue adds to the effect of its instruction: a stamp and the bay's issue in the posy's core; that the team has issued, and,
when that is new, a watchdog count of 0 in its queue (R325, R326). -/
def IssueNoted (e : Env) (s3 t : State) : Prop :=
  t = { s3 with cores := t.cores, teams := t.teams, queues := t.queues } ∧
  (∀ c, c ≠ e.core → t.core c = s3.core c) ∧ (∃ st is, t.core e.core = { s3.core e.core with stamps := st, issued := is }) ∧
  (∀ id, id ≠ e.p.team → t.team id = s3.team id) ∧ (s3.team e.p.team = none → t.team e.p.team = none) ∧
  (∀ tm, s3.team e.p.team = some tm → ∃ b, t.team e.p.team = some { tm with issued := b }) ∧
  (∀ q, q ≠ e.t.queue → t.queue q = s3.queue q) ∧
  (t.queue e.t.queue = s3.queue e.t.queue ∨ t.queue e.t.queue = { s3.queue e.t.queue with wd := 0 }) ∧
  (e.t.issued = true → t.teams = s3.teams ∧ t.queues = s3.queues)

/-- The first instruction that a team issues returns the watchdog's count to zero (R326). -/
def FirstNoted (e : Env) (s3 t : State) : Prop :=
  e.t.issued = false → (t.queue e.t.queue).wd = 0 ∧ ∀ tm, s3.team e.p.team = some tm → t.team e.p.team = some { tm with issued := true }

/-- What the state of the module keeps from step to step: memory and its poison marks in canonical form, the bring-up
and the clock in their ranges. -/
structure Inv (s : State) : Prop where
  mem : Memory.wf s.mem = true
  poison : Tab.wf false s.poison = true
  boot : s.boot ≤ 5
  clock : s.thermStep ≤ 2 ∧ s.sixths < 6

end Sys2Proof.Claims

open Sys2Proof Sys2Proof.Machine Sys2Proof.Claims

/-! ## Lane instructions -/

/-- Every lane instruction that passes its checks answers a next state: its destination holds what its lanes
compute, in the active lanes only, and nothing else of the machine changes (R138, R144, R151). -/
def Obligations.LaneInstructions : Prop :=
  ∀ (i : Instr) (a : Alu) (s : State) (e : Env), laneAlu i = some a → Passes s e a.need a.h →
    ∃ t e', exec i s = .next t ∧ GoesTo s t e e' (nextPc e a.h.len) ∧ LaneWrites a e e' (e.p.active a.h)

/-! ## Integers -/

/-- R155, R156, R157: every row of the integer table gives the result of the table in each element of its format,
with SAT when sat() clamps, DZ on a division by zero, and no other flag. R160: BFX and BFI take the field of X10 + 1 bits at the position modulo the width; a longer length, an immediate
position and a set bit in X10[9:6] are refused by the decoder. -/
def Obligations.IntegerTable : Prop :=
  (∀ (i : Instr) (a : Alu) (o : Ops) (f : ElemOp), laneAlu i = some a → intRow i = some (o, f) → Instr.legal i = true →
    ComputesElems a o f) ∧
  (∀ (i : Instr) (a : Alu) (o : Ops) (f : ElemOp), laneAlu i = some a → fieldRow i = some (o, f) → Instr.legal i = true →
    ComputesElems a o f ∧ o.x10.toNat + 1 ≤ Fmt.width o.fmt false ∧ o.x10.toNat < 64 ∧ ∃ b, o.b = .reg b ∧ b.cls ≠ .k)

/-- R158: CMP compares under the condition of SUB at the width of FMT; it answers 1 or 0 in S, from S sources only, or
one bit for each active lane in a predicate, and a V destination is a class error. -/
def Obligations.CompareTable : Prop :=
  ∀ (o : Ops), Instr.legal (.cmp o) = true →
    (∀ (w : Nat) (fctl : BitVec 32) (s : Bool) (x y : Nat) (l : W32) (old : Nat), w = (if Fmt.wide o.fmt then 64 else 32) →
      let bx := BitVec.ofNat w x
      let bY := BitVec.ofNat w y
      (aluCmp o).fn fctl s [x, y] l old =
        { val := if (match o.sub.toNat with
            | 0 => decide (bx = bY) | 1 => decide (bx ≠ bY) | 2 => bx.slt bY | 3 => bx.sle bY | 4 => bY.slt bx | 5 => bY.sle bx
            | 6 => bx.ult bY | 7 => bx.ule bY | 8 => bY.ult bx | _ => bY.ule bx) then 1 else 0
          lfsr := l }) ∧
    o.sub.toNat ≤ 9 ∧ (o.fmt = .i32 ∨ o.fmt = .u32 ∨ o.fmt = .i64 ∨ o.fmt = .u64) ∧
    (o.d.cls = .v → (aluCmp o).typeOk = false) ∧ (o.d.cls = .a → (aluCmp o).typeOk = false) ∧
    (o.d.cls = .s → (aluCmp o).typeOk = true → o.a.cls = .s ∧ ∀ b, o.b = .reg b → b.cls = .s)

/-- R8, R85: the affine form of an operation is its value at every fibre: expanding the result at a fibre index is
the operation on the expanded sources (MUL and SHL with the uniform factor or amount that R85 allows). -/
def Obligations.AffineForms : Prop :=
  ∀ (o : Ops) (x y z : BitVec 64 × BitVec 64) (f : Nat),
    expand ((aluAdd o).aff [x, y]) f = expand x f + expand y f ∧
    expand ((aluSub o).aff [x, y]) f = expand x f - expand y f ∧
    expand ((aluNeg o).aff [x]) f = -expand x f ∧
    expand ((aluMov o).aff [x]) f = expand x f ∧
    expand ((aluProm o).aff [x]) f = expand x f ∧
    (o.a.cls = .a → y.2 = 0 → expand ((aluMul o).aff [x, y]) f = expand x f * expand y f) ∧
    (o.a.cls ≠ .a → x.2 = 0 → expand ((aluMul o).aff [x, y]) f = expand x f * expand y f) ∧
    (o.a.cls = .a → y.2 = 0 → expand ((aluMad o).aff [x, y, z]) f = expand x f * expand y f + expand z f) ∧
    (o.a.cls ≠ .a → x.2 = 0 → expand ((aluMad o).aff [x, y, z]) f = expand x f * expand y f + expand z f) ∧
    (y.2 = 0 → expand ((aluShl o).aff [x, y]) f = expand x f <<< ((expand y f).toNat % 64)) ∧
    (∀ (i : Imm), o.b = .imm i → o.fmt = .i64 ∨ o.fmt = .u64 → expand ((aluLi o).aff []) f = Imm.sext i)

/-! ## Moves, class changes and special registers -/

/-- R88: how an immediate is narrowed to a format. R161, R162: what MOV, LI and PROM put into a uniform register, a varying register and a pair, and their tags. -/
def Obligations.MoveValues : Prop :=
  (∀ (i : Imm),
    let v := Imm.sext i
    (∀ f ∈ [Fmt.i64, Fmt.u64], immNarrow f i = v.toNat) ∧
    (∀ f ∈ [Fmt.i32, Fmt.u32, Fmt.raw], immNarrow f i = (v.extractLsb' 0 32).toNat) ∧
    (∀ f ∈ [Fmt.f16x2, Fmt.bf16x2, Fmt.i16x2, Fmt.u16x2], ∀ k, k < 2 → elem 16 [immNarrow f i] 0 k = v.extractLsb' 0 16) ∧
    (∀ f ∈ [Fmt.e4m3x4, Fmt.e5m2x4, Fmt.i8x4, Fmt.u8x4], ∀ k, k < 4 → elem 8 [immNarrow f i] 0 k = v.extractLsb' 0 8) ∧
    (∀ x, i = .i18 x → BitVec.ofNat 32 (immNarrow .f32 i) = x ++ (0 : BitVec 14)) ∧
    (∀ x, i = .i32 x → immNarrow .f32 i = x.toNat) ∧
    (∀ f, immNarrow f i < 2 ^ (if Fmt.wide f then 64 else 32))) ∧
  (∀ (o : Ops) (e : Env) (fctl : BitVec 32) (x : Nat) (l : W32) (old : Nat),
    (∀ s, ((aluMov o).fn fctl s [x] l old).val =
      if Fmt.wide o.fmt = true ∨ s = true ∧ o.fmt = .raw then x % 2 ^ 64
      else if s = true ∧ o.fmt = .i32 then ((BitVec.ofNat 32 x).signExtend 64).toNat else x % 2 ^ 32) ∧
    ((aluProm o).fn fctl false [x] l old).val = (if Fmt.wide o.fmt = true then x % 2 ^ 64 else x % 2 ^ 32) ∧
    (∀ i, o.b = .imm i →
      ((aluLi o).fn fctl false [] l old).val = immNarrow o.fmt i ∧
      BitVec.ofNat 64 ((aluLi o).fn fctl true [] l old).val =
        (match o.fmt with
         | .raw | .i64 | .u64 => Imm.sext i
         | .i32 => ((Imm.sext i).setWidth 32).signExtend 64
         | f => BitVec.ofNat 64 (immNarrow f i))) ∧
    (aluProm o).tag e = 0 ∧ (aluLi o).tag e = tagOf o.fmt ∧
    (o.fmt ≠ .raw → (aluMov o).tag e = tagOf o.fmt) ∧
    (o.fmt = .raw → (aluMov o).tag e = if o.a.cls = .v then e.p.tag (e.p.wbase + o.a.n.toNat) else 0) ∧
    ((aluProm o).typeOk = true → o.d.cls = .a ∧ o.a.cls = .s ∨ o.d.cls = .v ∧ (o.a.cls = .s ∨ o.a.cls = .a)) ∧
    (Fmt.packed o.fmt = true → o.d.cls = .s → (aluMov o).typeOk = false ∧ (aluLi o).typeOk = false))

/-- R159: SEL writes x where its condition holds and y where it does not; the condition is a predicate of the lane, or
s[C] ≠ 0 in every lane. R163, R165: DEMV takes the value of the active lane whose fibre has the lowest index; BASE and STRD take the two
halves of an affine register. R164: DEMA fits base and stride through the two lowest fibres and says in the predicate of X10 whether every active
fibre's value lies on the line; the verdict is one bit for all of them. -/
def Obligations.SelectAndClassMoves : Prop :=
  (∀ (o : Ops) (s : State) (e : Env), Passes s e (selNeed o) o.h →
    let x := Ops.srcA o o.fmt
    let y := Ops.srcB o o.fmt
    let c := fun L => if o.c.cls = .k then e.p.pred o.c.n.toNat L else decide (e.f.sreg o.c.n.toNat ≠ 0)
    (o.d.cls = .v → Goes (.sel o) s e o.h.len fun e' =>
      WritesV e e' (e.p.active o.h) o.d.n.toNat (if Fmt.wide o.fmt then 2 else 1)
        (fun i L => wordOf (b64 (if c L then x.read e L else y.read e L)) i) (selTag o e)) ∧
    (o.d.cls = .s → Goes (.sel o) s e o.h.len fun e' =>
      WritesS e e' o.d.n.toNat (b64 ((copyFn o.fmt 0 true [if e.f.sreg o.c.n.toNat ≠ 0 then x.readS e else y.readS e] 0 0).val))) ∧
    (o.d.cls = .s ∨ o.d.cls = .v) ∧ (o.d.cls = .s → o.c.cls = .s)) ∧
  (∀ (o : Ops) (s : State) (e : Env),
    (∀ M, Passes s e (demvNeed o) o.h → Lowest e (e.p.active o.h) M →
      Goes (.demv o) s e o.h.len fun e' => WritesS e e' o.d.n.toNat
        (let v := BitVec.ofNat 64 ((Ops.srcA o o.fmt).read e M)
         if Fmt.wide o.fmt then v else if o.fmt = .i32 then (v.setWidth 32).signExtend 64 else (v.setWidth 32).setWidth 64)) ∧
    (Passes s e (partNeed o) o.h →
      Goes (.base o) s e o.h.len (fun e' => WritesS e e' o.d.n.toNat (e.f.areg o.a.n.toNat).1) ∧
      Goes (.strd o) s e o.h.len (fun e' => WritesS e e' o.d.n.toNat (e.f.areg o.a.n.toNat).2))) ∧
  (∀ (o : Ops) (s : State) (e : Env), Passes s e (demaNeed o) o.h → e.p.active o.h ≠ [] →
    ∃ base stride, 
      (Goes (.dema o) s e o.h.len fun e' =>
        (∀ n, e'.f.areg n = if n = o.d.n.toNat then (base, stride) else e.f.areg n) ∧
        (∀ n, e'.f.sreg n = e.f.sreg n) ∧ (∀ n, e'.f.hreg n = e.f.hreg n) ∧ KeepsVarying e e' ∧ e'.t.flags = e.t.flags ∧
        (∀ n L, e'.p.pred n L = if o.x10 ≠ 0 ∧ L ∈ e.p.active o.h ∧ n = o.x10.toNat
          then (e.p.active o.h).all (fun M => expand (base, stride) (e.p.fid M) == demaVal o e M) else e.p.pred n L)) ∧
      (∀ M, Lowest e (e.p.active o.h) M → expand (base, stride) (e.p.fid M) = demaVal o e M) ∧
      (∀ M, e.p.active o.h = [M] → stride = 0) ∧
      (∀ M N, Lowest e (e.p.active o.h) M → Lowest e ((e.p.active o.h).filter (· ≠ M)) N →
        let d := (demaVal o e N - demaVal o e M).toInt
        let n : Int := (e.p.fid N : Int) - e.p.fid M
        stride = if n ∣ d then BitVec.ofInt 64 (d / n) else 0))

/-- R145 to R147, R166, R167: SREAD reads a special register into S or V (a pair where the register has 64 bits) with tag
RAW; SWRITE writes FCTL, whose reserved bits stay zero, and the LFSR, which never becomes zero, and ignores a write
of any other register. Outside a handler SWRITE and the registers 0x50 and 0x60 to 0x64 trap PRIV. R30, R145, R146: the
values of the special registers: the 34 constants of R30, the control and flag words, the clocks, the place of the posy and
its fibres, the launch's seed, and the handler registers, which read 0 outside a handler; HBUDGET counts the save budget of
R430 down. The model's choice (log entry 20): SWRITE writes FCTL also with no active lane. -/
def Obligations.SpecialRegisters : Prop :=
  (∀ (o : Ops) (s : State) (e : Env),
    (Passes s e (sreadNeed o) o.h →
      (o.d.cls = .s → Goes (.sread o) s e o.h.len fun e' => WritesS e e' o.d.n.toNat (b64 (sregVal s e o.x10.toNat 0))) ∧
      (o.d.cls = .v → Goes (.sread o) s e o.h.len fun e' =>
        WritesV e e' (e.p.active o.h) o.d.n.toNat (if sregWide o.x10.toNat then 2 else 1)
          (fun i L => wordOf (b64 (sregVal s e o.x10.toNat L)) i) 0)) ∧
    (Passes s e (swriteNeed o) o.h → ∃ t e', exec (.swrite o) s = .next t ∧ curEnv t = some e' ∧ OnlyPosy s t e ∧
      e'.p.pc = nextPc e o.h.len ∧ KeepsFrame e e' ∧ KeepsPreds e e' ∧ e'.t.flags = e.t.flags ∧
      (∀ r L, L < 64 → e'.p.reg r L = e.p.reg r L) ∧ (∀ r, e'.p.tag r = e.p.tag r) ∧
      e'.t.fctl = (if o.x10 = 0x40 then (e.f.sreg o.a.n.toNat).setWidth 32 &&& 7 else e.t.fctl) ∧
      (∀ L, Tab.get 0 e'.p.lfsr L = if o.x10 = 0x50 ∧ L ∈ e.p.active o.h then
          (if e.p.readV o.a.n.toNat L = 0 then 1 else b32 (e.p.readV o.a.n.toNat L)) else Tab.get 0 e.p.lfsr L) ∧
      e'.t = { e.t with fctl := e'.t.fctl, frames := e'.t.frames }) ∧
    ((swriteNeed o).priv = true ∧ ((sreadNeed o).priv = true ↔ o.x10 = 0x50 ∨ 0x60 ≤ o.x10.toNat ∧ o.x10.toNat ≤ 0x64))) ∧
  (∀ (s : State) (e : Env) (L : Nat),
    (∀ x ∈ ([(0x00, 64), (0x01, 4), (0x02, 192), (0x03, 12), (0x04, 4), (0x05, 4), (0x06, 24), (0x07, 2), (0x08, 2048), (0x09, 768), (0x0A, 512),
        (0x0B, 64), (0x0C, 128), (0x0D, 32), (0x0E, 1024), (0x0F, 16), (0x10, 128), (0x11, 32), (0x12, 32), (0x13, 4096), (0x14, 32768), (0x15, 256),
        (0x16, 32768), (0x17, 128), (0x18, 2048), (0x19, 64), (0x1A, 16), (0x1B, 16), (0x1C, 16), (0x1D, 64), (0x1E, 52), (0x1F, 0xC000000000),
        (0x20, 2000), (0x21, 1)] : List (Nat × Nat)), sregVal s e x.1 L = x.2) ∧
    (∀ l, s.launch e.t.lid = some l → sregVal s e 0x4D L = l.r.seed.toNat % 2 ^ 32) ∧
    (∀ v since prio, s.vd e.t.part e.t.vd = some v → e.p.privileged = true → e.t.save = .saving since prio →
      sregVal s e 0x64 L = (if v.budget = 0 then 20000 else v.budget) - (s.cycle - since)) ∧
    sregVal s e 0x40 L = e.t.fctl.toNat ∧ sregVal s e 0x41 L = e.t.flags.toNat + 256 * e.t.arm.toNat ∧
    sregVal s e 0x42 L = s.time % 2 ^ 64 ∧ sregVal s e 0x43 L = s.cycle % 2 ^ 64 ∧ sregVal s e 0x44 L = L ∧
    sregVal s e 0x45 L = e.key % 24 ∧ sregVal s e 0x46 L = e.t.place ∧ sregVal s e 0x47 L = e.t.wave ∧
    sregVal s e 0x48 L = e.p.frame ∧ sregVal s e 0x49 L = e.f.refs ∧ sregVal s e 0x4A L = e.p.wbase ∧
    sregVal s e 0x4B L = e.p.alloc - e.p.wbase ∧ sregVal s e 0x4C L = e.t.ktiles ∧ sregVal s e 0x4E L = e.t.vd ∧
    sregVal s e 0x4F L = (if e.p.privileged then 1 else 0) ∧ sregVal s e 0x63 L = e.p.hd.ctxbase ∧
    (e.p.privileged = true → sregVal s e 0x60 L = e.p.hd.hepc ∧ sregVal s e 0x61 L = e.p.hd.hcause.toNat ∧
      sregVal s e 0x62 L = e.p.hd.hrep.toNat) ∧
    (e.p.privileged = false → sregVal s e 0x60 L = 0 ∧ sregVal s e 0x61 L = 0 ∧ sregVal s e 0x62 L = 0 ∧ sregVal s e 0x64 L = 0) ∧
    (e.p.privileged = true ↔ e.p.hd.mode = .save ∨ e.p.hd.mode = .restore))

/-- R390: SEGLD puts the pair of registers into the segment that X10 names, unless the pair breaks a rule of the segment
registers: then it traps SEG and nothing is written. With no active lane it only goes on. -/
def Obligations.SegmentLoad : Prop :=
  ∀ (o : Ops) (b : Opd) (s : State) (e : Env), Passes s e (segldNeed o) o.h → o.b = .reg b →
    let base := e.f.sreg o.a.n.toNat
    let lim := e.f.sreg b.n.toNat
    let bad := 2 ^ 52 ≤ base.toNat ∨ lim.extractLsb' 53 8 ≠ 0 ∨ 2 ^ 52 < base.toNat + (lim.extractLsb' 0 53).toNat ∨
      o.x10 = 1 ∧ (base ≠ 0 ∨ e.t.salloc < (lim.extractLsb' 0 53).toNat)
    (e.p.active o.h = [] → Goes (.segld o) s e o.h.len fun e' => KeepsFrame e e' ∧ KeepsVarying e e' ∧ KeepsPreds e e' ∧ e'.t.flags = e.t.flags) ∧
    (e.p.active o.h ≠ [] → bad → exec (.segld o) s = .next (takeTrap s e .seg (e.p.active o.h) 0)) ∧
    (e.p.active o.h ≠ [] → ¬bad → ∃ t e', exec (.segld o) s = .next t ∧ curEnv t = some e' ∧ OnlyPosy s t e ∧
      e'.p.pc = nextPc e o.h.len ∧ KeepsFrame e e' ∧ KeepsVarying e e' ∧ KeepsPreds e e' ∧ e'.t.flags = e.t.flags ∧
      (∀ g, e'.t.seg g = if g = segOfCode o.x10.toNat then { base := base, lim := lim } else e.t.seg g))

/-! ## Floating and packed arithmetic -/

/-- The largest finite value of a format, M · 2^u (R106). -/
def topFinite : FF → Nat × Nat
  | .f32 => (2 ^ 24 - 1, 104) | .f16 => (2 ^ 11 - 1, 5) | .bf16 => (2 ^ 8 - 1, 120) | .e4m3 => (14, 5) | .e5m2 => (7, 13)

/-- A signed fraction as a rational number. -/
def ratOf (neg : Bool) (m : Mag) : Rat := (if neg then -1 else 1) * ((m.n : Rat) / (m.d : Rat))

/-- x lies below y: by value, −0 below +0, the infinities at the ends; a NaN lies nowhere (R187). -/
def Below : FVal → FVal → Prop
  | .inf a, .inf b => a = true ∧ b = false
  | .inf a, .fin _ _ => a = true
  | .fin _ _, .inf b => b = false
  | .fin a m, .fin b n => ratOf a m < ratOf b n ∨ ratOf a m = ratOf b n ∧ a = true ∧ b = false
  | _, _ => False

/-- R186: the exact value `q` narrowed once; `zero` is the sign of an exact zero. -/
def RoundsTo (F : FF) (c : Ctl) (l : W32) (r : Rounded) (q : Rat) (zero : Bool) : Prop :=
  (q = 0 → r = ⟨F.signPat zero, 0, l⟩) ∧
  (q ≠ 0 → ∃ p d : Nat, 0 < d ∧ ratOf (decide (q < 0)) ⟨p, d⟩ = q ∧ r = F.narrow c l (decide (q < 0)) ⟨p, d⟩)

/-- R111, R112: rounding n/d (of the sign `neg`) to an integer: an integer is returned unchanged and the LFSR rests; else
the result is one of the two integers around n/d, by the mode; only the stochastic mode moves the LFSR, by 16 steps. The exact value k · 2^q at a precision of p + 1 bits brackets x > 0 (R111): the pattern that `narrow` returns under RZ
never exceeds x, and no representable magnitude lies strictly between it and x. R114: a magnitude that rounds above the largest finite value M · 2^u (that is, rounds to more than M in units of
2^u) sets OVF, and no other does; it becomes infinity, or the largest finite value where the mode rounds toward zero for
its sign; in a format without infinity, or under OVFSAT, it becomes the largest finite value with SAT. An infinite value into a format without infinity becomes that value with SAT alone. -/
def Obligations.Rounding : Prop :=
  (∀ (l : W32) (neg : Bool) (n d : Nat), 0 < d →
    (∀ m, d ∣ n → roundInt m l neg n d = (n / d, l)) ∧
    (¬ d ∣ n →
      roundInt .rz l neg n d = (n / d, l) ∧
      roundInt .rup l neg n d = (if neg then n / d else n / d + 1, l) ∧
      roundInt .rdn l neg n d = (if neg then n / d + 1 else n / d, l) ∧
      (∃ k, roundInt .rne l neg n d = (k, l) ∧ 2 * ((k * d : Nat) - (n : Int)).natAbs ≤ d ∧
        (2 * ((k * d : Nat) - (n : Int)).natAbs = d → k % 2 = 0)) ∧
      roundInt .stoch l neg n d =
        (if ((lfsrSteps 16 l).extractLsb' 0 16).toNat < 2 ^ 16 * (n % d) / d then n / d + 1 else n / d, lfsrSteps 16 l)) ∧
    (∀ fctl, rmode fctl .rne = .rne ∧ rmode fctl .rz = .rz ∧ rmode fctl .stoch = .stoch ∧
      rmode fctl .dyn = if fctl.getLsbD 0 then .rdn else .rup) ∧
    lfsrStep l = (if l.getLsbD 0 then (l >>> 1) ^^^ 0x80200003 else l >>> 1) ∧ (lfsrStep l = 0 ↔ l = 0)) ∧
  (∀ (F : FF) (l : W32) (neg : Bool) (n d : Nat), 0 < d →
    let r := F.narrow { mode := .rz } l neg ⟨n, d⟩
    ∃ m, F.decode r.pat = .fin neg m ∧ Mag.le m ⟨n, d⟩ = true ∧
      (∀ pat m', F.decode pat = .fin neg m' → Mag.le m' ⟨n, d⟩ = true → Mag.le m' m = true) ∧ r.lfsr = l) ∧
  (∀ (F : FF) (c : Ctl) (l : W32) (neg : Bool) (n d : Nat), 0 < d →
    let r := F.narrow c l neg ⟨n, d⟩
    let passes := (topFinite F).1 < (roundInt c.mode l neg n (d * 2 ^ (topFinite F).2)).1
    (passes → F ≠ .e4m3 → c.ovfsat = false →
      r.flags = flagOvf ∧
      r.pat = F.signPat neg + (if c.mode = .rz ∨ c.mode = .rup ∧ neg = true ∨ c.mode = .rdn ∧ neg = false then F.maxPat else F.infPat)) ∧
    (passes → F = .e4m3 ∨ c.ovfsat = true → r.flags = flagOvf ||| flagSat ∧ r.pat = F.signPat neg + F.maxPat) ∧
    (¬passes → r.flags &&& (flagOvf ||| flagSat) = 0) ∧
    F.put c l (.inf neg) = (if F = .e4m3 then ⟨F.signPat neg + F.maxPat, flagSat, l⟩ else ⟨F.signPat neg + F.infPat, 0, l⟩) ∧
    F.put c l .nan = ⟨F.nanPat, 0, l⟩)

/-- R186: sums and products: NaN operands give the canonical NaN without a flag; ∞ − ∞, 0 · ∞ and ∞ · 0 give it with INV;
x + y = y + x and x · y = y · x in every bit, mode and flag; x + (−x) is −0 under RDN and +0 otherwise. Of finite operands
FADD, FSUB, FMUL and FMA give the exact sum, difference, product, or product and sum, narrowed once. R187, R188, R189, R190:
FABS changes only the sign bit and makes a NaN canonical; FMIN returns the smaller operand and FMAX the larger one, with −0
below +0, and both skip a NaN; FCMP compares by value, with −0 as +0 and a NaN unordered; FCLASS sets one bit. -/
def Obligations.FloatArithmetic : Prop :=
  (∀ (F : FF) (c : Ctl) (l : W32) (x y z : Nat),
    opFadd F c [x, y] l = opFadd F c [y, x] l ∧ opFmul F c [x, y] l = opFmul F c [y, x] l ∧
    (F.read c.ftz x = .nan ∨ F.read c.ftz y = .nan →
      opFadd F c [x, y] l = ⟨F.nanPat, 0, l⟩ ∧ opFsub F c [x, y] l = ⟨F.nanPat, 0, l⟩ ∧ opFmul F c [x, y] l = ⟨F.nanPat, 0, l⟩ ∧
      (opFma F c [x, y, z] l).pat = F.nanPat) ∧
    (∀ a, F.read c.ftz x = .inf a → F.read c.ftz y = .inf !a → opFadd F c [x, y] l = ⟨F.nanPat, flagInv, l⟩) ∧
    (∀ a b m, F.read c.ftz x = .inf a → F.read c.ftz y = .fin b m → m.n = 0 →
      opFmul F c [x, y] l = ⟨F.nanPat, flagInv, l⟩ ∧
      opFma F c [x, y, z] l = ⟨F.nanPat, flagInv, l⟩) ∧
    (∀ a m, F.read c.ftz x = .fin a m → F.read c.ftz y = .fin (!a) m →
      opFadd F c [x, y] l = ⟨F.signPat (c.mode == .rdn), 0, l⟩)) ∧
  (∀ (F : FF) (c : Ctl) (l : W32) (x y z : Nat) (sx sy sz : Bool) (mx my mz : Mag),
    F.read c.ftz x = .fin sx mx → F.read c.ftz y = .fin sy my → F.read c.ftz z = .fin sz mz →
    let X := ratOf sx mx
    let Y := ratOf sy my
    let zeroSum := fun a b : Bool => if a = b then a else c.mode == .rdn
    RoundsTo F c l (opFadd F c [x, y] l) (X + Y) (zeroSum sx sy) ∧ RoundsTo F c l (opFsub F c [x, y] l) (X - Y) (zeroSum sx !sy) ∧
    RoundsTo F c l (opFmul F c [x, y] l) (X * Y) (sx ^^ sy) ∧
    RoundsTo F c l (opFma F c [x, y, z] l) (X * Y + ratOf sz mz) (zeroSum (sx ^^ sy) sz)) ∧
  (∀ (F : FF) (c : Ctl) (l : W32) (x y : Nat), x < 2 ^ F.bits → y < 2 ^ F.bits → c.ftz = false →
    let sgn := 2 ^ (F.bits - 1)
    (F.decode x ≠ .nan →
      opFabs 0 F c [x] l = ⟨x % sgn, 0, l⟩ ∧ opFabs 1 F c [x] l = ⟨(x + sgn) % 2 ^ F.bits, 0, l⟩ ∧
      opFabs 2 F c [x] l = ⟨x % sgn + sgn, 0, l⟩) ∧
    (F.decode x = .nan → ∀ k, opFabs k F c [x] l = ⟨F.nanPat, 0, l⟩) ∧
    (F.decode x = .nan → F.decode y ≠ .nan → ∀ mx, (opFmm mx F c [x, y] l).pat = y ∧ (opFmm mx F c [y, x] l).pat = y) ∧
    (F.decode x = .nan → F.decode y = .nan → ∀ mx, opFmm mx F c [x, y] l = ⟨F.nanPat, 0, l⟩) ∧
    (F.decode x ≠ .nan → F.decode y ≠ .nan → ∀ mx, (opFmm mx F c [x, y] l = ⟨x, 0, l⟩ ∨ opFmm mx F c [x, y] l = ⟨y, 0, l⟩)) ∧
    (Below (F.decode x) (F.decode y) →
      opFmm false F c [x, y] l = ⟨x, 0, l⟩ ∧ opFmm false F c [y, x] l = ⟨x, 0, l⟩ ∧
      opFmm true F c [x, y] l = ⟨y, 0, l⟩ ∧ opFmm true F c [y, x] l = ⟨y, 0, l⟩) ∧
    (∀ a m b n, F.decode x = .fin a m → F.decode y = .fin b n →
      fcmpHolds 0 (F.decode x) (F.decode y) = decide (ratOf a m = ratOf b n) ∧
      fcmpHolds 2 (F.decode x) (F.decode y) = decide (ratOf a m < ratOf b n) ∧
      fcmpHolds 4 (F.decode x) (F.decode y) = decide (ratOf b n < ratOf a m)) ∧
    (∀ a, F.decode x = .inf a → F.decode y ≠ .nan →
      fcmpHolds 0 (F.decode x) (F.decode y) = decide (F.decode y = .inf a) ∧
      fcmpHolds 2 (F.decode x) (F.decode y) = decide (a = true ∧ F.decode y ≠ .inf true) ∧
      fcmpHolds 4 (F.decode x) (F.decode y) = decide (a = false ∧ F.decode y ≠ .inf false)) ∧
    ((F.decode x = .nan ∨ F.decode y = .nan) →
      (∀ k ∈ [0, 2, 3, 4, 5], fcmpHolds k (F.decode x) (F.decode y) = false) ∧
      fcmpHolds 1 (F.decode x) (F.decode y) = true ∧ fcmpHolds 6 (F.decode x) (F.decode y) = true ∧
      fcmpHolds 7 (F.decode x) (F.decode y) = false) ∧
    (F.decode x ≠ .nan → F.decode y ≠ .nan →
      fcmpHolds 1 (F.decode x) (F.decode y) = !fcmpHolds 0 (F.decode x) (F.decode y) ∧
      fcmpHolds 5 (F.decode x) (F.decode y) = !fcmpHolds 2 (F.decode x) (F.decode y) ∧
      fcmpHolds 4 (F.decode x) (F.decode y) = !fcmpHolds 3 (F.decode x) (F.decode y) ∧
      fcmpHolds 2 (F.decode x) (F.decode y) = fcmpHolds 4 (F.decode y) (F.decode x)) ∧
    fcmpHolds 0 (F.decode 0) (F.decode sgn) = true ∧
    F.classBit 0 = 4 ∧ F.classBit sgn = 3 ∧ F.classBit F.nanPat = 8 ∧ F.classBit 1 = 5 ∧ F.classBit (sgn + 1) = 2 ∧
    F.classBit F.maxPat = 6 ∧ F.classBit (sgn + F.maxPat) = 1 ∧ F.classBit x ≤ 8 ∧
    (F ≠ .e4m3 → F.classBit F.infPat = 7 ∧ F.classBit (sgn + F.infPat) = 0))

/-- R121, R193: conversions: integer to integer saturates; a finite value into an integer format rounds by the mode and
saturates, NaN gives 0 with INV, an infinity the limit with SAT; a value into a floating format is narrowed once; a floating
pattern converted to its own format is unchanged unless it is a NaN, which becomes canonical. A nonzero value that becomes
the integer 0 sets UNF, which the model deduces from R115 (log entry 105). R191: FRND gives the integral value that the mode rounds to,
with the sign of x and no flag; a value of magnitude 2^p or more, and an infinity, is unchanged, and a NaN canonical. -/
def Obligations.Conversions : Prop :=
  (∀ (F : FF) (mode : RMode) (l : W32) (x : Nat), x < 2 ^ F.bits →
    let r := F.toIntegral false mode l x
    (F.decode x = .nan → r = ⟨F.nanPat, 0, l⟩) ∧ (∀ neg, F.decode x = .inf neg → r = ⟨x, 0, l⟩) ∧
    (∀ neg m, F.decode x = .fin neg m →
      let k := roundInt mode l neg m.n m.d
      r.flags = 0 ∧ r.lfsr = k.2 ∧ r.pat / 2 ^ (F.bits - 1) = (if neg then 1 else 0) ∧
      (∃ v, F.decode r.pat = .fin neg v ∧ v.n = k.1 * v.d) ∧ (2 ^ F.p * m.d ≤ m.n → r.pat = x))) ∧
  (∀ (o : Ops) (fctl : BitVec 32) (s : Bool) (x old : Nat) (l : W32), o.fmt = .f32 → x < 2 ^ 32 →
    let r := FF.f32.toIntegral (fctl.getLsbD 1) (rmode fctl o.rnd) l x
    (aluFrnd o).fn fctl s [x] l old = { val := r.pat, flags := r.flags, lfsr := r.lfsr }) ∧
  ∀ (c : Ctl) (l : W32) (w w' : Nat) (sg sg' : Bool) (F : FF) (x : Nat), 0 < w → 0 < w' →
    convert c (.int w sg) (.int w' sg') l x =
      ⟨(satTo w' sg' (num sg (BitVec.ofNat w x))).1.toNat, (satTo w' sg' (num sg (BitVec.ofNat w x))).2, l⟩ ∧
    (F.decode x = .nan → convert c (.fl F) (.int w sg) l x = ⟨0, flagInv, l⟩) ∧
    (∀ neg, F.decode x = .inf neg → convert c (.fl F) (.int w sg) l x =
      ⟨(satTo w sg (if neg then intMin w sg - 1 else intMax w sg + 1)).1.toNat, flagSat, l⟩) ∧
    (x < 2 ^ F.bits → convert c (.fl F) (.fl F) l x = if F.decode x = .nan then ⟨F.nanPat, 0, l⟩ else ⟨x, 0, l⟩) ∧
    (∀ neg m, F.decode x = .fin neg m →
      (let k := roundInt c.mode l neg m.n m.d
       let r := satTo w sg (if neg then -(k.1 : Int) else (k.1 : Int))
       convert c (.fl F) (.int w sg) l x = ⟨r.1.toNat, r.2 ||| (if k.1 = 0 ∧ m.n ≠ 0 then flagUnf else 0), k.2⟩) ∧
      ∀ F' : FF, convert c (.fl F) (.fl F') l x = F'.narrow { c with ftz := false } l neg m) ∧
    (let v := num sg (BitVec.ofNat w x)
     convert c (.int w sg) (.fl F) l x = F.narrow { c with ftz := false } l (decide (v < 0)) ⟨v.natAbs, 1⟩)

/-- R195: the special inputs of the special functions, for every format. R196: for a finite, nonzero input a finite result
lies inside the bound of the function and format around the true value, which the model computes to far more bits than any
bound (log entry 8): in units in the last place of the true value, or absolutely where the true value is at most 2, as it is
where R196 gives an absolute bound. SQRT is correctly rounded in its mode, without a flag; EX2 of an integer whose power
is a value of the format, and LG2 of a power of two, are exact. -/
def Obligations.SpecialInputs : Prop :=
  (∀ (F : FF) (c : Ctl) (l : W32) (x : Nat) (m : Mag),
    F ∈ [FF.f32, FF.f16, FF.bf16] → F.read c.ftz x = .fin false m → m.n ≠ 0 →
    let X := ratOf false m
    let r := SfuOp.sqrt.eval F c l x
    let g := SfuOp.lg2.eval F c l x
    (∃ v, F.decode r.pat = .fin false v ∧ r.flags = 0 ∧
      let V := ratOf false v
      ∀ pat w, F.decode pat = .fin false w →
        let W := ratOf false w
        (c.mode = .rz ∨ c.mode = .rdn → V * V ≤ X ∧ (V < W → X < W * W)) ∧
        (c.mode = .rup → X ≤ V * V ∧ (W < V → W * W < X)) ∧
        (c.mode = .rne → (V < W → 4 * X ≤ (V + W) * (V + W)) ∧ (W < V → (V + W) * (V + W) ≤ 4 * X)) ∧
        (c.mode = .stoch → (V * V ≤ X → V < W → X < W * W) ∧ (X ≤ V * V → W < V → W * W < X))) ∧
    ∀ k : Nat,
      (X = 2 ^ k → ∃ v, F.decode g.pat = .fin false v ∧ ratOf false v = k ∧ g.flags = 0) ∧
      (X * 2 ^ k = 1 → k ≠ 0 → ∃ v, F.decode g.pat = .fin true v ∧ ratOf false v = k ∧ g.flags = 0)) ∧
  (∀ (F : FF) (c : Ctl) (l : W32) (x pat k : Nat) (neg : Bool) (m w : Mag),
    F ∈ [FF.f32, FF.f16, FF.bf16] → c.ftz = false → F.decode x = .fin neg m → k ≠ 0 → m.n = k * m.d → F.decode pat = .fin false w →
    (if neg then ratOf false w * 2 ^ k = 1 else ratOf false w = 2 ^ k) →
    let r := SfuOp.ex2.eval F c l x
    (∃ v, F.decode r.pat = .fin false v ∧ ratOf false v = ratOf false w) ∧ r.flags = 0 ∧ r.lfsr = l) ∧
  (∀ (op : SfuOp) (F : FF) (c : Ctl) (l : W32) (x : Nat) (neg : Bool) (m : Mag) (b : Bool) (v : Mag),
    F ∈ [FF.f32, FF.f16, FF.bf16] → c.ftz = false → F.decode x = .fin neg m → m.n ≠ 0 → (neg = true → op ∉ [SfuOp.rsq, .sqrt, .lg2]) →
    F.decode (op.eval F c l x).pat = .fin b v →
    let t := op.true_ ⟨neg, m⟩
    let far := Sgn.dist ⟨b, v⟩ t
    let near1 := Mag.le ⟨1, 2⟩ m = true ∧ Mag.le m ⟨2, 1⟩ = true
    (op ∈ [SfuOp.rcp, .rsq] ∨ F ≠ .f32 ∧ op ∈ [SfuOp.ex2, .lg2, .tanh] → Mag.le far (F.ulp t.m) = true) ∧
    (F = .f32 → op = .ex2 ∨ op = .lg2 ∧ ¬near1 → Mag.le far (Mag.mul ⟨2, 1⟩ (F.ulp t.m)) = true) ∧
    (Mag.le t.m ⟨2, 1⟩ = true →
      (op ∈ [SfuOp.sin, .cos] → Mag.le far ⟨1, if F = .f32 then 2 ^ 22 else if F = .f16 then 2 ^ 10 else 2 ^ 7⟩ = true) ∧
      (F = .f32 → op = .tanh → Mag.le far ⟨1, 2 ^ 21⟩ = true) ∧
      (F = .f32 → op = .lg2 → near1 → Mag.le far ⟨1, 2 ^ 22⟩ = true)) ∧
    (op = .rcp → t = ⟨neg, ⟨m.d, m.n⟩⟩)) ∧
  ∀ (F : FF) (c : Ctl) (l : W32) (neg : Bool), F ∈ [FF.f32, FF.f16, FF.bf16] →
    let zero := fun b => (⟨F.signPat b, 0, l⟩ : Rounded)
    let nan := (⟨F.nanPat, flagInv, l⟩ : Rounded)
    let inf := fun b f => (⟨F.signPat b + F.infPat, f, l⟩ : Rounded)
    let one := fun b => (⟨F.signPat b + F.bias * 2 ^ F.p, 0, l⟩ : Rounded)
    (∀ (op : SfuOp) (x : Nat), F.decode x = .nan → op.eval F c l x = ⟨F.nanPat, 0, l⟩) ∧
    (∀ op ∈ [SfuOp.rsq, .sqrt, .lg2], ∀ x m, F.read c.ftz x = .fin true m → m.n ≠ 0 → op.eval F c l x = nan) ∧
    SfuOp.rcp.eval F c l (F.signPat neg + F.infPat) = zero neg ∧
    (∀ op ∈ [SfuOp.rsq, .sqrt, .lg2], op.eval F c l (F.signPat true + F.infPat) = nan) ∧
    SfuOp.rsq.eval F c l F.infPat = zero false ∧ SfuOp.sqrt.eval F c l F.infPat = inf false 0 ∧
    SfuOp.lg2.eval F c l F.infPat = inf false 0 ∧ SfuOp.ex2.eval F c l F.infPat = inf false 0 ∧
    SfuOp.ex2.eval F c l (F.signPat true + F.infPat) = zero false ∧
    (∀ op ∈ [SfuOp.sin, .cos], op.eval F c l (F.signPat neg + F.infPat) = nan) ∧
    SfuOp.tanh.eval F c l (F.signPat neg + F.infPat) = one neg ∧
    (∀ op ∈ [SfuOp.rcp, .rsq], op.eval F c l (F.signPat neg) = inf neg flagDz) ∧
    SfuOp.lg2.eval F c l (F.signPat neg) = inf true flagDz ∧
    (∀ op ∈ [SfuOp.sqrt, .sin, .tanh], op.eval F c l (F.signPat neg) = zero neg) ∧
    (∀ op ∈ [SfuOp.ex2, .cos], op.eval F c l (F.signPat neg) = one false)

/-- R198 to R203: integer dot products; floating ones, which round the exact sum of products and addend once; sums of
absolute differences; averages; PACK and UNPK, whose elements are converted one after another as R193 says; and the byte
permute. -/
def Obligations.PackedOperations : Prop :=
  ∀ (o : Ops) (fctl : BitVec 32) (x y z : Nat) (l : W32) (old : Nat),
    let w := Fmt.width o.fmt false
    let sg := Fmt.signed o.fmt
    let n := Fmt.count o.fmt
    let dot : Int := ((List.range n).map fun k => num sg (elem w [x] 0 k) * num sg (elem w [y] 0 k)).sum + num sg (BitVec.ofNat 32 z)
    let sad : Nat := ((List.range n).map fun k => (num sg (elem w [x] 0 k) - num sg (elem w [y] 0 k)).natAbs).sum + z
    let nib := fun i => elem 4 [if prmt3 o then z else y] 0 i
    let a := (BitVec.ofNat 32 x).toNat
    let pool := fun b => elem 8 [if prmt3 o then a + 2 ^ 32 * (BitVec.ofNat 32 y).toNat else a] 0 b
    (Fmt.inRange o.fmt 6 9 = true →
      (aluDot4 o).fn fctl false [x, y, z] l old =
        { val := (if o.sub = 1 then (satTo 32 sg dot).1 else BitVec.ofInt 32 dot).toNat
          flags := if o.sub = 1 then (satTo 32 sg dot).2 else 0, lfsr := l } ∧
      (aluDot2 o).fn fctl false [x, y, z] l old = (aluDot4 o).fn fctl false [x, y, z] l old ∧
      (aluSad o).fn fctl false [x, y, z] l old = { val := sad % 2 ^ 32, lfsr := l } ∧
      (∀ k, k < n → elem w [((aluAvg o).fn fctl false [x, y] l old).val] 0 k =
        BitVec.ofInt w ((num sg (elem w [x] 0 k) + num sg (elem w [y] 0 k) + (if o.sub = 0 then 1 else 0)) / 2)) ∧
      ((aluAvg o).fn fctl false [x, y] l old).flags = 0) ∧
    (∀ i, i < 4 → elem 8 [((aluPrmt o).fn fctl false [x, y, z] l old).val] 0 i =
      if (nib i).getLsbD 3 then (if (pool ((nib i).extractLsb' 0 3).toNat).getLsbD 7 then 0xFF else 0)
      else pool ((nib i).extractLsb' 0 3).toNat) ∧
    (∀ F, FF.ofFmt o.fmt = some F → o.fmt ≠ .f32 →
      let c : Ctl := { ctlOf fctl o.rnd with ftz := fctl.getLsbD 1 && (o.fmt == .f16x2 || o.fmt == .bf16x2) }
      let X := fun i => F.read c.ftz (elem F.bits [x] 0 i).toNat
      let Y := fun i => F.read c.ftz (elem F.bits [y] 0 i).toNat
      let Z := FF.f32.read c.ftz (z % 2 ^ 32)
      let out := (aluDot4 o).fn fctl false [x, y, z] l old
      (aluDot2 o).fn fctl false [x, y, z] l old = out ∧
      (Z = .nan ∨ (∃ i, i < n ∧ (X i = .nan ∨ Y i = .nan)) → out.val = 0x7FC00000) ∧
      (∀ (sx sy : Nat → Bool) (mx my : Nat → Mag) (sz : Bool) (mz : Mag),
        (∀ i, i < n → X i = .fin (sx i) (mx i) ∧ Y i = .fin (sy i) (my i)) → Z = .fin sz mz →
        let q := ((List.range n).map fun i => ratOf (sx i) (mx i) * ratOf (sy i) (my i)).sum + ratOf sz mz
        (q = 0 → out.val % 2 ^ 31 = 0 ∧ out.flags = 0) ∧
        (q ≠ 0 → ∃ p d : Nat, 0 < d ∧ ratOf (decide (q < 0)) ⟨p, d⟩ = q ∧
          let r := FF.f32.narrow c l (decide (q < 0)) ⟨p, d⟩
          out = { val := r.pat, flags := r.flags, lfsr := r.lfsr }))) ∧
    (let sf := (Fmt.ofCode o.sub.toNat).getD .raw
     let conv := convert (ctlOf fctl o.rnd) (Fmt.elem sf 32) (Fmt.elem o.fmt 32)
     let convN := convert (ctlOf fctl .rne) (Fmt.elem sf 32) (Fmt.elem o.fmt 32)
     let ws := Fmt.width sf false
     let h := o.x10.toNat
     (Instr.legal (.pack o) = true →
       let out := (aluPack o).fn fctl false [x, y] l old
       (Fmt.count sf = 1 →
         let r0 := conv l (x % 2 ^ 32)
         let r1 := conv r0.lfsr (y % 2 ^ 32)
         out.flags = r0.flags ||| r1.flags ∧ out.lfsr = r1.lfsr ∧ ∀ k, k < n → elem w [out.val] 0 k =
           if k = 2 * h then BitVec.ofNat w r0.pat else if k = 2 * h + 1 then BitVec.ofNat w r1.pat else elem w [old] 0 k) ∧
       (Fmt.count sf = 2 →
         let r0 := conv l (elem 16 [x] 0 0).toNat
         let r1 := conv r0.lfsr (elem 16 [x] 0 1).toNat
         let r2 := conv r1.lfsr (elem 16 [y] 0 0).toNat
         let r3 := conv r2.lfsr (elem 16 [y] 0 1).toNat
         out.flags = r0.flags ||| r1.flags ||| r2.flags ||| r3.flags ∧ out.lfsr = r3.lfsr ∧
         ∀ k, k < 4 → elem w [out.val] 0 k = BitVec.ofNat w ([r0, r1, r2, r3].getD k r0).pat)) ∧
     (Instr.legal (.unpk o) = true →
       let out := (aluUnpk o).fn fctl false [x] l old
       (n = 1 →
         let r := convN l (elem ws [x] 0 h).toNat
         BitVec.ofNat 32 out.val = BitVec.ofNat 32 r.pat ∧ out.flags = r.flags ∧ out.lfsr = r.lfsr) ∧
       (n = 2 →
         let r0 := convN l (elem ws [x] 0 (2 * h)).toNat
         let r1 := convN r0.lfsr (elem ws [x] 0 (2 * h + 1)).toNat
         BitVec.ofNat 16 out.val = BitVec.ofNat 16 r0.pat ∧ BitVec.ofNat 16 (out.val >>> 16) = BitVec.ofNat 16 r1.pat ∧
         out.flags = r0.flags ||| r1.flags ∧ out.lfsr = r1.lfsr)))

/-! ## Cross-lane instructions, predicates and flags -/

/-- R205, R206: SHUF: each active lane takes the word (or pair) of the lane that the mode, the group size and its index
select; a vacant lane supplies zero. The tag is that of A under FMT 0 and RAW otherwise (R144). -/
def Obligations.Shuffle : Prop :=
  ∀ (o : Ops) (s : State) (e : Env), Instr.legal (.shuf o) = true → Passes s e (shufNeed o) o.h →
    let g := if o.x10.getLsbD 4 then 2 ^ (o.x10.toNat % 16) else 64 / 2 ^ (o.x10.toNat % 16)
    let src := fun L =>
      let b := ((Ops.srcB o .raw).read e L) % 2 ^ 32
      let base := L - L % g
      let k := L % g
      match o.sub.toNat with
      | 0 => base + b % g | 1 => base + (k + b) % g | _ => base + (k ^^^ (b % g))
    1 ≤ g ∧ g ≤ 64 ∧
    Goes (.shuf o) s e o.h.len fun e' =>
      WritesV e e' (e.p.active o.h) o.d.n.toNat (if Fmt.wide o.fmt then 2 else 1)
        (fun i L => if e.p.holds (src L) then e.p.reg (e.p.wbase + o.a.n.toNat + i) (src L) else 0)
        (if o.fmt = .raw then e.p.tag (e.p.wbase + o.a.n.toNat) else 0)

/-- R207, R208: RED under an integer operation gives every active lane, or the uniform destination, the active lanes'
values combined. R123, R208: a floating RED gives them what the butterfly leaves, each step narrowed by the mode and drawing from
the lower lane's LFSR, by RNE where that lane is vacant and the mode stochastic; then S takes lane 0's total, by the model's choice
(log entries 33 and 106). In a mode that draws nothing every lane has one and the same total. R209: the fused row sequence writes
the maximum, the exponential of each lane's difference from it and their sum. Lanes that are not active keep their words. -/
def Obligations.Reduce : Prop :=
  ∀ (o : Ops) (s : State) (e : Env), Instr.legal (.red o) = true → Passes s e (redNeed o) o.h →
    let act := e.p.active o.h
    let total := redOver o e act (laneWidth o.fmt)
    (3 ≤ o.sub.toNat → o.sub.toNat ≤ 8 → o.d.cls = .v → Goes (.red o) s e o.h.len fun e' =>
      WritesV e e' act o.d.n.toNat (if Fmt.wide o.fmt then 2 else 1) (fun i _ => wordOf (total.setWidth 64) i) 0) ∧
    (3 ≤ o.sub.toNat → o.sub.toNat ≤ 8 → o.d.cls = .s → Goes (.red o) s e o.h.len fun e' =>
      WritesS e e' o.d.n.toNat (if o.fmt = .i32 then total.signExtend 64 else total.setWidth 64)) ∧
    let c := redControl o e
    let sub := o.sub.toNat
    let out := redLanes o e sub (flEnters o e sub c act)
    (sub ≤ 2 → o.d.cls = .v → Goes (.red o) s e o.h.len fun e' =>
      WritesFl e e' act o.d.n.toNat 1 (fun _ L => BitVec.ofNat 32 (out L).1) (tagOf o.fmt) fun L => (out L).2) ∧
    (sub ≤ 2 → o.rnd ≠ .stoch → ∀ L, L < 64 → (out L).1 = (out 0).1) ∧
    (sub ≤ 2 → o.d.cls = .s → Goes (.red o) s e o.h.len fun e' =>
      (∀ n, e'.f.sreg n = if n = o.d.n.toNat then BitVec.ofNat 64 ((out 0).1 % 2 ^ 32) else e.f.sreg n) ∧
      (∀ n, e'.f.areg n = e.f.areg n) ∧ (∀ n, e'.f.hreg n = e.f.hreg n) ∧ KeepsPreds e e' ∧
      (∀ r L, L < 64 → e'.p.reg r L = e.p.reg r L) ∧ (∀ r, e'.p.tag r = e.p.tag r)) ∧
    (o.sub = 9 → o.d.cls = .v ∧
      let m := (redLanes o e 2 (flEnters o e 2 c act) 0).1
      let exps := fun L =>
        let t := opFsub .f32 c [redRead o e L, m] (Tab.get 0 e.p.lfsr L)
        let x := SfuOp.ex2.eval .f32 { c with mode := .rne } t.lfsr t.pat
        if L ∈ act then (x.pat, x.lfsr) else (flUnit o 0 c, Tab.get 0 e.p.lfsr L)
      let sum := redLanes o e 0 exps
      Goes (.red o) s e o.h.len fun e' =>
        WritesFl e e' act o.d.n.toNat 3
          (fun i L => BitVec.ofNat 32 (if i = 0 then m else if i = 1 then (exps L).1 else (sum L).1)) (tagOf .f32) fun L => (sum L).2)

/-- R210: SCAN under an integer operation gives lane L the active lanes at or below L combined, or those strictly below
L when it is exclusive; a floating SCAN gives it what the steps of R210 leave in lane L, or in the lane below it (the identity in lane
0), each step of a lane narrowed by the mode, or by RNE where the lane is vacant. -/
def Obligations.Scan : Prop :=
  ∀ (o : Ops) (s : State) (e : Env), Instr.legal (.scan o) = true → Passes s e (scanNeed o) o.h →
    let act := e.p.active o.h
    let upTo := fun L => redOver o e (act.filter fun M => if o.x10 = 0 then decide (M ≤ L) else decide (M < L)) (laneWidth o.fmt)
    (3 ≤ o.sub.toNat → Goes (.scan o) s e o.h.len fun e' =>
      WritesV e e' act o.d.n.toNat (if Fmt.wide o.fmt then 2 else 1) (fun i L => wordOf ((upTo L).setWidth 64) i) 0) ∧
    (let c := redControl o e
     let sub := o.sub.toNat
     let out := prefixes (fun L => flPair o sub (scanMode e c L)) [1, 2, 4, 8, 16, 32] (flEnters o e sub c act)
     sub ≤ 2 → Goes (.scan o) s e o.h.len fun e' =>
      WritesFl e e' act o.d.n.toNat 1
        (fun _ L => BitVec.ofNat 32 (if o.x10 = 0 then (out L).1 else if L = 0 then flUnit o sub c else (out (L - 1)).1)) (tagOf o.fmt)
        fun L => (out L).2)

/-- R211, R212, R215: VOTE, BALLOT and PCNT over the active lanes where predicate A is true. R213, R214: PLOG, PNOT and the four forms of PMOV; p0 reads true and is never written. R116, R416: FLAGR reads the flag word; FLAGC clears the flags of its mask and FLAGA sets the armed ones, both only
with an active lane. -/
def Obligations.PredicatesAndFlags : Prop :=
  (∀ (o : Ops) (s : State) (e : Env),
    let act := e.p.active o.h
    let D := o.d.n.toNat
    let hit := fun L => e.p.pred o.a.n.toNat L
    (∀ b : Bool, Passes s e (voteNeed o) o.h →
      b = (match o.sub.toNat with
        | 0 => act.any hit | 1 => act.all hit | _ => act.all hit || act.all fun L => !hit L) →
      (o.d.cls = .k → Goes (.vote o) s e o.h.len fun e' => WritesP e e' act D fun _ => b) ∧
      (o.d.cls = .s → Goes (.vote o) s e o.h.len fun e' => WritesS e e' D (if b then 1 else 0))) ∧
    (Passes s e (ballotNeed o) o.h → ∃ m : BitVec 64, (∀ j, m.getLsbD j = decide (j ∈ act ∧ hit j = true)) ∧
      (o.d.cls = .s → Goes (.ballot o) s e o.h.len fun e' => WritesS e e' D m) ∧
      (o.d.cls = .v → Goes (.ballot o) s e o.h.len fun e' => WritesV e e' act D 2 (fun i _ => wordOf m i) 0)) ∧
    (Passes s e (pcntNeed o) o.h →
      (o.d.cls = .s → Goes (.pcnt o) s e o.h.len fun e' => WritesS e e' D (b64 (act.countP hit))) ∧
      (o.d.cls = .v → Goes (.pcnt o) s e o.h.len fun e' =>
        WritesV e e' act D 1 (fun _ L => b32 (act.countP fun M => hit M && (o.sub == 0 || decide (M < L)))) 0))) ∧
  (∀ (o : Ops) (s : State) (e : Env),
    let act := e.p.active o.h
    let D := o.d.n.toNat
    let A := fun L => e.p.pred o.a.n.toNat L
    (Passes s e (plogNeed o) o.h → Goes (.plog o) s e o.h.len fun e' => WritesP e e' act D fun L =>
      let a := A L != o.x10.getLsbD 4
      let q := e.p.pred (o.x10.toNat % 16) L != o.x10.getLsbD 5
      match o.sub.toNat with | 0 => a && q | 1 => a || q | 2 => a ^^ q | _ => a && !q) ∧
    (Passes s e (pnotNeed o) o.h → Goes (.pnot o) s e o.h.len fun e' => WritesP e e' act D fun L => !A L) ∧
    (Passes s e (pmovNeed o) o.h →
      (o.sub = 0 → Goes (.pmov o) s e o.h.len fun e' => WritesP e e' act D A) ∧
      (o.sub = 1 → Goes (.pmov o) s e o.h.len fun e' => ∃ w : Nat → W32,
        (∀ L n, (w L).getLsbD n = (decide (n < 16) && e.p.pred n L)) ∧ WritesV e e' act D 1 (fun _ L => w L) 0) ∧
      (o.sub = 2 → Goes (.pmov o) s e o.h.len fun e' =>
        WritesP e e' act D fun L => (b32 (e.p.readV o.a.n.toNat L)).getLsbD o.x10.toNat) ∧
      (3 ≤ o.sub.toNat → Goes (.pmov o) s e o.h.len fun e' => KeepsFrame e e' ∧ KeepsVarying e e' ∧ e'.t.flags = e.t.flags ∧
        ∀ n L, e'.p.pred n L = if L ∈ act ∧ 1 ≤ n ∧ n < 16 then (b32 (e.p.readV o.a.n.toNat L)).getLsbD n else e.p.pred n L)) ∧
    (∀ L, e.p.pred 0 L = true)) ∧
  (∀ (o : Ops) (s : State) (e : Env),
    let act := e.p.active o.h
    let word := e.t.flags.toNat + 256 * e.t.arm.toNat
    let mask : BitVec 6 := (match o.b with | .imm i => Imm.sext i | .reg r => e.f.sreg r.n.toNat).setWidth 6
    (Passes s e (flagrNeed o) o.h →
      (o.d.cls = .s → Goes (.flagr o) s e o.h.len fun e' => WritesS e e' o.d.n.toNat (b64 word)) ∧
      (o.d.cls = .v → Goes (.flagr o) s e o.h.len fun e' => WritesV e e' act o.d.n.toNat 1 (fun _ _ => b32 word) 0)) ∧
    (Passes s e (flagmNeed o) o.h →
      (∃ t e', exec (.flagc o) s = .next t ∧ curEnv t = some e' ∧ OnlyPosy s t e ∧ e'.p.pc = nextPc e o.h.len ∧
        KeepsFrame e e' ∧ KeepsVarying e e' ∧ KeepsPreds e e' ∧ e'.t.arm = e.t.arm ∧
        e'.t.flags = if act = [] then e.t.flags else e.t.flags &&& ~~~(mask &&& ~~~e.t.flagsNew)) ∧
      (∃ t e', exec (.flaga o) s = .next t ∧ curEnv t = some e' ∧ OnlyPosy s t e ∧ e'.p.pc = nextPc e o.h.len ∧
        KeepsFrame e e' ∧ KeepsVarying e e' ∧ KeepsPreds e e' ∧ e'.t.flags = e.t.flags ∧
        e'.t.arm = if act = [] then e.t.arm else mask)))


/-! ## Control -/

/-- R169, R170, R172, R179: NOP changes nothing, JMP goes to its target, BRA goes there when s[A] is nonzero (SUB 0) or
zero (SUB 1) and on otherwise; none of them splits the posy or writes a register. -/
def Obligations.PlainJumps : Prop :=
  ∀ (o : Ops) (s : State) (e : Env),
    (Passes s e {} o.h → Jumps (.nop o) s e (nextPc e o.h.len)) ∧
    (Passes s e (jmpNeed o) o.h →
      (∀ i, o.b = .imm i → Jumps (.jmp o) s e (branchTo e i)) ∧
      (∀ b, o.b = .reg b → GoodTarget (e.f.sreg b.n.toNat) → Jumps (.jmp o) s e (e.f.sreg b.n.toNat).toNat) ∧
      (∀ b, o.b = .reg b → ¬GoodTarget (e.f.sreg b.n.toNat) → Traps (.jmp o) s e .illegalSpan (e.p.active o.h))) ∧
    (Passes s e { type := o.a.cls == .s, regs := [opdUse o.a 1 1 false] } o.h → ∀ i, o.b = .imm i → o.sub.toNat ≤ 1 →
      Jumps (.bra o) s e (if (if o.sub = 0 then e.f.sreg o.a.n.toNat ≠ 0 else e.f.sreg o.a.n.toNat = 0) then branchTo e i else nextPc e o.h.len))

/-- R40 to R43, R171, R172, R487: BR sends the fibres whose guard is true to its target (group 0) and the others on (group
1); BR4 sends each fibre with its first true pair, or on (group 4). The window base stays. A BR whose records (one of the
group that leaves, and the frame's if it has none) would pass the limit of the spawn segment traps SEG; one that fits waits
while a destination of a leaving fibre is pending (R68). The model's choices: groups of one destination are one, under the
lowest index, also where BR's target is the next instruction (log entries 30 and 102), the SEG test comes before the wait (log
entry 31), and BR's SEG trap records all present lanes (log entry 21). -/
def Obligations.Branches : Prop :=
  ((∀ (o : Ops) (s : State) (e : Env) (i : Imm), o.b = .imm i →
    Passes s e { ban := true, regs := [guardUse o.h] } (plainHdr o.h) →
    Diverges (.br o) s e
      { dest := fun L => if e.p.guard o.h.gp o.h.gn L then branchTo e i else nextPc e o.h.len, wb := fun _ => e.p.wbase
        key := fun L => if e.p.guard o.h.gp o.h.gn L then 0 else 1 }) ∧
  (∀ (o : Br4Ops) (s : State) (e : Env),
    Passes s e { ban := true, regs := (List.range 4).map fun i => { sp := .p, n := (br4Pred o i).toNat } } { len := .w4, y := o.y } →
    let disp := fun i => (BitVec.ofNat 64 e.p.pc + 4 * (o.disp.extractLsb' (16 * i) 16).signExtend 64).toNat
    let hit := fun (p : BitVec 4) (i L : Nat) => e.p.pred p.toNat L ^^ o.neg.getLsbD i
    Diverges (.br4 o) s e
      { dest := fun L => if hit o.p0 0 L then disp 0 else if hit o.p1 1 L then disp 1 else if hit o.p2 2 L then disp 2
          else if hit o.p3 3 L then disp 3 else e.p.pc + 16
        wb := fun _ => e.p.wbase
        key := fun L => if hit o.p0 0 L then 0 else if hit o.p1 1 L then 1 else if hit o.p2 2 L then 2 else if hit o.p3 3 L then 3 else 4 })) ∧
  (∀ (o : Ops) (s : State) (e : Env) (i : Imm), o.b = .imm i →
    Passes s e { ban := true, regs := [guardUse o.h] } (plainHdr o.h) →
    let yes := e.p.present.countP (e.p.guard o.h.gp o.h.gn)
    let no := e.p.present.length - yes
    let need := recBytes (min yes no) e.p.alloc + (if e.f.spawned then 0 else 768)
    yes ≠ 0 → no ≠ 0 → branchTo e i ≠ nextPc e o.h.len →
    (e.t.spn.limit < e.t.spawnUsed + need → Traps (.br o) s e .seg e.p.present) ∧
    (e.t.spawnUsed + need ≤ e.t.spn.limit →
      fibPending s e (e.p.present.filter fun L => e.p.guard o.h.gp o.h.gn L == decide (yes < no)) = true → exec (.br o) s = .next s))

/-- R173, R174: CALL and CALLI put the link of every present lane below the slid window; RET takes each fibre back through
its own link, the groups ordered by their lowest lane; a bad link traps, and no fibre moves. The order of CALL's checks is
log entry 44, RET's wait for its link registers log entry 87, and its wait behind the SEG test log entry 31. -/
def Obligations.CallsAndReturns : Prop :=
  ∀ (o : Ops) (s : State) (e : Env),
    (∀ i, o.b = .imm i → Instr.legal (.call o) = true →
      Passes s e { regs := [linkRegs o], regOk := slideFits o } o.h →
      Calls (.call o) s e o.h.len o.d.n.toNat (branchTo e i)) ∧
    (Instr.legal (.calli o) = true →
      Passes s e { type := o.a.cls == .s, regs := [linkRegs o, opdUse o.a 1 1 false], regOk := slideFits o } o.h →
      (GoodTarget (e.f.sreg o.a.n.toNat) → Calls (.calli o) s e o.h.len o.d.n.toNat (e.f.sreg o.a.n.toNat).toNat) ∧
      (¬GoodTarget (e.f.sreg o.a.n.toNat) → Traps (.calli o) s e .illegalSpan (e.p.active o.h))) ∧
    (Passes s e { regOk := fun e => decide (2 ≤ e.p.wbase), ban := true } o.h → lowPends e (e.p.wbase - 2) 2 = false →
      let lo := fun L => (e.p.reg (e.p.wbase - 2) L)
      let hi := fun L => (e.p.reg (e.p.wbase - 1) L)
      let c := fun L => ((hi L).extractLsb' 20 8).toNat
      let target := fun L => (((hi L).extractLsb' 0 20) ++ lo L).toNat
      let badReg := fun L => (hi L).extractLsb' 28 4 ≠ 0 ∨ c L % 2 = 1 ∨ c L < 2 ∨ e.p.wbase < c L
      ((∀ L ∈ e.p.present, ¬badReg L ∧ target L % 4 = 0) → Diverges (.ret o) s e { dest := target, wb := fun L => e.p.wbase - c L, key := id }) ∧
      (∀ L ∈ e.p.present, (∀ M ∈ e.p.present, M < L → ¬badReg M ∧ target M % 4 = 0) →
        (badReg L → Traps (.ret o) s e .illegalReg (e.p.active o.h)) ∧
        (¬badReg L → target L % 4 ≠ 0 → Traps (.ret o) s e .illegalSpan (e.p.active o.h))))

/-- R51 to R53, R57, R175: an arrival in a launch slot at a join without a holder opens an instance, takes the deadline
of JOINW's bound (or of a frame wider than a posy), and waits there as its holder; an arrival where a holder waits gives
its fibres to the holder's vacant lanes, writes the rest out as a waiting record, and gives its slot back; with four other
joins open a join does nothing; a waiting holder does not move. A holder of another window base or allocation takes none of
the fibres (log entry 48); a JOINW's bound is at most 65,536 in a frame of more than 64 fibres (log entry 113). -/
def Obligations.Joins : Prop :=
  ∀ (o : Ops) (s : State) (e : Env) (i : Instr) (bound : Option Nat),
    (i = .join o ∧ bound = none ∧ Passes s e { ban := true } o.h) ∨
    (i = .joinw o ∧ bound = some ((min (max (match o.b with | .imm m => Imm.sext m | .reg b => e.f.sreg b.n.toNat).toInt 0) 4294967295).toNat) ∧
      Passes s e { jmpNeed o with ban := true } o.h) →
    let mine := fun k => (e.f.join k).map (·.pc) = some e.p.pc
    let limit := if 64 < e.f.refs then some (match bound with | some b => min b 65536 | none => 65536) else bound
    (e.p.joining = true → exec i s = .next s) ∧
    (e.p.joining = false → (∀ k, k < 4 → ¬mine k ∧ e.f.join k ≠ none) → Jumps i s e (nextPc e o.h.len)) ∧
    (e.p.joining = false → e.slot < 22 → (∀ k, k < 4 → ¬mine k) → (∃ k, k < 4 ∧ e.f.join k = none) →
      ∃ t p' tm f' k j, exec i s = .next t ∧ t.posy e.key = some p' ∧ p'.joining = true ∧ p'.pc = e.p.pc ∧
        t.team e.p.team = some tm ∧ tm.frame e.p.frame = some f' ∧ k < 4 ∧ e.f.join k = none ∧ f'.join k = some j ∧
        j.pc = e.p.pc ∧ j.open_ = true ∧ j.holder = some e.slot ∧ j.next = nextPc e o.h.len ∧ j.passed = 0 ∧
        j.deadline = limit.map (fun b => s.time + (b + 1) / 2) ∧ j.bounded = limit.isSome ∧
        (∀ n, f'.sreg n = e.f.sreg n) ∧ f'.refs = e.f.refs ∧ KeepsMemory s t e.p.team) ∧
    (∀ k j h hp, e.p.joining = false → k < 4 → e.f.join k = some j → j.pc = e.p.pc → j.open_ = true → j.holder = some h → h ≠ e.slot →
      h < 24 → s.posy (posyKey e.core h) = some hp →
      (∀ d, j.deadline = some d → s.time ≤ d) → (∀ k', k' < 4 → k' ≠ k → ¬mine k') →
      (fibPending s e e.p.present = true → exec i s = .next s) ∧
      (fibPending s e e.p.present = false → ∃ t hp', exec i s = .next t ∧ t.posy e.key = none ∧ KeepsMemory s t e.p.team ∧
        t.posy (posyKey e.core h) = some hp' ∧ hp'.pc = hp.pc ∧ hp'.joining = hp.joining ∧
        let fit := hp.wbase = e.p.wbase ∧ hp.alloc = e.p.alloc
        let n := hp.present.length + e.p.present.length
        (fit → hp'.present.length = min 64 n) ∧ (¬fit → hp'.present = hp.present) ∧
        (e.p.present ≠ [] → ¬fit ∨ 64 < n → ∃ tm id r, t.team e.p.team = some tm ∧ Tab.get none tm.recs id = some r ∧ r.kind = .waiting ∧ r.pc = e.p.pc ∧
          r.frame = e.p.frame ∧ r.wbase = e.p.wbase ∧ r.seq = (s.core e.t.core).seq ∧
          (fit → r.fibres.length = n - 64) ∧ (¬fit → r.fibres.length = e.p.present.length))))

/-- R59, R60, R176: FORK makes a child frame that copies the parent's registers but for s[D], which holds the first
child's index, and c pending fibres at the child entry, and the posy goes on; a bad count traps XBLOCK and a full spawn
segment SEG. -/
def Obligations.Forks : Prop :=
  ∀ (o : Ops) (s : State) (e : Env) (i : Imm), o.b = .imm i →
    Passes s e { type := o.d.cls == .s && o.a.cls == .s
                 regs := [opdUse o.d 1 1 true, opdUse o.a 1 1 false, { sp := .s, n := 0, count := 32 }], full := true, ban := true } o.h →
    let c := (e.f.sreg o.a.n.toNat).toNat
    let sizes := (List.range ((c + 63) / 64)).map fun k => recBytes (min 64 (c - 64 * k)) e.p.alloc
    let bad := c = 0 ∨ 1024 < c ∨ 1024 < e.t.liveFibres + c ∨ 65535 < e.t.nextFid + c
    (bad → Traps (.fork o) s e .xblock e.p.present) ∧
    (¬bad → e.t.spn.limit < e.t.spawnUsed + (768 + sizes.sum) → Traps (.fork o) s e .seg e.p.present) ∧
    (¬bad → e.t.spawnUsed + (768 + sizes.sum) ≤ e.t.spn.limit → ∃ t tm p' id f', exec (.fork o) s = .next t ∧
      t.team e.p.team = some tm ∧ t.posy e.key = some p' ∧ p'.pc = nextPc e o.h.len ∧ p'.lanes = e.p.lanes ∧
      tm.nextFid = e.t.nextFid + c ∧ tm.frame id = some f' ∧ f'.refs = c ∧ f'.parent = some e.p.frame ∧
      (∀ n, f'.sreg n = if n = o.d.n.toNat then b64 e.t.nextFid else e.f.sreg n) ∧
      (∀ n, f'.areg n = e.f.areg n) ∧ (∀ n, f'.hreg n = e.f.hreg n) ∧
      (∀ f, e.t.nextFid ≤ f → f < e.t.nextFid + c → ∃ k r, Tab.get none tm.recs k = some r ∧ r.pc = branchTo e i ∧
        r.frame = id ∧ r.wbase = e.p.wbase ∧ r.kind = .pending ∧ f ∈ r.fibres.map (·.fid)) ∧
      KeepsMemory s t e.p.team)

/-- R61, R177, R178: EXIT ends the active fibres: their lanes become vacant, the frame's count falls (the frame is freed
at zero), and an empty posy leaves its slot; TRAP and BRK take their traps. With no active lane each does nothing. -/
def Obligations.ExitTrapBreak : Prop :=
  ∀ (o : Ops) (s : State) (e : Env),
    let act := e.p.active o.h
    (Passes s e { ban := true } o.h →
      (act = [] → Jumps (.exit o) s e (nextPc e o.h.len)) ∧
      (act ≠ [] → ∃ t tm, exec (.exit o) s = .next t ∧ t.team e.p.team = some tm ∧ KeepsMemory s t e.p.team ∧
        (e.f.refs ≤ act.length → tm.frame e.p.frame = none) ∧
        (act.length < e.f.refs → ∃ f', tm.frame e.p.frame = some f' ∧ f'.refs = e.f.refs - act.length ∧ ∀ n, f'.sreg n = e.f.sreg n) ∧
        ((∀ L ∈ e.p.present, L ∈ act) → t.posy e.key = none) ∧
        ((∃ L ∈ e.p.present, L ∉ act) → ∃ p', t.posy e.key = some p' ∧ p'.pc = nextPc e o.h.len ∧
          (∀ L, L < 64 → (p'.holds L = true ↔ e.p.holds L = true ∧ L ∉ act)) ∧
          ∀ L ∈ p'.present, p'.fid L = e.p.fid L ∧ ∀ r, p'.reg r L = e.p.reg r L))) ∧
    (Passes s e {} o.h →
      (act = [] → Jumps (.trap o) s e (nextPc e o.h.len) ∧ Jumps (.brk o) s e (nextPc e o.h.len)) ∧
      (act ≠ [] → exec (.trap o) s = .next (takeTrap s e .swtrap act o.x10.toNat) ∧
        exec (.brk o) s = .next (takeTrap s e .break_ act 0)))

/-- R181: XACQ appends n zero registers with tag RAW once the bay can give them and nobody waits before it; otherwise it
waits; XREL gives the top n back. Either traps XBLOCK outside its limits. -/
def Obligations.RegisterBlocks : Prop :=
  ∀ (o : Ops) (v : BitVec 18) (s : State) (e : Env), Passes s e {} o.h → o.b = .imm (.i18 v) → 0 < v.toInt →
    let n := v.toInt.toNat
    let mine := e.p.xseq.getD (s.core e.core).xseq
    let fits := n + (if e.slot < 22 then bayReserve s e.core (e.slot % 4) else 0) ≤ bayFree s e.core (e.slot % 4)
    (256 < e.p.alloc + n → Traps (.xacq o) s e .xblock (e.p.active o.h)) ∧
    (e.p.alloc + n ≤ 256 → fits → earlierXacq s e mine = false → ∃ t p', exec (.xacq o) s = .next t ∧ t.posy e.key = some p' ∧
      p'.pc = nextPc e o.h.len ∧ p'.alloc = e.p.alloc + n ∧ p'.wbase = e.p.wbase ∧
      (∀ r L, L < 64 → p'.reg r L = if r < e.p.alloc then e.p.reg r L else 0) ∧ (∀ r, p'.tag r = if r < e.p.alloc then e.p.tag r else 0) ∧ p'.lanes = e.p.lanes ∧ OnlyPosy s t e) ∧
    (e.p.alloc + n ≤ 256 → ¬fits ∨ earlierXacq s e mine = true → ∃ t p', exec (.xacq o) s = .next t ∧ t.posy e.key = some p' ∧
      p'.pc = e.p.pc ∧ p'.alloc = e.p.alloc ∧ p'.xseq = some mine ∧ p'.blocked.isSome = true) ∧
    (e.p.alloc ≤ n + e.p.wbase ∨ e.p.alloc < n + 8 → Traps (.xrel o) s e .xblock (e.p.active o.h)) ∧
    (n + e.p.wbase < e.p.alloc → n + 8 ≤ e.p.alloc → topPends s e n = true → exec (.xrel o) s = .next s) ∧
    (n + e.p.wbase < e.p.alloc → n + 8 ≤ e.p.alloc → topPends s e n = false → ∃ t p', exec (.xrel o) s = .next t ∧
      t.posy e.key = some p' ∧ p'.pc = nextPc e o.h.len ∧ p'.alloc = e.p.alloc - n ∧
      (∀ r L, L < 64 → p'.reg r L = if r < e.p.alloc - n then e.p.reg r L else 0) ∧
      (∀ r, p'.tag r = if r < e.p.alloc - n then e.p.tag r else 0) ∧ p'.lanes = e.p.lanes ∧ OnlyPosy s t e)

/-- R95, R97, R102, R180: one issue of REP runs one repeat of its body, with the stepped registers: a repeat that completes
leaves the PC at the REP with the next repeat pending, the last one goes on behind the body; before repeat 0 the registers of
every repeat are checked. The model's choice (log entry 21): the trap of that check is taken with REPK 0 pending and the
lanes of the body's guard. -/
def Obligations.Repeats : Prop :=
  ∀ (o : RepOps) (s : State) (e : Env) (i : Instr), curEnv s = some e →
    let k := e.p.rep.getD 0
    let s0 := s.setPosy e.key (some { e.p with rep := some k })
    Body.instr (repBody o k) = some i →
    (k = 0 → (bodyNeed i).type = true → repInRange o e = false →
      exec (.rep o) s = .next (takeTrap s { e with p := { e.p with rep := some k } } .illegalReg (e.p.active (Body.hdr o.body)) 0)) ∧
    ((k = 0 → (bodyNeed i).type = true → repInRange o e = true) →
      ∃ s1 t, exec i s0 = .next s1 ∧ exec (.rep o) s = .next t ∧ t.mem = s1.mem ∧ t.teams = s1.teams ∧
        (∀ j, j ≠ e.key → t.posy j = s1.posy j) ∧
        ∀ p1, s1.posy e.key = some p1 → t.posy e.key = some
          (if p1.pc = e.p.pc then { p1 with rep := e.p.rep }
           else if k < o.cnt.toNat then { p1 with pc := e.p.pc, rep := some (k + 1) }
           else { p1 with pc := e.p.pc + 8 + 4 * Len.words (Body.hdr o.body).len, rep := none })) ∧
    (∀ a, laneAlu i = some a → Passes s e a.need a.h → (k = 0 → repInRange o e = true) →
      ∃ t e', exec (.rep o) s = .next t ∧ curEnv t = some e' ∧ OnlyPosy s t e ∧ LaneWrites a e e' (e.p.active a.h) ∧
        (k < o.cnt.toNat → e'.p.pc = e.p.pc ∧ e'.p.rep = some (k + 1)) ∧
        (o.cnt.toNat ≤ k → e'.p.pc = e.p.pc + 8 + 4 * Len.words (Body.hdr o.body).len ∧ e'.p.rep = none))

/-! ## Memory instructions -/

/-- R225, R226, R244: an access that the segment does not let pass traps SEG for its instruction, a misaligned one traps ALIGN,
and SEG goes first; nothing is sent. -/
def Obligations.AccessChecks : Prop :=
  ∀ (i : Instr) (o : MemOps) (n : Need) (k : AccKind) (s : State) (e : Env), memAccess i = some (o, n, k) → Passes s e n o.h →
    let act := e.p.active o.h
    (¬AllAdmitted e o k act → Traps i s e .seg act) ∧
    (AllAdmitted e o k act → ¬Clear e o k act → Traps i s e .align act)

/-- R246, R247, R363: LD sends requests for exactly the bytes of each active lane, and its destination waits for them; with
no active lane it sends nothing and sets the tags. -/
def Obligations.Loads : Prop :=
  ∀ (o : MemOps) (s : State) (e : Env), Instr.legal (.ld o) = true → Passes s e (ldNeed o) o.h →
    let act := e.p.active o.h
    let size := 2 ^ o.sub.toNat
    let n := if size ≤ 4 then 1 else size / 4
    let a := address e o true
    (act = [] → o.d.cls = .v → Goes (.ld o) s e o.h.len fun e' => WritesV e e' [] o.d.n.toNat n (fun _ _ => 0) (tagOf o.fmt)) ∧
    (act = [] → o.d.cls = .s → Goes (.ld o) s e o.h.len fun e' => Same e e') ∧
    (act ≠ [] → Clear e o { size := size, r := true, align := if o.ord = .plain then 1 else size } act →
      Sends (.ld o) s e o.h.len fun e' rs ls => e'.t.flags = e.t.flags ∧
        (∀ r ∈ rs, r.kind = .load ∧ Marked o r) ∧ InLines rs ∧ (∀ L ∈ act, Covers rs L (a L) size) ∧
        ∃ l, ls = [l] ∧ l.kind = .plain size o.fmt ∧ LoadFor e o l n (if o.d.cls = .s then act.take 1 else act) a ∧
          ∀ x ∈ l.lanes, ∀ r ∈ rs, (r.sub ∈ x.subs ↔ x.lane ∈ r.lanes))

/-- R248, R249: ST sends the bytes that each active lane stores to that lane's address; where all lanes have one address, the
highest active lane's bytes. -/
def Obligations.Stores : Prop :=
  ∀ (o : MemOps) (s : State) (e : Env), Instr.legal (.st o) = true → Passes s e (stNeed o) o.h →
    let act := e.p.active o.h
    let size := 2 ^ o.sub.toNat
    let a := address e o true
    (act = [] → Jumps (.st o) s e (nextPc e o.h.len)) ∧
    (act ≠ [] → Clear e o { size := size, w := true, align := if o.ord = .plain then 1 else size } act →
      Sends (.st o) s e o.h.len fun e' rs ls => ls = [] ∧ e'.t.flags = e.t.flags ∧
        (∀ r ∈ rs, r.kind = .store ∧ Marked o r) ∧ InLines rs ∧ (∀ L ∈ act, Covers rs L (a L) size) ∧
        ∀ r ∈ rs, ∀ L, (if o.a.cls = .s then act.getLast? = some L else r.lanes = [L]) →
          r.data = (List.range r.size).map fun k => (r.addr + k, dataByte e o L (r.addr + k - a L)))

/-- R252, R253: LDSX reads the header of each active lane's block and the groups that its elements lie in; STSX writes one
whole block for each run of lanes that has an active one, after its own SEG and ALIGN checks. -/
def Obligations.BlockAccesses : Prop :=
  ∀ (o : MemOps) (s : State) (e : Env),
    let act := e.p.active o.h
    let m := sxOf o.sub
    let c := sxCount o
    let n := c * (if o.fmt = .f32 then 1 else 2)
    (Instr.legal (.ldsx o) = true → Passes s e (ldsxNeed o) o.h →
      let a := address e o true
      let first := fun L => Src.read e { b := o.b, use := .raw, check := false } L % 256
      (act = [] → Goes (.ldsx o) s e o.h.len fun e' => WritesV e e' [] o.d.n.toNat c (fun _ _ => 0) (tagOf o.fmt)) ∧
      (act ≠ [] → Clear e o { size := SxFmt.blockBytes m, r := true, align := 8 } act →
        Sends (.ldsx o) s e o.h.len fun e' rs ls => e'.t.flags = e.t.flags ∧ (∀ r ∈ rs, r.kind = .load) ∧ InLines rs ∧
          (∀ L ∈ act, ∀ b, (∃ r ∈ rs, L ∈ r.lanes ∧ r.addr ≤ b ∧ b < r.addr + r.size) ↔
            (a L ≤ b ∧ b < a L + 8) ∨ ∃ j, j < n ∧
              let g := a L + 8 + (first L + j) % 256 / 16 * sxGroupBytes m
              g ≤ b ∧ b < g + sxGroupBytes m) ∧
          ∃ l, ls = [l] ∧ LoadFor e o l c act a ∧ ∀ x ∈ l.lanes, x.idx = first x.lane)) ∧
    (Instr.legal (.stsx o) = true → Passes s e (stsxNeed o) o.h →
      let size := SxFmt.blockBytes m
      let g := 256 / n
      let seg := e.t.seg o.seg
      let off := fun (k : Nat) => offset e o false 0 + (k * size : Nat)
      let at_ := fun k => seg.addr + (off k).toNat
      let ok := fun k => Admits seg (off k) { size := size, w := true }
      (act = [] → Jumps (.stsx o) s e (nextPc e o.h.len)) ∧
      ((∃ L ∈ act, ¬ok (L / g)) → Traps (.stsx o) s e .seg act) ∧
      ((∀ L ∈ act, ok (L / g)) → (∃ L ∈ act, at_ (L / g) % 8 ≠ 0) → Traps (.stsx o) s e .align act) ∧
      (act ≠ [] → (∀ L ∈ act, ok (L / g) ∧ at_ (L / g) % 8 = 0) →
        Sends (.stsx o) s e o.h.len fun _ rs ls => ls = [] ∧ (∀ r ∈ rs, r.kind = .store ∧ r.data.map (·.1) = (List.range r.size).map (r.addr + ·)) ∧
          InLines rs ∧ ∀ L ∈ act, Covers rs L (at_ (L / g)) size))

/-- R254 to R257: ATOM and ACC send one request for each location, with the operands of the lanes that name it in lane order; ATOM
with a uniform destination performs once, for its first lane; with no active lane they send nothing, and ATOM sets its tag. An ACC with uniform address and operand
contributes once for each active lane by the model's choice (log entry 49). -/
def Obligations.Atomics : Prop :=
  ∀ (o : MemOps) (s : State) (e : Env),
    let act := e.p.active o.h
    let a := address e o true
    (Instr.legal (.atom o) = true → Passes s e (atomNeed o) o.h → act = [] → o.x10 ≠ 1 → o.d.cls = .v →
      Goes (.atom o) s e o.h.len fun e' => WritesV e e' [] o.d.n.toNat (if Fmt.wide o.fmt then 2 else 1) (fun _ _ => 0) (atomTag o.fmt)) ∧
    (Instr.legal (.atom o) = true → Passes s e (atomNeed o) o.h → act = [] → o.x10 = 1 ∨ o.d.cls = .s → Jumps (.atom o) s e (nextPc e o.h.len)) ∧
    (Instr.legal (.acc o) = true → Passes s e (accNeed o) o.h → act = [] → Jumps (.acc o) s e (nextPc e o.h.len)) ∧
    (Instr.legal (.atom o) = true → Passes s e (atomNeed o) o.h → act ≠ [] →
      let size := if Fmt.wide o.fmt then 8 else 4
      let n := if Fmt.wide o.fmt then 2 else 1
      let uniform := o.x10 ≠ 1 ∧ o.d.cls = .s
      let op := fun L => ({ lane := L, x := atomOperand e o L, expected := if o.sub = 10 then atomExpected e o L else 0 } : AtomOp)
      Clear e o { size := size, r := true, w := true, align := size } act →
      Sends (.atom o) s e o.h.len fun e' rs ls => e'.t.flags = e.t.flags ∧
        (∀ r ∈ rs, r.kind = .atomic ∧ r.op = o.sub ∧ r.fmt = o.fmt ∧ r.size = size ∧ Marked o r) ∧ (rs.map (·.addr)).Nodup ∧
        (∀ L ∈ act, ∃ r ∈ rs, r.addr = a L) ∧
        (∀ r ∈ rs, if uniform then r.lanes = act ∧ r.opnds = (act.take 1).map op
          else r.lanes = act.filter (fun L => a L == r.addr) ∧ r.opnds = r.lanes.map op) ∧
        (o.x10 = 1 → ls = []) ∧
        (o.x10 ≠ 1 → ∃ l, ls = [l] ∧ l.kind = .atom o.fmt ∧ LoadFor e o l n (if uniform then act.take 1 else act) a)) ∧
    (Instr.legal (.acc o) = true → Passes s e (accNeed o) o.h → act ≠ [] →
      Clear e o { size := 4, r := true, w := true, align := 4 } act →
      Sends (.acc o) s e o.h.len fun e' rs ls => ls = [] ∧ e'.t.flags = e.t.flags ∧
        (∀ r ∈ rs, r.kind = .acc ∧ r.fmt = .f32 ∧ r.size = 4 ∧ Marked o r) ∧ (rs.map (·.addr)).Nodup ∧
        (∀ L ∈ act, ∃ r ∈ rs, r.addr = a L) ∧
        ∀ r ∈ rs, r.lanes = act.filter (fun L => a L == r.addr) ∧
          r.opnds = r.lanes.map fun L => { lane := L, x := atomOperand e o L })

/-- R258 to R262: FENCE puts its request into the queue, waits while it stands there, and goes on when it is gone; PREF changes
no register, no byte and no team; DRAIN, BFREE and BREG send one request, BREG after its own checks. -/
def Obligations.FencesAndRegions : Prop :=
  (∀ (o : Ops) (s : State) (e : Env), Passes s e {} o.h →
    (e.p.phase = true → (∀ r ∈ e.t.reqs, r.kind = .fence → ∀ L ∈ e.p.present, e.p.fid L ∉ r.fids) → Jumps (.fence o) s e (nextPc e o.h.len)) ∧
    (e.p.phase = true → (∃ r ∈ e.t.reqs, r.kind = .fence ∧ ∃ L ∈ e.p.present, e.p.fid L ∈ r.fids) → Waits (.fence o) s e) ∧
    (e.p.phase = false → ∃ t p' tm r, exec (.fence o) s = .next t ∧ t.posy e.key = some p' ∧ p' = { e.p with blocked := p'.blocked, phase := true } ∧
      t.team e.p.team = some tm ∧ tm.reqs = e.t.reqs ++ [r] ∧ r.kind = .fence ∧ r.fids = (e.p.active o.h).map e.p.fid ∧ r.width = .sys ∧ OnlyPosy s t e)) ∧
  (∀ (o : MemOps) (s : State) (e : Env), Passes s e { type := o.a.cls != .k, regs := [addrUse o.a], priv := segPriv o.seg } o.h →
    ∃ t e', exec (.pref o) s = .next t ∧ curEnv t = some e' ∧ e'.p.pc = nextPc e o.h.len ∧ Same e e' ∧ t.mem = s.mem ∧
      (∀ k, k ≠ e.key → t.posy k = s.posy k) ∧ ∀ i, i ≠ e.p.team → t.team i = s.team i) ∧
  (∀ (i : Instr) (o : MemOps) (k : ReqKind) (s : State) (e : Env), (i = .drain o ∧ k = .drain) ∨ (i = .bfree o ∧ k = .bfree) →
    Passes s e (regionNeed o) o.h →
    let act := e.p.active o.h
    (act = [] → Jumps i s e (nextPc e o.h.len)) ∧
    (∀ L ∈ act, Clear e o { size := 1, r := true, w := true, dhi := false } act → Sends i s e o.h.len fun e' rs ls =>
      ls = [] ∧ e'.t.flags = e.t.flags ∧ ∃ r, rs = [r] ∧ r.kind = k ∧ r.addr = address e o false L ∧ r.fids = act.map e.p.fid)) ∧
  (∀ (o : MemOps) (b : Opd) (s : State) (e : Env), Passes s e (bregNeed o) o.h → o.b = .reg b →
    let act := e.p.active o.h
    let size := (e.f.sreg b.n.toNat).toNat
    let ok := Admits (e.t.seg o.seg) (offset e o false 0) { size := size, r := true, w := true }
    let shaped := address e o false 0 % 128 = 0 ∧ size ≠ 0 ∧ size % 128 = 0 ∧ size ≤ 2 ^ 34
    (act = [] → Jumps (.breg o) s e (nextPc e o.h.len)) ∧
    (act ≠ [] → ¬ok → Traps (.breg o) s e .seg act) ∧ (act ≠ [] → ok → ¬shaped → Traps (.breg o) s e .align act) ∧
    (act ≠ [] → ok → shaped → Sends (.breg o) s e o.h.len fun e' rs ls => e'.t.flags = e.t.flags ∧
      (∃ r, rs = [r] ∧ r.kind = .breg ∧ r.addr = address e o false 0 ∧ r.size = size) ∧
      (if o.d = {} then ls = [] else ∃ l, ls = [l] ∧ l.kind = .verdict ∧ l.dst = o.d.n.toNat ∧ l.lanes.map (·.lane) = act)))

/-! ## Copies and handles -/

/-- R263, R264: CPY and CPY2D check their rows in this order: nothing to move (status 1), SEG, the landing counter's SEG and ALIGN,
too many bytes (5), an overlap (4); else the command is queued with a pending handle and moves every byte to its place. R263, R264, R266: PUT: nothing to move, SEG on the source, ALIGN on the counter, more than 512 KiB (status 5), a source in
the issuer's own scratch that meets its destination there (4); else the command is queued with its target place, team index
and scratch offset. The order of the checks inside one step of R264 is log entry 45, the target's form log entry 40. -/
def Obligations.Copies : Prop :=
  (∀ (i : Instr) (o : CpyOps) (two : Bool) (s : State) (e : Env), (i = .cpy o ∧ two = false) ∨ (i = .cpy2d o ∧ two = true) →
    Passes s e (cpyNeed o (if two then 4 else 1)) o.h →
    let S := fun n => (e.f.sreg n).toNat
    let C := o.c.n.toNat
    let g : Shape := ⟨S C, if two then S (C + 1) else 1, fun k => S o.a.n.toNat + (if two then k * S (C + 2) else 0),
      fun k => S o.b.n.toNat + (if two then k * S (C + 3) else 0)⟩
    let ss := e.t.seg o.sseg
    let ds := e.t.seg o.dseg
    let h := o.d.n.toNat - 16
    let act := e.p.active o.h
    let lc := o.lcoff.toNat
    let moves := g.rb ≠ 0 ∧ g.rows ≠ 0
    let inside := g.inside g.src ss true false ∧ g.inside g.dst ds false true
    let clash := (o.sseg = .scr ↔ o.dseg = .scr) ∧ g.overlap ss.addr ds.addr
    (¬moves → OverAtOnce i s e o.h.len h .copy 1) ∧
    (moves → ¬inside → Traps i s e .seg act) ∧
    (moves → inside → o.lc = true → e.t.scr.limit < lc + 8 → Traps i s e .seg act) ∧
    (moves → inside → o.lc = true → lc + 8 ≤ e.t.scr.limit → lc % 8 ≠ 0 → Traps i s e .align act) ∧
    (moves → inside → (o.lc = true → lc + 8 ≤ e.t.scr.limit ∧ lc % 8 = 0) →
      (2 ^ 32 < g.rb * g.rows → OverAtOnce i s e o.h.len h .copy 5) ∧
      (g.rb * g.rows ≤ 2 ^ 32 → clash → OverAtOnce i s e o.h.len h .copy 4) ∧
      (g.rb * g.rows ≤ 2 ^ 32 → ¬clash → Queues i s e o.h.len h .copy (.copy e.t.nextTok) fun c c' => ∃ k,
        c' = { c with copies := c.copies ++ [k] } ∧ k.team = e.p.team ∧ k.token = e.t.nextTok ∧ k.left = false ∧ k.put = none ∧
        k.srcScr = (o.sseg == .scr) ∧ k.dstScr = (o.dseg == .scr) ∧ k.lc = (if o.lc then some lc else none) ∧
        g.movedBy ss.addr ds.addr k.parts))) ∧
  (∀ (o : CpyOps) (s : State) (e : Env), Passes s e (cpyNeed o 2) o.h →
    let S := fun n => (e.f.sreg n).toNat
    let n := S o.c.n.toNat
    let g : Shape := { rb := n, rows := 1, src := fun _ => S o.a.n.toNat, dst := fun _ => 0 }
    let ss := e.t.seg o.sseg
    let h := o.d.n.toNat - 16
    let act := e.p.active o.h
    let inside := g.inside g.src ss true false
    (n = 0 → OverAtOnce (.put o) s e o.h.len h .copy 1) ∧
    (n ≠ 0 → ¬inside → Traps (.put o) s e .seg act) ∧
    (n ≠ 0 → inside → o.lcoff.toNat % 8 ≠ 0 → Traps (.put o) s e .align act) ∧
    (n ≠ 0 → inside → o.lcoff.toNat % 8 = 0 → 524288 < n → OverAtOnce (.put o) s e o.h.len h .copy 5) ∧
    let target := S o.b.n.toNat
    let off := S (o.c.n.toNat + 1)
    let clash := o.sseg = .scr ∧ target % 2 ^ 16 = e.t.place ∧ target / 2 ^ 16 = e.t.idx ∧ S o.a.n.toNat < off + n ∧ off < S o.a.n.toNat + n
    (n ≠ 0 → inside → o.lcoff.toNat % 8 = 0 → n ≤ 524288 → target < 2 ^ 48 → clash → OverAtOnce (.put o) s e o.h.len h .copy 4) ∧
    (n ≠ 0 → inside → o.lcoff.toNat % 8 = 0 → n ≤ 524288 → (target < 2 ^ 48 → ¬clash) → (2 ^ 48 ≤ target → e.t.place ≠ 2 ^ 16) →
      Queues (.put o) s e o.h.len h .copy (.copy e.t.nextTok) fun c c' => ∃ k,
        c' = { c with copies := c.copies ++ [k] } ∧ k.team = e.p.team ∧ k.token = e.t.nextTok ∧ k.lc = some o.lcoff.toNat ∧
        g.movedBy ss.addr 0 k.parts ∧
        (target < 2 ^ 48 → k.put = some (target % 2 ^ 16, target / 2 ^ 16, off))))

/-- R268 to R272: HWAIT waits while the handle is pending and then gives its status; HTEST gives it at once; HMOV moves the token into a
uniform register and HADOPT back; HCANCEL goes on, and leaves a finished command as it is; of a copy that still has bytes to count it takes the queued and the
parked requests away, and the handle ends once nothing of it is in flight (R270); of a kiln task that has not started, and of
a load that is not complete, it ends the handle, and of a started task it changes nothing (R357). The null handle traps HANDLE. -/
def Obligations.Handles : Prop :=
  ∀ (o : Ops) (s : State) (e : Env),
    let act := e.p.active o.h
    let A := o.a.n.toNat - 16
    let tok := (e.f.hreg A).toNat
    (Passes s e (handleNeed o) o.h → o.sub.toNat ≤ 2 →
      (tok = 0 ∨ e.t.handle tok = none → Traps (.hwait o) s e .handle act ∧ Traps (.htest o) s e .handle act) ∧
      (∀ h, tok ≠ 0 → e.t.handle tok = some h →
        (h.status = 0 → Waits (.hwait o) s e) ∧
        (h.status ≠ 0 → GivesStatus o (.hwait o) s e (h.status == 1) h.status) ∧
        GivesStatus o (.htest o) s e (h.status != 0) h.status)) ∧
    (Passes s e { type := o.a.cls == .k && o.d.cls == .s, regs := [kUse .h o.a.n.toNat true, opdUse o.d 1 1 true], full := true } o.h →
      (tok = 0 ∨ e.t.handle tok = none → Traps (.hmov o) s e .handle act) ∧
      (tok ≠ 0 → e.t.handle tok ≠ none → Goes (.hmov o) s e o.h.len fun e' =>
        (∀ n, e'.f.sreg n = if n = o.d.n.toNat then b64 tok else e.f.sreg n) ∧
        (∀ n, e'.f.hreg n = if n = A then 0 else e.f.hreg n) ∧ (∀ n, e'.f.areg n = e.f.areg n) ∧
        KeepsVarying e e' ∧ KeepsPreds e e' ∧ e'.t.flags = e.t.flags)) ∧
    (Passes s e { type := o.d.cls == .k && o.a.cls == .s, regs := [kUse .h o.d.n.toNat true, opdUse o.a 1 1 false], full := true } o.h →
      let v := e.f.sreg o.a.n.toNat
      let fresh := v ≠ 0 ∧ e.t.handle v.toNat ≠ none ∧ attached e.t v = false
      (¬fresh → Traps (.hadopt o) s e .handle act) ∧
      (fresh → Goes (.hadopt o) s e o.h.len fun e' =>
        (∀ n, e'.f.hreg n = if n = o.d.n.toNat - 16 then v else e.f.hreg n) ∧ (∀ n, e'.f.sreg n = e.f.sreg n) ∧
        (∀ n, e'.f.areg n = e.f.areg n) ∧ KeepsVarying e e' ∧ KeepsPreds e e' ∧ e'.t.flags = e.t.flags)) ∧
    (Passes s e { type := o.a.cls == .k, regs := [kUse .h o.a.n.toNat false], full := true } o.h →
      (tok = 0 ∨ e.t.handle tok = none → Traps (.hcancel o) s e .handle act) ∧
      (∀ h, tok ≠ 0 → e.t.handle tok = some h → h.status ≠ 0 ∨ h.ready = true ∨ h.kind = .sysc → Jumps (.hcancel o) s e (nextPc e o.h.len)) ∧
      (∀ h, tok ≠ 0 → e.t.handle tok = some h → h.status = 0 → h.ready = false → h.kind = .launch →
        (∃ r ∈ e.t.reqs, r.kind = .append tok) → ∃ t tm, exec (.hcancel o) s = .next t ∧ t.team e.p.team = some tm ∧
          tm.reqs = e.t.reqs.filter (fun r => r.kind != .append tok) ∧ tm.handle tok = some { h with ready := true, cancelled := true }) ∧
      (∀ h k, tok ≠ 0 → e.t.handle tok = some h → h.status = 0 → h.ready = false → h.kind = .copy →
        findCopy s e.core e.p.team tok = some k → ((∃ p ∈ k.parts, p.st ≠ .done) ∨ k.put ≠ none) →
        let flight := ∃ p ∈ k.parts, (∃ bs, p.st = .have_ bs) ∨ ∃ x n bs, p.st = .merging x n bs
        ∃ t tm h', exec (.hcancel o) s = .next t ∧ t.team e.p.team = some tm ∧ tm.handle tok = some h' ∧ h'.cancelled = true ∧
          h'.status = 0 ∧ (∀ r ∈ tm.reqs, r.kind ≠ .copy tok) ∧
          (∀ d, d < 4 → ∀ x ∈ (t.die d).entries, copyOwner e.p.team tok x.owner = false) ∧
          (¬flight → h'.ready = true ∧ findCopy t e.core e.p.team tok = none) ∧
          (flight → h'.ready = false ∧ findCopy t e.core e.p.team tok ≠ none)) ∧
      (∀ h, tok ≠ 0 → e.t.handle tok = some h → h.status = 0 → h.ready = false →
        (h.kind = .ktask → ∀ k, findTask (s.core e.core) e.p.team tok = some k →
          ∃ t tm h', exec (.hcancel o) s = .next t ∧ t.team e.p.team = some tm ∧ tm.handle tok = some h' ∧
            (k.unstarted = true → h'.ready = true ∧ h'.cancelled = true) ∧ (k.unstarted = false → h'.cancelled = h.cancelled)) ∧
        (h.kind = .kload → (∃ k ∈ (s.core e.core).kloads, k.team = e.p.team ∧ k.token = tok ∧ k.reload = false) →
          ∃ t tm h', exec (.hcancel o) s = .next t ∧ t.team e.p.team = some tm ∧ tm.handle tok = some h' ∧
            h'.ready = true ∧ h'.cancelled = true)))

/-! ## The kiln -/

/-- R340, R341, R343: KLOAD and KTASK check SEG and ALIGN, then refuse with a status (a tag too large, already resident or with too few
macros; a handler's use), or are queued with a pending handle: KLOAD takes the lowest macros that are empty or freeing, KTASK waits
while the ring is full. -/
def Obligations.KilnCommands : Prop :=
  (∀ (o : KloadOps) (s : State) (e : Env), Passes s e (kloadNeed o) o.h →
    let act := e.p.active o.h
    let src := (e.f.sreg o.a.n.toNat).toNat
    let tag := (e.f.sreg o.b.n.toNat).toNat
    let c := s.core e.core
    let n := o.nmac.toNat + 1
    let h := o.d.n.toNat - 16
    let size := match o.sfmt with | .sx m => 63 * o.pitch.toNat + SxFmt.blockBytes m | f => 127 * o.pitch.toNat + 128 * SrcFmt.esize f
    let al := match o.sfmt with | .sx _ => 8 | f => SrcFmt.esize f
    let ok := Admits (e.t.seg o.sseg) src { size := size, r := true }
    let free := (List.range 16).filter fun m => ((c.macro_ m).st == .empty || (c.macro_ m).st == .freeing) && (c.macro_ m).resv.isNone
    let held := (∃ k ∈ c.kloads, k.team = e.p.team ∧ k.desc.tag = tag) ∨
      ∃ m, m < 16 ∧ (c.macro_ m).team = e.p.team ∧ (c.macro_ m).tag = tag ∧ (c.macro_ m).st = .ready
    (¬ok → Traps (.kload o) s e .seg act) ∧
    (ok → src % al ≠ 0 → Traps (.kload o) s e .align act) ∧
    (ok → src % al = 0 → e.p.privileged = true ∨ 2 ^ 16 ≤ tag → OverAtOnce (.kload o) s e o.h.len h .kload 5) ∧
    (ok → src % al = 0 → e.p.privileged = false → tag < 2 ^ 16 →
      (held → OverAtOnce (.kload o) s e o.h.len h .kload 4) ∧
      (¬held → free.length < n → OverAtOnce (.kload o) s e o.h.len h .kload 5) ∧
      (¬held → n ≤ free.length → Queues (.kload o) s e o.h.len h .kload (.kiln c.kseq) fun c c' => ∃ l,
        c'.kloads = c.kloads ++ [l] ∧ c'.kseq = c.kseq + 1 ∧ l.team = e.p.team ∧ l.token = e.t.nextTok ∧ l.macros = free.take n ∧
        l.desc.tag = tag ∧ l.desc.src = (e.t.seg o.sseg).addr + src ∧
        ∀ m, m < 16 → if m ∈ free.take n then
            (if (c.macro_ m).st = .empty then (c'.macro_ m).st = .loading ∧ (c'.macro_ m).tag = tag
             else (c'.macro_ m).resv = some (e.p.team, e.t.nextTok))
          else c'.macro_ m = c.macro_ m))) ∧
  (∀ (o : MemOps) (s : State) (e : Env),
    Passes s e { type := o.a.cls == .s && o.d.cls == .k, regs := [kUse .h o.d.n.toNat true, opdUse o.a 1 1 false], full := true } o.h →
    let act := e.p.active o.h
    let off := ((e.f.sreg o.a.n.toNat).toNat : Int) + memDisp o false
    let ok := Admits e.t.scr off { size := 64, r := true }
    let c := s.core e.core
    let h := o.d.n.toNat - 16
    (¬ok → Traps (.ktask o) s e .seg act) ∧ (ok → off.toNat % 64 ≠ 0 → Traps (.ktask o) s e .align act) ∧
    (ok → off.toNat % 64 = 0 → e.p.privileged = true → OverAtOnce (.ktask o) s e o.h.len h .ktask 5) ∧
    (ok → off.toNat % 64 = 0 → e.p.privileged = false →
      (64 ≤ ringUsed c → exec (.ktask o) s = .next s) ∧
      (ringUsed c < 64 → Queues (.ktask o) s e o.h.len h .ktask (.kiln c.kseq) fun c c' => ∃ k,
        c'.kcmds = c.kcmds ++ [k] ∧ c'.kseq = c.kseq + 1 ∧ k.team = e.p.team ∧ k.entered = false ∧
        k.cmd = .pend e.t.nextTok off.toNat ((List.range 16).map fun i => (e.f.hreg i).toNat))))

/-- R349, R351 to R353: where no earlier command of the team holds it up, KZERO clears its tile, KREAD fills its registers from the
tile's rows and KWRITE puts the rows of the lanes that hold a fibre into the tile, or adds them to it. While an earlier command that
writes the tile is not complete (and, for KZERO and KWRITE, while an earlier one has the tile still to read) the command enters the kiln
and waits there, KWRITE with the words it read at issue: no tile and no register changes, and the posy goes on. -/
def Obligations.TileMoves : Prop :=
  ∀ (o : Ops) (s : State) (e : Env), NoneActs (s.core e.core) →
    let c0 := s.core e.core
    let tileD := o.d.n.toNat - 32
    let tileA := o.a.n.toNat - 32
    let held := fun k w => HeldUp c0 e.p.team c0.kseq k w
    let first := (match o.b with | .imm i => (Imm.sext i).toNat | .reg r => (e.f.sreg r.n.toNat).toNat)
    let n := o.sub.toNat % 8 + 1
    let row := fun i => (first % 32 + i) % 32
    let runs := fun (i : Instr) (P : State → Env → Prop) => ∃ t e', exec i s = .next t ∧ curEnv t = some e' ∧ e'.p.pc = nextPc e o.h.len ∧
      OnlyCore s t e ∧ (t.core e.core).kcmds = c0.kcmds ∧ P t e'
    let enters := fun (i : Instr) (P : KCmd → Prop) => ∃ t e' x, exec i s = .next t ∧ curEnv t = some e' ∧ e'.p.pc = nextPc e o.h.len ∧
      OnlyCore s t e ∧ Same e e' ∧ e'.t.tiles = e.t.tiles ∧ (t.core e.core).kcmds = c0.kcmds ++ [x] ∧ (t.core e.core).kseq = c0.kseq + 1 ∧
      x.team = e.p.team ∧ x.seq = c0.kseq ∧ x.entered = true ∧ P x
    let word := fun i c => e.p.reg (e.p.wbase + o.a.n.toNat + 2 * i + c / 64) (c % 64)
    (Passes s e (kzeroNeed o) o.h → held tileD true → enters (.kzero o) fun x => x.cmd = .zero tileD) ∧
    (Passes s e (kreadNeed o) o.h → held tileA false →
      enters (.kread o) fun x => x.cmd = .read tileA e.p.uid (e.p.wbase + o.d.n.toNat) (first % 32) n (e.p.active o.h)) ∧
    (Passes s e (kwriteNeed o) o.h → held tileD true → enters (.kwrite o) fun x => ∃ data lf,
      x.cmd = .write tileD (first % 32) n (decide (8 ≤ o.sub.toNat)) o.rnd e.t.fctl data e.p.uid lf ∧
      ∀ i c, i < n → c < 128 → Tab.get none data (128 * i + c) = if e.p.holds (c % 64) then some (word i c) else none) ∧
    (Passes s e (kzeroNeed o) o.h → ¬held tileD true → runs (.kzero o) fun _ e' => Same e e' ∧
      ∀ k r c, r < 32 → c < 128 → e'.t.tileAt k r c = if k = tileD then 0 else e.t.tileAt k r c) ∧
    (Passes s e (kreadNeed o) o.h → ¬held tileA false → (∀ x ∈ Tab.live s.posies, x.2.uid = e.p.uid → x.1 = e.key) → e.p.hd.late = [] →
      runs (.kread o) fun _ e' => e'.t.tiles = e.t.tiles ∧
        WritesV e e' (e.p.active o.h) o.d.n.toNat (2 * n) (fun i L => e.t.tileAt tileA (row (i / 2)) (64 * (i % 2) + L)) (tagOf .f32)) ∧
    (Passes s e (kwriteNeed o) o.h → ¬held tileD true → (∀ x ∈ Tab.live s.posies, x.2.uid = e.p.uid → x.1 = e.key) →
      runs (.kwrite o) fun _ e' => KeepsFrame e e' ∧ KeepsPreds e e' ∧ (∀ r L, L < 64 → e'.p.reg r L = e.p.reg r L) ∧ (∀ r, e'.p.tag r = e.p.tag r) ∧
        (∀ k r c, r < 32 → c < 128 → k ≠ tileD ∨ e.p.holds (c % 64) = false ∨ (∀ i, i < n → r ≠ row i) →
          e'.t.tileAt k r c = e.t.tileAt k r c) ∧
        (o.sub.toNat < 8 → e'.t.flags = e.t.flags) ∧
        ∀ i c, i < n → c < 128 → e.p.holds (c % 64) = true →
          (o.sub.toNat < 8 → e'.t.tileAt tileD (row i) c = word i c) ∧
          (8 ≤ o.sub.toNat → ∃ lf, e'.t.tileAt tileD (row i) c =
            b32 (opFadd .f32 { mode := rmode e.t.fctl o.rnd, ovfsat := e.t.fctl.getLsbD 2 } [(e.t.tileAt tileD (row i) c).toNat, (word i c).toNat] lf).pat))

/-- R353 to R355: KSTORE queues its request for the bytes it writes, after SEG and ALIGN; KFREE takes READY from the team's macros of a
tag, or waits for the tag's load; KSTAT writes one of its four values. -/
def Obligations.KilnStores : Prop :=
  (∀ (o : MemOps) (b : Opd) (s : State) (e : Env), Passes s e (kstoreNeed o) o.h → o.b = .reg b →
    let act := e.p.active o.h
    let off := ((e.f.sreg b.n.toNat).toNat : Int) + memDisp o false
    let ok := Admits e.t.scr off { size := kstoreBytes o, w := true }
    let q := (s.core e.core).kseq
    (¬ok → Traps (.kstore o) s e .seg act) ∧ (ok → off.toNat % 8 ≠ 0 → Traps (.kstore o) s e .align act) ∧
    (ok → off.toNat % 8 = 0 → ∃ t e' r k, exec (.kstore o) s = .next t ∧ curEnv t = some e' ∧ OnlyCore s t e ∧
      e'.p.pc = nextPc e o.h.len ∧ Same e e' ∧ e'.t.reqs = e.t.reqs ++ [r] ∧ r.kind = .kstore q ∧ r.scratch = true ∧ r.addr = off.toNat ∧
      r.size = kstoreBytes o ∧ (t.core e.core).kcmds = (s.core e.core).kcmds ++ [k] ∧ k.seq = q ∧ k.team = e.p.team ∧ k.entered = false ∧
      k.cmd = .store (o.a.n.toNat - 32) off.toNat (o.x10.toNat % 32) (o.x10.toNat / 32 + 1) o.fmt
        (if o.sub = 0 then none else if o.sub = 1 then some .sx2 else if o.sub = 2 then some .sx4 else some .sx7) (e.t.fctl.getLsbD 2))) ∧
  (∀ (o : Ops) (s : State) (e : Env), Passes s e { type := (rowB o.b).1, regs := (rowB o.b).2, full := true } o.h →
    let tag := (match o.b with | .imm i => Imm.sext i | .reg r => e.f.sreg r.n.toNat).toNat
    let c := s.core e.core
    ∃ t e', exec (.kfree o) s = .next t ∧ curEnv t = some e' ∧ OnlyCore s t e ∧ e'.p.pc = nextPc e o.h.len ∧ Same e e' ∧
      (t.core e.core).kseq = c.kseq + 1 ∧
      (tag < 2 ^ 16 → (∃ k ∈ c.kloads, k.team = e.p.team ∧ k.desc.tag = tag) →
        ∃ x ∈ (t.core e.core).kcmds, x.team = e.p.team ∧ x.cmd = .free tag) ∧
      (tag < 2 ^ 16 → (∀ k ∈ c.kloads, ¬(k.team = e.p.team ∧ k.desc.tag = tag)) → ∀ m, m < 16 →
        ((c.macro_ m).team = e.p.team ∧ (c.macro_ m).tag = tag ∧ (c.macro_ m).st = .ready → ((t.core e.core).macro_ m).st ≠ .ready) ∧
        (¬((c.macro_ m).team = e.p.team ∧ (c.macro_ m).tag = tag) → (c.macro_ m).st ≠ .freeing → (t.core e.core).macro_ m = c.macro_ m))) ∧
  (∀ (o : Ops) (s : State) (e : Env), Passes s e
      { type := (o.d.cls == .s || o.d.cls == .v) && (o.sub != 1 || (rowB o.b).1)
        regs := opdUse o.d 1 1 true :: (if o.sub = 1 then (rowB o.b).2 else []), full := o.d.cls == .s } o.h →
    let c := s.core e.core
    ∃ v : Nat, (o.d.cls = .s → Goes (.kstat o) s e o.h.len fun e' => WritesS e e' o.d.n.toNat (b64 v)) ∧
      (o.d.cls = .v → Goes (.kstat o) s e o.h.len fun e' => WritesV e e' (e.p.active o.h) o.d.n.toNat 1 (fun _ _ => b32 v) 0) ∧
      (o.sub = 0 → v = (c.kcmds.filter fun x => x.team == e.p.team && match x.cmd with | .task _ _ _ | .pend _ _ _ => true | _ => false).length) ∧
      (o.sub = 1 →
        let tag := (match o.b with | .imm i => Imm.sext i | .reg r => e.f.sreg r.n.toNat).toNat
        let of_ := fun (st : MacSt) => (List.range 16).filter fun m => (c.macro_ m).team == e.p.team && (c.macro_ m).tag == tag && (c.macro_ m).st == st
        v = (of_ .ready).length + (if ∃ k ∈ c.kloads, k.team = e.p.team ∧ k.desc.tag = tag then 256 else 0) +
          (if of_ .freeing ≠ [] ∨ ∃ x ∈ c.kcmds, x.team = e.p.team ∧ x.cmd = .free tag then 512 else 0)) ∧
      (o.sub = 2 → v = ((List.range 16).filter fun m => (c.macro_ m).st == .empty).length) ∧
      (o.sub = 3 → ∀ k, k < 32 → (v.testBit k = true ↔ ∃ x ∈ c.kcmds, x.team = e.p.team ∧ match x.cmd with
        | .zero j | .write j _ _ _ _ _ _ _ _ | .read j _ _ _ _ _ | .store j _ _ _ _ _ _ => j = k
        | .task _ acc src => acc = k ∨ src = some k
        | _ => False)))

/-! ## Counters -/

/-- R404 to R410: BAR.ARRIVE and BAR.SYNC arrive for the active lanes once their release holds, and give the token of the phase they
arrived in; BAR.WAIT and BAR.SYNC wait while a lane holds the token of the current phase; BAR.QUERY gives the barrier's word. A level
above the launch's traps XBLOCK and an armed flag its own trap. -/
def Obligations.Barriers : Prop :=
  ∀ (o : Ops) (s : State) (e : Env),
    let act := e.p.active o.h
    let l := o.x10.toNat / 256
    let n := o.x10.toNat % 64
    let b := barGet s e l n
    let given := match o.b with | .reg r => (e.f.sreg r.n.toNat).toNat | .imm _ => 0
    let expv := if o.x10.toNat / 128 % 2 = 1 ∧ given < 2 ^ 20 then given else 0
    let b' := barAfter b expv (o.x10.toNat / 64 % 2 == 1) act.length
    let allowed := l = 0 ∨ ∃ x, s.launch e.t.lid = some x ∧ l + 1 ≤ x.r.cores
    let armed := e.t.flags &&& e.t.arm
    let cause : Trap := if armed &&& flagMerr ≠ 0 then .merr else .saturate
    let there := e.core < 192 ∧ (l = 0 ∨ s.vd e.t.part e.t.vd ≠ none)
    let bars := fun (t : State) => barGet t e l n = b' ∧ (∀ k m, k < 4 → (k = 0 ∨ m < 16) → ¬(k = l ∧ m = n) → barGet t e k m = barGet s e k m) ∧
      t.mem = s.mem ∧ (∀ j, j ≠ e.key → t.posy j = s.posy j) ∧ ∀ j, j ≠ e.p.team → t.team j = s.team j
    let token := fun (e' : Env) => WritesV e e' act o.d.n.toNat 1 (fun _ _ => b32 b.phase) 0
    let reg := fun (r L : Nat) => (e.p.reg (e.p.wbase + r) L).toNat
    (Instr.legal (.barArrive o) = true → Passes s e (arriveNeed o) o.h →
      (¬allowed → Traps (.barArrive o) s e .xblock act) ∧ (allowed → armed ≠ 0 → Traps (.barArrive o) s e cause act) ∧
      (allowed → armed = 0 → act = [] → Jumps (.barArrive o) s e (nextPc e o.h.len)) ∧
      (allowed → armed = 0 → act ≠ [] → ¬Released s e act (levelWidth l) → ReleaseWaits (.barArrive o) s e (levelWidth l) false) ∧
      (allowed → armed = 0 → act ≠ [] → Released s e act (levelWidth l) → there → ∃ t e', exec (.barArrive o) s = .next t ∧
        curEnv t = some e' ∧ e'.p.pc = nextPc e o.h.len ∧ bars t ∧ (if o.d = {} then Same e e' else token e'))) ∧
    (Instr.legal (.barWait o) = true →
      Passes s e { type := o.a.cls == .s || o.a.cls == .v, regs := [opdUse o.a 1 1 false] } o.h →
      let tok := fun L => if o.a.cls = .v then reg o.a.n.toNat L else (e.f.sreg o.a.n.toNat).toNat
      (¬allowed → Traps (.barWait o) s e .xblock act) ∧
      (allowed → (∃ L ∈ act, tok L % 2 ^ 24 = b.phase) → Waits (.barWait o) s e) ∧
      (allowed → (∀ L ∈ act, tok L % 2 ^ 24 ≠ b.phase) → Jumps (.barWait o) s e (nextPc e o.h.len))) ∧
    (Instr.legal (.barSync o) = true → Passes s e (syncNeed o) o.h →
      (¬allowed → Traps (.barSync o) s e .xblock act) ∧
      (allowed → e.p.phase = true → (∃ L ∈ act, reg o.d.n.toNat L % 2 ^ 24 = b.phase) → Waits (.barSync o) s e) ∧
      (allowed → e.p.phase = true → (∀ L ∈ act, reg o.d.n.toNat L % 2 ^ 24 ≠ b.phase) → Jumps (.barSync o) s e (nextPc e o.h.len)) ∧
      (allowed → e.p.phase = false → armed ≠ 0 → Traps (.barSync o) s e cause act) ∧
      (allowed → e.p.phase = false → armed = 0 → act = [] → Jumps (.barSync o) s e (nextPc e o.h.len)) ∧
      (allowed → e.p.phase = false → armed = 0 → act ≠ [] → ¬Released s e act (levelWidth l) → ReleaseWaits (.barSync o) s e (levelWidth l) true) ∧
      (allowed → e.p.phase = false → armed = 0 → act ≠ [] → Released s e act (levelWidth l) → there → ∃ t e',
        exec (.barSync o) s = .next t ∧ curEnv t = some e' ∧ bars t ∧ token e' ∧
        (b'.phase = b.phase → e'.p.pc = e.p.pc ∧ e'.p.phase = true) ∧ (b'.phase ≠ b.phase → e'.p.pc = nextPc e o.h.len ∧ e'.p.phase = false))) ∧
    (Instr.legal (.barQuery o) = true → Passes s e (queryNeed o) o.h →
      let w := b64 (b.phase * 2 ^ 40 + b.exp * 2 ^ 20 + b.arr)
      (¬allowed → Traps (.barQuery o) s e .xblock act) ∧
      (allowed → o.d.cls = .s → Goes (.barQuery o) s e o.h.len fun e' => WritesS e e' o.d.n.toNat w) ∧
      (allowed → o.d.cls = .v → Goes (.barQuery o) s e o.h.len fun e' => WritesV e e' act o.d.n.toNat 2 (fun i _ => wordOf w i) 0))

/-- R412, R413: SIGADD sends one atomic add, a release, of s[B] or of s[B] for each active lane; SIGWAIT reads the signal, waits for
the answer, goes on with it once it satisfies the comparison, and otherwise reads again when the line it has read has been
invalidated since. That it reads afresh after a rotation or a save, and when it does so, is the model's choice (log entry 55). -/
def Obligations.Signals : Prop :=
  ∀ (o : MemOps) (s : State) (e : Env),
    let act := e.p.active o.h
    let B := operandB e o.b
    (Passes s e (sigaddNeed o) o.h →
      (act = [] → Jumps (.sigadd o) s e (nextPc e o.h.len)) ∧
      (∀ L ∈ act, Clear e o { size := 8, r := true, w := true, align := 8, dhi := false } act →
        Sends (.sigadd o) s e o.h.len fun e' rs ls => ls = [] ∧ e'.t.flags = e.t.flags ∧ ∃ r x, rs = [r] ∧ r.kind = .atomic ∧ r.op = 0 ∧ r.fmt = .i64 ∧
          r.nr = true ∧ r.rel = true ∧ r.size = 8 ∧ r.addr = address e o false L ∧ r.fids = act.map e.p.fid ∧ r.opnds = [x] ∧
          x.x = if o.sub = 1 then B * b64 act.length else B)) ∧
    (Passes s e (sigwaitNeed o) o.h →
      (act = [] → Goes (.sigwait o) s e o.h.len fun e' => if o.d = {} then Same e e' else WritesV e e' [] o.d.n.toNat 2 (fun _ _ => 0) 0) ∧
      (∀ L ∈ act, Clear e o { size := 8, r := true, align := 8, dhi := false } act →
        (e.p.phase = false ∨ ownSig e = none → ReadsSignal (.sigwait o) s e act (address e o false L)) ∧
        (e.p.phase = true → ∀ r, ownSig e = some r →
          let v := b64 (if r.merr then 2 ^ 64 - 1 else leNat (r.reply.map (·.2)))
          (r.landed = false → Waits (.sigwait o) s e) ∧
          (r.landed = true → ¬Compares o.sub v.toInt B.toInt → r.stale = false → Waits (.sigwait o) s e) ∧
          (r.landed = true → ¬Compares o.sub v.toInt B.toInt → r.stale = true → ReadsSignal (.sigwait o) s e act (address e o false L)) ∧
          (r.landed = true → Compares o.sub v.toInt B.toInt → ∃ t e', exec (.sigwait o) s = .next t ∧ curEnv t = some e' ∧ OnlyPosy s t e ∧
            e'.p.pc = nextPc e o.h.len ∧ (if o.d = {} then Same e e' else WritesV e e' act o.d.n.toNat 2 (fun i _ => wordOf v i) 0)))))

/-- R414, R415, R429: CTWAIT waits until the landing counter reaches s[B], and a poisoned counter sets MERR and ends the wait; TWAIT
waits until the timebase reaches its end, which `.abs` gives in the 64 bits of TIME; TWAIT_EXPIRY then sends the posy on, one in its
handler too. -/
def Obligations.CounterAndTimeWaits : Prop :=
  (∀ (o : MemOps) (s : State) (e : Env), Passes s e (ctwaitNeed o) o.h → o.seg = .scr →
    let act := e.p.active o.h
    (act = [] → Jumps (.ctwait o) s e (nextPc e o.h.len)) ∧
    (∀ L ∈ act, Clear e o { size := 8, r := true, align := 8, dhi := false } act →
      let a := address e o false L
      let held := counterHeld s e o act a = true
      let bad := scratchPoisoned e.t (a + 0) = true
      let v := leNat ((List.range 8).map fun i => Tab.get 0 e.t.scratch (a + i))
      (held → Waits (.ctwait o) s e) ∧
      (¬held → bad → Goes (.ctwait o) s e o.h.len fun e' => Same (withFlags e (e.t.flags ||| flagMerr)) e') ∧
      (¬held → ¬bad → a % 8 = 0 → (operandB e o.b).toNat ≤ v → Jumps (.ctwait o) s e (nextPc e o.h.len)) ∧
      (¬held → ¬bad → a % 8 = 0 → v < (operandB e o.b).toNat → Waits (.ctwait o) s e))) ∧
  (∀ (o : Ops) (s : State) (e : Env), Passes s e (twaitNeed o) o.h →
    let act := e.p.active o.h
    let end_ := if o.sub = 0 then s.time / 2 ^ 64 * 2 ^ 64 + (operandB e o.b).toNat else match e.p.wait_ with
      | some w => w.1
      | none => s.time + (max (operandB e o.b).toInt 0).toNat
    (act = [] ∨ end_ ≤ s.time → Jumps (.twait o) s e (nextPc e o.h.len)) ∧
    (act ≠ [] → s.time < end_ → ∃ p', exec (.twait o) s = .next (s.setPosy e.key (some p')) ∧
      p' = { e.p with blocked := p'.blocked, wait_ := some (end_, nextPc e o.h.len) })) ∧
  (∀ (core slot : Nat) (s : State) (e : Env) (d pc : Nat), envAt s (posyKey core slot) = some e → e.p.wait_ = some (d, pc) →
    e.t.stopped = none → e.t.running = true ∨ (e.p.privileged = true ∧ ∀ since b, e.t.save = .saving since b → budgetLeft s e.t ≠ 0) →
    (d ≤ s.time → ∃ p', exec (.twaitExpiry core slot) s = .next (s.setPosy (posyKey core slot) (some p')) ∧ p'.pc = pc ∧ p'.wait_ = none ∧
      p'.lanes = e.p.lanes ∧ p'.v = e.p.v ∧ p'.preds = e.p.preds ∧ p'.rep = e.p.rep) ∧
    (s.time < d → exec (.twaitExpiry core slot) s = .next s))

/-! ## Launches, calls, contexts -/

/-- R329 to R331: LAUNCH checks its record in scratch and, once its release holds, queues an append of the record's 128 bytes with a
pending handle; SYSC writes a call record into the VD's ring and waits for the answer (SUB 0) or goes on with a pending handle (SUB 1).
The model's choice (log entry 59): records lie 2,880 bytes apart, and a call waits for a place whose record is in use. -/
def Obligations.LaunchesAndCalls : Prop :=
  (∀ (o : LaunchOps) (s : State) (e : Env), Passes s e (launchNeed o) o.h →
    let act := e.p.active o.h
    let off := (e.f.sreg o.a.n.toNat).toNat
    let ok := Admits e.t.scr off { size := 128, r := true }
    let h := o.d.n.toNat - 16
    (¬ok → Traps (.launch o) s e .seg act) ∧ (ok → off % 8 ≠ 0 → Traps (.launch o) s e .align act) ∧
    (ok → off % 8 = 0 → ¬Released s e act .sys true → ReleaseWaits (.launch o) s e .sys false) ∧
    (ok → off % 8 = 0 → Released s e act .sys true → ∃ t e', exec (.launch o) s = .next t ∧ curEnv t = some e' ∧ OnlyPosy s t e ∧
      e'.p.pc = nextPc e o.h.len ∧
      (scratchBad e.t off 128 = true → HandleMade (withFlags e (e.t.flags ||| flagMerr)) e' h { kind := .launch, ready := true, bad := true }) ∧
      (scratchBad e.t off 128 = false → HandleMade e e' h { kind := .launch } ∧ ∃ r, e'.t.reqs.getLast? = some r ∧ r.kind = .append e.t.nextTok ∧
        r.addr = (e.f.sreg o.b.n.toNat).toNat ∧ r.data = (List.range 128).map fun i => (i, Tab.get 0 e.t.scratch (off + i))))) ∧
  (∀ (o : Ops) (s : State) (e : Env), Passes s e (syscNeed o) o.h → o.sub.toNat ≤ 1 →
    let act := e.p.active o.h
    let call := sendCall s e o act (if o.sub = 0 then 0 else e.t.nextTok) (if o.sub = 0 then e.t.nextSeq else 0)
    (act = [] → Jumps (.sysc o) s e (nextPc e o.h.len)) ∧
    (act ≠ [] → e.p.phase = true → Goes (.sysc o) s e o.h.len fun e' =>
      if o.sub = 0 then WritesV e e' [] o.d.n.toNat 2 (fun _ _ => 0) 0 else Same e e') ∧
    (act ≠ [] → e.p.phase = false → ¬Released s e act .sys → ReleaseWaits (.sysc o) s e .sys (o.sub == 0)) ∧
    (act ≠ [] → e.p.phase = false → ownRelease e = none → Released s e act .sys →
      (call = none → if o.sub = 0 then Waits (.sysc o) s e else exec (.sysc o) s = .next s) ∧
      (∀ s1, call = some s1 → ∃ t e' cs c v, exec (.sysc o) s = .next t ∧ curEnv t = some e' ∧ t.calls = cs ++ [c] ∧
        cs.map CallRec.pa = s.calls.map CallRec.pa ∧ c.status = 0 ∧
        s.vd e.t.part e.t.vd = some v ∧ c.va = v.syscring + 2880 * (v.calls % 2 ^ v.sysclog) ∧ c.sub = o.sub.toNat ∧ c.team = e.p.team ∧
        (o.sub = 0 → Same e e' ∧ e'.p.pc = e.p.pc ∧ e'.p.phase = true ∧ ∃ l, e'.t.loads = e.t.loads ++ [l] ∧ l.kind = .sysc ∧ l.seq = c.seq ∧
          l.dst = e.p.wbase + o.d.n.toNat ∧ l.count = 2 ∧ l.lanes.map (·.lane) = act) ∧
        (o.sub = 1 → e'.p.pc = nextPc e o.h.len ∧ c.token = e.t.nextTok ∧ HandleMade e e' (o.d.n.toNat - 16) { kind := .sysc }))))

/-- R437 to R439: SAVEK stores, and RESTK loads, the bytes of the image that its form names, for every lane that holds a fibre; RDDIV
stores the divergence descriptor; WRDIV, in a restore routine alone, sends a read of one, waits for it, writes it to the team's
header and installs the part of the FIFO and the next fibre index that it names. Their range, segment and alignment checks
trap in this order. The model's choices: which records the descriptor's offsets name (log entry 18), a base that has no test
of its own (log entry 82), volatile registers that SAVEK leaves out of the image, as R134 asks of every image (log entry 101). -/
def Obligations.ContextMoves : Prop :=
  ∀ (o : MemOps) (v : BitVec 18) (s : State) (e : Env), Passes s e (ctxNeed o) (plainHdr o.h) →
    let act := e.p.present
    let off := ctxOff e o
    let at_ := fun (rel : Nat) => e.t.ctx.addr + (off + rel).toNat
    let first := v.toNat % 256
    let n := v.toNat / 256 % 256 + 1
    let tile := v.toNat % 32
    let ranges : List (Nat × Nat) := if o.sub = 0 then [(16384 + 256 * first, 256 * n), (12800 + first, n)] else if o.sub = 1 then [(13056, 128)] else [(0, 16384)]
    let inside := fun (wr : Bool) => ∀ r ∈ ranges, Admits e.t.ctx (off + (r.1 : Nat)) { size := r.2, r := !wr, w := wr }
    let regsOk := (o.sub = 0 → first + n ≤ e.p.alloc) ∧ (o.sub = 2 → tile < e.t.ktiles)
    let moves := fun (i : Instr) (wr : Bool) => o.b = .imm (.i18 v) → Instr.legal i = true →
      (¬regsOk → Traps i s e .illegalReg act) ∧ (regsOk → ¬inside wr → Traps i s e .seg act) ∧
      (regsOk → inside wr → off % 256 ≠ 0 → Traps i s e .align act)
    moves (.savek o) true ∧ moves (.restk o) false ∧
    (o.b = .imm (.i18 v) → Instr.legal (.savek o) = true → regsOk → inside true → off % 256 = 0 →
      (o.sub = 2 → mayRead (s.core e.core) e.p.team (s.core e.core).kseq tile = true) → ∃ t e' rs, exec (.savek o) s = .next t ∧
      curEnv t = some e' ∧ OnlyPosy s t e ∧ e'.p.pc = nextPc e o.h.len ∧ Same e e' ∧ e'.t.reqs = e.t.reqs ++ rs ∧ (∀ r ∈ rs, r.kind = .store) ∧
      (o.sub = 0 → ∀ i L k, i < n → L < 64 → k < 4 → volatileReg s e.t (first + i) = false → ∃ r ∈ rs, (at_ (16384 + 256 * (first + i)) + 4 * L + k,
        (if e.p.holds L then (e.p.reg (first + i) L).extractLsb' (8 * k) 8 else 0)) ∈ r.data) ∧
      (o.sub = 0 → ∀ i, i < n → volatileReg s e.t (first + i) = false → ∃ r ∈ rs, (at_ (12800 + first) + i, (e.p.tag (first + i)).setWidth 8) ∈ r.data) ∧
      (o.sub = 0 → ∀ i, i < n → volatileReg s e.t (first + i) = true → ∀ r ∈ rs, ∀ x ∈ r.data,
        x.1 ≠ at_ (12800 + first) + i ∧ ¬(at_ (16384 + 256 * (first + i)) ≤ x.1 ∧ x.1 < at_ (16384 + 256 * (first + i)) + 256)) ∧
      (o.sub = 1 → ∀ L k, L < 64 → k < 2 → ∃ r ∈ rs, (at_ 13056 + 2 * L + k,
        (if e.p.holds L then (Tab.get 0 e.p.preds L ||| 1).extractLsb' (8 * k) 8 else 0)) ∈ r.data) ∧
      (o.sub = 2 → ∀ i k, i < 4096 → k < 4 → ∃ r ∈ rs, (at_ 0 + 4 * i + k, (e.t.tileAt tile (i / 128) (i % 128)).extractLsb' (8 * k) 8) ∈ r.data)) ∧
    (o.b = .imm (.i18 v) → Instr.legal (.restk o) = true → regsOk → inside false → off % 256 = 0 →
      (o.sub = 0 → runPends s e first n = true → exec (.restk o) s = .next s) ∧
      (¬(o.sub = 0 ∧ runPends s e first n = true) → Sends (.restk o) s e o.h.len fun e' rs ls => e'.t.flags = e.t.flags ∧
        (∀ r ∈ rs, r.kind = .load ∧ r.lanes = act) ∧ InLines rs ∧
        (∀ b, (∃ r ∈ rs, r.addr ≤ b ∧ b < r.addr + r.size) ↔ ∃ x ∈ ranges, at_ x.1 ≤ b ∧ b < at_ x.1 + x.2) ∧
        ∃ l, ls = [l] ∧ l.uid = e.p.uid ∧ (o.sub = 0 → l.dcls = .v ∧ l.dst = first ∧ l.count = n))) ∧
    (let ok := fun (wr : Bool) => Admits e.t.ctx off { size := 64, r := !wr, w := wr }
     (Instr.legal (.rddiv o) = true →
      (¬ok true → Traps (.rddiv o) s e .seg act) ∧ (ok true → at_ 0 % 64 ≠ 0 → Traps (.rddiv o) s e .align act) ∧
      (ok true → at_ 0 % 64 = 0 → Sends (.rddiv o) s e o.h.len fun e' rs ls => ls = [] ∧ e'.t.flags = e.t.flags ∧
        ∃ r, rs = [r] ∧ r.kind = .store ∧ r.addr = at_ 0 ∧ r.data.map (·.2) = divBytes e.t (teamFifo s e.p.team e.t))) ∧
     (Instr.legal (.wrdiv o) = true →
      (e.p.hd.mode ≠ .restore → Traps (.wrdiv o) s e .priv act) ∧
      (e.p.hd.mode = .restore → ¬ok false → Traps (.wrdiv o) s e .seg act) ∧
      (e.p.hd.mode = .restore → ok false → at_ 0 % 64 ≠ 0 → Traps (.wrdiv o) s e .align act) ∧
      (e.p.hd.mode = .restore → ok false → at_ 0 % 64 = 0 → e.p.phase = false ∨ ownSig e = none → ∃ t p' tm r, exec (.wrdiv o) s = .next t ∧
        t.posy e.key = some p' ∧ p'.pc = e.p.pc ∧ p'.phase = true ∧ t.team e.p.team = some tm ∧ tm.reqs = e.t.reqs ++ [r] ∧ r.kind = .sig ∧
        r.stage = .queued ∧ r.addr = at_ 0 ∧ r.size = 64 ∧ r.lanes = act ∧ t.mem = s.mem ∧ t.cores = s.cores) ∧
      (e.p.hd.mode = .restore → ok false → at_ 0 % 64 = 0 → e.p.phase = true → ∀ r, ownSig e = some r →
        let bytes := r.reply.map (·.2)
        let a := leNat (bytes.take 8)
        let z := leNat ((bytes.drop 8).take 8)
        let bad := fun (x : Nat) => x ≠ 2 ^ 64 - 1 ∧ (x % 64 ≠ 0 ∨ e.t.spn.limit < x + 64)
        (r.landed = false → Waits (.wrdiv o) s e) ∧
        (r.landed = true → bad a ∨ bad z → ∃ t tm, exec (.wrdiv o) s = .next t ∧ t.team e.p.team = some tm ∧
          tm.stopped = some (e.slot, false) ∧ ∃ rec, t.traps = s.traps ++ [(e.t.queue, rec)] ∧ rec.getD 1 0 = 8) ∧
        (r.landed = true → ¬bad a → ¬bad z →
          let w := ctxWrite s e.p.team [(e.t.header + 112, bytes)]
          (w.2 = false → exec (.wrdiv o) s = .next w.1) ∧
          (w.2 = true → ∃ e2 t e', envAt w.1 e.key = some e2 ∧ exec (.wrdiv o) s = .next t ∧ curEnv t = some e' ∧
            e'.p.pc = nextPc e o.h.len ∧ KeepsFrame e e' ∧ KeepsVarying e e' ∧ KeepsPreds e e' ∧ t.mem = w.1.mem ∧
            (e'.t.flags = e.t.flags ∨ e'.t.flags = e.t.flags ||| flagMerr) ∧ e'.t.nextFid = leNat ((bytes.drop 24).take 4) ∧
            leNat ((bytes.drop 32).take 8) < (t.core e.core).seq ∧
            (t.core e.core).fifo = ((w.1.core e.core).fifo.filter fun x => x.1 != e.p.team) ++
              (takeDescriptor w.1 e.p.team (e2.t.dropSigs e.core e.slot) bytes).2.map fun x => (e.p.team, x))))))

/-- R440: TRET at the end of a restore routine waits for the posy's restoring loads and then holds it at its resume address; at the end
of a save handler, once nothing of it is left to do and its image can be written, the posy leaves its slot. That the image is
written in one step, which waits in its place for a page, is the model's choice (log entry 69). -/
def Obligations.HandlerReturns : Prop :=
  ∀ (o : Ops) (s : State) (e : Env), Passes s e { priv := true } o.h →
    (e.p.hd.mode = .restore → (∃ l ∈ e.t.loads, l.uid = e.p.uid ∧ LoadKind.isRest l.kind = true) → exec (.tret o) s = .next s) ∧
    (e.p.hd.mode = .restore → (∀ l ∈ e.t.loads, ¬(l.uid = e.p.uid ∧ LoadKind.isRest l.kind = true)) → ∃ p', exec (.tret o) s = .next (s.setPosy e.key (some p')) ∧
      p'.pc = e.p.hd.hepc ∧ p'.rep = (if e.p.hd.hrep.getLsbD 7 then some (e.p.hd.hrep.toNat % 64) else none) ∧ p'.phase = e.p.hd.phase ∧
      p'.hd.mode = .held ∧ p'.v = e.p.v ∧ p'.preds = e.p.preds ∧ p'.tags = e.p.tags ∧ p'.lanes = e.p.lanes) ∧
    (∀ m last as, e.p.hd.mode = .save → ownRelease e = none → e.t.reqs = [] → releaseSnap s e.core .dev = [] → e.t.image e.slot = some m →
      last = ((s.posiesOf e.p.team).length == 1) → as = ({ pc := e.p.hd.hepc, state := 1, rep := e.p.hd.hrep.toNat, phase := e.p.hd.phase } : SaveAs) →
      (∀ c ∈ (s.core e.core).kcmds, ∀ k d f n ls, c.cmd ≠ .read k e.p.uid d f n ls) → (last = true → kilnQuiet s e.core e.p.team = true) →
      let x := ctxWrite s e.p.team (posyWrites e m.off as ++ (if last then teamWrites s e.p.team e.t false else []))
      (x.2 = false → exec (.tret o) s = .next x.1) ∧
      (x.2 = true → ∃ t, exec (.tret o) s = .next t ∧ t.posy e.key = none ∧
        (last = true → ∃ tm, t.team e.p.team = some tm ∧ tm.occupies = false)))

/-! ## Steps of the module's units -/

/-- R47 to R50, R54, R55, R140: the fibres of a join go on when all have come or its deadline has passed; the posy former starts a posy
with the fibres of the FIFO's first record in a reserved slot; rotation takes a posy that has waited or run its time back to the FIFO.
The model's choice: a join at which more fibres stand than it expects completes too (log entry 112). -/
def Obligations.FibreSteps : Prop :=
  (∀ (team frame k : Nat) (s : State) (tm : Team) (f : Frame) (j : JoinRec),
    s.team team = some tm → tm.frame frame = some f → f.join k = some j → j.open_ = true → Tab.wf none f.joins = true →
    (tm.running = true → f.refs ≤ j.passed + presentAt s tm frame j → Does (.joinComplete team frame k) s fun t => Proceeds s t team tm frame k j) ∧
    (j.passed + presentAt s tm frame j < f.refs → Idle (.joinComplete team frame k) s) ∧
    (tm.stopped = none → (∃ d, j.deadline = some d ∧ d ≤ s.time) → Does (.joinExpiry team frame k) s fun t => Proceeds s t team tm frame k j) ∧
    ((∀ d, j.deadline = some d → s.time < d) → Idle (.joinExpiry team frame k) s)) ∧
  (∀ (core slot team id : Nat) (s : State) (rest : List (Nat × Nat)) (tm : Team) (r : Rec),
    fifoReady s core = (team, id) :: rest → s.team team = some tm → Tab.get none tm.recs id = some r →
    (slot = 22 ∧ s.posy (posyKey core 22) = none) ∨ (slot = 23 ∧ s.posy (posyKey core 22) ≠ none ∧ s.posy (posyKey core 23) = none) →
    (bayFree s core (slot % 4) < r.wbase + r.wsize → Idle (.posyForm core) s) ∧
    (r.wbase + r.wsize ≤ bayFree s core (slot % 4) → Does (.posyForm core) s fun t => ∃ p, t.posy (posyKey core slot) = some p ∧ p.team = team ∧
      p.frame = r.frame ∧ p.pc = r.pc ∧ p.wbase = r.wbase ∧ p.alloc = r.wbase + r.wsize ∧ p.phase = r.phase ∧
      (∀ f ∈ r.fibres.take 64, ∃ L, L < 64 ∧ p.holds L = true ∧ p.fid L = f.fid ∧ (∀ n, n ≠ 0 → p.pred n L = f.preds.getLsbD n) ∧
        (Tab.wf 0 f.regs = true → ∀ x, p.reg x L = Tab.get 0 f.regs x)) ∧
      KeepsMemory s t team)) ∧
  (∀ (core slot : Nat) (s : State) (e : Env), envAt s (posyKey core slot) = some e →
    let due := (∃ c, e.p.blocked = some c ∧ c + 4096 ≤ s.cycle) ∨ e.p.since + 65536 ≤ s.cycle
    let may := 22 ≤ slot ∧ (s.core core).fifo ≠ [] ∧ anyPending s e = false ∧ e.p.rep = none ∧ e.p.privileged = false ∧ e.t.running = true
    (¬(due ∧ may) → Idle (.rotation core slot) s) ∧
    (due → may → Does (.rotation core slot) s fun t => t.posy (posyKey core slot) = none ∧ ∃ tm id r, t.team e.p.team = some tm ∧
      Tab.get none tm.recs id = some r ∧ r.pc = e.p.pc ∧ r.frame = e.p.frame ∧ r.wbase = e.p.wbase ∧ r.kind = .rotated ∧
      (∀ L ∈ e.p.present, e.p.fid L ∈ r.fibres.map (·.fid)) ∧ (t.core e.t.core).fifo.getLast? = some (e.p.team, id) ∧
      KeepsMemory s t e.p.team))

/-- R308 to R312, R318, R422: the queue engine posts a trap record where the ring has room, takes a tail or puts the queue in error, reads
and checks the record at the head, writes LID and the capture entry once its dependency is met and, when those writes are
acknowledged, the head word, with which the launch runs (R312), and reads the dependency's signal. The model's choices: posts that a
queue owes are made after a disable too, and what becomes of the code of an error then (log entry 57); a dependency read on a page
that is absent or lacks the right fails the launch at once, and one on a migrating page waits (R315, log entry 124). -/
def Obligations.QueueSteps : Prop :=
  ∀ (q : Nat) (s : State),
    let x := s.queue q
    let get := fun (a n : Nat) => qRead s x.part x.vd a n
    ((∀ r ∈ s.traps, r.1 ≠ q) → Idle (.trapRecordPost q) s) ∧
    (∀ r tb hb b1 b2, s.traps.find? (fun r => r.1 == q) = some r → recordWaits s r.2 = false → get x.trapr 8 = .bytes tb b1 → get (x.trapr + 128) 8 = .bytes hb b2 →
      let n := (leNat tb + 2 ^ 64 - leNat hb) % 2 ^ 64
      (n = 256 → Idle (.trapRecordPost q) s) ∧
      (n ≠ 256 → ∀ s1 s2, qWrite s x.part x.vd (x.trapr + 256 + 64 * (leNat tb % 256)) (postedRecord s r.2) = some s1 →
        (qBusy s1 x.part x.vd (x.trapr + 256 + 64 * (leNat tb % 256)) = true → exec (.trapRecordPost q) s = .next s1) ∧
        (qBusy s1 x.part x.vd (x.trapr + 256 + 64 * (leNat tb % 256)) = false →
          qWrite s1 x.part x.vd x.trapr (leBytes 8 (leNat tb + 1)) = some s2 → Does (.trapRecordPost q) s fun t => t.traps = s2.traps.erase r ∧ t.mem = s2.mem))) ∧
    (x.enable = false ∨ x.tailDirty = false → Idle (.tailRead q) s) ∧
    (∀ bs b, x.enable = true → x.tailDirty = true → get x.taila 8 = .bytes bs b →
      (leNat bs < x.tail ∨ x.head + 2 ^ x.logsize < leNat bs → Does (.tailRead q) s fun t => (t.queue q).enable = false ∧
        ∃ rec, t.traps = s.traps ++ [(q, rec)] ∧ rec.getD 0 0 = 1) ∧
      (x.tail ≤ leNat bs → leNat bs ≤ x.head + 2 ^ x.logsize → Does (.tailRead q) s fun t => (t.queue q).tail = leNat bs ∧ (t.queue q).tailDirty = false ∧
        (t.queue q).head = x.head ∧ t.mem = s.mem)) ∧
    (∀ csig code, x.owed = [.error csig code] → csig ≠ 0 → csig % 8 = 0 → x.enable = false → x.sending = false →
      (postReady s x = false → Does (.dispatch q) s fun t => (t.queue q).owed = x.owed ∧ t.mem = s.mem) ∧
      (∀ s1, postReady s x = true → qSignal s x.part x.vd csig (fun _ => 2 ^ 63 + code) = some s1 →
        Does (.dispatch q) s fun t => (t.queue q).owed = [] ∧ t.mem = s1.mem)) ∧
    (x.owed = [] → x.enable = false ∧ x.sending = false ∨ x.tail ≤ x.head → Idle (.dispatch q) s) ∧
    (x.owed = [] → x.head < x.tail → s.vd x.part x.vd ≠ none → ∀ r h c lid lines, x.hs = .sent r h c lid lines →
      ((∃ l ∈ lines, isMerging s l none = true) → Idle (.dispatch q) s) ∧
      (∀ s3, (∀ l ∈ lines, isMerging s l none = false) → qWrite s x.part x.vd (x.taila + 128) (leBytes 8 (x.head + 1)) = some s3 →
        Does (.dispatch q) s fun t => (t.queue q).head = x.head + 1 ∧ (t.queue q).hs = .unread ∧
          ∀ k, h = some k → t.mem = s3.mem ∧ ∃ l, t.launch lid = some l ∧ l.r = r ∧ l.h = k ∧ l.queue = q)) ∧
    (x.owed = [] → x.enable = true → x.head < x.tail → s.vd x.part x.vd ≠ none →
      (∀ bs hb b2, x.hs = .unread → (∀ e ∈ (s.die (engineDie s x.part)).entries, e.st ≠ .replay) → get (headVa x) 128 = .bytes bs false → get (((LRec.ofBytes bs).entry + 2 ^ 64 - 32) % 2 ^ 64) 32 = .bytes hb b2 →
        let r := LRec.ofBytes bs
        let c := headCode s q x r hb b2
        Does (.dispatch q) s fun t => (t.queue q).hs = (if c = 0 then .ok r (KHdr.ofBytes hb) else .failed r c) ∧ t.mem = s.mem) ∧
      (∀ r h, x.hs = .ok r h → (r.dep = true ∧ (x.depMet = false ∨ x.depDirty = true)) ∨ (r.serial = true ∧ queueBusy s q = true) → Idle (.dispatch q) s) ∧
      (∀ r h s1 s2 s3, x.hs = .ok r h → (r.dep = true → x.depMet = true ∧ x.depDirty = false) → ¬(r.serial = true ∧ queueBusy s q = true) →
        let lid := s.lastLid + 1
        let r' := { r with bytes := r.bytes.take 80 ++ leBytes 8 lid ++ r.bytes.drop 88 }
        let lines := dispatchLines s x r'
        qWrite s x.part x.vd (headVa x + 80) (leBytes 8 lid) = some s1 → capture s1 q lid r' = some s2 →
        ((∃ l ∈ lines, isMerging s2 l none = true) → Does (.dispatch q) s fun t => t.lastLid = lid ∧ t.mem = s2.mem ∧
          (t.queue q).hs = .sent r (some h) 0 lid lines ∧ (t.queue q).head = x.head) ∧
        ((∀ l ∈ lines, isMerging s2 l none = false) →
          qWrite { s2.modQueue q (fun x => { x with hs := .sent r (some h) 0 lid lines }) with lastLid := lid } x.part x.vd (x.taila + 128)
            (leBytes 8 (x.head + 1)) = some s3 →
          Does (.dispatch q) s fun t => t.lastLid = lid ∧ t.mem = s3.mem ∧ (t.queue q).head = x.head + 1 ∧
            ∃ l, t.launch lid = some l ∧ l.r = r ∧ l.h = h ∧ l.queue = q ∧ l.vd = x.vd ∧
            l.part = x.part ∧ l.prio = min r.prio x.prio ∧ l.next = 0 ∧ l.retired = 0 ∧ l.started = !r.timed))) ∧
    (∀ r h, x.hs = .ok r h → x.enable = false ∨ r.dep = false ∨ x.depDirty = false → Idle (.dependencyRead q) s) ∧
    (∀ r h bs bad, x.hs = .ok r h → x.enable = true → r.dep = true → x.depDirty = true → get r.dsig 8 = .bytes bs bad →
      Does (.dependencyRead q) s fun t => t.mem = s.mem ∧
        (bad = true → (t.queue q).hs = .failed r 8) ∧
        (bad = false → leNat bs / 256 = 2 ^ 55 → (t.queue q).hs = .failed r 7) ∧
        (bad = false → leNat bs / 256 ≠ 2 ^ 55 → (t.queue q).depDirty = false ∧
          ((t.queue q).depMet = true ↔ readInt 64 true (leNat bs) ≤ r.dval))) ∧
    (∀ r h f va, x.hs = .ok r h → x.enable = true → r.dep = true → x.depDirty = true → get r.dsig 8 = .fail f va →
      (f.cause = .migrating → Idle (.dependencyRead q) s) ∧
      (f.cause ≠ .migrating → Does (.dependencyRead q) s fun t => t.mem = s.mem ∧ (t.queue q).hs = .failed r 8))

/-- R32 to R34, R141, R321 to R324, R237, R238, R316, R317, R326, R327: a launch whose turn it is places its team, with its fibres in launch slots and
its first registers; a split changes on an empty core; a timed launch starts; a team without work retires and a launch without teams ends;
the watchdog ends a queue's launches; a launch that fits nowhere has teams of lower priority saved. The model's choices: which
waiting launch a core serves first and the split that one launch has taken (log entry 61), and the teams saved for it (log entry 70). -/
def Obligations.LaunchSteps : Prop :=
  (∀ (s s1 : State) (lid place core : Nat) (l : Launch), placeTeam s lid l place core = some s1 → ∃ tm, s1.team s.nextTeam = some tm ∧
    tm.lid = lid ∧ tm.idx = l.next ∧ tm.core = core ∧ tm.place = place ∧ tm.vd = l.vd ∧ tm.queue = l.queue ∧ tm.nextFid = l.r.fibres ∧
    s1.launch lid = some { l with next := l.next + 1 } ∧
    ∀ j, 64 * j < l.r.fibres → (∃ f, tm.frame j = some f ∧ f.refs = min 64 (l.r.fibres - 64 * j) ∧ f.sreg 0 = b64 l.next ∧ f.sreg 1 = b64 l.r.teams ∧
        f.sreg 2 = b64 l.r.args ∧ f.sreg 3 = b64 l.r.fibres ∧ f.sreg 4 = b64 l.queue ∧ f.sreg 5 = b64 lid ∧ ∀ n, 6 ≤ n → f.sreg n = 0) ∧
      ∃ slot p, slot < 22 ∧ s1.posy (posyKey core slot) = some p ∧ p.team = s.nextTeam ∧ p.frame = j ∧ p.pc = l.r.entry ∧ p.alloc = 8 * l.r.regs ∧
        p.wbase = 0 ∧ p.v = [] ∧ p.tags = [] ∧ p.preds = [] ∧ ∀ L, L < 64 → (p.holds L = true ↔ 64 * j + L < l.r.fibres) ∧ (p.holds L = true → p.fid L = 64 * j + L)) ∧
  (∀ (lid : Nat) (s : State) (l : Launch), s.launch lid = some l →
    (l.r.teams ≤ l.next ∨ turnToPlace s lid l = false → Idle (.placement lid) s ∧ Idle (.priorityPreempt lid) s) ∧
    (∀ s1, l.next < l.r.teams → turnToPlace s lid l = true → placeNow s lid l = some s1 → Does (.placement lid) s fun t =>
      t.teams = s1.teams ∧ t.posies = s1.posies ∧ t.launches = s1.launches ∧ t.mem = s1.mem) ∧
    (l.next < l.r.teams → turnToPlace s lid l = true → placeOne s lid l (fun _ => true) = none → Does (.priorityPreempt lid) s fun t =>
      ∀ v ∈ chooseVictims s lid l, ∀ tm, t.team v.1 = some tm → tm.save ≠ .resident) ∧
    (l.r.start ≤ s.time → exec (.timedStart lid) s = .next (s.setLaunch lid (some { l with started := true }))) ∧
    (s.time < l.r.start → Idle (.timedStart lid) s) ∧
    (l.retired < l.r.teams ∨ l.snap ≠ [] → Idle (.launchComplete lid) s) ∧
    (l.r.teams ≤ l.retired → l.snap = [] → l.r.csig = 0 → Does (.launchComplete lid) s fun t => t.launch lid = none ∧ (t.queue l.queue).wd = 0 ∧ t.mem = s.mem) ∧
    (∀ s1, l.r.teams ≤ l.retired → l.snap = [] → l.r.csig ≠ 0 → qSignal s l.part l.vd l.r.csig (fun v => v + 2 ^ 64 - 1) = some s1 →
      Does (.launchComplete lid) s fun t => t.launch lid = none ∧ t.mem = s1.mem)) ∧
  (∀ (core lid : Nat) (s : State) (l : Launch), servedFirst s core = some (lid, l) →
    let c := s.core core
    let first := c.taken ≠ lid ∧ ∃ k, s.launch c.taken = some k ∧ k.next < k.r.teams ∧ turnToPlace s c.taken k = true
    (first → Idle (.splitChange core) s) ∧
    (c.lsplit = l.r.split → ¬first → exec (.splitChange core) s = .next (s.setCore core
      { c with waiting := c.waiting.erase lid, taken := lid, splitting := false })) ∧
    (c.lsplit ≠ l.r.split → teamsOn s core ≠ [] ∨ slicePending s core = true → Idle (.splitChange core) s) ∧
    (c.lsplit ≠ l.r.split → teamsOn s core = [] → slicePending s core = false → ¬first → l1Clean s core = false → Does (.splitChange core) s fun t =>
      (t.core core).splitting = true ∧ (t.core core).lsplit = c.lsplit ∧ t.mem = s.mem) ∧
    (c.lsplit ≠ l.r.split → teamsOn s core = [] → slicePending s core = false → ¬first → l1Clean s core = true → Does (.splitChange core) s fun t =>
      (t.core core).lsplit = l.r.split ∧ (t.core core).l1 = [] ∧ (t.core core).taken = lid ∧ (t.core core).gmap = [] ∧
      (t.core core).splitting = false)) ∧
  (∀ (core : Nat) (s : State), servedFirst s core = none → (s.core core).splitting = false → Idle (.splitChange core) s) ∧
  (∀ (id : Nat) (s : State) (tm : Team), s.team id = some tm →
    (teamDone s id tm = false → Idle (.teamRetire id) s) ∧
    (teamDone s id tm = true → Does (.teamRetire id) s fun t => t.team id = none ∧ ∀ l, s.launch tm.lid = some l → ∃ l', t.launch tm.lid = some l' ∧
      l'.retired = l.retired + 1 ∧ l'.next = l.next ∧ l'.k = some (l.k.getD l.next))) ∧
  (∀ (q : Nat) (s : State),
    let x := s.queue q
    let ends := (∃ e ∈ Tab.live s.launches, e.2.queue = q ∧ (launchComplete s e.1).launch e.1 = none) ∨
      ∃ e ∈ Tab.live s.teams, ∃ l, e.2.queue = q ∧ s.launch e.2.lid = some l ∧ l.r.teams ≤ l.retired + 1 ∧ teamDone s e.1 e.2 = true
    (x.timeout = 0 ∨ x.wd < 1000 * x.timeout ∨ queueBusy s q = false ∨ ends → Idle (.watchdogExpiry q) s) ∧
    (x.timeout ≠ 0 → 1000 * x.timeout ≤ x.wd → queueBusy s q = true → ¬ends → Does (.watchdogExpiry q) s fun t => (t.queue q).wd = 0 ∧
      ∀ lid l, s.launch lid = some l → l.queue = q → t.launch lid = none))

/-- R426 to R428, R430, R436, R441, R239: a slice ends; a core goes to its next virtual device; a posy of a team being saved enters its handler; the
context engine saves by force; a saved team comes back and its posies start together. The model's choices: the STATE that the header
shows at handler entry (log entry 65), which fields come from the image (log entry 63), saves and restores in one step (log
entry 69), the order in which teams come back (log entry 70), and the granules that the teams of a slice have from the switch on
(log entry 71). -/
def Obligations.ContextSteps : Prop :=
  (∀ (core n : Nat) (s : State) (v : Vd),
    let c := s.core core
    let slice := c.sliceAt + 1000 * v.slice
    (c.nextVd ≠ none → Idle (.sliceEnd core) s) ∧
    (c.nextVd = none → core < 192 → c.vd.bind (fun k => Tab.get none s.vds k) = some v →
      (s.time < slice → Idle (.sliceEnd core) s) ∧
      ((∀ x ∈ teamsOn s core, ∀ tm, s.team x.1 = some tm → tm.save ≠ .restoring) → slice ≤ s.time →
        (nextVdFor s core (c.vd.map (· % 64)) = none → exec (.sliceEnd core) s = .next (s.setCore core { c with sliceAt := s.time })) ∧
        (nextVdFor s core (c.vd.map (· % 64)) = some n → Does (.sliceEnd core) s fun t => (t.core core).nextVd = some (vdKey (partOfCore s core) n) ∧
          ∀ x ∈ teamsOn s core, ∀ tm, t.team x.1 = some tm → tm.save ≠ .resident)))) ∧
  (∀ (core k : Nat) (s s1 s2 : State) (v : Vd) (bars : Tab (BitVec 64)), (s.core core).nextVd = some k → s.vd (k / 64) (k % 64) = some v →
    (teamsOn s core ≠ [] → Idle (.vdSwitch core) s) ∧
    (teamsOn s core = [] → l1Clean s core = true → barsIn s core (k / 64) (k % 64) v = (s1, some bars) → switchOut s1 core = (s2, true) →
      Does (.vdSwitch core) s fun t => let c := t.core core
        let mine := fun (x : Nat × Team) => x ∈ Tab.live t.teams ∧ x.2.core = core ∧ x.2.part = k / 64 ∧ x.2.vd = k % 64 ∧ x.2.save = .saved false
        c.vd = some k ∧ c.nextVd = none ∧ c.bars = bars ∧ c.sliceAt = s.time ∧ c.splitting = false ∧
        (∀ n, Tab.get 0 v.splits core = n + 1 → c.lsplit = n) ∧ (∀ g id j, Tab.get none c.gmap g = some (id, j) → ∃ tm, mine (id, tm)) ∧
        ∀ id tm, mine (id, tm) → (∀ x, mine x → x = (id, tm)) → tm.salloc / 4096 ≤ 16 * c.lsplit → granulesOf t core id = tm.salloc / 4096)) ∧
  (∀ (core slot : Nat) (s s1 : State) (e : Env) (m : Image) (since : Nat) (b : Bool), envAt s (posyKey core slot) = some e →
    e.t.save = .saving since b → e.t.image slot = some m →
    let h := (s.queue e.t.queue).saveh
    (h = 0 ∨ e.t.stopped ≠ none ∨ budgetLeft s e.t = 0 ∨ e.p.hd.mode ≠ .none → Idle (.handlerEntry core slot) s) ∧
    (h ≠ 0 → e.t.stopped = none → budgetLeft s e.t ≠ 0 → e.p.hd.mode = .none → e.p.joining = false → ctxWrite s e.p.team [(e.t.header + 14, [1])] = (s1, true) →
      Does (.handlerEntry core slot) s fun t => ∃ p, t.posy (posyKey core slot) = some p ∧ p.pc = h ∧ p.hd.mode = .save ∧ p.hd.hepc = e.p.pc ∧
        p.hd.hcause = 0x10 ∧ p.hd.hrep = BitVec.ofNat 8 (repByte e.p) ∧ p.hd.ctxbase = m.off ∧ p.rep = none ∧ p.lanes = e.p.lanes ∧ p.preds = e.p.preds)) ∧
  (∀ (team : Nat) (s : State) (tm : Team), s.team team = some tm →
    (mustForce s team tm = false → Idle (.budgetExpiry team) s) ∧
    (mustForce s team tm = true → (s.core tm.core).held.contains team = false →
      let x := ctxWrite s team [(tm.header + 14, [1])]
      (x.2 = false → exec (.budgetExpiry team) s = .next x.1) ∧
      (x.2 = true → Does (.budgetExpiry team) s fun t => t.mem = x.1.mem ∧ (t.core tm.core).held.contains team = true)) ∧
    (mustForce s team tm = true → (s.core tm.core).held.contains team = true → s.posiesOf team = [] → kilnQuiet s tm.core team = true →
      let x := ctxWrite s team (teamWrites s team tm true)
      (x.2 = false → exec (.budgetExpiry team) s = .next x.1) ∧
      (x.2 = true → Does (.budgetExpiry team) s fun t => ∃ tm', t.team team = some tm' ∧ tm'.occupies = false ∧ tm'.forced = true ∧ tm'.scratch = [] ∧
        tm'.tiles = []))) ∧
  (∀ (team : Nat) (s s1 s2 : State) (tm t1 : Team) (bs cs : List (List Byte)), s.team team = some tm →
    (tm.occupies = true ∨ tm.stopped ≠ none ∨ tm.retagged ≠ [] → Idle (.restore team) s) ∧
    (restorable s tm = true → splitFor s tm = none →
      (fitSaved s team = none ∨ restoresFirst s team tm = true ∨ placesFirst s tm = true ∨ wholeFits s tm = false → Idle (.restore team) s) ∧
      (fitSaved s team ≠ none → restoresFirst s team tm = false → placesFirst s tm = false → wholeFits s tm = true →
        let g := tm.salloc / 4096
        let n := tm.images.length
        let r1 := ctxRead s team ((tm.header, 8192) :: (List.range g).map (fun i => (tm.sunit (tm.sunits.getD i 0), 4096)) ++
          tm.images.map (fun m => (m.off, 512)) ++ tm.images.map fun m => (m.off + 13184, 256))
        r1.2 = some bs →
        let h := bs.headD []
        let xs : List ImageIn := ((List.range n).zip tm.images).map fun y =>
          { m := y.2, h := bs.getD (1 + g + y.1) [], lf := bs.getD (1 + g + n + y.1) [] }
        let whole := xs.filter fun x => wholeImage (s.queue tm.queue).resth x.h
        let ts := if tm.forced || !whole.isEmpty then (List.range tm.ktiles).filter (fun k => tm.forced || (bytesAt h 104 4).testBit k) else []
        let r2 := ctxRead r1.1 team (whole.flatMap wholeRanges ++ ts.map fun k => (tm.tunit (tm.tunits.getD k 0), 16384))
        r2.2 = some cs → ctxWrite r2.1 team [(tm.header + 14, [3])] = (s1, true) → fitSaved s1 team = some s2 → s2.team team = some t1 →
        Does (.restore team) s fun t => ∃ tm', t.team team = some tm' ∧ tm'.save = t1.save ∧ tm'.fctl = BitVec.ofNat 32 (bytesAt h 96 4) &&& 7 ∧
          (let base := fun i => b64 (bytesAt h i 8 % 2 ^ 52)
           let lim := fun i => b64 (bytesAt h i 8) &&& ~~~(b64 (0xFF * 2 ^ 53))
           (segldBad t1 .glb (base 16) (lim 24) = false → tm'.glb = { base := base 16, lim := lim 24 }) ∧
           (segldBad t1 .spn (base 64) (lim 72) = false → tm'.spn = { base := base 64, lim := lim 72 })) ∧
          tm'.arm = BitVec.ofNat 6 (bytesAt h 101 1) ∧ tm'.scratch = Tab.ofList 0 0 ((bs.drop 1).take g).flatten ∧
          tm'.nextFid = bytesAt h 136 4 ∧ bytesAt h 144 8 < (t.core t1.core).seq ∧
          ∃ u, u = { s2 with posies := u.posies } ∧
            (t.core t1.core).fifo = (s2.core t1.core).fifo ++ (takeDescriptor u team t1 ((h.drop 112).take 64)).2.map fun r => (team, r)))) ∧
  (∀ (team : Nat) (s s1 : State) (tm : Team), s.team team = some tm →
    let room := ringUsed (s.core tm.core) + tm.savedTasks.length ≤ 64
    (tm.save ≠ .restoring ∨ (∃ x ∈ s.posiesOf team, x.2.hd.mode ≠ .held) ∨ ¬room → Idle (.restoreEnd team) s) ∧
    (tm.save = .restoring → (∀ x ∈ s.posiesOf team, x.2.hd.mode = .held) → room → ctxWrite s team [(tm.header + 14, [0])] = (s1, true) →
      Does (.restoreEnd team) s fun t => (∀ x ∈ s.posiesOf team, ∀ p, t.posy x.1 = some p → p.hd.mode = .none) ∧
        ∃ tm', t.team team = some tm' ∧ tm'.save = .resident ∧ tm'.images = [] ∧ tm'.nacks = [])) ∧
  (∀ (team idx : Nat) (s s1 : State) (tm : Team) (o : Owed), s.team team = some tm → tm.retagged[idx]? = some o →
    (owedDone tm o = false → Idle (.retaggedCompletion team idx) s) ∧
    ((∀ r ∈ tm.reqs, ¬(r.seq = o.seq ∧ r.sub = o.sub)) → (∀ l ∈ tm.loads, l.seq ≠ o.seq) → ∀ m, tm.image o.slot = some m →
      ctxWrite s team (owedCounts m.off o.slot (tm.retagged.eraseIdx idx)) = (s1, true) →
      Does (.retaggedCompletion team idx) s fun t => t.mem = s1.mem ∧ ∃ tm', t.team team = some tm' ∧ tm'.retagged = tm.retagged.eraseIdx idx))

/-- R229, R256, R275 to R289, R247: a request that may leave takes its effect (a load binds, a store to scratch lands, a store to memory enters
the write buffer), a reply writes its registers, and write-backs, merges, invalidations, fills, recalls and atomics do what they do to the caches
and to memory. The model's choices: where a load binds (log entry 23), and that a write-back which a closed port refuses drops its bytes
(log entry 91). -/
def Obligations.OrderSteps : Prop :=
  (∀ (team idx : Nat) (s : State) (tm : Team) (r : Req) (l : Leaf) (c : PageCls) (w : Width), s.team team = some tm → tm.reqs[idx]? = some r →
    let held := unsent s tm r = true ∨ replayBehind s team r = true
    (r.stage ≠ .queued → Idle (.requestLeave team idx) s) ∧
    (r.stage = .queued → r.kind.isMem = true → held ∨ verdict s tm r = .wait → Idle (.requestLeave team idx) s) ∧
    (r.stage = .queued → ¬held → verdict s tm r = .go l (c, w) →
      (r.kind = .load → r.scratch = true → Does (.requestLeave team idx) s fun t => ReqIs t team idx fun q => q.stage = .replied ∧
        q.reply = (List.range r.size).map fun i => (r.addr + i, if Tab.get false tm.spoison ((r.addr + i) / 8) then 0xFF else Tab.get 0 tm.scratch (r.addr + i))) ∧
      (r.kind = .store → r.scratch = true → (r.data.map (·.1)).Nodup → Does (.requestLeave team idx) s fun t => ∃ tm', t.team team = some tm' ∧
        (∀ x ∈ r.data, Tab.get 0 tm'.scratch x.1 = x.2) ∧ (∀ a, a ∉ r.data.map (·.1) → Tab.get 0 tm'.scratch a = Tab.get 0 tm.scratch a) ∧
        tm'.reqs = tm.reqs.filter fun q => !(q.seq == r.seq && q.sub == r.sub)) ∧
      (r.scratch = false → reaches s (dieOf r.core) (l.pa_ r.addr) = true → (∃ d, paKind (l.pa_ r.addr) = .hbm d) →
        touchesRegion s tm l r = false → ¬(c = .so ∧ w ≠ .core) →
        (r.kind = .load → (∀ i, i < r.size → bindWaits s r.core (l.pa_ r.addr + i) = false) → Does (.requestLeave team idx) s fun t =>
          ReqIs t team idx fun q => q.stage = .replied ∧ q.reply = (List.range r.size).map fun i => (r.addr + i, (bindByte s r.core (l.pa_ r.addr + i)).1)) ∧
        (r.kind = .store → bufferBytes s r.core team (paBytes l r) (w == .core) = none → Does (.requestLeave team idx) s fun t => t.mem = s.mem ∧
          ReqIs t team idx fun q => q.stage = .queued ∧ q.seq = r.seq ∧ q.sub = r.sub ∧ q.data = r.data) ∧
        (r.kind = .store → r.rel = false → r.replay = false → (r.data.map fun x => l.pa_ x.1).Nodup →
          (∃ s1, bufferBytes s r.core team (paBytes l r) (w == .core) = some s1 ∧ ∀ x ∈ r.data,
            (s1.cline (.l1 r.core) (lineOf (l.pa_ x.1))).poison.getLsbD (l.pa_ x.1 % 128 / 8) = false) → Does (.requestLeave team idx) s fun t =>
          t.mem = s.mem ∧ (∀ x ∈ r.data, let y := t.cline (.l1 r.core) (lineOf (l.pa_ x.1))
            y.read (l.pa_ x.1 % 128) = x.2 ∧ y.dirty.getLsbD (l.pa_ x.1 % 128) = true) ∧
          ∃ tm', t.team team = some tm' ∧ ∀ q ∈ tm'.reqs, ¬(q.seq = r.seq ∧ q.sub = r.sub))))) ∧
  (∀ (team idx : Nat) (s : State) (tm : Team) (r : Req) (o : LoadOp) (size : Nat) (f : Fmt) (k : Nat) (p : Posy),
    s.team team = some tm → tm.reqs[idx]? = some r → r.stage = .replied → r.kind = .load → r.discard = false → (∀ o ∈ tm.retagged, ¬(o.seq = r.seq ∧ o.sub = r.sub)) →
    (∀ q ∈ tm.reqs, q.seq = r.seq → q.sub = r.sub) → tm.loads.find? (fun x => x.seq == r.seq) = some o → o.through = [] → o.kind = .plain size f → o.dcls = .v →
    posyOf s o.uid = some (k, p) → Tab.get none s.posies k = some p → (o.lanes.map (·.lane)).Nodup →
    Does (.requestReply team idx) s fun t => ∃ p' tm', t.posy k = some p' ∧ t.team team = some tm' ∧ (∀ q ∈ tm'.reqs, q.seq ≠ r.seq) ∧
      (∀ y ∈ tm'.loads, y.seq ≠ o.seq) ∧
      ∀ x ∈ o.lanes, x.lane < 64 → Tab.get none p.lanes x.lane = some x.fid →
        let got := o.got ++ r.reply.map fun y => (r.sub, y.1, y.2)
        let bytes := (List.range size).map fun i => ((got.find? fun y => y.2.1 == x.addr + i && x.subs.contains y.1).map (·.2.2)).getD 0xFF
        (size ≤ 4 → p'.reg o.dst x.lane = b32 (if f = .i32 ∧ size < 4 then wrapInt 32 (readInt (8 * size) true (leNat bytes)) else leNat bytes)) ∧
        (4 < size → ∀ j, j < size / 4 → p'.reg (o.dst + j) x.lane = b32 (leNat ((bytes.drop (4 * j)).take 4)))) ∧
  (∀ (who : Sharer) (line : Nat) (s : State), who ≠ .host →
    let x := s.cline who line
    let free := (∀ w ∈ s.wbs, ¬(w.from_ = who ∧ w.line = line)) ∧ x.sent = 0 ∧ ∀ d, who = .rdc d → isMerging s line (some d) = false
    (x.dirty = 0 ∨ ¬free → Idle (.writeBack who line) s) ∧
    (x.dirty ≠ 0 → free → wbRefused s who line = true → Does (.writeBack who line) s fun t => t.wbs = s.wbs ∧ (t.cline who line).dirty = 0 ∧
      t.mem = s.mem) ∧
    (x.dirty ≠ 0 → free → wbRefused s who line = false → Does (.writeBack who line) s fun t => ∃ w, t.wbs = s.wbs ++ [w] ∧ w.from_ = who ∧ w.line = line ∧ w.parent = parentOf who line ∧
      w.bytes = ((List.range 128).filter fun i => x.dirty.getLsbD i).map (fun i => (i, Tab.get 0 x.data i)) ∧
      (t.cline who line).dirty = 0 ∧ (t.cline who line).sent = x.dirty ∧ t.mem = s.mem) ∧
    let reaches := fun (m : Merging) => m.line = line ∧ who ∈ m.wait ∧ ¬(who ∈ m.held ∧ cutOff s line who = true)
    ((∃ m ∈ s.merging, reaches m) → Does (.invalidation who line) s fun t => (t.cline who line).valid = 0 ∧ t.mem = s.mem) ∧
    ((∀ m ∈ s.merging, ¬reaches m) → Idle (.invalidation who line) s) ∧
    (∀ sector, sector < 4 → fillWanted s who line sector = false ∨ x.valid.getLsbD sector = true → Idle (.fill who line sector) s) ∧
    (∀ sector, sector < 4 → fillWanted s who line sector = true → x.valid.getLsbD sector = false → canHold s who line = true →
      parentOf who line = none → isMerging s line none = false → (makeRooms s who line).isSome = true → Does (.fill who line sector) s fun t =>
      (t.cline who line).valid.getLsbD sector = true ∧ t.mem = s.mem ∧
      ∀ i, 32 * sector ≤ i → i < 32 * sector + 32 → x.busy i = false → (t.cline who line).read i = s.homeByte (128 * line + i))) ∧
  (∀ (idx : Nat) (s : State) (w : WBack), s.wbs[idx]? = some w →
    let blocked := isMerging s w.line w.parent = true ∨ ∃ v ∈ s.wbs.take idx, v.line = w.line ∧ v.parent = w.parent
    (blocked → Idle (.merge idx) s) ∧
    (¬blocked → w.parent = none → (w.bytes.map (·.1)).Nodup → Does (.merge idx) s fun t => (∃ more, t.wbs = s.wbs.eraseIdx idx ++ more) ∧
      Stored s t (w.bytes.map fun x => (128 * w.line + x.1, x.2)))) ∧
  (∀ (line : Nat) (s : State),
    Does (.directoryEvict line) s fun t => t.mem = s.mem ∧
      (∀ who ∈ holders s line, cutOff s line who = false → (s.cline who line).unmerged = false →
        (t.cline who line).valid = 0 ∧ (t.cline who line).unmerged = false) ∧
      (∀ who ∈ holders s line, cutOff s line who = true → (t.cline who line).valid = (s.cline who line).valid ∧
        (t.cline who line).dirty = (s.cline who line).dirty) ∧
      (∀ who ∈ holders s line, (s.cline who line).unmerged = true → (t.cline who line).unmerged = true) ∧
      (∀ who, who ∉ holders s line → (t.cline who line).valid = (s.cline who line).valid ∧ (t.cline who line).dirty = (s.cline who line).dirty)) ∧
  (∀ (team idx : Nat) (s : State) (tm : Team) (r : Req), s.team team = some tm → tm.reqs[idx]? = some r → r.stage = .atHome → r.kind = .atomic →
    (isMerging s (lineOf r.pa) none = true → Idle (.atomicPerform team idx) s) ∧
    (isMerging s (lineOf r.pa) none = false → (∀ m ∈ s.merging, m.req ≠ some (team, r.seq, r.sub)) → r.pcls ≠ .bv →
      (∀ i, i < r.size → s.poisoned (r.pa + i) = false) → r.pa % 128 + r.size ≤ 128 →
      let old := leNat ((List.range r.size).map fun i => s.byte (r.pa + i))
      Does (.atomicPerform team idx) s fun t =>
        Stored s t ((List.range r.size).map fun i => (r.pa + i, (leBytes r.size (atomAll r old r.opnds).2.1).getD i 0)) ∧
        ReqIs t team idx fun q => q.olds = (atomAll r old r.opnds).1))

/-- R27, R260, R297, R298: a drain empties a holder's deltas and tracker and keeps its grant, and one under the authority, its link
open, adds each delta to its word; a recall returns the grant as well, but one that comes to an RDC across a closed link waits; a load
of region words is answered. The model's choices: that wait, and deltas dropped behind a closed link (log entry 91), and one recall in
a step of a region load (log entry 25). -/
def Obligations.BoundedSteps : Prop :=
  (∀ (k : ShareKey) (s : State),
    let drains := fun (i : Instr) => Does i s fun t => (share t k).deltas = [] ∧ (share t k).t = 0 ∧ (share t k).g = (share s k).g ∧
      ∀ va d pa, parentKey k = none → holderCut s k = false → (share s k).deltas = [(va, d)] → Tab.get 0 (share s k).pas va = pa → s.poisoned pa = false →
        (∀ j, j < 4 → isMem (pa + j) = true) →
        Stored s t ((List.range 4).map fun j => (pa + j, (leBytes 4 (addF .rne (b32 (leNat ((List.range 4).map fun m => s.homeByte (pa + m)))) d).toNat).getD j 0))
    let waits := holderCut s k = true ∧ ∃ d, k.who = .rdc d
    let recalls := fun (i : Instr) => Does i s fun t => (waits → (share t k).g = (share s k).g ∧ (share t k).deltas = (share s k).deltas) ∧
      (¬waits → (share t k).g = 0 ∧ (share t k).deltas = [] ∧ (share t k).t = 0)
    drains (.deltaDrain k.who k.vd k.base k.home) ∧ drains (.holderReturn k.who k.vd k.base k.home false) ∧
    recalls (.shareRecall k.who k.vd k.base k.home) ∧ recalls (.holderReturn k.who k.vd k.base k.home true)) ∧
  (∀ (team idx : Nat) (s : State) (tm : Team) (r : Req), s.team team = some tm → tm.reqs[idx]? = some r →
    (r.stage ≠ .atHome ∨ r.kind ≠ .load ∨ isMerging s (lineOf r.pa) none = true → Idle (.regionLoadAnswer team idx) s) ∧
    let l : Leaf := { pa := r.pa - r.addr % pageBytes r.pgsz, pgsz := r.pgsz, cls := r.pcls }
    let owed := wordsRecall s tm r l (wordsTouched r.addr r.size)
    (∀ s1, r.stage = .atHome → r.kind = .load → isMerging s (lineOf r.pa) none = false → owed = some s1 →
      exec (.regionLoadAnswer team idx) s = .next s1) ∧
    (r.stage = .atHome → r.kind = .load → isMerging s (lineOf r.pa) none = false → owed = none → Does (.regionLoadAnswer team idx) s fun t =>
      ReqIs t team idx fun q => q.stage = .replied ∧ q.reply.map (·.1) = (List.range r.size).map (r.addr + ·)))

/-! ## Steps of the park store -/

/-- R300, R363 to R374: a request that fails translation parks where there is room, with its cause and a record, and is
refused where there is none; 256 cycles later the refused request is tried again; the record with the lowest PSEQ goes to
a ring with room; a follower takes the next leader, or replays; an entry in replay leaves when its request is complete;
RELEASE, ABORT and PURGE act on the entries in their scope and end with their count. -/
def Obligations.ParkSteps : Prop :=
  (∀ (team idx : Nat) (s : State) (tm : Team) (r : Req), s.team team = some tm → tm.reqs[idx]? = some r →
    let held := unsent s tm r = true ∨ replayBehind s team r = true
    (r.stage = .queued → (r.kind = .load ∨ r.kind = .store ∨ r.kind = .atomic ∨ r.kind = .acc ∨ r.kind = .sig) →
      (held ∨ verdict s tm r = .wait ∨ (∃ l o, verdict s tm r = .go l o) → Idle (.park team idx) s) ∧ (¬held →
      (∀ f o, verdict s tm r = .fail f o → ParksOrNot (.park team idx) s team idx r f.cause none) ∧
      (∀ q o, verdict s tm r = .follow q o → ParksOrNot (.park team idx) s team idx r .order (some (pseqOf q))))) ∧
    (∀ n, r.stage = .refused n →
      (s.cycle < n + 256 ∨ held → Idle (.parkRetry team idx) s) ∧
      (n + 256 ≤ s.cycle → ¬held → (∀ f o, verdict s tm r = .fail f o → ParksOrNot (.parkRetry team idx) s team idx r f.cause none) ∧
        (∀ l o, verdict s tm r = .go l o → exec (.parkRetry team idx) s = .next (goReq s team tm r l o)) ∧
        (verdict s tm r = .wait → Idle (.parkRetry team idx) s))) ∧
    (r.stage ≠ .queued → Idle (.park team idx) s) ∧ ((∀ n, r.stage ≠ .refused n) → Idle (.parkRetry team idx) s)) ∧
  (∀ (d : Nat) (s : State),
    let x := s.die d
    let full := x.frTail - dieLoad64 s d (x.frWords.toNat + 128) = 2 ^ x.frCfg.toNat
    let lands := fun pa => isMem pa = true ∧ reaches s d pa = true
    (x.pending = [] ∨ full → Idle (.faultRecordPost d) s) ∧
    (x.pending ≠ [] → ¬full → ∃ r ∈ x.pending, (∀ q ∈ x.pending, r.pseq ≤ q.pseq) ∧
      let at_ := x.frBase.toNat + 64 * (x.frTail % 2 ^ x.frCfg.toNat)
      let s1 := dieStore s d ((List.range (r.bytes.take 48 ++ leBytes 8 x.rseq ++ r.bytes.drop 56).length).map fun i =>
        (at_ + i, (r.bytes.take 48 ++ leBytes 8 x.rseq ++ r.bytes.drop 56).getD i 0))
      (isMerging s (lineOf at_) none = true → Idle (.faultRecordPost d) s) ∧
      (isMerging s (lineOf at_) none = false → isMerging s1 (lineOf at_) none = true → exec (.faultRecordPost d) s = .next s1) ∧
      (isMerging s (lineOf at_) none = false → isMerging s1 (lineOf at_) none = false → Does (.faultRecordPost d) s fun t =>
      (t.die d).rseq = x.rseq + 1 ∧ (t.die d).frTail = x.frTail + 1 ∧ (t.die d).pending = x.pending.erase r ∧ (t.die d).entries = x.entries ∧
      ((∀ e ∈ x.entries, e.pseq = r.pseq → e.overflow = false) →
        (∀ i, i < 8 → lands (x.frWords.toNat + i) → t.byte (x.frWords.toNat + i) = (leBytes 8 (x.frTail + 1)).getD i 0) ∧
        ∀ i, i < 64 → lands (x.frBase.toNat + 64 * (x.frTail % 2 ^ x.frCfg.toNat) + i) → (∀ j, j < 8 → x.frBase.toNat + 64 * (x.frTail % 2 ^ x.frCfg.toNat) + i ≠ x.frWords.toNat + j) → r.bytes.length = 64 →
          t.byte (x.frBase.toNat + 64 * (x.frTail % 2 ^ x.frCfg.toNat) + i) =
            if 48 ≤ i ∧ i < 56 then (leBytes 8 x.rseq).getD (i - 48) 0 else r.bytes.getD i 0)))) ∧
  (∀ (d pseq : Nat) (s : State) (e : Entry), findEntry s d pseq = some e →
    (e.st ≠ .replay ∨ ownerDone s e.owner = false → Idle (.replayComplete d pseq) s) ∧
    (∀ f, e.st = .replay → lostFail s d e = some f → (s.die d).entries.find? (fun o => o.owner == e.owner && o.st == .replay) = some e →
      Does (.replayComplete d pseq) s fun t => ∃ e' ∈ (t.die d).entries, e'.pseq = pseq ∧ e'.st = .parked ∧ e'.cause = f.cause ∧ e'.idxs = e.idxs) ∧
    (e.st = .replay → ownerDone s e.owner = true → lostFail s d e = none → Does (.replayComplete d pseq) s fun t =>
      (t.die d).entries = (s.die d).entries.filter fun x => x.pseq != pseq) ∧
    (e.st ≠ .follower → Idle (.followerReplay d pseq) s) ∧
    (∀ team seq sub, e.owner = .req team seq sub →
      (∀ tm, s.team team = some tm → (ownerDone s e.owner = true ↔ ∀ q ∈ tm.reqs, ¬(q.seq = seq ∧ q.sub = sub))) ∧
      (∀ tm r, e.st = .follower → s.team team = some tm → tm.reqs.find? (fun q => q.seq == seq && q.sub == sub) = some r →
        (stillLeads tm r = [] → followerBefore tm r = true → Idle (.followerReplay d pseq) s) ∧
        (stillLeads tm r = [] → followerBefore tm r = false → Does (.followerReplay d pseq) s fun t =>
          (∃ e' ∈ (t.die d).entries, e'.pseq = pseq ∧ e'.st = .replay ∧ e'.owner = e.owner) ∧ RetriesReq t team seq sub) ∧
        (stillLeads tm r ≠ [] →
          let stays := ∃ x ∈ (s.die d).entries, some x.pseq = e.leader
          (stays ∨ (stillLeads tm r).filterMap pseqOf = [] → Idle (.followerReplay d pseq) s) ∧
          (∀ p, ¬stays → ((stillLeads tm r).filterMap pseqOf).getLast? = some p → Does (.followerReplay d pseq) s fun t =>
            ∃ e' ∈ (t.die d).entries, e'.pseq = pseq ∧ e'.st = .follower ∧ e'.leader = some p))))) ∧
  (∀ (d : Nat) (s : State) (i : Instr) (op : Nat) (hit : Entry → Bool),
    (i, op, hit) ∈ [(.release d, 1, fun e => e.st == .parked && e.cause != .order), (.abort d, 2, fun e => e.st == .parked || e.st == .follower),
      (.purge d, 3, fun e => e.st != .replay)] →
    ((s.die d).parkCmd = none → Idle i s) ∧
    ∀ c, (s.die d).parkCmd = some c → (c.op ≠ op → Idle i s) ∧
      (∀ e, inScope c e = true ↔ e.pseq ∈ c.limit ∧
        (if c.scope = 0 then e.pseq = c.arg.toNat % 2 ^ 32
         else if c.scope = 1 then e.vd = c.vd ∧ vpBase e.va c.pgsz = c.arg.toNat else e.lid = c.arg.toNat)) ∧
      (c.op = op → 
        let es := (s.die d).entries.filter fun e => inScope c e && hit e
        Does i s fun t => (t.die d).parkCmd = none ∧ (t.die d).parkCount = b32 es.length ∧
          (∀ e ∈ (s.die d).entries, (∀ x ∈ es, x.pseq ≠ e.pseq) → (∀ tm co k l, op = 3 → e.owner ≠ .afetch tm co k l ∧ e.owner ≠ .kload tm co k l) →
            e ∈ (t.die d).entries) ∧
          (op = 1 → ∀ x ∈ es, ∃ e ∈ (t.die d).entries, e.pseq = x.pseq ∧ e.st = .replay) ∧
          (op ≠ 1 → ∀ x ∈ es, ∀ e ∈ (t.die d).entries, e.pseq ≠ x.pseq) ∧
          (∀ x team seq sub tm r, es = [x] → x.owner = .req team seq sub → s.team team = some tm →
            tm.reqs.find? (fun q => q.seq == seq && q.sub == sub) = some r →
            (op = 1 → RetriesReq t team seq sub) ∧
            (op = 3 → ∀ tm', t.team team = some tm' → ∀ q ∈ tm'.reqs, ¬(q.seq = seq ∧ q.sub = sub)) ∧
            (op = 2 → r.kind = .load → ∃ tm' q, t.team team = some tm' ∧ q ∈ tm'.reqs ∧ q.seq = seq ∧ q.sub = sub ∧ q.stage = .replied ∧
              q.merr = true ∧ q.reply = (List.range r.size).map fun i => (r.addr + i, 0xFF)) ∧
            (op = 2 → r.kind = .store → ∃ tm', t.team team = some tm' ∧ (∀ q ∈ tm'.reqs, ¬(q.seq = seq ∧ q.sub = sub)) ∧
              tm'.flags = tm.flags ||| flagMerr))))

/-! ## Commands and register writes -/

/-- R387, R391, R392, R400, R401, R425: each command runs only while it is the pending one, ends with a code and is then
no longer pending; ERR is set by every code but 0. TINV drops the translations in its scope; PLACESET sets a place, or
leaves it pending while a team of the VD is on the place's core; QENABLE takes the descriptor, QDISABLE clears it;
VDCREATE defines a VD from its descriptor, VDDESTROY ends one that nothing uses; TRESUME lets a stopped team go on, and
LKILL ends a launch. The model's choices: what QENABLE and QDISABLE write and check (log entry 74), a TRESUME that waits for an unposted
record and takes its PC for every trapped posy (log entry 80), a context region past 2^52 refused (log entry 92), the codes of TINV
and PLACESET (log entries 73 and 75), bits of CMDA0 and CMDA1 that no command names (log entry 116). -/
def Obligations.Commands : Prop :=
  ∀ (s : State),
    let a0 := s.xd.cmda0.toNat
    let a1 := s.xd.cmda1.toNat
    let vd := a0 % 64
    let part := a0 / 2 ^ 8 % 4
    let q := a1 % 2 ^ 16
    (∀ i op, (i, op) ∈ [(Instr.tinv, 1), (.placeset, 2), (.qenable, 3), (.qdisable, 4), (.vdcreate, 5), (.vddestroy, 6)] →
      (s.xd.cmd ≠ some op → Idle i s) ∧ (s.xd.cmd = some op → Idle i s ∨ ∃ code, EndsWith i s code fun _ => True)) ∧
    (let waits := ∃ m ∈ s.merging, m.req = none ∧ (m.writer = none ∨ m.writer = some .host)
     (waits → Idle .tinv s) ∧ (¬waits → s.xd.cmd = some 1 →
      let scope := a0 / 2 ^ 12 % 4
      let n := pageBytes (a0 / 2 ^ 16 % 4)
      let bad := scope = 3 ∨ a0 / 2 ^ 16 % 4 = 3 ∨ a1 % n ≠ 0
      let hit := fun (e : TlbEntry) => e.part = part ∧ (scope = 0 ∨ e.vd = vd) ∧
        (scope = 2 → e.vbase < a1 + n ∧ a1 < e.vbase + pageBytes e.leaf.pgsz)
      (bad → EndsWith .tinv s 2 fun t => t.cores = s.cores ∧ t.dies = s.dies) ∧
      (¬bad → EndsWith .tinv s 0 fun t => t.mem = s.mem ∧
        (∀ c e, e ∈ (t.core c).tlb ↔ e ∈ (s.core c).tlb ∧ ¬hit e) ∧ ∀ d e, e ∈ (t.die d).tlb ↔ e ∈ (s.die d).tlb ∧ ¬hit e))) ∧
    (s.xd.cmd = some 2 →
      let p := a0 / 2 ^ 16 % 256
      let core := a1 % 256
      (s.vd part vd = none → EndsWith .placeset s 3 fun t => t.mem = s.mem) ∧
      ∀ v, s.vd part vd = some v →
        let bad := v.plcount ≤ p ∨ 192 ≤ core ∨ partOfCore s core ≠ part
        let other := ∃ x, x < v.plcount ∧ x ≠ p ∧ ((Tab.get {} v.places x).valid = true ∧ (Tab.get {} v.places x).core = core ∨
          ∃ w, (Tab.get {} v.places x).pend = some (core, w))
        let busy := ∃ e ∈ Tab.live s.teams, e.2.part = part ∧ e.2.vd = vd ∧ e.2.core = (Tab.get {} v.places p).core
        (bad → EndsWith .placeset s 2 fun t => t.vd part vd = some v) ∧ (¬bad → other → EndsWith .placeset s 3 fun t => t.vd part vd = some v) ∧
        (¬bad → ¬other → EndsWith .placeset s 0 fun t => ∃ v', t.vd part vd = some v' ∧
          (∀ x, x ≠ p → Tab.get {} v'.places x = Tab.get {} v.places x) ∧
          (busy → Tab.get {} v'.places p = { Tab.get {} v.places p with pend := some (core, a1.testBit 8) }) ∧
          (¬busy → Tab.get {} v'.places p = { core := core, valid := a1.testBit 8 }))) ∧
    (s.xd.cmd = some 3 →
      let at_ := s.xd.qdtBase.toNat + 64 * q
      let bs := s.physBytes at_ 64
      let f := fun i n => leNat ((bs.drop i).take n)
      ((s.queue q).enable = true → EndsWith .qenable s 3 fun t => t.queues = s.queues) ∧
      ((s.queue q).enable = false → partOfQueue s q = none → EndsWith .qenable s 4 fun t => t.queues = s.queues) ∧
      (∀ own, (s.queue q).enable = false → partOfQueue s q = some own →
        (f 0 8 % 128 ≠ 0 ∨ f 8 8 % 128 ≠ 0 ∨ f 16 1 < 4 ∨ 20 < f 16 1 ∨ 63 < f 17 1 ∨ 7 < f 18 1 ∨ s.vd own (f 17 1) = none →
          EndsWith .qenable s 4 fun t => t.queues = s.queues) ∧
        let sending := (s.queue q).sending = true ∧ s.vd (s.queue q).part (s.queue q).vd ≠ none
        (sending → badQueue bs = false → s.vd own (f 17 1) ≠ none → Idle .qenable s) ∧
        (∀ hb tb, ¬sending → badQueue bs = false → s.vd own (f 17 1) ≠ none → qRead s own (f 17 1) (f 8 8 + 128) 8 = .bytes hb false →
          qRead s own (f 17 1) (f 8 8) 8 = .bytes tb false → leNat hb ≤ leNat tb → leNat tb ≤ leNat hb + 2 ^ f 16 1 →
          EndsWith .qenable s 0 fun t => (t.queue q).enable = true ∧ (t.queue q).part = own ∧ (t.queue q).ring = f 0 8 ∧
            (t.queue q).taila = f 8 8 ∧ (t.queue q).logsize = f 16 1 ∧ (t.queue q).vd = f 17 1 ∧ (t.queue q).prio = f 18 1 ∧
            (t.queue q).timeout = f 20 4 ∧ (t.queue q).head = leNat hb ∧ (t.queue q).tail = leNat tb ∧
            (t.queue q).wd = 0 ∧ (t.queue q).capPos = 0 ∧ (t.queue q).capLoss = false ∧ (∀ n, .head n ∉ (t.queue q).owed ∧ .discarded n ∉ (t.queue q).owed) ∧
            (isMem (at_ + 19) = true → t.byte (at_ + 19) = bs.getD 19 0 ||| 1)))) ∧
    (s.xd.cmd = some 4 →
      ((s.queue q).enable = false → EndsWith .qdisable s 3 fun t => t.queues = s.queues) ∧
      ((s.queue q).enable = true → EndsWith .qdisable s 0 fun t => (t.queue q).enable = false ∧ t.launches = s.launches)) ∧
    (s.xd.cmd = some 5 →
      let at_ := s.xd.vdtBase.toNat + 128 * (part * 64 + vd)
      let bs := s.physBytes at_ 128
      let f := fun i n => leNat ((bs.drop i).take n)
      (s.vd part vd ≠ none → EndsWith .vdcreate s 3 fun t => t.vds = s.vds) ∧
      (s.vd part vd = none →
        (f 8 8 % 4096 ≠ 0 ∨ 2 ^ 52 < f 16 8 ∨ 2 ^ 52 < f 24 8 + f 32 8 ∨ f 40 8 % 8 ≠ 0 ∨ f 48 2 < 1 ∨ 192 < f 48 2 ∨ f 52 4 < 1 ∨ 2 ^ 20 < f 52 4 ∨ f 64 8 % 128 ≠ 0 ∨
          f 72 1 < 1 ∨ 16 < f 72 1 → EndsWith .vdcreate s 4 fun t => t.vds = s.vds) ∧
        (badVd bs = false → badPlaces s part (f 48 2) (readPlaces s (f 40 8) (f 48 2)) = false → EndsWith .vdcreate s 0 fun t =>
          (isMem at_ = true → t.byte at_ = 1) ∧ ∃ v, t.vd part vd = some v ∧ v.ptroot = f 8 8 ∧ v.asize = f 16 8 ∧ v.ctxva = f 24 8 ∧ v.ctxsize = f 32 8 ∧
            v.plcount = f 48 2 ∧ v.slice = f 52 4 ∧ v.budget = f 56 4 ∧ v.syscring = f 64 8 ∧ v.sysclog = f 72 1 ∧
            ∀ p, p < f 48 2 → Tab.get {} v.places p =
              { core := s.phys64 (f 40 8 + 8 * p) % 256, valid := (s.phys64 (f 40 8 + 8 * p)).testBit 8 }))) ∧
    (s.xd.cmd = some 6 →
      (vdBusy s part vd = true → EndsWith .vddestroy s 3 fun t => t.vds = s.vds) ∧
      (vdBusy s part vd = false → EndsWith .vddestroy s 0 fun t => t.vd part vd = none ∧
        (isMem (s.xd.vdtBase.toNat + 128 * (part * 64 + vd)) = true → t.byte (s.xd.vdtBase.toNat + 128 * (part * 64 + vd)) = 0) ∧
        (∀ d e, e ∈ (t.die d).tlb → ¬(e.part = part ∧ e.vd = vd)))) ∧
    (s.xd.tcmd ≠ some 1 → Idle .tresume s) ∧ (s.xd.tcmd ≠ some 2 → Idle .lkill s) ∧
    (s.xd.tcmd = some 1 →
      let arg := s.xd.tcmda2
      let named := stoppedTeam s s.xd.tcmda0.toNat s.xd.tcmda1.toNat
      (named = none → EndsTrapCmd .tresume s 3 fun t => t.teams = s.teams) ∧
      ∀ id tm, named = some (id, tm) →
        let bad := arg ≠ BitVec.allOnes 64 ∧ (arg.toNat % 4 ≠ 0 ∨ 2 ^ 52 ≤ arg.toNat)
        let unposted := ∃ r ∈ s.traps, ∃ u, recordTeam s r.2 = some u ∧ u.lid = tm.lid ∧ u.idx = tm.idx
        (bad → EndsTrapCmd .tresume s 2 fun t => t.teams = s.teams) ∧ (¬bad → unposted → Idle .tresume s) ∧
        (¬bad → ¬unposted → tm.occupies = true → s.team id = some tm → EndsTrapCmd .tresume s 0 fun t =>
          t.team id = some { tm with stopped := none, trapped := [] } ∧
          ∀ k p, (Tab.live s.posies).Pairwise (fun a b => a.1 ≠ b.1) → s.posy k = some p → p.team = id →
            ∃ p', t.posy k = some p' ∧ p'.lanes = p.lanes ∧ p'.preds = p.preds ∧
              ((∀ y ∈ tm.stops, y.1 ≠ k % 24) → p'.pc = p.pc) ∧
              (tm.stops.Pairwise (fun a b => a.1 ≠ b.1) → ∀ next, (k % 24, next) ∈ tm.stops →
                p'.pc = if arg ≠ BitVec.allOnes 64 then arg.toNat else if next then p.pc + 8 else p.pc))) ∧
    (s.xd.tcmd = some 2 →
      (s.launch s.xd.tcmda0.toNat = none → EndsTrapCmd .lkill s 2 fun t => t.teams = s.teams) ∧
      (∀ l, s.launch s.xd.tcmda0.toNat = some l → (s.queue l.queue).owed = [] → EndsTrapCmd .lkill s 0 fun t => t.launch s.xd.tcmda0.toNat = none ∧
        ∀ e ∈ Tab.live s.teams, e.2.lid = s.xd.tcmda0.toNat → t.team e.1 = none))

/-- R368, R369, R372, R377, R378, R396 to R400, R425, R452: what a write of each register does: the fields it keeps, the
states in which it is ignored, and the command it starts; a page move checks its descriptor, waits for requests that
translated to the old page, then copies the page and writes the new entry; a completed system call gets its status (R332). The
model's choices: the steps of a page move (log entry 76), the fault-ring words that a new configuration zeroes (log entry 53), the bits of
CMDA0 and CMDA1 that a write keeps (log entry 116). -/
def Obligations.RegisterWrites : Prop :=
  ∀ (d : Nat) (v : BitVec 64) (s : State),
    (d < 4 →
      (Does (.parkLimitWrite d v) s fun t => let n := v.toNat % 2 ^ 12
        (t.die d).parkLimit = (if n = 0 then 1 else min n 2048) ∧ (t.die d).entries = (s.die d).entries) ∧
      (inRing (s.die d) ≠ 0 → ∀ b, Does (.overflowConfigWrite d b v) s fun t => t.die d = s.die d) ∧
      (inRing (s.die d) = 0 →
        (Does (.overflowConfigWrite d true v) s fun t => (t.die d).ovfCfg.toNat = v.toNat % 32 ∧ (t.die d).ovfBase = (s.die d).ovfBase) ∧
        (Does (.overflowConfigWrite d false v) s fun t => (t.die d).ovfBase.toNat = v.toNat % 2 ^ 52 ∧ (t.die d).ovfCfg = (s.die d).ovfCfg)) ∧
      ((s.die d).pending ≠ [] → ∀ w, Idle (.faultRingConfigWrite d w v) s) ∧
      ((s.die d).pending = [] → ∀ w, Does (.faultRingConfigWrite d w v) s fun t =>
        (w = 0 → (t.die d).frBase.toNat = v.toNat % 2 ^ 52) ∧ (w = 1 → (t.die d).frCfg.toNat = max 6 (min 20 (v.toNat % 32))) ∧
        (w = 2 → (t.die d).frWords.toNat = v.toNat % 2 ^ 52) ∧ (t.die d).frTail = 0 ∧
        ∀ i, i < 8 → (isMem ((t.die d).frWords.toNat + i) = true → t.byte ((t.die d).frWords.toNat + i) = 0) ∧
          (isMem ((t.die d).frWords.toNat + 128 + i) = true → t.byte ((t.die d).frWords.toNat + 128 + i) = 0)) ∧
      ((s.die d).migStat.getLsbD 2 = true ∨ v ≠ 1 → Does (.migrationStart d v) s fun t => t.die d = s.die d) ∧
      ((s.die d).migStat.getLsbD 2 = false → v = 1 → Does (.migrationStart d v) s fun t => (t.die d).migStat = 4 ∧ (t.die d).migRun = true) ∧
      (∀ port, port < 3 → Does (.firewallWrite d port v) s fun t => ∀ i, i < 3 →
        (t.die d).fwClosed.getLsbD i = if i = port then v.getLsbD 0 else (s.die d).fwClosed.getLsbD i)) ∧
    (4 ≤ d → Idle (.parkLimitWrite d v) s ∧ Idle (.migrationStart d v) s) ∧
    (let m := moveOf (s.die d)
     let n := pageBytes m.pgsz
     let good := m.pgsz ≤ 2 ∧ m.va % n = 0 ∧ m.src % n = 0 ∧ m.dst % n = 0 ∧ m.ptea % 8 = 0 ∧ (s.phys64 m.ptea).testBit 5 = true ∧
       m.newpte.testBit 5 = false ∧ reaches s d m.ptea = true ∧ s.poisoned m.ptea = false
     let st := (s.die d).migSt
     let goesOn := fun (P : State → Prop) => Does (.migrationRun d) s fun t => (t.die d).migRun = true ∧ (t.die d).migStat = (s.die d).migStat ∧ P t
     ((s.die d).migRun = false → Idle (.migrationRun d) s) ∧
     let gone := fun (t : State) => ∀ e ∈ (t.die d).tlb,
       ¬(e.part = partOfDie s d ∧ e.vd = m.vd ∧ e.vbase < m.va + n ∧ m.va < e.vbase + pageBytes e.leaf.pgsz)
     ((s.die d).migRun = true →
       (st = .check → ¬good → Does (.migrationRun d) s fun t => (t.die d).migStat = 2 ∧ (t.die d).migRun = false ∧ t.mem = s.mem) ∧
       (st = .check → good → goesOn fun t => (t.die d).migSt = .drain ∧ t.mem = s.mem ∧ gone t) ∧
       (st = .drain ∨ st = .recall →
         (moveWaits s m = true → Idle (.migrationRun d) s) ∧
         (moveWaits s m = false → (linesIn s m.src n = [] ∧ (∀ x ∈ s.merging, ¬inRange m.src n (linePa x.line))) →
           let owed := ∃ a ∈ pageAuthorities s (partOfDie s d) m.vd m.va n, grantsOf s a.key none ≠ []
           (owed → goesOn fun t => (t.die d).migSt = .recall) ∧
           (¬owed → m.pgsz ≤ 2 → m.src % n = 0 → m.dst % n = 0 → goesOn fun t => (t.die d).migSt = .copied ∧
             (Tab.wf Memory.unlisted s.mem = true →
               (moveReaches s d m.src = true → moveReaches s d m.dst = true → ∀ i, i < n → t.byte (m.dst + i) = s.byte (m.src + i)) ∧
               (moveReaches s d m.dst = false → t.mem = s.mem))))) ∧
       (st = .copied →
         (copyMerging s m = true → Idle (.migrationRun d) s) ∧
         (copyMerging s m = false → (∀ x, (s.die x).entries = []) → goesOn fun t => (t.die d).migSt = .done ∧ gone t ∧
           ∀ i, i < 8 → isMem (m.ptea + i) = true → reaches s d (m.ptea + i) = true → t.byte (m.ptea + i) = (leBytes 8 m.newpte).getD i 0)) ∧
       (st = .done →
         (isMerging s (lineOf m.ptea) none = true → Idle (.migrationRun d) s) ∧
         (isMerging s (lineOf m.ptea) none = false → Does (.migrationRun d) s fun t => (t.die d).migStat = 1 ∧ (t.die d).migRun = false ∧ t.mem = s.mem)))) ∧
    (∀ off : BitVec 12,
      let busy := fun part => (∃ q ∈ s.queues, q.2.enable = true ∧ q.2.part = part) ∨ ∃ x ∈ Tab.live s.vds, x.1 / 64 = part
      let fieldOf := fun (w : BitVec 64) i => w.toNat / 2 ^ (2 * i) % 4
      (off = 0x30 → ((∃ i, i < 4 ∧ fieldOf s.xd.partmap i ≠ fieldOf v i ∧ (busy (fieldOf s.xd.partmap i) ∨ busy (fieldOf v i))) → Idle (.partitionWrite off v) s) ∧
        ((∀ i, i < 4 → fieldOf s.xd.partmap i ≠ fieldOf v i → ¬busy (fieldOf s.xd.partmap i) ∧ ¬busy (fieldOf v i)) →
          Does (.partitionWrite off v) s fun t => t.xd.partmap.toNat = v.toNat % 256)) ∧
      (off = 0x38 → (∀ i, i < 12 → fieldOf s.xd.peermap i ≠ fieldOf v i → ¬busy (fieldOf s.xd.peermap i) ∧ ¬busy (fieldOf v i)) →
        Does (.partitionWrite off v) s fun t => t.xd.peermap.toNat = v.toNat % 2 ^ 24) ∧
      (∀ i, i < 4 → off.toNat = 0x40 + 8 * i → (∀ p, ¬busy p) → Does (.partitionWrite off v) s fun t =>
        ∀ j, Tab.get 0 t.xd.qrange j = if j = i then b64 (v.toNat % 2 ^ 33) else Tab.get 0 s.xd.qrange j)) ∧
    (let used := (∃ q ∈ s.queues, q.2.enable = true) ∨ Tab.live s.vds ≠ []
     (used → ∀ b, Idle (.descriptorBaseWrite b v) s) ∧
     (¬used → (Does (.descriptorBaseWrite true v) s fun t => t.xd.vdtBase.toNat = v.toNat % 2 ^ 52 / 4096 * 4096 ∧ t.xd.qdtBase = s.xd.qdtBase) ∧
       (Does (.descriptorBaseWrite false v) s fun t => t.xd.qdtBase.toNat = v.toNat % 2 ^ 52 / 4096 * 4096 ∧ t.xd.vdtBase = s.xd.vdtBase))) ∧
    (s.xd.acceptLocked = true → Idle (.featAcceptWrite v) s) ∧
    (s.xd.acceptLocked = false → Does (.featAcceptWrite v) s fun t => t.xd.accept.toNat = v.toNat % 256) ∧
    (let st := v.toNat / 2 ^ 61
     (st ≠ 1 ∧ st ≠ 3 ∧ st ≠ 5 → (∀ c ∈ s.calls, c.status = 0) → Idle (.syscDone v) s) ∧
     ∀ c tm, s.calls = [c] → c.status = 0 → c.stored = false → (st = 1 ∨ st = 3 ∨ st = 5) → c.pa = v.toNat / 2 ^ 6 % 2 ^ 46 * 64 → c.sub ≠ 0 →
       s.team c.team = some tm → isMerging s (lineOf c.pa) none = false → qReaches s c.part c.pa = true → paKind c.pa ≠ .dev →
       let w := (List.range 2).map fun i => (c.pa + 6 + i, (leBytes 2 st).getD i 0)
       (∀ x ∈ w, isMem x.1 = true) →
       let waits := isMerging (sysWrite s w) (lineOf c.pa) none = true
       Does (.syscDone v) s fun t => Stored s t w ∧ (waits → t.calls = [{ c with status := st, stored := true }]) ∧
         (¬waits → t.calls = [] ∧ ∃ tm', t.team c.team = some tm' ∧ ∀ h, Tab.get none tm.handles c.token = some h →
           ∃ h', Tab.get none tm'.handles c.token = some h' ∧ h'.ready = true ∧ h'.final = st)) ∧
    (let base := 0x1000000000000
     let writes := fun off P => Does (.registerWrite (base + off) v) s P
     (writes 0x200000 fun t => t.xd.cmda0 = v) ∧ (writes 0x200008 fun t => t.xd.cmda1 = v) ∧
     (writes 0x200010 fun t => (s.xd.cmd ≠ none → t.xd.cmd = s.xd.cmd ∧ t.xd.cmdErr = true ∧ t.xd.cmdCode = 3) ∧
       (s.xd.cmd = none → (1 ≤ v.toNat ∧ v.toNat ≤ 6 → t.xd.cmd = some v.toNat) ∧
         (v.toNat = 0 ∨ 6 < v.toNat → t.xd.cmd = none ∧ t.xd.cmdErr = true ∧ t.xd.cmdCode = 1))) ∧
     (writes 0x200018 fun t => t.xd.cmdErr = (s.xd.cmdErr && !v.getLsbD 62)) ∧
     (writes 0x200118 fun t => (s.xd.tcmd ≠ none → t.xd.tcmd = s.xd.tcmd ∧ t.xd.tcmdErr = true ∧ t.xd.tcmdCode = 3) ∧
       (s.xd.tcmd = none → (v.toNat = 1 ∨ v.toNat = 2 → t.xd.tcmd = some v.toNat) ∧
         (v.toNat = 0 ∨ 2 < v.toNat → t.xd.tcmd = none ∧ t.xd.tcmdErr = true ∧ t.xd.tcmdCode = 1))) ∧
     (d < 4 → (writes (0x300040 + d * 0x1000) fun t => (t.die d).parkCmda = v) ∧
       (writes (0x300048 + d * 0x1000) fun t => ((s.die d).parkCmd ≠ none ∨ v.toNat / 2 ^ 60 = 0 ∨ 3 < v.toNat / 2 ^ 60 ∨ v.toNat % 2 ^ 48 ≠ 0 →
         (t.die d).parkErr = true ∧ (t.die d).parkCmd = (s.die d).parkCmd) ∧
         ((s.die d).parkCmd = none → v.toNat / 2 ^ 58 = 4 → v.toNat % 2 ^ 48 = 0 → ∃ c, (t.die d).parkCmd = some c ∧ c.op = 1 ∧ c.scope = 0 ∧
           c.arg = (s.die d).parkCmda ∧ ∀ n, n ∈ c.limit ↔ ∃ e ∈ (s.die d).entries, e.pseq = n))) ∧
     (∀ pa, pa < base ∨ pa % 8 ≠ 0 → Idle (.registerWrite pa v) s))

/-! ## Steps of the engines -/

/-- R264 to R267, R296: a handle whose command has nothing left takes its final status (2 when cancelled, else the
command's own, else 3 after poison, else 1); a copy reads its source in order and writes its destination line by line; a
PUT lands whole in its receiver, or ends with 5. The model's choice: the command's own status goes before 3 (log entry 37). -/
def Obligations.EngineSteps : Prop :=
  (∀ (team token : Nat) (s : State) (tm : Team) (h : HandleSt), s.team team = some tm → Tab.get none tm.handles token = some h →
    (h.status ≠ 0 ∨ h.ready = false → Idle (.handleComplete team token) s) ∧
    (h.status = 0 → h.ready = true → (∀ x, tm.save ≠ .saved x) → Does (.handleComplete team token) s fun t => t.mem = s.mem ∧
      ∃ tm', t.team team = some tm' ∧ tm'.flags = tm.flags ||| h.flags ∧ ∀ k, Tab.get none tm'.handles k = if k = token then
        some { h with status := if h.cancelled then 2 else if h.final ≠ 1 then h.final else if h.bad then 3 else 1, flags := 0 }
        else Tab.get none tm.handles k)) ∧
  (∀ (core team token i : Nat) (s : State) (c : CopyCmd) (tm : Team) (p : CpPart), findCopy s core team token = some c → s.team team = some tm →
    c.parts[i]? = some p →
    let now := fun (t : State) (q : CpPart) => ∃ c', findCopy t core team token = some c' ∧ c'.parts[i]? = some q
    let first := ∀ q ∈ c.parts.take i, q.st ≠ .todo
    let quiet := ∀ x ∈ (s.die (dieOf core)).entries, x.st ≠ .replay
    (c.left = false ∨ p.st = .done → Idle (.copyRequest core team token i) s) ∧
    (p.st = .todo → ¬first ∨ isCancelled tm token = true → Idle (.copyRequest core team token i) s) ∧
    (c.left = true → p.st = .todo → first → isCancelled tm token = false →
      (c.srcScr = true → tm.onCore = true → Does (.copyRequest core team token i) s fun t =>
        now t { p with st := .have_ ((List.range p.len).map fun j => scratchByte tm (p.src + j)) }) ∧
      (∀ l d, c.srcScr = false → quiet → engWalk s tm core p.src { r := true } = .leaf l → paKind (l.pa_ p.src) = .hbm d →
        reaches s (dieOf core) (l.pa_ p.src) = true → touchesRegion s tm l (engReq core p.src (l.pa_ p.src) p.len l.pgsz) = false →
        (∀ j, j < p.len → bindWaits s core (l.pa_ p.src + j) = false) → Does (.copyRequest core team token i) s fun t =>
          t.mem = s.mem ∧ now t { p with st := .have_ ((List.range p.len).map fun j => (bindByte s core (l.pa_ p.src + j)).1) })) ∧
    (∀ bs, c.left = true → p.st = .have_ bs → c.put = none → p.dropW = false → bs.length = p.len →
      (c.dstScr = true → tm.onCore = true → Does (.copyRequest core team token i) s fun t => t.mem = s.mem ∧ ∃ tm', t.team team = some tm' ∧
        (∀ a, (∀ lc, c.lc = some lc → ¬(lc ≤ a ∧ a < lc + 8)) →
          Tab.get 0 tm'.scratch a = if p.dst ≤ a ∧ a < p.dst + p.len then bs.getD (a - p.dst) 0 else Tab.get 0 tm.scratch a) ∧
        (∀ lc, c.lc = some lc → (lc + 8 ≤ p.dst ∨ p.dst + p.len ≤ lc) → (∀ a, scratchPoisoned tm a = false) → ∀ j, j < 8 →
          Tab.get 0 tm'.scratch (lc + j) = (leBytes 8 ((leNat (scratchRead tm lc 8) + p.len) % 2 ^ 64)).getD j 0)) ∧
      (∀ l d, c.dstScr = false → quiet → engWalk s tm core p.dst { w := true } = .leaf l → paKind (l.pa_ p.dst) = .hbm d → l.cls ≠ .bv →
        reaches s (dieOf core) (l.pa_ p.dst) = true → (∀ j, j < p.len → isMem (l.pa_ p.dst + j) = true) → Does (.copyRequest core team token i) s fun t =>
          Stored s t ((List.range (min p.len (128 - p.dst % 128))).map fun j => (l.pa_ p.dst + j, bs.getD j 0))))) ∧
  (∀ (core team token : Nat) (s : State) (c : CopyCmd) (tm : Team) (place idx off : Nat), findCopy s core team token = some c →
    s.team team = some tm → c.put = some (place, idx, off) →
    let ends := fun (t : State) (st : Nat) => findCopy t core team token = none ∧ ∃ tm', t.team team = some tm' ∧
      ∀ h, Tab.get none tm.handles token = some h → ∃ h', Tab.get none tm'.handles token = some h' ∧ h'.ready = true ∧ h'.final = st
    let named := if placeOk s tm place then putTeam s tm place idx else none
    let lc := c.lc.getD 0
    ((∃ p ∈ c.parts, p.st ≠ .done) ∨ isCancelled tm token = true → Idle (.putLanding core team token) s) ∧
    ((∀ p ∈ c.parts, p.st = .done) → isCancelled tm token = false →
      (named = none → Does (.putLanding core team token) s fun t => ends t 5 ∧ t.mem = s.mem) ∧
      ∀ id r, named = some (id, r) →
        (r.scr.limit < off + c.total ∨ r.scr.limit < lc + 8 → Does (.putLanding core team token) s fun t => ends t 5 ∧ t.mem = s.mem) ∧
        (off + c.total ≤ r.scr.limit → lc + 8 ≤ r.scr.limit → r.onCore = false → Idle (.putLanding core team token) s) ∧
        (off + c.total ≤ r.scr.limit → lc + 8 ≤ r.scr.limit → r.onCore = true → s.team id = some r → id ≠ team →
          Does (.putLanding core team token) s fun t => ends t 1 ∧ ∃ r', t.team id = some r' ∧
            ∀ a, ¬(lc ≤ a ∧ a < lc + 8) → Tab.get 0 r'.scratch a =
              if off ≤ a ∧ a < off + c.total then (Tab.get none c.buf (a - off)).getD 0 else Tab.get 0 r.scratch a)))

/-- R340 to R348: a load reads its requests and fills its macros with columns; a task takes a row-buffer entry, reads its
block, starts on a macro of its tag once its dependences and tiles are free, and writes its tile when its macro is done; a
task that can not run ends with its status. The model's choices: one request for each event (log entry 41), and a task judged only when
every dependence has a status (log entry 42). -/
def Obligations.KilnSteps : Prop :=
  ∀ (core : Nat) (s : State), Settled s core →
    let c := s.core core
    (∀ (team token : Nat) (l : KLoad) (tm : Team), c.kloads.find? (fun k => k.team == team && k.token == token) = some l →
      s.team team = some tm → l.reload = false → l.macros ≠ [] →
      ((∃ m ∈ l.macros, (c.macro_ m).st ≠ .loading) ∨ s.cycle < l.retry → Idle (.kloadComplete core team token) s) ∧
      ((∀ m ∈ l.macros, (c.macro_ m).st = .loading) → l.retry ≤ s.cycle → (∀ e ∈ c.kcmds, e.team = team → e.seq = l.seq → e.entered = true) →
        (∀ a n, l.todo.find? (fun x => !l.parked.contains x.1) = some (a, n) → l.desc.sseg = .scr → l.aborted = [] → tm.onCore = true →
          Does (.kloadComplete core team token) s fun t => ∃ l' ∈ (t.core core).kloads, l'.team = team ∧ l'.token = token ∧
            l'.todo = l.todo.erase (a, n) ∧ ∀ x, Tab.get none l'.buf x =
              if a ≤ x ∧ x < a + n then some (scratchByte tm x) else Tab.get none l.buf x) ∧
        (l.todo = [] → (∀ e ∈ c.kcmds, ¬(e.team = team ∧ e.cmd = .free l.desc.tag)) → l.team = team → l.token = token →
          Does (.kloadComplete core team token) s fun t =>
            (∀ m ∈ l.macros, ((t.core core).macro_ m).st = .ready ∧ ((t.core core).macro_ m).cols = (loadColumns l).1 ∧
              ((t.core core).macro_ m).team = team ∧ ((t.core core).macro_ m).tag = l.desc.tag) ∧
            ∃ tm', t.team team = some tm' ∧ ∀ h, Tab.get none tm.handles token = some h →
              ∃ h', Tab.get none tm'.handles token = some h' ∧ h'.ready = true ∧
                h'.flags = (loadColumns l).2 ||| (if l.bad then flagMerr else 0)))) ∧
    (∀ (team token : Nat) (k : Task) (tm : Team), findTask c team token = some k → s.team team = some tm → k.team = team → k.token = token →
      (k.st ≠ .entered → k.st ≠ .fetching → Idle (.aFetch core team token) s) ∧
      (k.st = .entered → fetchMay c tm k = true → (∀ x ∈ c.ring, x.st = .entered → k.seq ≤ x.seq) → entriesUsed c < 16 → k.afmt ≠ .acc →
        Does (.aFetch core team token) s fun t => { k with st := .fetching } ∈ (t.core core).ring ∧ (t.core core).blocks = c.blocks) ∧
      (k.st = .entered → fetchMay c tm k = false → Idle (.aFetch core team token) s) ∧
      (k.st = .fetching → k.retry ≤ s.cycle → team ∉ c.held →
        (∀ a n, k.todo.find? (fun x => !k.parked.contains x.1) = some (a, n) → k.aseg = .scr → k.aborted = [] → tm.onCore = true →
          Does (.aFetch core team token) s fun t => ∃ k' ∈ (t.core core).ring, k'.team = team ∧ k'.token = token ∧ k'.st = .fetching ∧
            k'.todo = k.todo.erase (a, n) ∧ ∀ x, Tab.get none k'.buf x =
              if a ≤ x ∧ x < a + n then some (scratchByte tm x) else Tab.get none k.buf x) ∧
        (k.todo = [] → Does (.aFetch core team token) s fun t => (∃ k' ∈ (t.core core).ring, k'.team = team ∧ k'.token = token ∧ k'.st = .fetched) ∧
          ∃ b ∈ (t.core core).blocks, b.id = k.block ∧ b.rows = (fetchedRows tm k).1 ∧ b.mA = AFmt.width k.afmt ∧ b.bad = k.bad)) ∧
      (∀ m end_, k.st = .started m end_ →
        (s.cycle < end_ → Idle (.taskComplete core team token) s) ∧
        (∀ b, end_ ≤ s.cycle → c.blocks.find? (fun b => b.id == k.block) = some b → k.rows ≤ 32 → Does (.taskComplete core team token) s fun t =>
          findTask (t.core core) team token = none ∧ ∃ tm', t.team team = some tm' ∧
          (∀ j r n, r < 32 → n < 128 → tm'.tileAt j r n = if j = k.acc ∧ r < k.rows then
            (elemTask b.mA (sxM (c.macro_ m).desc.mfmt) (b.rows.getD r {}) ((c.macro_ m).cols.getD n {}) (if k.mul then 0 else tm.tileAt j r n)).1
            else tm.tileAt j r n) ∧
          ∀ h, Tab.get none tm.handles token = some h → ∃ h', Tab.get none tm'.handles token = some h' ∧ h'.ready = true ∧ h'.final = 1 ∧
            (b.bad = true → h'.flags &&& flagMerr ≠ 0))) ∧
      ((∀ m end_, k.st ≠ .started m end_) → Idle (.taskComplete core team token) s)) ∧
    (∀ (pre post : List Task) (k : Task) (tm : Team), c.ring = pre ++ k :: post → s.team k.team = some tm →
      (∀ st, (∀ x ∈ pre, ∀ u, s.team x.team = some u → taskFails c u x = none) → taskFails c tm k = some st → Does (.taskStart core) s fun t =>
        findTask (t.core core) k.team k.token = none ∧ ∃ tm', t.team k.team = some tm' ∧ ∀ h, Tab.get none tm.handles k.token = some h →
          ∃ h', Tab.get none tm'.handles k.token = some h' ∧ h'.ready = true ∧ h'.final = st) ∧
      (∀ m, (∀ x ∈ c.ring, ∀ u, s.team x.team = some u → taskFails c u x = none) →
        (∀ x ∈ pre, ∀ u, s.team x.team = some u → startOn c u x = none) → startOn c tm k = some m → Does (.taskStart core) s fun t =>
          ((t.core core).macro_ m).running = some k.token ∧ { k with st := .started m (s.cycle + 32 * AFmt.width k.afmt) } ∈ (t.core core).ring) ∧
      (∀ m, startOn c tm k = some m → m < 16 ∧ (c.macro_ m).team = k.team ∧ (c.macro_ m).tag = k.btag ∧ (c.macro_ m).running = none ∧
        (∀ d ∈ k.deps, depStatus tm d = 1) ∧ (∃ b ∈ c.blocks, b.id = k.block) ∧ mayWrite c k.team k.seq k.acc = true) ∧
      (∀ st, taskFails c tm k = some st → (∀ d ∈ k.deps, depStatus tm d ≠ 0) ∧
        ((∃ d ∈ k.deps, depStatus tm d ≠ 1 ∧ depStatus tm d = st) ∨ st = 5 ∧ holders_ c k = [] ∧ ∀ d ∈ k.deps, depStatus tm d = 1))) ∧
    (c.ring = [] → Idle (.taskStart core) s)

/-! ## Steps from outside -/

/-- R221, R287, R305, R446 to R450, R453 to R455, R458, R460: host, peers and the service cluster act at the home at SYS
width; a host address maps to the device address HDMBASE below it, each line travels on the port of its bit 7, and BAR0 is
that of port 0; before the rails' order allows it, and after a failed firmware check, a request is answered with nothing, an
error, or ones; the service cluster's atomics answer the old value, and its store-conditional writes while its reservation holds (R306);
a peer's request outside its window or its partition counts as refused; a soft error marks its word; bring-up goes
step by step and stops at a firmware that does not verify; the clock steps down from 95 degrees on, up again below 90, and
the rails go at 105 or when they are lost; links come and go; a report is the body followed by its signature. The model's choices:
BAR0 at its device addresses and the silence of a port that is down (log entry 85), the die that counts a peer's refusal (log entry 77),
host memory kept and a bring-up that stops (log entry 79), the layout of the report (log entry 7), a reservation that holds while the
bytes stand (log entry 114). -/
def Obligations.OutsideSteps : Prop :=
  ∀ (s : State),
    (∀ (pa : Nat) (bs : List Byte) (d : Nat), paKind pa = .hbm d → (∀ i, i < bs.length → isMem (pa + i) = true) → (∀ x ∈ cutLines pa bs.length, isMerging s (lineOf x.1) none = false) →
      let w := (List.range bs.length).map fun i => (pa + i, bs.getD i 0)
      (4 ≤ s.boot → s.bootFailed = false → pa + bs.length ≤ 0xC000000000 →
        (∀ x ∈ cutLines pa bs.length, s.xd.cxlUp.getLsbD (x.1 / 128 % 2) = true) →
        ∀ cache, Does (.hostRequest (.store (s.hdmBase + pa) bs) cache) s fun t => Stored s t w ∧
        (cache = true → ∀ x ∈ cutLines pa bs.length, Tab.get false t.hostLines (lineOf x.1) = true) ∧
        ∀ i who, i < bs.length → who ∈ holders s (lineOf (pa + i)) → who ≠ .host → ∃ m ∈ t.merging, m.line = lineOf (pa + i) ∧ who ∈ m.wait) ∧
      (s.bootFailed = false → Does (.serviceClusterAccess (.store pa bs)) s fun t => Stored s t w)) ∧
    (∀ pa n d cache, paKind pa = .hbm d → pa + n ≤ 0xC000000000 →
      let i : Instr := .hostRequest (.load (s.hdmBase + pa) n) cache
      let put : Instr := .hostRequest (.store (s.hdmBase + pa) (List.replicate n 0)) cache
      let up := ∀ x ∈ cutLines pa n, s.xd.cxlUp.getLsbD (x.1 / 128 % 2) = true
      (s.boot < 4 ∨ s.bootFailed = true → exec i s = .next { s with answer := .error } ∧ exec put s = .next { s with answer := .error }) ∧
      (4 ≤ s.boot → s.bootFailed = false → ¬up → exec i s = .next { s with answer := .silent } ∧ exec put s = .next { s with answer := .silent }) ∧
      (4 ≤ s.boot → s.bootFailed = false → up → (∀ x ∈ cutLines pa n, isMerging s (lineOf x.1) none = false) →
        Does i s fun t => t.mem = s.mem ∧ t.answer = .data (s.readBytes pa n))) ∧
    (∀ pa n bs cache, paKind pa = .dev → ¬(s.hdmBase ≤ pa ∧ pa ≤ s.hdmBase + 0xC000000000) →
      let put : Instr := .hostRequest (.store pa bs) cache
      let get : Instr := .hostRequest (.load pa n) cache
      (s.xd.cxlUp.getLsbD 0 = false → exec put s = .next { s with answer := .silent } ∧ exec get s = .next { s with answer := .silent }) ∧
      (s.bootFailed = true → s.xd.cxlUp.getLsbD 0 = true → exec put s = .next { s with answer := .silent } ∧ Does get s fun t => t.mem = s.mem ∧
        ∃ xs, t.answer = .data xs ∧ xs.length = n ∧ ∀ j, j < n → (pa + j) / 8 ≠ 0x1000000200340 / 8 → xs.getD j 0 = 0xFF) ∧
      (s.bootFailed = false → s.boot < 5 →
        exec put s = .next { s with answer := .silent } ∧ exec get s = .next { s with answer := .silent }) ∧
      (s.bootFailed = false → 5 ≤ s.boot → s.xd.cxlUp.getLsbD 0 = true →
        exec put s = .next (devStore s ((List.range bs.length).map fun i => (pa + i, bs.getD i 0))).1 ∧
        exec get s = .next { s with answer := .data (devLoad s pa n) })) ∧
    (s.bootFailed = true → ∀ a, Idle (.serviceClusterAccess a) s) ∧
    (∀ pa n d, paKind pa = .hbm d → (∀ i, i < n → isMem (pa + i) = true) → (∀ x ∈ cutLines pa n, isMerging s (lineOf x.1) none = false) →
      s.bootFailed = false →
      let old := s.readBytes pa n
      let put := fun (t : State) (m : Nat) => Stored s t ((List.range n).map fun i => (pa + i, (leBytes n m).getD i 0))
      (∀ op x y, n = 4 ∨ n = 8 → (∀ i, i < n → s.poisoned (pa + i) = false) → Does (.serviceClusterAccess (.atomic op pa n x y)) s fun t => t.answer = .data old ∧
        put t (atomNew op (if n = 8 then .i64 else .i32) false (leNat old) (x.toNat % 2 ^ (8 * n)) (y.toNat % 2 ^ (8 * n))).1) ∧
      (∀ who, Does (.serviceClusterAccess (.reserve who pa n)) s fun t => t.mem = s.mem ∧ t.answer = .data old ∧
        Tab.get none t.reserved who = some (pa, old)) ∧
      (∀ who bs, bs.length = n → Does (.serviceClusterAccess (.conditional who pa bs)) s fun t => Tab.get none t.reserved who = none ∧
        if Tab.get none s.reserved who = some (pa, old) then t.answer = .data (leBytes n 0) ∧ put t (leNat bs)
        else t.answer = .data (leBytes n 1) ∧ t.mem = s.mem)) ∧
    (∀ line bs, paKind (linePa line) = .host → isMerging s line none = false → (∀ x ∈ bs, x.1 < 128) → (bs.map (·.1)).Nodup →
      Does (.hostSnoop line bs) s fun t => Stored s t (bs.map fun x => (linePa line + x.1, x.2))) ∧
    (∀ line m, s.merging.find? (fun m => m.line == line && m.wait.contains .host) = some m → Does (.backInvalidation line) s fun t =>
      Tab.get false t.hostLines line = false ∧ t.mem = s.mem) ∧
    ((∀ line, (∀ m ∈ s.merging, ¬(m.line = line ∧ .host ∈ m.wait)) → Idle (.backInvalidation line) s)) ∧
    (∀ (port off : Nat) (bs : List Byte) (d : Nat),
      let inb := Tab.get 0 s.xd.peerInb port
      let pa := inb.toNat % 2 ^ 52 + off
      let mine := fun x => ∃ d, paKind x = .hbm d ∧ partOfDie s d = partOfPort s port
      let ok := inb.getLsbD 63 = true ∧ off + bs.length ≤ (Tab.get 0 s.xd.peerInl port).toNat ∧ mine pa ∧ mine (pa + bs.length - 1)
      (s.xd.peerUp.getLsbD port = false → ∀ a, Idle (.peerInbound port a) s) ∧
      (s.xd.peerUp.getLsbD port = true → ok → (∀ i, i < bs.length → isMem (pa + i) = true) → (∀ x ∈ cutLines pa bs.length, isMerging s (lineOf x.1) none = false) →
        Does (.peerInbound port (.store off bs)) s fun t => Stored s t ((List.range bs.length).map fun i => (pa + i, bs.getD i 0))) ∧
      (s.xd.peerUp.getLsbD port = true → ¬ok → paKind pa = .hbm d → Does (.peerInbound port (.store off bs)) s fun t => t.mem = s.mem ∧ t.answer = .error ∧
        (Tab.get 0 (t.die d).fwRefused 0).toNat = min ((Tab.get 0 (s.die d).fwRefused 0).toNat + 1) (2 ^ 32 - 1))) ∧
    (∀ pa, (paKind pa = .host ∨ ∃ d, paKind pa = .hbm d) → Does (.softError (.home pa)) s fun t => t.mem = s.mem ∧
      ∀ a, t.poisoned a = (decide (a / 8 = pa / 8) || s.poisoned a)) ∧
    (∀ team word tm, s.team team = some tm → Does (.softError (.scratch team word)) s fun t => ∃ tm', t.team team = some tm' ∧
      tm'.scratch = tm.scratch ∧ (8 * word < tm.salloc → ∀ a, scratchPoisoned tm' a = (decide (a / 8 = word) || scratchPoisoned tm a))) ∧
    (let host := fun (a : Nat) => 0x8000000000000 ≤ a
     (s.boot = 0 ∨ s.boot = 3 → Does .bringUp s fun t => t.boot = s.boot + 1 ∧ t.mem = s.mem) ∧
     (s.boot = 1 → s.bootFailed = false → Does .bringUp s fun t => t.images = s.images + 1 ∧
       if Config.signatureVerifies s.images = true ∧ Config.keyDigest s.images = Config.fusedKeyDigest then
         t.boot = 2 ∧ t.bootFailed = false ∧ t.loaded = s.loaded ++ [s.images]
       else t.boot = 1 ∧ t.bootFailed = true ∧ t.loaded = s.loaded ∧ t.xd.cxlUp = 3) ∧
     (s.boot = 1 → s.bootFailed = true → Idle .bringUp s) ∧
     (s.boot = 2 → Does .bringUp s fun t => t.boot = 3 ∧ ∀ a, t.byte a = (if host a then s.byte a else 0) ∧ t.poisoned a = false) ∧
     (s.boot = 4 → Does .bringUp s fun t => t.boot = 5 ∧ t.xd.cxlUp = 3) ∧ (5 ≤ s.boot → Idle .bringUp s) ∧
     let off := fun (t : State) => t.boot = 0 ∧ t.teams = [] ∧ t.posies = [] ∧ t.queues = [] ∧ t.launches = [] ∧ t.vds = [] ∧ t.cores = [] ∧
       t.dies = [] ∧ t.xd = State.reset.xd ∧ ∀ a, t.byte a = if host a then s.byte a else 0
     Does .railLoss s off ∧ (105 ≤ s.tj.toNat → Does .thermalShutdown s off) ∧ (s.tj.toNat < 105 → Idle .thermalShutdown s)) ∧
    (let t0 := s.tj.toNat
     (t0 < 95 → Idle .thermalStepDown s) ∧
     (95 ≤ t0 → s.thermStep = 0 → Does .thermalStepDown s fun t => t.thermStep = 1 ∧ t.mem = s.mem) ∧
     (95 ≤ t0 → s.thermStep = 1 → ∀ h, s.hotSince = some h → (h + 1000000 ≤ s.time → Does .thermalStepDown s fun t => t.thermStep = 2) ∧
       (s.time < h + 1000000 → Idle .thermalStepDown s)) ∧
     (95 ≤ t0 → 2 ≤ s.thermStep → Idle .thermalStepDown s) ∧
     (90 ≤ t0 ∨ s.thermStep = 0 → Idle .thermalStepUp s) ∧
     (t0 < 90 → 0 < s.thermStep → ∀ h, s.coolSince = some h → (h + 1000000 ≤ s.time → Does .thermalStepUp s fun t => t.thermStep + 1 = s.thermStep) ∧
       (s.time < h + 1000000 → Idle .thermalStepUp s))) ∧
    (∀ (port : Nat) (up : Bool),
      (Does (.linkTrainingChange true port up) s fun t => t.xd.cxlUp = s.xd.cxlUp ∧ ∀ i, i < 12 →
        t.xd.peerUp.getLsbD i = if i = port then up else s.xd.peerUp.getLsbD i) ∧
      (Does (.linkTrainingChange false port up) s fun t => t.xd.peerUp = s.xd.peerUp ∧ ∀ i, i < 2 →
        t.xd.cxlUp.getLsbD i = if i = port then up else s.xd.cxlUp.getLsbD i)) ∧
    (∀ nonce : List Byte, (nonce.length ≠ 48 ∨ s.bootFailed = true → Idle (.attestationRequest nonce) s) ∧
      (nonce.length = 48 → s.bootFailed = false → Does (.attestationRequest nonce) s fun t =>
        ∃ body, body = s.loaded.flatMap (fun n => leBytes 48 (Config.imageDigest n).toNat) ++ Config.partId ++ [0xFF, s.xd.accept] ++ nonce ∧ t.reports = (body ++ Config.signature body) :: s.reports))

/-! ## The whole machine -/

/-- R71 to R81, R87, R95, R96: decoder and encoder agree. Every well-formed instruction comes back from its words, at every
place in a fetch block that it may have and whatever words follow; and words that decode to an instruction are its
encoding. -/
def Obligations.DecodeAndEncodeAgree : Prop :=
  (∀ (i : Instr) (off : Nat) (rest : List W32), Instr.WellFormed i → encode i ≠ [] → InBlock off i →
    decode off (encode i ++ rest) = .ok i) ∧
  (∀ (i : Instr) (off : Nat) (ws : List W32), decode off ws = .ok i → (∀ w, i ≠ .unassignedOpcode w) → Instr.words i ≤ ws.length →
    Instr.WellFormed i ∧ InBlock off i ∧ encode i = ws.take (Instr.words i))

/-- The worked encodings of the spec, one or more of every family, decode to the instructions that they stand for. -/
def Obligations.WorkedEncodings : Prop :=
  decode 0 [0x02044C81, 0xFFE83AFD] = .ok (.add { h := { gp := 3, gn := true }, fmt := .i32, d := rV 4, a := rV 2, b := .imm (.i18 (-3)) }) ∧
  decode 0 [0x02040142, 0x00042A03, 0x40082C00] = .ok (.fadd { h := { len := .w3 }, fmt := .f32, d := rV 4, a := rV 2, b := .reg (rV 3)
                                                               xa := { rel := true, amt := 1, pat := .bfly }, rnd := .rz }) ∧
  decode 0 [0x0101003D, 0x1C000000, 0x00080141, 0x00042A10] = .ok (.rep { y := false, cnt := 7, cstep := 0, bstep := 0, astep := 1, dstep := 1
                                                                          body := .reg 0x50 { fmt := .f32, d := rV 8, a := rV 0, b := .reg (rV 16) } }) ∧
  decode 0 [0x00100021, 0x00403000] = .ok (.call { d := rS 16, b := .imm (.i18 256) }) ∧
  decode 0 [0x0104014E, 0x00042A02, 0x00000203] = .ok (.fma { h := { len := .w3 }, fmt := .f32, d := rV 4, a := rV 1, b := .reg (rV 2), c := rV 3 }) ∧
  decode 0 [0x080A01C5, 0x00064A00] = .ok (.red { fmt := .f32, sub := 9, d := rV 10, a := rV 8 }) ∧
  decode 0 [0x01040202, 0x00048600, 0x00000040] = .ok (.ld { fmt := .f32, sub := 2, d := rV 4, a := rA 1, disp := 64 }) ∧
  decode 0 [0x0D000206, 0x00288000, 0x00000040] = .ok (.st { fmt := .i32, sub := 2, a := rS 13, disp := 64 }) ∧
  decode 0 [0x0411022F, 0x00000306, 0x00002005, 0x80000100] = .ok (.cpy { d := rK 17, a := rS 4, b := rS 6, c := rS 5, dseg := .scr, lc := true, lcoff := 256 }) ∧
  decode 0 [0x06120303, 0x00000307, 0, 0] = .ok (.launch { h := { len := .w4 }, d := rK 18, a := rS 6, b := rS 7 }) ∧
  decode 0 [0x08140305, 0x04400A00] = .ok (.sysc { x10 := 17, d := rV 20, a := rV 8 }) ∧
  decode 0 [0x04120283, 0x00000305, 0x00000110, 0x000000C8] = .ok (.kload { d := rK 18, a := rS 4, b := rS 5, pitch := 200, mfmt := .sx4, sfmt := .sx .sx4 }) ∧
  decode 0 [0x06110286, 0x00000300, 0x00100040] = .ok (.ktask { d := rK 17, a := rS 6, seg := .scr, disp := 64 }) ∧
  decode 0 [0x2308028D, 0x0004FE00] = .ok (.kread { fmt := .f32, sub := 3, d := rV 8, a := rK 35, b := .imm (.i18 0) }) ∧
  decode 0 [0x0400011D, 0x00400005] = .ok (.segld { x10 := 1, a := rS 4, b := .reg (rS 5) }) ∧
  decode 0 [0x000902C1, 0x20C08206] = .ok (.barSync { sub := 2, x10 := 0x83, d := rV 9, b := .reg (rS 6) }) ∧
  decode 0 [0x040002C6, 0xFFC030FF, 0x00000008] = .ok (.sigadd { a := rS 4, b := .imm (.i18 (-1)), disp := 8 }) ∧
  decode 0 [0xFA00030A, 0x0FC03800, 0x00400000] = .ok (.savek { a := rV 250, b := .imm (.i18 0x3F00), seg := .ctx }) ∧
  decode 24 [0x00040082, 0x00000000] = .error .illegalSpan ∧ decode 20 [0x00040082, 0x00000000] = .error .illegalOp

/-- R71, R72, R99 to R102, R137, R142: LEN 0b00 and the unassigned opcodes trap ILLEGAL_OP whatever the other fields hold;
an instruction that passes its block traps ILLEGAL_SPAN; FMT 14 and 15 trap ILLEGAL_OP; then class, registers and
privilege are checked, in that order, then a pending register stalls, then the full mask and the tags are checked. R421 to
R424: a trap stops the team with nothing else of the posy, of memory or of other teams changed, and its record says which
instruction, where, in which lanes and why. The model's choice: the lanes that a trap at decode records (log entry 21). -/
def Obligations.ChecksAndTraps : Prop :=
  (∀ (off : Nat) (ws : List W32),
    let w0 := ws.getD 0 0
    let len := w0.toNat % 4
    let opc := w0.toNat / 4 % 256
    (len = 0 → decode off ws = .ok (.unassignedOpcode w0)) ∧
    (len ≠ 0 → (off % 4 ≠ 0 ∨ 32 < off + 4 * (len + 1)) → decode off ws = .error .illegalSpan) ∧
    (len ≠ 0 → off % 4 = 0 → off + 4 * (len + 1) ≤ 32 → Unassigned opc → decode off ws = .ok (.unassignedOpcode w0)) ∧
    (len ≠ 0 → off % 4 = 0 → off + 4 * (len + 1) ≤ 32 → ¬Unassigned opc → (ws.getD 1 0).toNat / 2 ^ 18 % 16 ≥ 14 → opc ≠ 0x0F →
      decode off ws = .error .illegalOp) ∧
    (∀ tr, decode off ws = .error tr → tr = .illegalOp ∨ tr = .illegalSpan)) ∧
  (∀ (w : W32) (s : State) (e : Env), curEnv s = some e →
    exec (.unassignedOpcode w) s = .next (takeTrap s e .illegalOp
      (if w.toNat / 4 % 256 = 4 then e.p.present else e.p.active { gp := w.extractLsb' 10 4, gn := w.getLsbD 14 }) 0)) ∧
  (∀ (i : Instr) (a : Alu) (s : State) (e : Env), laneAlu i = some a → curEnv s = some e → FirstTrap s e a.need a.h i) ∧
  (∀ (o : Ops) (s : State) (e : Env), curEnv s = some e → FirstTrap s e (sreadNeed o) o.h (.sread o) ∧ FirstTrap s e (swriteNeed o) o.h (.swrite o)) ∧
  (∀ (s : State) (e : Env) (tr : Trap) (lanes : List Nat) (sw : Nat), e.p.pc < 2 ^ 64 → e.t.lid < 2 ^ 64 → e.t.idx < 2 ^ 32 →
    e.slot < 256 → sw < 2 ^ 16 → (∀ L ∈ lanes, L < 64) →
    let t := takeTrap s e tr lanes sw
    (∀ k, t.posy k = s.posy k) ∧ t.mem = s.mem ∧ (∀ id, id ≠ e.p.team → t.team id = s.team id) ∧
    (∃ tm, t.team e.p.team = some tm ∧ tm.stopped = some (e.slot, !e.p.privileged && (tr == .swtrap || tr == .break_)) ∧
      tm.trapped = e.t.stopped.toList ++ e.t.trapped ∧
      tm.frames = e.t.frames ∧ tm.flags = e.t.flags ∧ tm.scratch = e.t.scratch ∧ tm.tiles = e.t.tiles) ∧
    ∃ bs, t.traps = s.traps ++ [(e.t.queue, bs)] ∧ bs.length = 64 ∧ recField bs 0 1 = 0 ∧
      recField bs 1 1 = (match tr with
        | .illegalOp => 1 | .illegalType => 2 | .illegalReg => 3 | .illegalSpan => 4 | .umask => 5 | .format => 6 | .align => 7
        | .seg => 8 | .priv => 9 | .handle => 10 | .saturate => 11 | .merr => 12 | .swtrap => 13 | .break_ => 14 | .xblock => 15) ∧
      recField bs 2 2 = sw ∧ recField bs 5 1 = e.slot ∧ recField bs 8 8 = e.p.pc ∧ recField bs 16 8 = e.t.lid ∧ recField bs 24 4 = e.t.idx ∧
      recField bs 31 1 = (if e.p.privileged then 1 else 0) ∧ (∀ L, (recField bs 32 8).testBit L = true ↔ L ∈ lanes) ∧
      recField bs 40 8 = s.time % 2 ^ 64)

/-- A step runs the decoded instruction: the turn that comes next is taken; a posy that may issue fetches the bytes at
its PC, and the instruction that they decode to is executed, after the fetch is closed and before the stamp of its turn, and that
its team has issued (R326), are noted, if its bay has not issued in this cycle and holds no ready posy with an older stamp (R325) and
nothing of the same cycle comes first (R56, R407, R421); a decode trap is taken at the PC. The step of another agent runs as its own
instruction, once bring-up is over (R458), and a tick advances the clock. No step stops the machine. The model's choices: the list of
turns (log entry 2), a fetch from the bytes at home (log entry 12), what a turn of the same cycle holds back and the age of a stamp
(log entries 46 and 13), the turn that moves HDMBASE (log entry 115). -/
def Obligations.StepRunsTheDecodedInstruction : Prop :=
  (∀ (s s0 : State) (core slot : Nat) (e : Env), s.turns = .issue core slot :: s0.turns → s = { s0 with turns := s.turns } →
    envAt s0 (posyKey core slot) = some e → 4 ≤ s0.boot → mayIssue s0 e = true →
    (e.p.waiting || bayTurn s0 core slot) = true → heldInCycle s0 e = false → ∀ s1 bs, fetchBytes s0 e = .got s1 bs →
    let s2 := beforeIssue s1 e
    s2.cur = (e.core, e.slot) ∧ s2.mem = s1.mem ∧
    (∀ i, decodeBytes (e.p.pc % 32) bs = .ok i → ∃ s3 t, exec i s2 = .next s3 ∧ step s = .next t ∧ IssueNoted e s3 t ∧
      (∀ p, s3.posy e.key = some p → p.pc ≠ e.p.pc → FirstNoted e s3 t)) ∧
    (∀ tr, decodeBytes (e.p.pc % 32) bs = .error tr → ∃ s3 t, s3 = decodeTrap s2 tr ((fetchWords bs).getD 0 0) ∧ step s = .next t ∧
      IssueNoted e s3 t ∧ FirstNoted e s3 t)) ∧
  (∀ (s s0 : State) (core slot : Nat) (e : Env), s.turns = .issue core slot :: s0.turns → s = { s0 with turns := s.turns } →
    envAt s0 (posyKey core slot) = some e → heldInCycle s0 e = true → step s = .next s0) ∧
  (∀ (s s0 : State) (core slot : Nat) (e : Env), s.turns = .issue core slot :: s0.turns → s = { s0 with turns := s.turns } →
    envAt s0 (posyKey core slot) = some e → e.p.waiting = false →
    (bayDone s0 core (slot % 4) = true ∨ ∃ j, j ≠ slot ∧ j < 24 ∧ j % 4 = slot % 4 ∧ ready s0 (posyKey core j) = true ∧
      (stampAge s0 core slot < stampAge s0 core j ∨ stampAge s0 core j = stampAge s0 core slot ∧ j < slot)) → step s = .next s0) ∧
  (∀ (s : State) (e : Env) (l : Leaf) (d : Nat), e.p.fetchOnes = none → (∀ x ∈ (s.die (dieOf e.core)).entries, x.st ≠ .replay) →
    translate s e.t.part e.t.vd (some e.core) (dieOf e.core) e.p.pc { x := true } e.p.privileged = .leaf l →
    paKind (l.pa_ e.p.pc) = .hbm d → reaches s (dieOf e.core) (l.pa_ e.p.pc) = true → (∀ j, j < 32 → s.poisoned (l.pa_ e.p.pc + j) = false) →
    isMerging s (lineOf (l.pa_ e.p.pc)) none = false → e.p.pc % 32 ≠ 24 → fetchBytes s e = .got s ((List.range (32 - e.p.pc % 32)).map fun j => s.byte (l.pa_ e.p.pc + j))) ∧
  (∀ (s s0 : State) (i : Instr), s.turns = .event i :: s0.turns → s = { s0 with turns := s.turns } →
    (encode i = [] → 5 ≤ s0.boot → (∀ team frame k, i ≠ .joinExpiry team frame k) → step s = exec i s0) ∧ (encode i ≠ [] → step s = .next s0)) ∧
  (∀ (s s0 : State) (base : Nat), s.turns = .decoder base :: s0.turns → s = { s0 with turns := s.turns } → step s = .next { s0 with hdmBase := base }) ∧
  (∀ (s s0 : State), s.turns = .tick :: s0.turns → s = { s0 with turns := s.turns } → 4 ≤ s0.boot → cycleOwes s0 = false → ∃ t, step s = .next t ∧
    t.cycle = s0.cycle + 1 ∧ t.mem = s0.mem ∧
    (s0.sixths < 6 → t.time = s0.time + (s0.sixths + if s0.thermStep = 0 then 3 else if s0.thermStep = 1 then 4 else 6) / 6)) ∧
  (∀ i s, ∃ t, exec i s = .next t) ∧ ∀ s, ∃ t, step s = .next t

/-- Every step keeps memory and its poison marks in canonical form, and the bring-up state and the clock in their
ranges. -/
def Obligations.StepKeepsTheInvariant : Prop := ∀ (s t : State), Inv s → step s = .next t → Inv t

/-- The state right after reset: it meets the invariant; nothing runs, no VD, queue or launch is defined, memory reads
zero, at the point of R458 where `boot` is 4 (the model's choices: log entries 4 and 3); the registers have the reset values of R368, R396 to R399 and R445. -/
def Obligations.Reset : Prop :=
  let s := State.reset
  Inv s ∧ s.teams = [] ∧ s.posies = [] ∧ s.queues = [] ∧ s.vds = [] ∧ s.launches = [] ∧ s.traps = [] ∧ s.boot = 4 ∧ s.thermStep = 0 ∧
  (∀ a, s.byte a = 0 ∧ s.poisoned a = false) ∧
  (∀ d, (s.die d).parkLimit = 2048 ∧ (s.die d).ovfCfg = 0 ∧ (s.die d).ovfBase = 0 ∧ (s.die d).frCfg = 6 ∧ (s.die d).frBase = 0 ∧ (s.die d).parkCmd = none ∧
    (s.die d).parkErr = false ∧ (s.die d).entries = [] ∧ (s.die d).fwClosed = 0 ∧ (s.die d).migStat = 0) ∧
  s.xd.cmd = none ∧ s.xd.cmdErr = false ∧ s.xd.qdtBase = 0 ∧ s.xd.vdtBase = 0 ∧ s.xd.partmap = 0 ∧ s.xd.peermap = 0 ∧ s.xd.accept = 0 ∧
  s.xd.acceptLocked = false ∧ s.xd.tcmd = none ∧ ∀ n, Tab.get 0 s.xd.qrange n = 0
end

