-- ==== Sys2Proof/Laws/Encoding.lean ====
section
/-!
SUPPORT. The encoding: fields of joined words, the codes of the field values, and the common words.
-/
namespace Sys2Proof

open Machine

variable {n m : Nat}

/-! ## Fields of joined words -/

theorem extract_low {x : BitVec n} {y : BitVec m} {s l : Nat} (h : s + l ≤ m) : (x ++ y).extractLsb' s l = y.extractLsb' s l := by
  apply BitVec.eq_of_getLsbD_eq; intro i hi
  have : s + i < m := by omega
  simp only [BitVec.getLsbD_extractLsb', hi, decide_true, Bool.true_and, BitVec.getLsbD_append, this, if_true]

theorem extract_high {x : BitVec n} {y : BitVec m} {s l : Nat} (h : m ≤ s) : (x ++ y).extractLsb' s l = x.extractLsb' (s - m) l := by
  apply BitVec.eq_of_getLsbD_eq; intro i hi
  have h1 : ¬ s + i < m := by omega
  have h2 : s + i - m = s - m + i := by omega
  simp only [BitVec.getLsbD_extractLsb', hi, decide_true, Bool.true_and, BitVec.getLsbD_append, h1, h2, if_false]

theorem extract_self (x : BitVec n) : x.extractLsb' 0 n = x := by
  apply BitVec.eq_of_getLsbD_eq; intro i hi
  simp [hi]

theorem extract_ofBool (b : Bool) : ((BitVec.ofBool b).extractLsb' 0 1 == 1) = b := by cases b <;> rfl

/-- The fields of words 0 and 1 come back (R74). -/
theorem Common.ofWords_words (k : Common) : Common.ofWords (Common.word0 k) (Common.word1 k) = k := by
  cases k
  simp only [Common.ofWords, Common.word0, Common.word1, bit1, Common.mk.injEq]
  refine ⟨?_, ?_, ?_, ?_, ?_, ?_, ?_, ?_, ?_, ?_, ?_, ?_, ?_, ?_⟩
  all_goals
    repeat (first | rw [extract_low (by omega)] | rw [extract_high (by omega)])
    try simp only [Nat.reduceSub, Nat.sub_self]
    first | exact extract_self _ | exact extract_ofBool _

/-! ## Codes of the field values -/

@[simp] theorem Cls.ofCode_code (c : Cls) : Cls.ofCode (Cls.code c) = c := by cases c <;> rfl
@[simp] theorem Cls.code_ofCode (c : BitVec 2) : Cls.code (Cls.ofCode c) = c := by revert c; decide
@[simp] theorem Len.ofCode_code (l : Len) : Len.ofCode (Len.code l) = some l := by cases l <;> rfl
theorem Len.code_of_ofCode {c : BitVec 2} {l : Len} (h : Len.ofCode c = some l) : Len.code l = c := by revert c l; decide
@[simp] theorem Rnd.ofCode_code (r : Rnd) : Rnd.ofCode (Rnd.code r) = r := by cases r <;> rfl
@[simp] theorem Rnd.code_ofCode (c : BitVec 2) : Rnd.code (Rnd.ofCode c) = c := by revert c; decide
@[simp] theorem Ord.ofCode_code (o : Sys2Proof.Ord) : Ord.ofCode (Ord.code o) = o := by cases o <;> rfl
@[simp] theorem Ord.code_ofCode (c : BitVec 2) : Ord.code (Ord.ofCode c) = c := by revert c; decide
@[simp] theorem Pat.ofCode_code (p : Pat) : Pat.ofCode (Pat.code p) = some p := by cases p <;> rfl
theorem Pat.code_of_ofCode {c : BitVec 3} {p : Pat} (h : Pat.ofCode c = some p) : Pat.code p = c := by revert c p; decide
@[simp] theorem Seg.ofCode_code (g : Seg) : Seg.ofCode (Seg.code g) = some g := by cases g <;> rfl
theorem Seg.code_of_ofCode {c : BitVec 3} {g : Seg} (h : Seg.ofCode c = some g) : Seg.code g = c := by revert c g; decide
@[simp] theorem SxFmt.ofCode_code (f : SxFmt) : SxFmt.ofCode (SxFmt.code f) = some f := by cases f <;> rfl
theorem SxFmt.code_of_ofCode {c : BitVec 2} {f : SxFmt} (h : SxFmt.ofCode c = some f) : SxFmt.code f = c := by revert c f; decide
@[simp] theorem SrcFmt.ofCode_code (f : SrcFmt) : SrcFmt.ofCode (SrcFmt.code f) = some f := by
  cases f with
  | sx m => cases m <;> rfl
  | _ => rfl
@[simp] theorem Fmt.ofBits_bits (f : Fmt) : Fmt.ofBits (Fmt.bits f) = some f := by cases f <;> rfl
theorem Fmt.bits_of_ofBits {c : BitVec 4} {f : Fmt} (h : Fmt.ofBits c = some f) : Fmt.bits f = c := by revert c f; decide

/-- A crossbar field comes back (R89). -/
@[simp] theorem XBar.ofBits_bits (x : XBar) : XBar.ofBits (XBar.bits x) = some x := by
  obtain ⟨rel, amt, pat⟩ := x
  have h0 : (BitVec.ofBool rel ++ amt ++ Pat.code pat).extractLsb' 0 3 = Pat.code pat := by
    rw [extract_low (by omega), extract_self]
  have h1 : (BitVec.ofBool rel ++ amt ++ Pat.code pat).extractLsb' 3 6 = amt := by
    rw [extract_high (by omega), extract_low (by omega)]; exact extract_self _
  have h2 : ((BitVec.ofBool rel ++ amt ++ Pat.code pat).extractLsb' 9 1 == 1) = rel := by
    rw [extract_high (by omega), extract_high (by omega)]; exact extract_ofBool _
  simp only [XBar.ofBits, XBar.bits, h0, h1, h2, Pat.ofCode_code, Option.map_some]

/-- An operand comes back. -/
@[simp] theorem opd_code (o : Opd) : opd (Cls.code o.cls) o.n = o := by simp [opd]

end Sys2Proof
end

