-- ==== Sys2Proof/Laws/Tab.lean ====
section
/-!
SUPPORT. The sparse table: reading after writing, and the canonical form, which every operation keeps.
-/
namespace Sys2Proof.Machine

variable {α : Type} [DecidableEq α] {d : α}

theorem Tab.wfFrom_cons {lo : Option Nat} {k : Nat} {v : α} {t : Tab α} :
    Tab.wfFrom d lo ((k, v) :: t) = true ↔ (∀ l, lo = some l → l < k) ∧ v ≠ d ∧ Tab.wfFrom d (some k) t = true := by
  cases lo <;> simp [Tab.wfFrom, and_assoc]

/-- The bound may be lowered. -/
theorem Tab.wfFrom_mono {t : Tab α} {a : Nat} {lo : Option Nat} (h : Tab.wfFrom d (some a) t = true)
    (hl : ∀ l, lo = some l → l ≤ a) : Tab.wfFrom d lo t = true := by
  cases t with
  | nil => rfl
  | cons x t =>
    rw [Tab.wfFrom_cons] at h ⊢
    exact ⟨fun l e => Nat.lt_of_le_of_lt (hl l e) (h.1 a rfl), h.2⟩

/-- A key at or below the bound is not listed. -/
theorem Tab.get_of_le {t : Tab α} {a i : Nat} (h : Tab.wfFrom d (some a) t = true) (hi : i ≤ a) : Tab.get d t i = d := by
  induction t generalizing a with
  | nil => rfl
  | cons x t ih =>
    obtain ⟨k, v⟩ := x
    rw [Tab.wfFrom_cons] at h
    have hk := h.1 a rfl
    simp only [Tab.get, Nat.ne_of_lt (Nat.lt_of_le_of_lt hi hk), if_false]
    exact ih h.2.2 (by omega)

omit [DecidableEq α] in
theorem Tab.get_filter_ne (t : Tab α) {i j : Nat} (h : j ≠ i) : Tab.get d (t.filter fun e => e.1 != i) j = Tab.get d t j := by
  induction t with
  | nil => rfl
  | cons e t ih =>
    obtain ⟨k, v⟩ := e
    rw [List.filter_cons]
    by_cases hk : k = i
    · simp only [hk, bne_self_eq_false, Bool.false_eq_true, if_false, ih, Tab.get, h]
    · simp only [bne_iff_ne, ne_eq, hk, not_false_eq_true, if_true, Tab.get, ih]

omit [DecidableEq α] in
theorem Tab.get_filter_self (t : Tab α) (i : Nat) : Tab.get d (t.filter fun e => e.1 != i) i = d := by
  induction t with
  | nil => rfl
  | cons e t ih =>
    obtain ⟨k, v⟩ := e
    rw [List.filter_cons]
    by_cases hk : k = i
    · simp only [hk, bne_self_eq_false, Bool.false_eq_true, if_false, ih]
    · simp only [bne_iff_ne, ne_eq, hk, not_false_eq_true, if_true, Tab.get, ih, Ne.symm hk, if_false]

omit [DecidableEq α] in
theorem Tab.get_put_ne (t : Tab α) {i j : Nat} (x : α) (h : j ≠ i) : Tab.get d (Tab.put t i x) j = Tab.get d t j := by
  induction t with
  | nil => simp [Tab.put, Tab.get, h]
  | cons e t ih =>
    obtain ⟨k, v⟩ := e
    simp only [Tab.put]
    split
    · simp [Tab.get, h]
    · split
      · rename_i hk
        subst hk
        simp [Tab.get, h]
      · simp only [Tab.get, ih]

omit [DecidableEq α] in
theorem Tab.get_put_self (t : Tab α) (i : Nat) (x : α) : Tab.get d (Tab.put t i x) i = x := by
  induction t with
  | nil => simp [Tab.put, Tab.get]
  | cons e t ih =>
    obtain ⟨k, v⟩ := e
    simp only [Tab.put]
    split
    · simp [Tab.get]
    · split
      · rename_i hk
        simp [Tab.get, hk]
      · rename_i h1 h2
        simp only [Tab.get, h2, if_false, ih]

/-- Another key reads as before. -/
@[simp] theorem Tab.get_set_ne (t : Tab α) {i j : Nat} (x : α) (h : j ≠ i) : Tab.get d (Tab.set d t i x) j = Tab.get d t j := by
  simp only [Tab.set]
  split
  · exact Tab.get_filter_ne t h
  · exact Tab.get_put_ne t x h

/-- The key reads as what was written. -/
@[simp] theorem Tab.get_set_self (t : Tab α) (i : Nat) (x : α) : Tab.get d (Tab.set d t i x) i = x := by
  simp only [Tab.set]
  split
  · rename_i hx
    rw [hx, Tab.get_filter_self]
  · exact Tab.get_put_self t i x

theorem Tab.get_set (t : Tab α) (i j : Nat) (x : α) : Tab.get d (Tab.set d t i x) j = if j = i then x else Tab.get d t j := by
  by_cases hj : j = i
  · subst hj; simp
  · simp [hj]

theorem Tab.wfFrom_put {t : Tab α} {lo : Option Nat} (i : Nat) (x : α) (h : Tab.wfFrom d lo t = true)
    (hi : ∀ l, lo = some l → l < i) (hx : x ≠ d) : Tab.wfFrom d lo (Tab.put t i x) = true := by
  induction t generalizing lo with
  | nil =>
    simp only [Tab.put]
    rw [Tab.wfFrom_cons]
    exact ⟨hi, hx, rfl⟩
  | cons e t ih =>
    obtain ⟨k, v⟩ := e
    rw [Tab.wfFrom_cons] at h
    simp only [Tab.put]
    split
    · rename_i hk
      rw [Tab.wfFrom_cons, Tab.wfFrom_cons]
      exact ⟨hi, hx, fun l e => by cases e; exact hk, h.2.1, h.2.2⟩
    · split
      · rename_i hk
        subst hk
        rw [Tab.wfFrom_cons]
        exact ⟨hi, hx, h.2.2⟩
      · rename_i h1 h2
        rw [Tab.wfFrom_cons]
        exact ⟨h.1, h.2.1, ih h.2.2 fun l e => by cases e; omega⟩

theorem Tab.wfFrom_filter {t : Tab α} {lo : Option Nat} (p : Nat × α → Bool) (h : Tab.wfFrom d lo t = true) :
    Tab.wfFrom d lo (t.filter p) = true := by
  induction t generalizing lo with
  | nil => rfl
  | cons e t ih =>
    obtain ⟨k, v⟩ := e
    rw [Tab.wfFrom_cons] at h
    rw [List.filter_cons]
    split
    · rw [Tab.wfFrom_cons]
      exact ⟨h.1, h.2.1, ih h.2.2⟩
    · exact Tab.wfFrom_mono (ih h.2.2) fun l e => Nat.le_of_lt (h.1 l e)

/-- Taking entries out keeps the canonical form. -/
@[simp] theorem Tab.wf_filter {t : Tab α} (p : Nat × α → Bool) (h : Tab.wf d t = true) : Tab.wf d (t.filter p) = true :=
  Tab.wfFrom_filter p h

/-- A write keeps the canonical form. -/
@[simp] theorem Tab.wf_set {t : Tab α} (i : Nat) (x : α) (h : Tab.wf d t = true) : Tab.wf d (Tab.set d t i x) = true := by
  simp only [Tab.set]
  split
  · exact Tab.wf_filter _ h
  · rename_i hx
    exact Tab.wfFrom_put i x h (by simp) hx

@[simp] theorem Tab.wf_setAll {t : Tab α} (xs : List (Nat × α)) (h : Tab.wf d t = true) : Tab.wf d (Tab.setAll d t xs) = true := by
  induction xs generalizing t with
  | nil => exact h
  | cons x xs ih => exact ih (Tab.wf_set _ _ h)

/-- A key that no pair names reads as before. -/
theorem Tab.get_setAll_of_not_mem (t : Tab α) (xs : List (Nat × α)) (j : Nat) (h : ∀ p ∈ xs, p.1 ≠ j) :
    Tab.get d (Tab.setAll d t xs) j = Tab.get d t j := by
  induction xs generalizing t with
  | nil => rfl
  | cons x xs ih =>
    have := h x (by simp)
    rw [show Tab.setAll d t (x :: xs) = Tab.setAll d (Tab.set d t x.1 x.2) xs from rfl,
      ih _ fun p hp => h p (by simp [hp]), Tab.get_set_ne _ _ (Ne.symm this)]

/-- After a list of writes the key reads as the last write that names it. -/
theorem Tab.get_setAll (t : Tab α) (xs : List (Nat × α)) (j : Nat) :
    Tab.get d (Tab.setAll d t xs) j = ((xs.reverse.find? fun p => p.1 == j).map (·.2)).getD (Tab.get d t j) := by
  induction xs generalizing t with
  | nil => rfl
  | cons x xs ih =>
    rw [show Tab.setAll d t (x :: xs) = Tab.setAll d (Tab.set d t x.1 x.2) xs from rfl, ih, List.reverse_cons, List.find?_append]
    cases hf : xs.reverse.find? (fun p => p.1 == j) with
    | some p => rfl
    | none =>
      by_cases hj : x.1 = j
      · simp [hj]
      · simp [hj, Tab.get_set_ne _ _ (Ne.symm hj)]

/-- After a list of writes that agree on a key, the key reads as they say. -/
theorem Tab.get_setAll_of_mem (t : Tab α) (xs : List (Nat × α)) (j : Nat) (y : α) (hm : ∃ p ∈ xs, p.1 = j)
    (h : ∀ p ∈ xs, p.1 = j → p.2 = y) : Tab.get d (Tab.setAll d t xs) j = y := by
  rw [Tab.get_setAll]
  cases hf : xs.reverse.find? (fun p => p.1 == j) with
  | some p =>
    have h1 := List.mem_of_find?_eq_some hf
    have h2 := List.find?_some hf
    exact h p (by simpa using h1) (by simpa using h2)
  | none =>
    obtain ⟨p, hp, hj⟩ := hm
    have := List.find?_eq_none.mp hf p (by simpa using hp)
    simp [hj] at this

@[simp] theorem Tab.wf_nil : Tab.wf d ([] : Tab α) = true := rfl

/-- Equal contents are equal data. -/
theorem Tab.ext' {t u : Tab α} {lo : Option Nat} (ht : Tab.wfFrom d lo t = true) (hu : Tab.wfFrom d lo u = true)
    (h : ∀ i, Tab.get d t i = Tab.get d u i) : t = u := by
  induction t generalizing lo u with
  | nil =>
    cases u with
    | nil => rfl
    | cons e u =>
      obtain ⟨k, v⟩ := e
      rw [Tab.wfFrom_cons] at hu
      have := h k
      simp [Tab.get] at this
      exact absurd this.symm hu.2.1
  | cons e t ih =>
    obtain ⟨k, v⟩ := e
    rw [Tab.wfFrom_cons] at ht
    cases u with
    | nil =>
      have := h k
      simp [Tab.get] at this
      exact absurd this ht.2.1
    | cons e' u =>
      obtain ⟨k', v'⟩ := e'
      rw [Tab.wfFrom_cons] at hu
      have hk : k = k' := by
        rcases Nat.lt_trichotomy k k' with hlt | heq | hgt
        · have := h k
          simp only [Tab.get, if_true, Nat.ne_of_lt hlt, if_false] at this
          rw [Tab.get_of_le hu.2.2 (by omega)] at this
          exact absurd this ht.2.1
        · exact heq
        · have := h k'
          simp only [Tab.get, if_true, Nat.ne_of_lt hgt, if_false] at this
          rw [Tab.get_of_le ht.2.2 (by omega)] at this
          exact absurd this.symm hu.2.1
      subst hk
      have hv : v = v' := by simpa [Tab.get] using h k
      subst hv
      rw [ih ht.2.2 hu.2.2 fun i => ?_]
      by_cases hi : i = k
      · subst hi
        rw [Tab.get_of_le ht.2.2 (by omega), Tab.get_of_le hu.2.2 (by omega)]
      · simpa [Tab.get, hi] using h i

theorem Tab.ext {t u : Tab α} (ht : Tab.wf d t = true) (hu : Tab.wf d u = true) (h : ∀ i, Tab.get d t i = Tab.get d u i) :
    t = u := Tab.ext' ht hu h

end Sys2Proof.Machine
end

