-- ==== Sys2Proof/Laws/State.lean ====
section
/-!
SUPPORT. What the updates of the state leave alone, field by field, and what reading after them gives.
-/
namespace Sys2Proof.Machine

/-! ## setPosy -/

@[simp] theorem State.setPosy_cycle (s : State) (k : Nat) (x : Option Posy) : (s.setPosy k x).cycle = s.cycle := rfl
@[simp] theorem State.setPosy_time (s : State) (k : Nat) (x : Option Posy) : (s.setPosy k x).time = s.time := rfl
@[simp] theorem State.setPosy_sixths (s : State) (k : Nat) (x : Option Posy) : (s.setPosy k x).sixths = s.sixths := rfl
@[simp] theorem State.setPosy_thermStep (s : State) (k : Nat) (x : Option Posy) : (s.setPosy k x).thermStep = s.thermStep := rfl
@[simp] theorem State.setPosy_tj (s : State) (k : Nat) (x : Option Posy) : (s.setPosy k x).tj = s.tj := rfl
@[simp] theorem State.setPosy_hotSince (s : State) (k : Nat) (x : Option Posy) : (s.setPosy k x).hotSince = s.hotSince := rfl
@[simp] theorem State.setPosy_coolSince (s : State) (k : Nat) (x : Option Posy) : (s.setPosy k x).coolSince = s.coolSince := rfl
@[simp] theorem State.setPosy_boot (s : State) (k : Nat) (x : Option Posy) : (s.setPosy k x).boot = s.boot := rfl
@[simp] theorem State.setPosy_bootFailed (s : State) (k : Nat) (x : Option Posy) : (s.setPosy k x).bootFailed = s.bootFailed := rfl
@[simp] theorem State.setPosy_images (s : State) (k : Nat) (x : Option Posy) : (s.setPosy k x).images = s.images := rfl
@[simp] theorem State.setPosy_loaded (s : State) (k : Nat) (x : Option Posy) : (s.setPosy k x).loaded = s.loaded := rfl
@[simp] theorem State.setPosy_hdmBase (s : State) (k : Nat) (x : Option Posy) : (s.setPosy k x).hdmBase = s.hdmBase := rfl
@[simp] theorem State.setPosy_answer (s : State) (k : Nat) (x : Option Posy) : (s.setPosy k x).answer = s.answer := rfl
@[simp] theorem State.setPosy_reserved (s : State) (k : Nat) (x : Option Posy) : (s.setPosy k x).reserved = s.reserved := rfl
@[simp] theorem State.setPosy_turns (s : State) (k : Nat) (x : Option Posy) : (s.setPosy k x).turns = s.turns := rfl
@[simp] theorem State.setPosy_turnCount (s : State) (k : Nat) (x : Option Posy) : (s.setPosy k x).turnCount = s.turnCount := rfl
@[simp] theorem State.setPosy_cur (s : State) (k : Nat) (x : Option Posy) : (s.setPosy k x).cur = s.cur := rfl
@[simp] theorem State.setPosy_fresh (s : State) (k : Nat) (x : Option Posy) : (s.setPosy k x).fresh = s.fresh := rfl
@[simp] theorem State.setPosy_mem (s : State) (k : Nat) (x : Option Posy) : (s.setPosy k x).mem = s.mem := rfl
@[simp] theorem State.setPosy_poison (s : State) (k : Nat) (x : Option Posy) : (s.setPosy k x).poison = s.poison := rfl
@[simp] theorem State.setPosy_hostLines (s : State) (k : Nat) (x : Option Posy) : (s.setPosy k x).hostLines = s.hostLines := rfl
@[simp] theorem State.setPosy_dir (s : State) (k : Nat) (x : Option Posy) : (s.setPosy k x).dir = s.dir := rfl
@[simp] theorem State.setPosy_wbs (s : State) (k : Nat) (x : Option Posy) : (s.setPosy k x).wbs = s.wbs := rfl
@[simp] theorem State.setPosy_merging (s : State) (k : Nat) (x : Option Posy) : (s.setPosy k x).merging = s.merging := rfl
@[simp] theorem State.setPosy_cores (s : State) (k : Nat) (x : Option Posy) : (s.setPosy k x).cores = s.cores := rfl
@[simp] theorem State.setPosy_dies (s : State) (k : Nat) (x : Option Posy) : (s.setPosy k x).dies = s.dies := rfl
@[simp] theorem State.setPosy_shares (s : State) (k : Nat) (x : Option Posy) : (s.setPosy k x).shares = s.shares := rfl
@[simp] theorem State.setPosy_nextUid (s : State) (k : Nat) (x : Option Posy) : (s.setPosy k x).nextUid = s.nextUid := rfl
@[simp] theorem State.setPosy_teams (s : State) (k : Nat) (x : Option Posy) : (s.setPosy k x).teams = s.teams := rfl
@[simp] theorem State.setPosy_nextTeam (s : State) (k : Nat) (x : Option Posy) : (s.setPosy k x).nextTeam = s.nextTeam := rfl
@[simp] theorem State.setPosy_queues (s : State) (k : Nat) (x : Option Posy) : (s.setPosy k x).queues = s.queues := rfl
@[simp] theorem State.setPosy_launches (s : State) (k : Nat) (x : Option Posy) : (s.setPosy k x).launches = s.launches := rfl
@[simp] theorem State.setPosy_lastLid (s : State) (k : Nat) (x : Option Posy) : (s.setPosy k x).lastLid = s.lastLid := rfl
@[simp] theorem State.setPosy_vds (s : State) (k : Nat) (x : Option Posy) : (s.setPosy k x).vds = s.vds := rfl
@[simp] theorem State.setPosy_traps (s : State) (k : Nat) (x : Option Posy) : (s.setPosy k x).traps = s.traps := rfl
@[simp] theorem State.setPosy_calls (s : State) (k : Nat) (x : Option Posy) : (s.setPosy k x).calls = s.calls := rfl
@[simp] theorem State.setPosy_xd (s : State) (k : Nat) (x : Option Posy) : (s.setPosy k x).xd = s.xd := rfl
@[simp] theorem State.setPosy_reports (s : State) (k : Nat) (x : Option Posy) : (s.setPosy k x).reports = s.reports := rfl
@[simp] theorem State.setPosy_team (s : State) (k : Nat) (x : Option Posy) (i : Nat) : (s.setPosy k x).team i = s.team i := rfl
@[simp] theorem State.setPosy_core (s : State) (k : Nat) (x : Option Posy) (i : Nat) : (s.setPosy k x).core i = s.core i := rfl
@[simp] theorem State.setPosy_die (s : State) (k : Nat) (x : Option Posy) (i : Nat) : (s.setPosy k x).die i = s.die i := rfl
@[simp] theorem State.setPosy_queue (s : State) (k : Nat) (x : Option Posy) (i : Nat) : (s.setPosy k x).queue i = s.queue i := rfl
@[simp] theorem State.setPosy_launch (s : State) (k : Nat) (x : Option Posy) (i : Nat) : (s.setPosy k x).launch i = s.launch i := rfl
@[simp] theorem State.setPosy_vd (s : State) (k : Nat) (x : Option Posy) (i j : Nat) : (s.setPosy k x).vd i j = s.vd i j := rfl
@[simp] theorem State.setPosy_byte (s : State) (k : Nat) (x : Option Posy) (i : Nat) : (s.setPosy k x).byte i = s.byte i := rfl
@[simp] theorem State.setPosy_poisoned (s : State) (k : Nat) (x : Option Posy) (i : Nat) : (s.setPosy k x).poisoned i = s.poisoned i := rfl

/-! ## setTeam -/

@[simp] theorem State.setTeam_cycle (s : State) (k : Nat) (x : Option Team) : (s.setTeam k x).cycle = s.cycle := rfl
@[simp] theorem State.setTeam_time (s : State) (k : Nat) (x : Option Team) : (s.setTeam k x).time = s.time := rfl
@[simp] theorem State.setTeam_sixths (s : State) (k : Nat) (x : Option Team) : (s.setTeam k x).sixths = s.sixths := rfl
@[simp] theorem State.setTeam_thermStep (s : State) (k : Nat) (x : Option Team) : (s.setTeam k x).thermStep = s.thermStep := rfl
@[simp] theorem State.setTeam_tj (s : State) (k : Nat) (x : Option Team) : (s.setTeam k x).tj = s.tj := rfl
@[simp] theorem State.setTeam_hotSince (s : State) (k : Nat) (x : Option Team) : (s.setTeam k x).hotSince = s.hotSince := rfl
@[simp] theorem State.setTeam_coolSince (s : State) (k : Nat) (x : Option Team) : (s.setTeam k x).coolSince = s.coolSince := rfl
@[simp] theorem State.setTeam_boot (s : State) (k : Nat) (x : Option Team) : (s.setTeam k x).boot = s.boot := rfl
@[simp] theorem State.setTeam_bootFailed (s : State) (k : Nat) (x : Option Team) : (s.setTeam k x).bootFailed = s.bootFailed := rfl
@[simp] theorem State.setTeam_images (s : State) (k : Nat) (x : Option Team) : (s.setTeam k x).images = s.images := rfl
@[simp] theorem State.setTeam_loaded (s : State) (k : Nat) (x : Option Team) : (s.setTeam k x).loaded = s.loaded := rfl
@[simp] theorem State.setTeam_hdmBase (s : State) (k : Nat) (x : Option Team) : (s.setTeam k x).hdmBase = s.hdmBase := rfl
@[simp] theorem State.setTeam_answer (s : State) (k : Nat) (x : Option Team) : (s.setTeam k x).answer = s.answer := rfl
@[simp] theorem State.setTeam_reserved (s : State) (k : Nat) (x : Option Team) : (s.setTeam k x).reserved = s.reserved := rfl
@[simp] theorem State.setTeam_turns (s : State) (k : Nat) (x : Option Team) : (s.setTeam k x).turns = s.turns := rfl
@[simp] theorem State.setTeam_turnCount (s : State) (k : Nat) (x : Option Team) : (s.setTeam k x).turnCount = s.turnCount := rfl
@[simp] theorem State.setTeam_cur (s : State) (k : Nat) (x : Option Team) : (s.setTeam k x).cur = s.cur := rfl
@[simp] theorem State.setTeam_fresh (s : State) (k : Nat) (x : Option Team) : (s.setTeam k x).fresh = s.fresh := rfl
@[simp] theorem State.setTeam_mem (s : State) (k : Nat) (x : Option Team) : (s.setTeam k x).mem = s.mem := rfl
@[simp] theorem State.setTeam_poison (s : State) (k : Nat) (x : Option Team) : (s.setTeam k x).poison = s.poison := rfl
@[simp] theorem State.setTeam_hostLines (s : State) (k : Nat) (x : Option Team) : (s.setTeam k x).hostLines = s.hostLines := rfl
@[simp] theorem State.setTeam_dir (s : State) (k : Nat) (x : Option Team) : (s.setTeam k x).dir = s.dir := rfl
@[simp] theorem State.setTeam_wbs (s : State) (k : Nat) (x : Option Team) : (s.setTeam k x).wbs = s.wbs := rfl
@[simp] theorem State.setTeam_merging (s : State) (k : Nat) (x : Option Team) : (s.setTeam k x).merging = s.merging := rfl
@[simp] theorem State.setTeam_cores (s : State) (k : Nat) (x : Option Team) : (s.setTeam k x).cores = s.cores := rfl
@[simp] theorem State.setTeam_dies (s : State) (k : Nat) (x : Option Team) : (s.setTeam k x).dies = s.dies := rfl
@[simp] theorem State.setTeam_shares (s : State) (k : Nat) (x : Option Team) : (s.setTeam k x).shares = s.shares := rfl
@[simp] theorem State.setTeam_posies (s : State) (k : Nat) (x : Option Team) : (s.setTeam k x).posies = s.posies := rfl
@[simp] theorem State.setTeam_nextUid (s : State) (k : Nat) (x : Option Team) : (s.setTeam k x).nextUid = s.nextUid := rfl
@[simp] theorem State.setTeam_nextTeam (s : State) (k : Nat) (x : Option Team) : (s.setTeam k x).nextTeam = s.nextTeam := rfl
@[simp] theorem State.setTeam_queues (s : State) (k : Nat) (x : Option Team) : (s.setTeam k x).queues = s.queues := rfl
@[simp] theorem State.setTeam_launches (s : State) (k : Nat) (x : Option Team) : (s.setTeam k x).launches = s.launches := rfl
@[simp] theorem State.setTeam_lastLid (s : State) (k : Nat) (x : Option Team) : (s.setTeam k x).lastLid = s.lastLid := rfl
@[simp] theorem State.setTeam_vds (s : State) (k : Nat) (x : Option Team) : (s.setTeam k x).vds = s.vds := rfl
@[simp] theorem State.setTeam_traps (s : State) (k : Nat) (x : Option Team) : (s.setTeam k x).traps = s.traps := rfl
@[simp] theorem State.setTeam_calls (s : State) (k : Nat) (x : Option Team) : (s.setTeam k x).calls = s.calls := rfl
@[simp] theorem State.setTeam_xd (s : State) (k : Nat) (x : Option Team) : (s.setTeam k x).xd = s.xd := rfl
@[simp] theorem State.setTeam_reports (s : State) (k : Nat) (x : Option Team) : (s.setTeam k x).reports = s.reports := rfl
@[simp] theorem State.setTeam_posy (s : State) (k : Nat) (x : Option Team) (i : Nat) : (s.setTeam k x).posy i = s.posy i := rfl
@[simp] theorem State.setTeam_core (s : State) (k : Nat) (x : Option Team) (i : Nat) : (s.setTeam k x).core i = s.core i := rfl
@[simp] theorem State.setTeam_die (s : State) (k : Nat) (x : Option Team) (i : Nat) : (s.setTeam k x).die i = s.die i := rfl
@[simp] theorem State.setTeam_queue (s : State) (k : Nat) (x : Option Team) (i : Nat) : (s.setTeam k x).queue i = s.queue i := rfl
@[simp] theorem State.setTeam_launch (s : State) (k : Nat) (x : Option Team) (i : Nat) : (s.setTeam k x).launch i = s.launch i := rfl
@[simp] theorem State.setTeam_vd (s : State) (k : Nat) (x : Option Team) (i j : Nat) : (s.setTeam k x).vd i j = s.vd i j := rfl
@[simp] theorem State.setTeam_byte (s : State) (k : Nat) (x : Option Team) (i : Nat) : (s.setTeam k x).byte i = s.byte i := rfl
@[simp] theorem State.setTeam_poisoned (s : State) (k : Nat) (x : Option Team) (i : Nat) : (s.setTeam k x).poisoned i = s.poisoned i := rfl

/-! ## setCore -/

@[simp] theorem State.setCore_cycle (s : State) (k : Nat) (x : Core) : (s.setCore k x).cycle = s.cycle := rfl
@[simp] theorem State.setCore_time (s : State) (k : Nat) (x : Core) : (s.setCore k x).time = s.time := rfl
@[simp] theorem State.setCore_sixths (s : State) (k : Nat) (x : Core) : (s.setCore k x).sixths = s.sixths := rfl
@[simp] theorem State.setCore_thermStep (s : State) (k : Nat) (x : Core) : (s.setCore k x).thermStep = s.thermStep := rfl
@[simp] theorem State.setCore_tj (s : State) (k : Nat) (x : Core) : (s.setCore k x).tj = s.tj := rfl
@[simp] theorem State.setCore_hotSince (s : State) (k : Nat) (x : Core) : (s.setCore k x).hotSince = s.hotSince := rfl
@[simp] theorem State.setCore_coolSince (s : State) (k : Nat) (x : Core) : (s.setCore k x).coolSince = s.coolSince := rfl
@[simp] theorem State.setCore_boot (s : State) (k : Nat) (x : Core) : (s.setCore k x).boot = s.boot := rfl
@[simp] theorem State.setCore_bootFailed (s : State) (k : Nat) (x : Core) : (s.setCore k x).bootFailed = s.bootFailed := rfl
@[simp] theorem State.setCore_images (s : State) (k : Nat) (x : Core) : (s.setCore k x).images = s.images := rfl
@[simp] theorem State.setCore_loaded (s : State) (k : Nat) (x : Core) : (s.setCore k x).loaded = s.loaded := rfl
@[simp] theorem State.setCore_hdmBase (s : State) (k : Nat) (x : Core) : (s.setCore k x).hdmBase = s.hdmBase := rfl
@[simp] theorem State.setCore_answer (s : State) (k : Nat) (x : Core) : (s.setCore k x).answer = s.answer := rfl
@[simp] theorem State.setCore_reserved (s : State) (k : Nat) (x : Core) : (s.setCore k x).reserved = s.reserved := rfl
@[simp] theorem State.setCore_turns (s : State) (k : Nat) (x : Core) : (s.setCore k x).turns = s.turns := rfl
@[simp] theorem State.setCore_turnCount (s : State) (k : Nat) (x : Core) : (s.setCore k x).turnCount = s.turnCount := rfl
@[simp] theorem State.setCore_cur (s : State) (k : Nat) (x : Core) : (s.setCore k x).cur = s.cur := rfl
@[simp] theorem State.setCore_fresh (s : State) (k : Nat) (x : Core) : (s.setCore k x).fresh = s.fresh := rfl
@[simp] theorem State.setCore_mem (s : State) (k : Nat) (x : Core) : (s.setCore k x).mem = s.mem := rfl
@[simp] theorem State.setCore_poison (s : State) (k : Nat) (x : Core) : (s.setCore k x).poison = s.poison := rfl
@[simp] theorem State.setCore_hostLines (s : State) (k : Nat) (x : Core) : (s.setCore k x).hostLines = s.hostLines := rfl
@[simp] theorem State.setCore_dir (s : State) (k : Nat) (x : Core) : (s.setCore k x).dir = s.dir := rfl
@[simp] theorem State.setCore_wbs (s : State) (k : Nat) (x : Core) : (s.setCore k x).wbs = s.wbs := rfl
@[simp] theorem State.setCore_merging (s : State) (k : Nat) (x : Core) : (s.setCore k x).merging = s.merging := rfl
@[simp] theorem State.setCore_dies (s : State) (k : Nat) (x : Core) : (s.setCore k x).dies = s.dies := rfl
@[simp] theorem State.setCore_shares (s : State) (k : Nat) (x : Core) : (s.setCore k x).shares = s.shares := rfl
@[simp] theorem State.setCore_posies (s : State) (k : Nat) (x : Core) : (s.setCore k x).posies = s.posies := rfl
@[simp] theorem State.setCore_nextUid (s : State) (k : Nat) (x : Core) : (s.setCore k x).nextUid = s.nextUid := rfl
@[simp] theorem State.setCore_teams (s : State) (k : Nat) (x : Core) : (s.setCore k x).teams = s.teams := rfl
@[simp] theorem State.setCore_nextTeam (s : State) (k : Nat) (x : Core) : (s.setCore k x).nextTeam = s.nextTeam := rfl
@[simp] theorem State.setCore_queues (s : State) (k : Nat) (x : Core) : (s.setCore k x).queues = s.queues := rfl
@[simp] theorem State.setCore_launches (s : State) (k : Nat) (x : Core) : (s.setCore k x).launches = s.launches := rfl
@[simp] theorem State.setCore_lastLid (s : State) (k : Nat) (x : Core) : (s.setCore k x).lastLid = s.lastLid := rfl
@[simp] theorem State.setCore_vds (s : State) (k : Nat) (x : Core) : (s.setCore k x).vds = s.vds := rfl
@[simp] theorem State.setCore_traps (s : State) (k : Nat) (x : Core) : (s.setCore k x).traps = s.traps := rfl
@[simp] theorem State.setCore_calls (s : State) (k : Nat) (x : Core) : (s.setCore k x).calls = s.calls := rfl
@[simp] theorem State.setCore_xd (s : State) (k : Nat) (x : Core) : (s.setCore k x).xd = s.xd := rfl
@[simp] theorem State.setCore_reports (s : State) (k : Nat) (x : Core) : (s.setCore k x).reports = s.reports := rfl
@[simp] theorem State.setCore_posy (s : State) (k : Nat) (x : Core) (i : Nat) : (s.setCore k x).posy i = s.posy i := rfl
@[simp] theorem State.setCore_team (s : State) (k : Nat) (x : Core) (i : Nat) : (s.setCore k x).team i = s.team i := rfl
@[simp] theorem State.setCore_die (s : State) (k : Nat) (x : Core) (i : Nat) : (s.setCore k x).die i = s.die i := rfl
@[simp] theorem State.setCore_queue (s : State) (k : Nat) (x : Core) (i : Nat) : (s.setCore k x).queue i = s.queue i := rfl
@[simp] theorem State.setCore_launch (s : State) (k : Nat) (x : Core) (i : Nat) : (s.setCore k x).launch i = s.launch i := rfl
@[simp] theorem State.setCore_vd (s : State) (k : Nat) (x : Core) (i j : Nat) : (s.setCore k x).vd i j = s.vd i j := rfl
@[simp] theorem State.setCore_byte (s : State) (k : Nat) (x : Core) (i : Nat) : (s.setCore k x).byte i = s.byte i := rfl
@[simp] theorem State.setCore_poisoned (s : State) (k : Nat) (x : Core) (i : Nat) : (s.setCore k x).poisoned i = s.poisoned i := rfl

/-! ## setDie -/

@[simp] theorem State.setDie_cycle (s : State) (k : Nat) (x : Die) : (s.setDie k x).cycle = s.cycle := rfl
@[simp] theorem State.setDie_time (s : State) (k : Nat) (x : Die) : (s.setDie k x).time = s.time := rfl
@[simp] theorem State.setDie_sixths (s : State) (k : Nat) (x : Die) : (s.setDie k x).sixths = s.sixths := rfl
@[simp] theorem State.setDie_thermStep (s : State) (k : Nat) (x : Die) : (s.setDie k x).thermStep = s.thermStep := rfl
@[simp] theorem State.setDie_tj (s : State) (k : Nat) (x : Die) : (s.setDie k x).tj = s.tj := rfl
@[simp] theorem State.setDie_hotSince (s : State) (k : Nat) (x : Die) : (s.setDie k x).hotSince = s.hotSince := rfl
@[simp] theorem State.setDie_coolSince (s : State) (k : Nat) (x : Die) : (s.setDie k x).coolSince = s.coolSince := rfl
@[simp] theorem State.setDie_boot (s : State) (k : Nat) (x : Die) : (s.setDie k x).boot = s.boot := rfl
@[simp] theorem State.setDie_bootFailed (s : State) (k : Nat) (x : Die) : (s.setDie k x).bootFailed = s.bootFailed := rfl
@[simp] theorem State.setDie_images (s : State) (k : Nat) (x : Die) : (s.setDie k x).images = s.images := rfl
@[simp] theorem State.setDie_loaded (s : State) (k : Nat) (x : Die) : (s.setDie k x).loaded = s.loaded := rfl
@[simp] theorem State.setDie_hdmBase (s : State) (k : Nat) (x : Die) : (s.setDie k x).hdmBase = s.hdmBase := rfl
@[simp] theorem State.setDie_answer (s : State) (k : Nat) (x : Die) : (s.setDie k x).answer = s.answer := rfl
@[simp] theorem State.setDie_reserved (s : State) (k : Nat) (x : Die) : (s.setDie k x).reserved = s.reserved := rfl
@[simp] theorem State.setDie_turns (s : State) (k : Nat) (x : Die) : (s.setDie k x).turns = s.turns := rfl
@[simp] theorem State.setDie_turnCount (s : State) (k : Nat) (x : Die) : (s.setDie k x).turnCount = s.turnCount := rfl
@[simp] theorem State.setDie_cur (s : State) (k : Nat) (x : Die) : (s.setDie k x).cur = s.cur := rfl
@[simp] theorem State.setDie_fresh (s : State) (k : Nat) (x : Die) : (s.setDie k x).fresh = s.fresh := rfl
@[simp] theorem State.setDie_mem (s : State) (k : Nat) (x : Die) : (s.setDie k x).mem = s.mem := rfl
@[simp] theorem State.setDie_poison (s : State) (k : Nat) (x : Die) : (s.setDie k x).poison = s.poison := rfl
@[simp] theorem State.setDie_hostLines (s : State) (k : Nat) (x : Die) : (s.setDie k x).hostLines = s.hostLines := rfl
@[simp] theorem State.setDie_dir (s : State) (k : Nat) (x : Die) : (s.setDie k x).dir = s.dir := rfl
@[simp] theorem State.setDie_wbs (s : State) (k : Nat) (x : Die) : (s.setDie k x).wbs = s.wbs := rfl
@[simp] theorem State.setDie_merging (s : State) (k : Nat) (x : Die) : (s.setDie k x).merging = s.merging := rfl
@[simp] theorem State.setDie_cores (s : State) (k : Nat) (x : Die) : (s.setDie k x).cores = s.cores := rfl
@[simp] theorem State.setDie_shares (s : State) (k : Nat) (x : Die) : (s.setDie k x).shares = s.shares := rfl
@[simp] theorem State.setDie_posies (s : State) (k : Nat) (x : Die) : (s.setDie k x).posies = s.posies := rfl
@[simp] theorem State.setDie_nextUid (s : State) (k : Nat) (x : Die) : (s.setDie k x).nextUid = s.nextUid := rfl
@[simp] theorem State.setDie_teams (s : State) (k : Nat) (x : Die) : (s.setDie k x).teams = s.teams := rfl
@[simp] theorem State.setDie_nextTeam (s : State) (k : Nat) (x : Die) : (s.setDie k x).nextTeam = s.nextTeam := rfl
@[simp] theorem State.setDie_queues (s : State) (k : Nat) (x : Die) : (s.setDie k x).queues = s.queues := rfl
@[simp] theorem State.setDie_launches (s : State) (k : Nat) (x : Die) : (s.setDie k x).launches = s.launches := rfl
@[simp] theorem State.setDie_lastLid (s : State) (k : Nat) (x : Die) : (s.setDie k x).lastLid = s.lastLid := rfl
@[simp] theorem State.setDie_vds (s : State) (k : Nat) (x : Die) : (s.setDie k x).vds = s.vds := rfl
@[simp] theorem State.setDie_traps (s : State) (k : Nat) (x : Die) : (s.setDie k x).traps = s.traps := rfl
@[simp] theorem State.setDie_calls (s : State) (k : Nat) (x : Die) : (s.setDie k x).calls = s.calls := rfl
@[simp] theorem State.setDie_xd (s : State) (k : Nat) (x : Die) : (s.setDie k x).xd = s.xd := rfl
@[simp] theorem State.setDie_reports (s : State) (k : Nat) (x : Die) : (s.setDie k x).reports = s.reports := rfl
@[simp] theorem State.setDie_posy (s : State) (k : Nat) (x : Die) (i : Nat) : (s.setDie k x).posy i = s.posy i := rfl
@[simp] theorem State.setDie_team (s : State) (k : Nat) (x : Die) (i : Nat) : (s.setDie k x).team i = s.team i := rfl
@[simp] theorem State.setDie_core (s : State) (k : Nat) (x : Die) (i : Nat) : (s.setDie k x).core i = s.core i := rfl
@[simp] theorem State.setDie_queue (s : State) (k : Nat) (x : Die) (i : Nat) : (s.setDie k x).queue i = s.queue i := rfl
@[simp] theorem State.setDie_launch (s : State) (k : Nat) (x : Die) (i : Nat) : (s.setDie k x).launch i = s.launch i := rfl
@[simp] theorem State.setDie_vd (s : State) (k : Nat) (x : Die) (i j : Nat) : (s.setDie k x).vd i j = s.vd i j := rfl
@[simp] theorem State.setDie_byte (s : State) (k : Nat) (x : Die) (i : Nat) : (s.setDie k x).byte i = s.byte i := rfl
@[simp] theorem State.setDie_poisoned (s : State) (k : Nat) (x : Die) (i : Nat) : (s.setDie k x).poisoned i = s.poisoned i := rfl

/-! ## setQueue -/

@[simp] theorem State.setQueue_cycle (s : State) (k : Nat) (x : Queue) : (s.setQueue k x).cycle = s.cycle := rfl
@[simp] theorem State.setQueue_time (s : State) (k : Nat) (x : Queue) : (s.setQueue k x).time = s.time := rfl
@[simp] theorem State.setQueue_sixths (s : State) (k : Nat) (x : Queue) : (s.setQueue k x).sixths = s.sixths := rfl
@[simp] theorem State.setQueue_thermStep (s : State) (k : Nat) (x : Queue) : (s.setQueue k x).thermStep = s.thermStep := rfl
@[simp] theorem State.setQueue_tj (s : State) (k : Nat) (x : Queue) : (s.setQueue k x).tj = s.tj := rfl
@[simp] theorem State.setQueue_hotSince (s : State) (k : Nat) (x : Queue) : (s.setQueue k x).hotSince = s.hotSince := rfl
@[simp] theorem State.setQueue_coolSince (s : State) (k : Nat) (x : Queue) : (s.setQueue k x).coolSince = s.coolSince := rfl
@[simp] theorem State.setQueue_boot (s : State) (k : Nat) (x : Queue) : (s.setQueue k x).boot = s.boot := rfl
@[simp] theorem State.setQueue_bootFailed (s : State) (k : Nat) (x : Queue) : (s.setQueue k x).bootFailed = s.bootFailed := rfl
@[simp] theorem State.setQueue_images (s : State) (k : Nat) (x : Queue) : (s.setQueue k x).images = s.images := rfl
@[simp] theorem State.setQueue_loaded (s : State) (k : Nat) (x : Queue) : (s.setQueue k x).loaded = s.loaded := rfl
@[simp] theorem State.setQueue_hdmBase (s : State) (k : Nat) (x : Queue) : (s.setQueue k x).hdmBase = s.hdmBase := rfl
@[simp] theorem State.setQueue_answer (s : State) (k : Nat) (x : Queue) : (s.setQueue k x).answer = s.answer := rfl
@[simp] theorem State.setQueue_reserved (s : State) (k : Nat) (x : Queue) : (s.setQueue k x).reserved = s.reserved := rfl
@[simp] theorem State.setQueue_turns (s : State) (k : Nat) (x : Queue) : (s.setQueue k x).turns = s.turns := rfl
@[simp] theorem State.setQueue_turnCount (s : State) (k : Nat) (x : Queue) : (s.setQueue k x).turnCount = s.turnCount := rfl
@[simp] theorem State.setQueue_cur (s : State) (k : Nat) (x : Queue) : (s.setQueue k x).cur = s.cur := rfl
@[simp] theorem State.setQueue_fresh (s : State) (k : Nat) (x : Queue) : (s.setQueue k x).fresh = s.fresh := rfl
@[simp] theorem State.setQueue_mem (s : State) (k : Nat) (x : Queue) : (s.setQueue k x).mem = s.mem := rfl
@[simp] theorem State.setQueue_poison (s : State) (k : Nat) (x : Queue) : (s.setQueue k x).poison = s.poison := rfl
@[simp] theorem State.setQueue_hostLines (s : State) (k : Nat) (x : Queue) : (s.setQueue k x).hostLines = s.hostLines := rfl
@[simp] theorem State.setQueue_dir (s : State) (k : Nat) (x : Queue) : (s.setQueue k x).dir = s.dir := rfl
@[simp] theorem State.setQueue_wbs (s : State) (k : Nat) (x : Queue) : (s.setQueue k x).wbs = s.wbs := rfl
@[simp] theorem State.setQueue_merging (s : State) (k : Nat) (x : Queue) : (s.setQueue k x).merging = s.merging := rfl
@[simp] theorem State.setQueue_cores (s : State) (k : Nat) (x : Queue) : (s.setQueue k x).cores = s.cores := rfl
@[simp] theorem State.setQueue_dies (s : State) (k : Nat) (x : Queue) : (s.setQueue k x).dies = s.dies := rfl
@[simp] theorem State.setQueue_shares (s : State) (k : Nat) (x : Queue) : (s.setQueue k x).shares = s.shares := rfl
@[simp] theorem State.setQueue_posies (s : State) (k : Nat) (x : Queue) : (s.setQueue k x).posies = s.posies := rfl
@[simp] theorem State.setQueue_nextUid (s : State) (k : Nat) (x : Queue) : (s.setQueue k x).nextUid = s.nextUid := rfl
@[simp] theorem State.setQueue_teams (s : State) (k : Nat) (x : Queue) : (s.setQueue k x).teams = s.teams := rfl
@[simp] theorem State.setQueue_nextTeam (s : State) (k : Nat) (x : Queue) : (s.setQueue k x).nextTeam = s.nextTeam := rfl
@[simp] theorem State.setQueue_launches (s : State) (k : Nat) (x : Queue) : (s.setQueue k x).launches = s.launches := rfl
@[simp] theorem State.setQueue_lastLid (s : State) (k : Nat) (x : Queue) : (s.setQueue k x).lastLid = s.lastLid := rfl
@[simp] theorem State.setQueue_vds (s : State) (k : Nat) (x : Queue) : (s.setQueue k x).vds = s.vds := rfl
@[simp] theorem State.setQueue_traps (s : State) (k : Nat) (x : Queue) : (s.setQueue k x).traps = s.traps := rfl
@[simp] theorem State.setQueue_calls (s : State) (k : Nat) (x : Queue) : (s.setQueue k x).calls = s.calls := rfl
@[simp] theorem State.setQueue_xd (s : State) (k : Nat) (x : Queue) : (s.setQueue k x).xd = s.xd := rfl
@[simp] theorem State.setQueue_reports (s : State) (k : Nat) (x : Queue) : (s.setQueue k x).reports = s.reports := rfl
@[simp] theorem State.setQueue_posy (s : State) (k : Nat) (x : Queue) (i : Nat) : (s.setQueue k x).posy i = s.posy i := rfl
@[simp] theorem State.setQueue_team (s : State) (k : Nat) (x : Queue) (i : Nat) : (s.setQueue k x).team i = s.team i := rfl
@[simp] theorem State.setQueue_core (s : State) (k : Nat) (x : Queue) (i : Nat) : (s.setQueue k x).core i = s.core i := rfl
@[simp] theorem State.setQueue_die (s : State) (k : Nat) (x : Queue) (i : Nat) : (s.setQueue k x).die i = s.die i := rfl
@[simp] theorem State.setQueue_launch (s : State) (k : Nat) (x : Queue) (i : Nat) : (s.setQueue k x).launch i = s.launch i := rfl
@[simp] theorem State.setQueue_vd (s : State) (k : Nat) (x : Queue) (i j : Nat) : (s.setQueue k x).vd i j = s.vd i j := rfl
@[simp] theorem State.setQueue_byte (s : State) (k : Nat) (x : Queue) (i : Nat) : (s.setQueue k x).byte i = s.byte i := rfl
@[simp] theorem State.setQueue_poisoned (s : State) (k : Nat) (x : Queue) (i : Nat) : (s.setQueue k x).poisoned i = s.poisoned i := rfl

/-! ## setLaunch -/

@[simp] theorem State.setLaunch_cycle (s : State) (k : Nat) (x : Option Launch) : (s.setLaunch k x).cycle = s.cycle := rfl
@[simp] theorem State.setLaunch_time (s : State) (k : Nat) (x : Option Launch) : (s.setLaunch k x).time = s.time := rfl
@[simp] theorem State.setLaunch_sixths (s : State) (k : Nat) (x : Option Launch) : (s.setLaunch k x).sixths = s.sixths := rfl
@[simp] theorem State.setLaunch_thermStep (s : State) (k : Nat) (x : Option Launch) : (s.setLaunch k x).thermStep = s.thermStep := rfl
@[simp] theorem State.setLaunch_tj (s : State) (k : Nat) (x : Option Launch) : (s.setLaunch k x).tj = s.tj := rfl
@[simp] theorem State.setLaunch_hotSince (s : State) (k : Nat) (x : Option Launch) : (s.setLaunch k x).hotSince = s.hotSince := rfl
@[simp] theorem State.setLaunch_coolSince (s : State) (k : Nat) (x : Option Launch) : (s.setLaunch k x).coolSince = s.coolSince := rfl
@[simp] theorem State.setLaunch_boot (s : State) (k : Nat) (x : Option Launch) : (s.setLaunch k x).boot = s.boot := rfl
@[simp] theorem State.setLaunch_bootFailed (s : State) (k : Nat) (x : Option Launch) : (s.setLaunch k x).bootFailed = s.bootFailed := rfl
@[simp] theorem State.setLaunch_images (s : State) (k : Nat) (x : Option Launch) : (s.setLaunch k x).images = s.images := rfl
@[simp] theorem State.setLaunch_loaded (s : State) (k : Nat) (x : Option Launch) : (s.setLaunch k x).loaded = s.loaded := rfl
@[simp] theorem State.setLaunch_hdmBase (s : State) (k : Nat) (x : Option Launch) : (s.setLaunch k x).hdmBase = s.hdmBase := rfl
@[simp] theorem State.setLaunch_answer (s : State) (k : Nat) (x : Option Launch) : (s.setLaunch k x).answer = s.answer := rfl
@[simp] theorem State.setLaunch_reserved (s : State) (k : Nat) (x : Option Launch) : (s.setLaunch k x).reserved = s.reserved := rfl
@[simp] theorem State.setLaunch_turns (s : State) (k : Nat) (x : Option Launch) : (s.setLaunch k x).turns = s.turns := rfl
@[simp] theorem State.setLaunch_turnCount (s : State) (k : Nat) (x : Option Launch) : (s.setLaunch k x).turnCount = s.turnCount := rfl
@[simp] theorem State.setLaunch_cur (s : State) (k : Nat) (x : Option Launch) : (s.setLaunch k x).cur = s.cur := rfl
@[simp] theorem State.setLaunch_fresh (s : State) (k : Nat) (x : Option Launch) : (s.setLaunch k x).fresh = s.fresh := rfl
@[simp] theorem State.setLaunch_mem (s : State) (k : Nat) (x : Option Launch) : (s.setLaunch k x).mem = s.mem := rfl
@[simp] theorem State.setLaunch_poison (s : State) (k : Nat) (x : Option Launch) : (s.setLaunch k x).poison = s.poison := rfl
@[simp] theorem State.setLaunch_hostLines (s : State) (k : Nat) (x : Option Launch) : (s.setLaunch k x).hostLines = s.hostLines := rfl
@[simp] theorem State.setLaunch_dir (s : State) (k : Nat) (x : Option Launch) : (s.setLaunch k x).dir = s.dir := rfl
@[simp] theorem State.setLaunch_wbs (s : State) (k : Nat) (x : Option Launch) : (s.setLaunch k x).wbs = s.wbs := rfl
@[simp] theorem State.setLaunch_merging (s : State) (k : Nat) (x : Option Launch) : (s.setLaunch k x).merging = s.merging := rfl
@[simp] theorem State.setLaunch_cores (s : State) (k : Nat) (x : Option Launch) : (s.setLaunch k x).cores = s.cores := rfl
@[simp] theorem State.setLaunch_dies (s : State) (k : Nat) (x : Option Launch) : (s.setLaunch k x).dies = s.dies := rfl
@[simp] theorem State.setLaunch_shares (s : State) (k : Nat) (x : Option Launch) : (s.setLaunch k x).shares = s.shares := rfl
@[simp] theorem State.setLaunch_posies (s : State) (k : Nat) (x : Option Launch) : (s.setLaunch k x).posies = s.posies := rfl
@[simp] theorem State.setLaunch_nextUid (s : State) (k : Nat) (x : Option Launch) : (s.setLaunch k x).nextUid = s.nextUid := rfl
@[simp] theorem State.setLaunch_teams (s : State) (k : Nat) (x : Option Launch) : (s.setLaunch k x).teams = s.teams := rfl
@[simp] theorem State.setLaunch_nextTeam (s : State) (k : Nat) (x : Option Launch) : (s.setLaunch k x).nextTeam = s.nextTeam := rfl
@[simp] theorem State.setLaunch_queues (s : State) (k : Nat) (x : Option Launch) : (s.setLaunch k x).queues = s.queues := rfl
@[simp] theorem State.setLaunch_lastLid (s : State) (k : Nat) (x : Option Launch) : (s.setLaunch k x).lastLid = s.lastLid := rfl
@[simp] theorem State.setLaunch_vds (s : State) (k : Nat) (x : Option Launch) : (s.setLaunch k x).vds = s.vds := rfl
@[simp] theorem State.setLaunch_traps (s : State) (k : Nat) (x : Option Launch) : (s.setLaunch k x).traps = s.traps := rfl
@[simp] theorem State.setLaunch_calls (s : State) (k : Nat) (x : Option Launch) : (s.setLaunch k x).calls = s.calls := rfl
@[simp] theorem State.setLaunch_xd (s : State) (k : Nat) (x : Option Launch) : (s.setLaunch k x).xd = s.xd := rfl
@[simp] theorem State.setLaunch_reports (s : State) (k : Nat) (x : Option Launch) : (s.setLaunch k x).reports = s.reports := rfl
@[simp] theorem State.setLaunch_posy (s : State) (k : Nat) (x : Option Launch) (i : Nat) : (s.setLaunch k x).posy i = s.posy i := rfl
@[simp] theorem State.setLaunch_team (s : State) (k : Nat) (x : Option Launch) (i : Nat) : (s.setLaunch k x).team i = s.team i := rfl
@[simp] theorem State.setLaunch_core (s : State) (k : Nat) (x : Option Launch) (i : Nat) : (s.setLaunch k x).core i = s.core i := rfl
@[simp] theorem State.setLaunch_die (s : State) (k : Nat) (x : Option Launch) (i : Nat) : (s.setLaunch k x).die i = s.die i := rfl
@[simp] theorem State.setLaunch_queue (s : State) (k : Nat) (x : Option Launch) (i : Nat) : (s.setLaunch k x).queue i = s.queue i := rfl
@[simp] theorem State.setLaunch_vd (s : State) (k : Nat) (x : Option Launch) (i j : Nat) : (s.setLaunch k x).vd i j = s.vd i j := rfl
@[simp] theorem State.setLaunch_byte (s : State) (k : Nat) (x : Option Launch) (i : Nat) : (s.setLaunch k x).byte i = s.byte i := rfl
@[simp] theorem State.setLaunch_poisoned (s : State) (k : Nat) (x : Option Launch) (i : Nat) : (s.setLaunch k x).poisoned i = s.poisoned i := rfl

/-! ## setVd -/

@[simp] theorem State.setVd_cycle (s : State) (p k : Nat) (x : Option Vd) : (s.setVd p k x).cycle = s.cycle := rfl
@[simp] theorem State.setVd_time (s : State) (p k : Nat) (x : Option Vd) : (s.setVd p k x).time = s.time := rfl
@[simp] theorem State.setVd_sixths (s : State) (p k : Nat) (x : Option Vd) : (s.setVd p k x).sixths = s.sixths := rfl
@[simp] theorem State.setVd_thermStep (s : State) (p k : Nat) (x : Option Vd) : (s.setVd p k x).thermStep = s.thermStep := rfl
@[simp] theorem State.setVd_tj (s : State) (p k : Nat) (x : Option Vd) : (s.setVd p k x).tj = s.tj := rfl
@[simp] theorem State.setVd_hotSince (s : State) (p k : Nat) (x : Option Vd) : (s.setVd p k x).hotSince = s.hotSince := rfl
@[simp] theorem State.setVd_coolSince (s : State) (p k : Nat) (x : Option Vd) : (s.setVd p k x).coolSince = s.coolSince := rfl
@[simp] theorem State.setVd_boot (s : State) (p k : Nat) (x : Option Vd) : (s.setVd p k x).boot = s.boot := rfl
@[simp] theorem State.setVd_bootFailed (s : State) (p k : Nat) (x : Option Vd) : (s.setVd p k x).bootFailed = s.bootFailed := rfl
@[simp] theorem State.setVd_images (s : State) (p k : Nat) (x : Option Vd) : (s.setVd p k x).images = s.images := rfl
@[simp] theorem State.setVd_loaded (s : State) (p k : Nat) (x : Option Vd) : (s.setVd p k x).loaded = s.loaded := rfl
@[simp] theorem State.setVd_hdmBase (s : State) (p k : Nat) (x : Option Vd) : (s.setVd p k x).hdmBase = s.hdmBase := rfl
@[simp] theorem State.setVd_answer (s : State) (p k : Nat) (x : Option Vd) : (s.setVd p k x).answer = s.answer := rfl
@[simp] theorem State.setVd_reserved (s : State) (p k : Nat) (x : Option Vd) : (s.setVd p k x).reserved = s.reserved := rfl
@[simp] theorem State.setVd_turns (s : State) (p k : Nat) (x : Option Vd) : (s.setVd p k x).turns = s.turns := rfl
@[simp] theorem State.setVd_turnCount (s : State) (p k : Nat) (x : Option Vd) : (s.setVd p k x).turnCount = s.turnCount := rfl
@[simp] theorem State.setVd_cur (s : State) (p k : Nat) (x : Option Vd) : (s.setVd p k x).cur = s.cur := rfl
@[simp] theorem State.setVd_fresh (s : State) (p k : Nat) (x : Option Vd) : (s.setVd p k x).fresh = s.fresh := rfl
@[simp] theorem State.setVd_mem (s : State) (p k : Nat) (x : Option Vd) : (s.setVd p k x).mem = s.mem := rfl
@[simp] theorem State.setVd_poison (s : State) (p k : Nat) (x : Option Vd) : (s.setVd p k x).poison = s.poison := rfl
@[simp] theorem State.setVd_hostLines (s : State) (p k : Nat) (x : Option Vd) : (s.setVd p k x).hostLines = s.hostLines := rfl
@[simp] theorem State.setVd_dir (s : State) (p k : Nat) (x : Option Vd) : (s.setVd p k x).dir = s.dir := rfl
@[simp] theorem State.setVd_wbs (s : State) (p k : Nat) (x : Option Vd) : (s.setVd p k x).wbs = s.wbs := rfl
@[simp] theorem State.setVd_merging (s : State) (p k : Nat) (x : Option Vd) : (s.setVd p k x).merging = s.merging := rfl
@[simp] theorem State.setVd_cores (s : State) (p k : Nat) (x : Option Vd) : (s.setVd p k x).cores = s.cores := rfl
@[simp] theorem State.setVd_dies (s : State) (p k : Nat) (x : Option Vd) : (s.setVd p k x).dies = s.dies := rfl
@[simp] theorem State.setVd_shares (s : State) (p k : Nat) (x : Option Vd) : (s.setVd p k x).shares = s.shares := rfl
@[simp] theorem State.setVd_posies (s : State) (p k : Nat) (x : Option Vd) : (s.setVd p k x).posies = s.posies := rfl
@[simp] theorem State.setVd_nextUid (s : State) (p k : Nat) (x : Option Vd) : (s.setVd p k x).nextUid = s.nextUid := rfl
@[simp] theorem State.setVd_teams (s : State) (p k : Nat) (x : Option Vd) : (s.setVd p k x).teams = s.teams := rfl
@[simp] theorem State.setVd_nextTeam (s : State) (p k : Nat) (x : Option Vd) : (s.setVd p k x).nextTeam = s.nextTeam := rfl
@[simp] theorem State.setVd_queues (s : State) (p k : Nat) (x : Option Vd) : (s.setVd p k x).queues = s.queues := rfl
@[simp] theorem State.setVd_launches (s : State) (p k : Nat) (x : Option Vd) : (s.setVd p k x).launches = s.launches := rfl
@[simp] theorem State.setVd_lastLid (s : State) (p k : Nat) (x : Option Vd) : (s.setVd p k x).lastLid = s.lastLid := rfl
@[simp] theorem State.setVd_traps (s : State) (p k : Nat) (x : Option Vd) : (s.setVd p k x).traps = s.traps := rfl
@[simp] theorem State.setVd_calls (s : State) (p k : Nat) (x : Option Vd) : (s.setVd p k x).calls = s.calls := rfl
@[simp] theorem State.setVd_xd (s : State) (p k : Nat) (x : Option Vd) : (s.setVd p k x).xd = s.xd := rfl
@[simp] theorem State.setVd_reports (s : State) (p k : Nat) (x : Option Vd) : (s.setVd p k x).reports = s.reports := rfl
@[simp] theorem State.setVd_posy (s : State) (p k : Nat) (x : Option Vd) (i : Nat) : (s.setVd p k x).posy i = s.posy i := rfl
@[simp] theorem State.setVd_team (s : State) (p k : Nat) (x : Option Vd) (i : Nat) : (s.setVd p k x).team i = s.team i := rfl
@[simp] theorem State.setVd_core (s : State) (p k : Nat) (x : Option Vd) (i : Nat) : (s.setVd p k x).core i = s.core i := rfl
@[simp] theorem State.setVd_die (s : State) (p k : Nat) (x : Option Vd) (i : Nat) : (s.setVd p k x).die i = s.die i := rfl
@[simp] theorem State.setVd_queue (s : State) (p k : Nat) (x : Option Vd) (i : Nat) : (s.setVd p k x).queue i = s.queue i := rfl
@[simp] theorem State.setVd_launch (s : State) (p k : Nat) (x : Option Vd) (i : Nat) : (s.setVd p k x).launch i = s.launch i := rfl
@[simp] theorem State.setVd_byte (s : State) (p k : Nat) (x : Option Vd) (i : Nat) : (s.setVd p k x).byte i = s.byte i := rfl
@[simp] theorem State.setVd_poisoned (s : State) (p k : Nat) (x : Option Vd) (i : Nat) : (s.setVd p k x).poisoned i = s.poisoned i := rfl

/-! ## setByte -/

@[simp] theorem State.setByte_cycle (s : State) (k : Nat) (x : Byte) : (s.setByte k x).cycle = s.cycle := rfl
@[simp] theorem State.setByte_time (s : State) (k : Nat) (x : Byte) : (s.setByte k x).time = s.time := rfl
@[simp] theorem State.setByte_sixths (s : State) (k : Nat) (x : Byte) : (s.setByte k x).sixths = s.sixths := rfl
@[simp] theorem State.setByte_thermStep (s : State) (k : Nat) (x : Byte) : (s.setByte k x).thermStep = s.thermStep := rfl
@[simp] theorem State.setByte_tj (s : State) (k : Nat) (x : Byte) : (s.setByte k x).tj = s.tj := rfl
@[simp] theorem State.setByte_hotSince (s : State) (k : Nat) (x : Byte) : (s.setByte k x).hotSince = s.hotSince := rfl
@[simp] theorem State.setByte_coolSince (s : State) (k : Nat) (x : Byte) : (s.setByte k x).coolSince = s.coolSince := rfl
@[simp] theorem State.setByte_boot (s : State) (k : Nat) (x : Byte) : (s.setByte k x).boot = s.boot := rfl
@[simp] theorem State.setByte_bootFailed (s : State) (k : Nat) (x : Byte) : (s.setByte k x).bootFailed = s.bootFailed := rfl
@[simp] theorem State.setByte_images (s : State) (k : Nat) (x : Byte) : (s.setByte k x).images = s.images := rfl
@[simp] theorem State.setByte_loaded (s : State) (k : Nat) (x : Byte) : (s.setByte k x).loaded = s.loaded := rfl
@[simp] theorem State.setByte_hdmBase (s : State) (k : Nat) (x : Byte) : (s.setByte k x).hdmBase = s.hdmBase := rfl
@[simp] theorem State.setByte_answer (s : State) (k : Nat) (x : Byte) : (s.setByte k x).answer = s.answer := rfl
@[simp] theorem State.setByte_reserved (s : State) (k : Nat) (x : Byte) : (s.setByte k x).reserved = s.reserved := rfl
@[simp] theorem State.setByte_turns (s : State) (k : Nat) (x : Byte) : (s.setByte k x).turns = s.turns := rfl
@[simp] theorem State.setByte_turnCount (s : State) (k : Nat) (x : Byte) : (s.setByte k x).turnCount = s.turnCount := rfl
@[simp] theorem State.setByte_cur (s : State) (k : Nat) (x : Byte) : (s.setByte k x).cur = s.cur := rfl
@[simp] theorem State.setByte_fresh (s : State) (k : Nat) (x : Byte) : (s.setByte k x).fresh = s.fresh := rfl
@[simp] theorem State.setByte_poison (s : State) (k : Nat) (x : Byte) : (s.setByte k x).poison = s.poison := rfl
@[simp] theorem State.setByte_hostLines (s : State) (k : Nat) (x : Byte) : (s.setByte k x).hostLines = s.hostLines := rfl
@[simp] theorem State.setByte_dir (s : State) (k : Nat) (x : Byte) : (s.setByte k x).dir = s.dir := rfl
@[simp] theorem State.setByte_wbs (s : State) (k : Nat) (x : Byte) : (s.setByte k x).wbs = s.wbs := rfl
@[simp] theorem State.setByte_merging (s : State) (k : Nat) (x : Byte) : (s.setByte k x).merging = s.merging := rfl
@[simp] theorem State.setByte_cores (s : State) (k : Nat) (x : Byte) : (s.setByte k x).cores = s.cores := rfl
@[simp] theorem State.setByte_dies (s : State) (k : Nat) (x : Byte) : (s.setByte k x).dies = s.dies := rfl
@[simp] theorem State.setByte_shares (s : State) (k : Nat) (x : Byte) : (s.setByte k x).shares = s.shares := rfl
@[simp] theorem State.setByte_posies (s : State) (k : Nat) (x : Byte) : (s.setByte k x).posies = s.posies := rfl
@[simp] theorem State.setByte_nextUid (s : State) (k : Nat) (x : Byte) : (s.setByte k x).nextUid = s.nextUid := rfl
@[simp] theorem State.setByte_teams (s : State) (k : Nat) (x : Byte) : (s.setByte k x).teams = s.teams := rfl
@[simp] theorem State.setByte_nextTeam (s : State) (k : Nat) (x : Byte) : (s.setByte k x).nextTeam = s.nextTeam := rfl
@[simp] theorem State.setByte_queues (s : State) (k : Nat) (x : Byte) : (s.setByte k x).queues = s.queues := rfl
@[simp] theorem State.setByte_launches (s : State) (k : Nat) (x : Byte) : (s.setByte k x).launches = s.launches := rfl
@[simp] theorem State.setByte_lastLid (s : State) (k : Nat) (x : Byte) : (s.setByte k x).lastLid = s.lastLid := rfl
@[simp] theorem State.setByte_vds (s : State) (k : Nat) (x : Byte) : (s.setByte k x).vds = s.vds := rfl
@[simp] theorem State.setByte_traps (s : State) (k : Nat) (x : Byte) : (s.setByte k x).traps = s.traps := rfl
@[simp] theorem State.setByte_calls (s : State) (k : Nat) (x : Byte) : (s.setByte k x).calls = s.calls := rfl
@[simp] theorem State.setByte_xd (s : State) (k : Nat) (x : Byte) : (s.setByte k x).xd = s.xd := rfl
@[simp] theorem State.setByte_reports (s : State) (k : Nat) (x : Byte) : (s.setByte k x).reports = s.reports := rfl
@[simp] theorem State.setByte_posy (s : State) (k : Nat) (x : Byte) (i : Nat) : (s.setByte k x).posy i = s.posy i := rfl
@[simp] theorem State.setByte_team (s : State) (k : Nat) (x : Byte) (i : Nat) : (s.setByte k x).team i = s.team i := rfl
@[simp] theorem State.setByte_core (s : State) (k : Nat) (x : Byte) (i : Nat) : (s.setByte k x).core i = s.core i := rfl
@[simp] theorem State.setByte_die (s : State) (k : Nat) (x : Byte) (i : Nat) : (s.setByte k x).die i = s.die i := rfl
@[simp] theorem State.setByte_queue (s : State) (k : Nat) (x : Byte) (i : Nat) : (s.setByte k x).queue i = s.queue i := rfl
@[simp] theorem State.setByte_launch (s : State) (k : Nat) (x : Byte) (i : Nat) : (s.setByte k x).launch i = s.launch i := rfl
@[simp] theorem State.setByte_vd (s : State) (k : Nat) (x : Byte) (i j : Nat) : (s.setByte k x).vd i j = s.vd i j := rfl
@[simp] theorem State.setByte_poisoned (s : State) (k : Nat) (x : Byte) (i : Nat) : (s.setByte k x).poisoned i = s.poisoned i := rfl

/-! ## Reading what was written -/

@[simp] theorem State.setPosy_posy_self (s : State) (k : Nat) (x : Option Posy) : (s.setPosy k x).posy k = x := Tab.get_set_self _ _ _
@[simp] theorem State.setPosy_posy_ne (s : State) {k j : Nat} (x : Option Posy) (h : j ≠ k) : (s.setPosy k x).posy j = s.posy j := Tab.get_set_ne _ _ h
theorem State.setPosy_posy (s : State) (k j : Nat) (x : Option Posy) : (s.setPosy k x).posy j = if j = k then x else s.posy j := Tab.get_set _ _ _ _
@[simp] theorem State.setTeam_team_self (s : State) (k : Nat) (x : Option Team) : (s.setTeam k x).team k = x := Tab.get_set_self _ _ _
@[simp] theorem State.setTeam_team_ne (s : State) {k j : Nat} (x : Option Team) (h : j ≠ k) : (s.setTeam k x).team j = s.team j := Tab.get_set_ne _ _ h
theorem State.setTeam_team (s : State) (k j : Nat) (x : Option Team) : (s.setTeam k x).team j = if j = k then x else s.team j := Tab.get_set _ _ _ _
@[simp] theorem State.setCore_core_self (s : State) (k : Nat) (x : Core) : (s.setCore k x).core k = x := Tab.get_set_self _ _ _
@[simp] theorem State.setCore_core_ne (s : State) {k j : Nat} (x : Core) (h : j ≠ k) : (s.setCore k x).core j = s.core j := Tab.get_set_ne _ _ h
theorem State.setCore_core (s : State) (k j : Nat) (x : Core) : (s.setCore k x).core j = if j = k then x else s.core j := Tab.get_set _ _ _ _
@[simp] theorem State.setDie_die_self (s : State) (k : Nat) (x : Die) : (s.setDie k x).die k = x := Tab.get_set_self _ _ _
@[simp] theorem State.setDie_die_ne (s : State) {k j : Nat} (x : Die) (h : j ≠ k) : (s.setDie k x).die j = s.die j := Tab.get_set_ne _ _ h
theorem State.setDie_die (s : State) (k j : Nat) (x : Die) : (s.setDie k x).die j = if j = k then x else s.die j := Tab.get_set _ _ _ _
@[simp] theorem State.setQueue_queue_self (s : State) (k : Nat) (x : Queue) : (s.setQueue k x).queue k = x := Tab.get_set_self _ _ _
@[simp] theorem State.setQueue_queue_ne (s : State) {k j : Nat} (x : Queue) (h : j ≠ k) : (s.setQueue k x).queue j = s.queue j := Tab.get_set_ne _ _ h
theorem State.setQueue_queue (s : State) (k j : Nat) (x : Queue) : (s.setQueue k x).queue j = if j = k then x else s.queue j := Tab.get_set _ _ _ _
@[simp] theorem State.setLaunch_launch_self (s : State) (k : Nat) (x : Option Launch) : (s.setLaunch k x).launch k = x := Tab.get_set_self _ _ _
@[simp] theorem State.setLaunch_launch_ne (s : State) {k j : Nat} (x : Option Launch) (h : j ≠ k) : (s.setLaunch k x).launch j = s.launch j := Tab.get_set_ne _ _ h
theorem State.setLaunch_launch (s : State) (k j : Nat) (x : Option Launch) : (s.setLaunch k x).launch j = if j = k then x else s.launch j := Tab.get_set _ _ _ _
@[simp] theorem State.setByte_byte_self (s : State) (k : Nat) (x : Byte) : (s.setByte k x).byte k = x := Tab.get_set_self _ _ _
@[simp] theorem State.setByte_byte_ne (s : State) {k j : Nat} (x : Byte) (h : j ≠ k) : (s.setByte k x).byte j = s.byte j := Tab.get_set_ne _ _ h
theorem State.setByte_byte (s : State) (k j : Nat) (x : Byte) : (s.setByte k x).byte j = if j = k then x else s.byte j := Tab.get_set _ _ _ _
@[simp] theorem State.setVd_vd_self (s : State) (p k : Nat) (x : Option Vd) : (s.setVd p k x).vd p k = x := Tab.get_set_self _ _ _

/-! ## Frames of a team -/

@[simp] theorem Team.setFrame_frame_self (t : Team) (i : Nat) (f : Option Frame) : (t.setFrame i f).frame i = f := Tab.get_set_self _ _ _
@[simp] theorem Team.setFrame_frame_ne (t : Team) {i j : Nat} (f : Option Frame) (h : j ≠ i) : (t.setFrame i f).frame j = t.frame j :=
  Tab.get_set_ne _ _ h

@[simp] theorem Team.setFrame_lid (t : Team) (i : Nat) (x : Option Frame) : (t.setFrame i x).lid = t.lid := rfl
@[simp] theorem Team.setFrame_idx (t : Team) (i : Nat) (x : Option Frame) : (t.setFrame i x).idx = t.idx := rfl
@[simp] theorem Team.setFrame_vd (t : Team) (i : Nat) (x : Option Frame) : (t.setFrame i x).vd = t.vd := rfl
@[simp] theorem Team.setFrame_part (t : Team) (i : Nat) (x : Option Frame) : (t.setFrame i x).part = t.part := rfl
@[simp] theorem Team.setFrame_queue (t : Team) (i : Nat) (x : Option Frame) : (t.setFrame i x).queue = t.queue := rfl
@[simp] theorem Team.setFrame_core (t : Team) (i : Nat) (x : Option Frame) : (t.setFrame i x).core = t.core := rfl
@[simp] theorem Team.setFrame_place (t : Team) (i : Nat) (x : Option Frame) : (t.setFrame i x).place = t.place := rfl
@[simp] theorem Team.setFrame_wave (t : Team) (i : Nat) (x : Option Frame) : (t.setFrame i x).wave = t.wave := rfl
@[simp] theorem Team.setFrame_prio (t : Team) (i : Nat) (x : Option Frame) : (t.setFrame i x).prio = t.prio := rfl
@[simp] theorem Team.setFrame_placed (t : Team) (i : Nat) (x : Option Frame) : (t.setFrame i x).placed = t.placed := rfl
@[simp] theorem Team.setFrame_idle (t : Team) (i : Nat) (x : Option Frame) : (t.setFrame i x).idle = t.idle := rfl
@[simp] theorem Team.setFrame_fctl (t : Team) (i : Nat) (x : Option Frame) : (t.setFrame i x).fctl = t.fctl := rfl
@[simp] theorem Team.setFrame_flags (t : Team) (i : Nat) (x : Option Frame) : (t.setFrame i x).flags = t.flags := rfl
@[simp] theorem Team.setFrame_arm (t : Team) (i : Nat) (x : Option Frame) : (t.setFrame i x).arm = t.arm := rfl
@[simp] theorem Team.setFrame_flagsNew (t : Team) (i : Nat) (x : Option Frame) : (t.setFrame i x).flagsNew = t.flagsNew := rfl
@[simp] theorem Team.setFrame_added (t : Team) (i : Nat) (x : Option Frame) : (t.setFrame i x).added = t.added := rfl
@[simp] theorem Team.setFrame_glb (t : Team) (i : Nat) (x : Option Frame) : (t.setFrame i x).glb = t.glb := rfl
@[simp] theorem Team.setFrame_scr (t : Team) (i : Nat) (x : Option Frame) : (t.setFrame i x).scr = t.scr := rfl
@[simp] theorem Team.setFrame_cst (t : Team) (i : Nat) (x : Option Frame) : (t.setFrame i x).cst = t.cst := rfl
@[simp] theorem Team.setFrame_spn (t : Team) (i : Nat) (x : Option Frame) : (t.setFrame i x).spn = t.spn := rfl
@[simp] theorem Team.setFrame_ctx (t : Team) (i : Nat) (x : Option Frame) : (t.setFrame i x).ctx = t.ctx := rfl
@[simp] theorem Team.setFrame_salloc (t : Team) (i : Nat) (x : Option Frame) : (t.setFrame i x).salloc = t.salloc := rfl
@[simp] theorem Team.setFrame_scratch (t : Team) (i : Nat) (x : Option Frame) : (t.setFrame i x).scratch = t.scratch := rfl
@[simp] theorem Team.setFrame_spoison (t : Team) (i : Nat) (x : Option Frame) : (t.setFrame i x).spoison = t.spoison := rfl
@[simp] theorem Team.setFrame_ktiles (t : Team) (i : Nat) (x : Option Frame) : (t.setFrame i x).ktiles = t.ktiles := rfl
@[simp] theorem Team.setFrame_tileNos (t : Team) (i : Nat) (x : Option Frame) : (t.setFrame i x).tileNos = t.tileNos := rfl
@[simp] theorem Team.setFrame_tiles (t : Team) (i : Nat) (x : Option Frame) : (t.setFrame i x).tiles = t.tiles := rfl
@[simp] theorem Team.setFrame_tileSaved (t : Team) (i : Nat) (x : Option Frame) : (t.setFrame i x).tileSaved = t.tileSaved := rfl
@[simp] theorem Team.setFrame_recs (t : Team) (i : Nat) (x : Option Frame) : (t.setFrame i x).recs = t.recs := rfl
@[simp] theorem Team.setFrame_nextRec (t : Team) (i : Nat) (x : Option Frame) : (t.setFrame i x).nextRec = t.nextRec := rfl
@[simp] theorem Team.setFrame_nextFid (t : Team) (i : Nat) (x : Option Frame) : (t.setFrame i x).nextFid = t.nextFid := rfl
@[simp] theorem Team.setFrame_handles (t : Team) (i : Nat) (x : Option Frame) : (t.setFrame i x).handles = t.handles := rfl
@[simp] theorem Team.setFrame_nextTok (t : Team) (i : Nat) (x : Option Frame) : (t.setFrame i x).nextTok = t.nextTok := rfl
@[simp] theorem Team.setFrame_reqs (t : Team) (i : Nat) (x : Option Frame) : (t.setFrame i x).reqs = t.reqs := rfl
@[simp] theorem Team.setFrame_loads (t : Team) (i : Nat) (x : Option Frame) : (t.setFrame i x).loads = t.loads := rfl
@[simp] theorem Team.setFrame_nextSeq (t : Team) (i : Nat) (x : Option Frame) : (t.setFrame i x).nextSeq = t.nextSeq := rfl
@[simp] theorem Team.setFrame_stopped (t : Team) (i : Nat) (x : Option Frame) : (t.setFrame i x).stopped = t.stopped := rfl
@[simp] theorem Team.setFrame_trapped (t : Team) (i : Nat) (x : Option Frame) : (t.setFrame i x).trapped = t.trapped := rfl
@[simp] theorem Team.setFrame_stopAt (t : Team) (i : Nat) (x : Option Frame) : (t.setFrame i x).stopAt = t.stopAt := rfl
@[simp] theorem Team.setFrame_issued (t : Team) (i : Nat) (x : Option Frame) : (t.setFrame i x).issued = t.issued := rfl
@[simp] theorem Team.setFrame_save (t : Team) (i : Nat) (x : Option Frame) : (t.setFrame i x).save = t.save := rfl
@[simp] theorem Team.setFrame_images (t : Team) (i : Nat) (x : Option Frame) : (t.setFrame i x).images = t.images := rfl
@[simp] theorem Team.setFrame_hunit (t : Team) (i : Nat) (x : Option Frame) : (t.setFrame i x).hunit = t.hunit := rfl
@[simp] theorem Team.setFrame_sunits (t : Team) (i : Nat) (x : Option Frame) : (t.setFrame i x).sunits = t.sunits := rfl
@[simp] theorem Team.setFrame_tunits (t : Team) (i : Nat) (x : Option Frame) : (t.setFrame i x).tunits = t.tunits := rfl
@[simp] theorem Team.setFrame_retagged (t : Team) (i : Nat) (x : Option Frame) : (t.setFrame i x).retagged = t.retagged := rfl
@[simp] theorem Team.setFrame_fifoPart (t : Team) (i : Nat) (x : Option Frame) : (t.setFrame i x).fifoPart = t.fifoPart := rfl
@[simp] theorem Team.setFrame_lateRecs (t : Team) (i : Nat) (x : Option Frame) : (t.setFrame i x).lateRecs = t.lateRecs := rfl
@[simp] theorem Team.setFrame_ctxAborted (t : Team) (i : Nat) (x : Option Frame) : (t.setFrame i x).ctxAborted = t.ctxAborted := rfl
@[simp] theorem Team.setFrame_ctxPurged (t : Team) (i : Nat) (x : Option Frame) : (t.setFrame i x).ctxPurged = t.ctxPurged := rfl
@[simp] theorem Team.setFrame_ctxRetry (t : Team) (i : Nat) (x : Option Frame) : (t.setFrame i x).ctxRetry = t.ctxRetry := rfl
@[simp] theorem Team.setFrame_savedTasks (t : Team) (i : Nat) (x : Option Frame) : (t.setFrame i x).savedTasks = t.savedTasks := rfl
@[simp] theorem Team.setFrame_savedLoads (t : Team) (i : Nat) (x : Option Frame) : (t.setFrame i x).savedLoads = t.savedLoads := rfl
@[simp] theorem Team.setFrame_hdone (t : Team) (i : Nat) (x : Option Frame) : (t.setFrame i x).hdone = t.hdone := rfl
@[simp] theorem Team.setFrame_forced (t : Team) (i : Nat) (x : Option Frame) : (t.setFrame i x).forced = t.forced := rfl
@[simp] theorem Team.setFrame_nacks (t : Team) (i : Nat) (x : Option Frame) : (t.setFrame i x).nacks = t.nacks := rfl
@[simp] theorem Team.setFrame_lastTask (t : Team) (i : Nat) (x : Option Frame) : (t.setFrame i x).lastTask = t.lastTask := rfl

end Sys2Proof.Machine
end

