-- ==== Sys2Proof/Laws/Memory.lean ====
section
/-!
SUPPORT. Memory: a read after a write to the same place gives the value written, a write leaves every other place
alone, and every operation on memory keeps its canonical form.
-/
namespace Sys2Proof.Machine

variable {s : State}

/-! ## Bytes -/

theorem State.byte_setByte (s : State) (a b : Nat) (x : Byte) : (s.setByte a x).byte b = if b = a then x else s.byte b :=
  Tab.get_set ..

@[simp] theorem State.setByte_wf (a : Nat) (x : Byte) (h : Memory.wf s.mem = true) : Memory.wf (s.setByte a x).mem = true :=
  Tab.wf_set a x h

theorem setBytes_eq (s : State) (w : List (Nat × Byte)) : setBytes s w = { s with mem := Tab.setAll Memory.unlisted s.mem w } := by
  induction w generalizing s with
  | nil => rfl
  | cons x t ih => exact ih _

theorem State.writeHome_eq (s : State) (w : List (Nat × Byte)) : s.writeHome w = { s with
    mem := Tab.setAll Memory.unlisted s.mem w, poison := Tab.setAll false s.poison ((wholeWords w).map fun k => (k, false)) } := by
  simp only [State.writeHome, setBytes_eq]

theorem State.writeHome_wf (w : List (Nat × Byte)) (h : Memory.wf s.mem = true) : Memory.wf (s.writeHome w).mem = true := by
  rw [writeHome_eq]; exact Tab.wf_setAll w h

theorem State.writeHome_poison_wf (w : List (Nat × Byte)) (h : Tab.wf false s.poison = true) :
    Tab.wf false (s.writeHome w).poison = true := by
  rw [writeHome_eq]; exact Tab.wf_setAll _ h

/-- A byte that is not written stays. -/
theorem State.byte_writeHome_of_not_mem (w : List (Nat × Byte)) (a : Nat) (h : ∀ p ∈ w, p.1 ≠ a) : (s.writeHome w).byte a = s.byte a := by
  rw [writeHome_eq]; exact Tab.get_setAll_of_not_mem _ w a h

/-- A byte that every pair of its address writes alike reads as written. -/
theorem State.byte_writeHome_of_mem (w : List (Nat × Byte)) (a : Nat) (x : Byte) (hm : ∃ p ∈ w, p.1 = a)
    (hx : ∀ p ∈ w, p.1 = a → p.2 = x) : (s.writeHome w).byte a = x := by
  rw [writeHome_eq]; exact Tab.get_setAll_of_mem _ w a x hm hx

/-! ## Runs of bytes -/

theorem placed_not_mem {pa a : Nat} {bs : List Byte} (h : a < pa ∨ pa + bs.length ≤ a) : ∀ p ∈ placed pa bs, p.1 ≠ a := by
  intro p hp
  simp only [placed, List.mem_map, List.mem_range] at hp
  obtain ⟨i, hi, rfl⟩ := hp
  simp only; omega

/-- A run of bytes written at home reads back. -/
theorem State.byte_writeHome_placed (s : State) (pa : Nat) (bs : List Byte) (i : Nat) (hi : i < bs.length) :
    (s.writeHome (placed pa bs)).byte (pa + i) = bs.getD i 0 := by
  refine byte_writeHome_of_mem _ _ _ ⟨(pa + i, bs.getD i 0), ?_, rfl⟩ ?_
  · simp only [placed, List.mem_map, List.mem_range]; exact ⟨i, hi, rfl⟩
  · intro p hp
    simp only [placed, List.mem_map, List.mem_range] at hp
    obtain ⟨j, hj, rfl⟩ := hp
    intro h
    have : j = i := by simp only at h; omega
    rw [this]

theorem State.write64_wf (pa v : Nat) (h : Memory.wf s.mem = true) : Memory.wf (s.write64 pa v).mem = true := writeHome_wf _ h

/-! ## Caches leave memory alone -/

@[simp] theorem State.putCline_mem (s : State) (who : Sharer) (line : Nat) (x : CLine) : (s.putCline who line x).mem = s.mem := by
  cases who <;> rfl
@[simp] theorem State.putCline_poison (s : State) (who : Sharer) (line : Nat) (x : CLine) : (s.putCline who line x).poison = s.poison := by
  cases who <;> rfl
@[simp] theorem noteDir_mem (s : State) (who : Sharer) (line : Nat) (b : Bool) : (noteDir s who line b).mem = s.mem := by
  rfl
@[simp] theorem noteDir_poison (s : State) (who : Sharer) (line : Nat) (b : Bool) : (noteDir s who line b).poison = s.poison := by
  rfl
@[simp] theorem State.setCline_mem (s : State) (who : Sharer) (line : Nat) (x : CLine) : (s.setCline who line x).mem = s.mem := by
  cases who <;> simp only [State.setCline] <;> (try split) <;> simp
@[simp] theorem State.setCline_poison (s : State) (who : Sharer) (line : Nat) (x : CLine) : (s.setCline who line x).poison = s.poison := by
  cases who <;> simp only [State.setCline] <;> (try split) <;> simp
@[simp] theorem countRefused_mem (s : State) (d pa : Nat) : (countRefused s d pa).mem = s.mem := by
  unfold countRefused; split <;> (try split) <;> rfl
@[simp] theorem countRefused_poison (s : State) (d pa : Nat) : (countRefused s d pa).poison = s.poison := by
  unfold countRefused; split <;> (try split) <;> rfl
@[simp] theorem mapSnaps_mem (s : State) (f : Bool → Bool → List (Sharer × Nat) → List (Sharer × Nat)) : (mapSnaps s f).mem = s.mem := by
  rfl
@[simp] theorem mapSnaps_poison (s : State) (f : Bool → Bool → List (Sharer × Nat) → List (Sharer × Nat)) : (mapSnaps s f).poison = s.poison := by
  rfl
@[simp] theorem dropDirty_mem (s : State) (who : Sharer) (line : Nat) : (dropDirty s who line).mem = s.mem := by
  simp [dropDirty]
@[simp] theorem dropDirty_poison (s : State) (who : Sharer) (line : Nat) : (dropDirty s who line).poison = s.poison := by
  simp [dropDirty]
@[simp] theorem State.modTeam_mem (s : State) (id : Nat) (f : Team → Team) : (s.modTeam id f).mem = s.mem := by
  unfold State.modTeam; split <;> rfl
@[simp] theorem State.modTeam_poison (s : State) (id : Nat) (f : Team → Team) : (s.modTeam id f).poison = s.poison := by
  unfold State.modTeam; split <;> rfl
@[simp] theorem merrTeams_mem (s : State) (ts : List Nat) : (merrTeams s ts).mem = s.mem := by
  unfold merrTeams; induction ts generalizing s with
  | nil => rfl
  | cons t ts ih => simp [ih]
@[simp] theorem merrTeams_poison (s : State) (ts : List Nat) : (merrTeams s ts).poison = s.poison := by
  unfold merrTeams; induction ts generalizing s with
  | nil => rfl
  | cons t ts ih => simp [ih]
@[simp] theorem writeBack_mem (s : State) (who : Sharer) (line : Nat) : (writeBack s who line).mem = s.mem := by
  cases who <;> (unfold writeBack; dsimp only; repeat' split) <;> simp
@[simp] theorem writeBack_poison (s : State) (who : Sharer) (line : Nat) : (writeBack s who line).poison = s.poison := by
  cases who <;> (unfold writeBack; dsimp only; repeat' split) <;> simp
@[simp] theorem followBack_mem (s : State) (who : Sharer) (line : Nat) : (followBack s who line).mem = s.mem := by
  unfold followBack; split <;> simp
@[simp] theorem followBack_poison (s : State) (who : Sharer) (line : Nat) : (followBack s who line).poison = s.poison := by
  unfold followBack; split <;> simp
@[simp] theorem ackWriter_mem (s : State) (m : Merging) : (ackWriter s m).mem = s.mem := by
  unfold ackWriter; dsimp only; repeat' split
  all_goals simp
@[simp] theorem ackWriter_poison (s : State) (m : Merging) : (ackWriter s m).poison = s.poison := by
  unfold ackWriter; dsimp only; repeat' split
  all_goals simp
@[simp] theorem enterMerge_mem (s : State) (line : Nat) (p : Option Nat) (w : Option Sharer) (r : Option (Nat × Nat × Nat)) (a : List Authority) (u : Option Nat) : (enterMerge s line p w r a u).mem = s.mem := by
  unfold enterMerge; dsimp only; repeat' split
  all_goals simp
@[simp] theorem enterMerge_poison (s : State) (line : Nat) (p : Option Nat) (w : Option Sharer) (r : Option (Nat × Nat × Nat)) (a : List Authority) (u : Option Nat) : (enterMerge s line p w r a u).poison = s.poison := by
  unfold enterMerge; dsimp only; repeat' split
  all_goals simp
@[simp] theorem dropReplica_mem (s : State) (who : Sharer) (line : Nat) : (dropReplica s who line).mem = s.mem := by
  cases who <;> simp [dropReplica]
@[simp] theorem dropReplica_poison (s : State) (who : Sharer) (line : Nat) : (dropReplica s who line).poison = s.poison := by
  cases who <;> simp [dropReplica]

theorem foldl_mem {α : Type} (f : State → α → State) (hf : ∀ s x, (f s x).mem = s.mem) (xs : List α) (s : State) :
    (xs.foldl f s).mem = s.mem := by
  induction xs generalizing s with
  | nil => rfl
  | cons x t ih => exact (ih _).trans (hf s x)

theorem foldl_poison {α : Type} (f : State → α → State) (hf : ∀ s x, (f s x).poison = s.poison) (xs : List α) (s : State) :
    (xs.foldl f s).poison = s.poison := by
  induction xs generalizing s with
  | nil => rfl
  | cons x t ih => exact (ih _).trans (hf s x)

/-- What a write at SYS width does to memory is the write at home of its bytes that lie in memory: the rest invalidates
replicas (R23, R287, R305). -/
@[simp] theorem sysWriteBy_mem (who : Option Sharer) (s : State) (w : List (Nat × Byte)) (a : List Authority) (u : Option Nat) :
    (sysWriteBy who s w a u).mem = (s.writeHome (w.filter fun x => isMem x.1)).mem :=
  foldl_mem _ (fun s l => enterMerge_mem s l _ _ _ _ _) _ _

@[simp] theorem sysWriteBy_poison (who : Option Sharer) (s : State) (w : List (Nat × Byte)) (a : List Authority) (u : Option Nat) :
    (sysWriteBy who s w a u).poison = (s.writeHome (w.filter fun x => isMem x.1)).poison :=
  foldl_poison _ (fun s l => enterMerge_poison s l _ _ _ _ _) _ _

@[simp] theorem sysWrite_mem (s : State) (w : List (Nat × Byte)) :
    (sysWrite s w).mem = (s.writeHome (w.filter fun x => isMem x.1)).mem := sysWriteBy_mem none s w [] none
@[simp] theorem sysWrite_poison (s : State) (w : List (Nat × Byte)) :
    (sysWrite s w).poison = (s.writeHome (w.filter fun x => isMem x.1)).poison := sysWriteBy_poison none s w [] none

theorem sysWrite_wf (w : List (Nat × Byte)) (h : Memory.wf s.mem = true) : Memory.wf (sysWrite s w).mem = true := by
  rw [sysWrite_mem]; exact State.writeHome_wf _ h

theorem sysWrite64_wf (pa v : Nat) (h : Memory.wf s.mem = true) : Memory.wf (sysWrite64 s pa v).mem = true := sysWrite_wf _ h

/-- What is kept of memory when a range of addresses is cleared is canonical (R378, R458). -/
theorem Memory.wf_filter {m : Memory} (p : Nat × Byte → Bool) (h : Memory.wf m = true) : Memory.wf (m.filter p) = true := Tab.wf_filter p h

theorem reset_wf : Memory.wf State.reset.mem = true ∧ Tab.wf false State.reset.poison = true := ⟨rfl, rfl⟩

end Sys2Proof.Machine
end

