-- ==== Sys2Proof/Laws/Ops.lean ====
section
/-!
SUPPORT. What the operations of an instruction do: finding the posy that issues, the checks, the writes, a trap.
-/
namespace Sys2Proof.Machine

variable {s : State} {e : Env} {n : Need} {h : Hdr}

/-! ## The posy that issues -/

theorem envAt_eq_some {k : Nat} : envAt s k = some e ↔
    e.key = k ∧ s.posy k = some e.p ∧ s.team e.p.team = some e.t ∧ e.t.frame e.p.frame = some e.f := by
  unfold envAt
  constructor
  · intro hh
    split at hh
    · cases hh
    · split at hh
      · cases hh
      · split at hh
        · cases hh
        · cases hh; exact ⟨rfl, by assumption, by assumption, by assumption⟩
  · rintro ⟨rfl, h1, h2, h3⟩
    simp [h1, h2, h3]

theorem curEnv_eq_some : curEnv s = some e ↔
    e.key = posyKey s.cur.1 s.cur.2 ∧ s.posy e.key = some e.p ∧ s.team e.p.team = some e.t ∧
      e.t.frame e.p.frame = some e.f := by
  unfold curEnv
  rw [envAt_eq_some]
  constructor
  · rintro ⟨h1, h2⟩; exact ⟨h1, by rw [h1]; exact h2⟩
  · rintro ⟨h1, h2⟩; exact ⟨h1, by rw [← h1]; exact h2⟩

/-! ## The checks -/

theorem Passes.issue (hp : Passes s e n h) (body : Env → List Nat → Out) :
    issue s n h body = body e (e.p.active h) := by
  have h1 : (n.priv && !e.p.privileged || n.ban && e.p.privileged) = false := by
    have a := hp.priv; have b := hp.ban
    cases hp1 : n.priv <;> cases hp2 : n.ban <;> cases hp3 : e.p.privileged <;> simp_all
  have h2 : (n.full && (e.p.active h).length != e.f.refs) = false := by
    cases hf : n.full
    · rfl
    · simp [hp.full hf]
  simp [Machine.issue, hp.cur, checked, hp.type, hp.regs, hp.regOk, h1, hp.ready, hp.guardReady, h2, hp.tags]

/-- What `issue` can answer: nothing happens, a trap of one of the checks, or the body with every check passed. -/
theorem issue_cases (body : Env → List Nat → Out) :
    (issue s n h body = .next s) ∨
    (∃ e tr, curEnv s = some e ∧ issue s n h body = .next (takeTrap s e tr (e.p.active h) 0)) ∨
    (∃ e, Passes s e n h ∧ issue s n h body = body e (e.p.active h)) := by
  unfold issue
  split
  · exact .inl rfl
  · rename_i e he
    unfold checked trap
    simp only
    split
    · exact .inr (.inl ⟨e, _, he, rfl⟩)
    split
    · exact .inr (.inl ⟨e, _, he, rfl⟩)
    split
    · exact .inr (.inl ⟨e, _, he, rfl⟩)
    split
    · exact .inl rfl
    split
    · exact .inr (.inl ⟨e, _, he, rfl⟩)
    split
    · exact .inr (.inl ⟨e, _, he, rfl⟩)
    · rename_i h1 h2 h3 h4 h5 h6
      refine .inr (.inr ⟨e, ?_, rfl⟩)
      simp only [Bool.not_eq_true, Bool.not_eq_false', Bool.or_eq_false_iff, Bool.and_eq_true, Bool.and_eq_false_iff] at h1 h2 h3 h4 h5 h6
      refine ⟨he, h1, h2.1, h2.2, ?_, ?_, h4.1, h4.2, ?_, h6⟩
      · intro hp; rcases h3.1 with h | h
        · rw [hp] at h; cases h
        · simpa using h
      · intro hp; rcases h3.2 with h | h
        · rw [hp] at h; cases h
        · exact h
      · intro hp; exact Decidable.byContradiction fun hne => h5 ⟨hp, by simpa using hne⟩

/-! ## The writes -/

theorem Posy.foldl_setPred (xs : List (Nat × Nat × Bool)) (p : Posy) :
    ∃ t, xs.foldl (fun q w => q.setPred w.1 w.2.1 w.2.2) p = { p with preds := t } := by
  induction xs generalizing p with
  | nil => exact ⟨p.preds, rfl⟩
  | cons x xs ih =>
    obtain ⟨t, ht⟩ := ih (p.setPred x.1 x.2.1 x.2.2)
    refine ⟨t, ?_⟩
    rw [List.foldl_cons, ht]
    unfold Posy.setPred
    split <;> rfl

/-- The writes of an instruction change only the register files of its posy. -/
theorem Posy.apply_eq (p : Posy) (x : Eff) : ∃ t, p.apply x =
    { p with
      preds := t, v := Tab.setAll 0 p.v (x.vw.map fun w => (64 * w.1 + w.2.1, w.2.2))
      tags := Tab.setAll 0 p.tags x.tags, lfsr := Tab.setAll 0 p.lfsr x.lf } := by
  obtain ⟨t, ht⟩ := Posy.foldl_setPred x.pw { p with
      v := Tab.setAll 0 p.v (x.vw.map fun w => (64 * w.1 + w.2.1, w.2.2))
      tags := Tab.setAll 0 p.tags x.tags, lfsr := Tab.setAll 0 p.lfsr x.lf }
  exact ⟨t, ht⟩

@[simp] theorem Posy.apply_team (p : Posy) (x : Eff) : (p.apply x).team = p.team := by
  obtain ⟨t, ht⟩ := p.apply_eq x; rw [ht]
@[simp] theorem Posy.apply_frame (p : Posy) (x : Eff) : (p.apply x).frame = p.frame := by
  obtain ⟨t, ht⟩ := p.apply_eq x; rw [ht]
@[simp] theorem Posy.apply_pc (p : Posy) (x : Eff) : (p.apply x).pc = p.pc := by
  obtain ⟨t, ht⟩ := p.apply_eq x; rw [ht]
@[simp] theorem Posy.apply_uid (p : Posy) (x : Eff) : (p.apply x).uid = p.uid := by
  obtain ⟨t, ht⟩ := p.apply_eq x; rw [ht]
@[simp] theorem Posy.apply_wbase (p : Posy) (x : Eff) : (p.apply x).wbase = p.wbase := by
  obtain ⟨t, ht⟩ := p.apply_eq x; rw [ht]
@[simp] theorem Posy.apply_alloc (p : Posy) (x : Eff) : (p.apply x).alloc = p.alloc := by
  obtain ⟨t, ht⟩ := p.apply_eq x; rw [ht]
@[simp] theorem Posy.apply_lanes (p : Posy) (x : Eff) : (p.apply x).lanes = p.lanes := by
  obtain ⟨t, ht⟩ := p.apply_eq x; rw [ht]
@[simp] theorem Posy.apply_hd (p : Posy) (x : Eff) : (p.apply x).hd = p.hd := by
  obtain ⟨t, ht⟩ := p.apply_eq x; rw [ht]
@[simp] theorem Posy.apply_v (p : Posy) (x : Eff) :
    (p.apply x).v = Tab.setAll 0 p.v (x.vw.map fun w => (64 * w.1 + w.2.1, w.2.2)) := by
  obtain ⟨t, ht⟩ := p.apply_eq x; rw [ht]
@[simp] theorem Posy.apply_tags (p : Posy) (x : Eff) : (p.apply x).tags = Tab.setAll 0 p.tags x.tags := by
  obtain ⟨t, ht⟩ := p.apply_eq x; rw [ht]
@[simp] theorem Posy.apply_lfsr (p : Posy) (x : Eff) : (p.apply x).lfsr = Tab.setAll 0 p.lfsr x.lf := by
  obtain ⟨t, ht⟩ := p.apply_eq x; rw [ht]

/-- Bit m of a predicate word after bit k was written. -/
theorem getLsbD_setBit16 (w : BitVec 16) {k m : Nat} (b : Bool) (hk : k < 16) :
    (setBit16 w k b).getLsbD m = if m = k then b else w.getLsbD m := by
  unfold setBit16
  cases b
  · simp only [Bool.false_eq_true, if_false, BitVec.getLsbD_and, BitVec.getLsbD_not, BitVec.getLsbD_twoPow]
    by_cases hm : m = k
    · subst hm; simp [hk]
    · by_cases h16 : m < 16
      · simp [hm, h16, Ne.symm hm]
      · simp [hm, h16, BitVec.getLsbD_of_ge w m (by omega)]
  · simp only [if_true, BitVec.getLsbD_or, BitVec.getLsbD_twoPow]
    by_cases hm : m = k
    · subst hm; simp [hk]
    · simp [hm, Ne.symm hm]

/-- A predicate after a write of one lane's predicate. -/
theorem Posy.pred_setPred (p : Posy) {L k M m : Nat} (b : Bool) (hk0 : k ≠ 0) (hk : k < 16) (hm : m ≠ 0) :
    (p.setPred L k b).pred m M = if M = L ∧ m = k then b else p.pred m M := by
  unfold Posy.setPred Posy.pred
  simp only [hk0, if_false, Tab.get_set]
  have hb : (m == 0) = false := by simpa using hm
  simp only [hb, Bool.false_or]
  by_cases hM : M = L
  · subst hM
    simp only [if_true, getLsbD_setBit16 _ b hk, true_and]
  · simp [hM]

/-- A predicate after a list of writes that agree on it. -/
theorem Posy.pred_foldl_setPred (xs : List (Nat × Nat × Bool)) (p : Posy) (n L : Nat) (hn : n ≠ 0)
    (hk : ∀ x ∈ xs, x.2.1 ≠ 0 ∧ x.2.1 < 16) :
    ((∀ x ∈ xs, ¬(x.1 = L ∧ x.2.1 = n)) → (xs.foldl (fun q w => q.setPred w.1 w.2.1 w.2.2) p).pred n L = p.pred n L) ∧
    (∀ b, (∃ x ∈ xs, x.1 = L ∧ x.2.1 = n) → (∀ x ∈ xs, x.1 = L ∧ x.2.1 = n → x.2.2 = b) →
      (xs.foldl (fun q w => q.setPred w.1 w.2.1 w.2.2) p).pred n L = b) := by
  induction xs generalizing p with
  | nil => exact ⟨fun _ => rfl, fun b h => by simp at h⟩
  | cons x xs ih =>
    have hx := hk x (by simp)
    have ih := ih (p.setPred x.1 x.2.1 x.2.2) fun y hy => hk y (by simp [hy])
    have hp := Posy.pred_setPred p (L := x.1) (k := x.2.1) (M := L) (m := n) x.2.2 hx.1 hx.2 hn
    refine ⟨fun h => ?_, fun b hm hb => ?_⟩
    · rw [List.foldl_cons, ih.1 fun y hy => h y (by simp [hy]), hp, if_neg]
      rintro ⟨rfl, rfl⟩; exact h x (by simp) ⟨rfl, rfl⟩
    · rw [List.foldl_cons]
      by_cases hlater : ∃ y ∈ xs, y.1 = L ∧ y.2.1 = n
      · exact ih.2 b hlater fun y hy => hb y (by simp [hy])
      · rw [ih.1 fun y hy hh => hlater ⟨y, hy, hh⟩, hp]
        obtain ⟨y, hy, hyy⟩ := hm
        rcases List.mem_cons.mp hy with rfl | hy
        · rw [if_pos ⟨hyy.1.symm, hyy.2.symm⟩]; exact hb y (by simp) hyy
        · exact absurd ⟨y, hy, hyy⟩ hlater

/-- R117: the flags set, in the team's word and among those of the cycle. -/
@[simp] theorem Team.raise_flags (t : Team) (f : BitVec 6) : (t.raise f).flags = t.flags ||| f := rfl
@[simp] theorem Team.raise_flagsNew (t : Team) (f : BitVec 6) : (t.raise f).flagsNew = t.flagsNew ||| f := rfl
@[simp] theorem Team.raise_frames (t : Team) (f : BitVec 6) : (t.raise f).frames = t.frames := rfl

@[simp] theorem Env.apply_key (e : Env) (x : Eff) : (e.apply x).key = e.key := rfl
@[simp] theorem Env.apply_p (e : Env) (x : Eff) : (e.apply x).p = e.p.apply x := rfl
@[simp] theorem Env.apply_f (e : Env) (x : Eff) : (e.apply x).f = e.f.apply x := rfl
@[simp] theorem Env.apply_t (e : Env) (x : Eff) : (e.apply x).t = e.t.raise x.flags := rfl

/-- What putting an environment back leaves at its own key. -/
theorem envAt_put (e : Env) (s : State) :
    envAt (e.put s) e.key = some { e with t := e.t.setFrame e.p.frame (some e.f) } := by
  rw [envAt_eq_some]
  refine ⟨rfl, ?_, ?_, ?_⟩ <;> simp [Env.put]

@[simp] theorem Env.put_cur (e : Env) (s : State) : (e.put s).cur = s.cur := rfl
@[simp] theorem Env.put_mem (e : Env) (s : State) : (e.put s).mem = s.mem := rfl
@[simp] theorem Env.put_byte (e : Env) (s : State) (a : Nat) : (e.put s).byte a = s.byte a := rfl

theorem curEnv_put (e : Env) (s : State) (hk : e.key = posyKey s.cur.1 s.cur.2) :
    curEnv (e.put s) = some { e with t := e.t.setFrame e.p.frame (some e.f) } := by
  unfold curEnv; rw [Env.put_cur, ← hk]; exact envAt_put e s

theorem Env.put_posy_ne (e : Env) (s : State) {k : Nat} (hk : k ≠ e.key) : (e.put s).posy k = s.posy k := by
  simp [Env.put, hk]
theorem Env.put_team_ne (e : Env) (s : State) {i : Nat} (hi : i ≠ e.p.team) : (e.put s).team i = s.team i := by
  simp [Env.put, hi]

/-- The environment after the writes of an instruction. -/
theorem commit_env (s : State) (e : Env) (l : Len) (x : Eff) (hk : e.key = posyKey s.cur.1 s.cur.2) :
    ∃ t, commit s e l x = .next t ∧
      curEnv t = some { key := e.key, p := (e.p.apply x).advance l, f := e.f.apply x
                        t := (e.t.raise x.flags).setFrame e.p.frame (some (e.f.apply x)) } := by
  refine ⟨_, rfl, ?_⟩
  rw [curEnv_put _ _ (by simpa using hk)]
  simp [Posy.advance, Posy.goto]

theorem Posy.mem_present {p : Posy} {L : Nat} : L ∈ p.present ↔ L < 64 ∧ p.holds L = true := by
  simp [Posy.present]

theorem Posy.mem_active {p : Posy} {h : Hdr} {L : Nat} :
    L ∈ p.active h ↔ L < 64 ∧ p.holds L = true ∧ p.guard h.gp h.gn L = true := by
  simp [Posy.active, Posy.mem_present, and_assoc]

/-! ## Taking a trap -/

@[simp] theorem takeTrap_mem (s : State) (e : Env) (tr : Trap) (ls : List Nat) (sw : Nat) : (takeTrap s e tr ls sw).mem = s.mem := rfl
@[simp] theorem takeTrap_posy (s : State) (e : Env) (tr : Trap) (ls : List Nat) (sw k : Nat) :
    (takeTrap s e tr ls sw).posy k = s.posy k := rfl
theorem takeTrap_team_ne (s : State) (e : Env) (tr : Trap) (ls : List Nat) (sw : Nat) {i : Nat} (h : i ≠ e.p.team) :
    (takeTrap s e tr ls sw).team i = s.team i := by
  simp only [takeTrap, State.team, State.setTeam]
  exact Tab.get_set_ne _ _ h
theorem takeTrap_traps (s : State) (e : Env) (tr : Trap) (ls : List Nat) (sw : Nat) :
    (takeTrap s e tr ls sw).traps = s.traps ++ [(e.t.queue, trapRecord s e tr ls sw e.p.privileged)] := rfl

/-! ## Lane instructions -/

/-- A lane instruction that passes its checks makes its writes and goes on. -/
theorem Alu.run_of_passes (a : Alu) (hp : Passes s e a.need a.h) :
    a.run s = commit s e a.h.len (a.eff e (e.p.active a.h)) := hp.issue _

end Sys2Proof.Machine
end

