-- ==== Sys2Proof/Tests/Witnesses.lean ====
section
/-!
SUPPORT. Witnesses: for every statement with hypotheses, concrete states and operands that meet them together.
-/
namespace Sys2Proof.Tests
open Sys2Proof.Machine Sys2Proof.Claims
set_option Elab.async false

/-! ## Small states -/

/-- A team of one fibre in slot 0 of core 0 that issues, with its posy, team and frame changed. -/
def mk (p : Posy → Posy := id) (t : Team → Team := id) (f : Frame → Frame := id) : State :=
  let s := loadTeam State.reset
  match s.posy 0, s.team 0 with
  | some p0, some t0 =>
    let t1 := match t0.frame 0 with | some f0 => t0.setFrame 0 (some (f f0)) | none => t0
    { (s.setTeam 0 (some (t t1))).setPosy 0 (some (p p0)) with turns := [] }
  | _, _ => s

/-- Fibres 0, 1, … in lanes 0, 1, …. -/
def fibs (n : Nat) (p : Posy) : Posy := { p with lanes := (List.range n).map fun L => (L, some L), lfsr := (List.range n).map fun L => (L, 1) }

/-- A posy of n fibres, and its frame. -/
def mkN (n : Nat) (p : Posy → Posy := id) (t : Team → Team := id) (f : Frame → Frame := id) : State :=
  mk (fun x => p (fibs n x)) (fun x => t { x with nextFid := n }) (fun x => f { x with refs := n })

/-- Uniform registers. -/
def sr (l : Tab (BitVec 64)) (f : Frame) : Frame := { f with s := l }

/-- A posy in a handler. -/
def inHandler (m : HMode) (p : Posy) : Posy := { p with hd := { p.hd with mode := m } }

/-- `Passes`, computed. -/
def passB (s : State) (e : Env) (n : Need) (h : Hdr) : Bool :=
  n.type && n.regs.all (RegUse.ok e) && n.regOk e && (!n.priv || e.p.privileged) && (!n.ban || !e.p.privileged) &&
  !n.regs.any (pends s e) && !pends s e (guardUse h) && (!n.full || (e.p.active h).length == e.f.refs) && n.tags.all (TagUse.ok e)

theorem okAs {x : Except Trap Instr} {i : Instr} (h : (match x with | .ok j => decide (j = i) | .error _ => false) = true) : x = .ok i := by
  cases x with
  | ok j => simpa using h
  | error t => simp at h

/-- The posy of `cur` passes the checks, and `P` holds of it. -/
def Meets (s : State) (n : Need) (h : Hdr) (P : Env → Prop) : Prop := ∃ e, Passes s e n h ∧ P e

theorem meets {s : State} {n : Need} {h : Hdr} {P : Env → Prop} [DecidablePred P]
    (hh : (match curEnv s with | some e => passB s e n h && decide (P e) | none => false) = true) : Meets s n h P := by
  cases he : curEnv s with
  | none => simp [he] at hh
  | some e =>
    simp only [he, passB, Bool.and_eq_true, decide_eq_true_eq] at hh
    obtain ⟨⟨⟨⟨⟨⟨⟨⟨⟨h1, h2⟩, h3⟩, h4⟩, h5⟩, h6⟩, h7⟩, h8⟩, h9⟩, hP⟩ := hh
    refine ⟨e, ⟨he, h1, h2, h3, ?_, ?_, by simpa using h6, by simpa using h7, ?_, h9⟩, hP⟩
    · intro hp; simpa [hp] using h4
    · intro hp; simpa [hp] using h5
    · intro hp; simpa [hp] using h8

theorem meets_all {α : Type} {l : List α} {s : α → State} {n : α → Need} {h : α → Hdr} {P : α → Env → Prop} [∀ a, DecidablePred (P a)]
    (hh : (l.all fun a => match curEnv (s a) with | some e => passB (s a) e (n a) (h a) && decide (P a e) | none => false) = true) :
    ∀ a ∈ l, Meets (s a) (n a) (h a) (P a) := fun a ha => meets (List.all_eq_true.mp hh a ha)

/-! ## Lane instructions -/

/-- A lane instruction that passes its checks with an active lane. -/
def laneReady (s : State) (i : Instr) : Bool :=
  Instr.legal i && match laneAlu i, curEnv s with
  | some a, some e => passB s e a.need a.h && decide (e.p.active a.h ≠ [])
  | _, _ => false

theorem laneReady_spec {s : State} {i : Instr} (h : laneReady s i = true) :
    ∃ a, laneAlu i = some a ∧ Meets s a.need a.h fun e => e.p.active a.h ≠ [] := by
  unfold laneReady at h
  cases ha : laneAlu i with
  | none => simp [ha] at h
  | some a =>
    refine ⟨a, rfl, meets ?_⟩
    cases he : curEnv s with
    | none => simp [ha, he] at h
    | some e => simp only [ha, he, Bool.and_eq_true] at h ⊢; exact h.2

def v1 (f : Fmt) : Ops := { fmt := f, d := rV 4, a := rV 8 }
def v2 (f : Fmt) : Ops := { v1 f with b := .reg (rV 2) }
def v3 (f : Fmt) : Ops := { v2 f with h := { len := .w3 }, c := rV 6 }

/-- One word of every lane instruction. -/
def laneWords : List Instr :=
  [.add (v2 .i32), .sub (v2 .u64), .mul (v2 .i16x2), .mulh (v2 .i32), .mad (v3 .i32), .div (v2 .i32),
   .rem (v2 .u32), .and (v2 .i32), .or (v2 .i32), .xor (v2 .u32), .not (v1 .i32), .shl (v2 .i32), .shr (v2 .i64), .sar (v2 .u32),
   .min (v2 .i32), .max (v2 .u32), .abs (v1 .i8x4), .neg (v1 .i32)] ++
  [.cmp { v2 .i32 with d := rK 1 }, .popc (v1 .i32), .clz (v1 .u32), .brev (v1 .u32), .bfx { v2 .i32 with x10 := 31 },
   .bfi { v3 .u64 with x10 := 63 }, .mov (v1 .raw),
   .li { v1 .i32 with a := {}, b := .imm (.i18 5) }, .lop3 { v3 .i32 with x10 := 0x96 },
   .prom { v1 .i32 with a := rS 1 }] ++
  [.fadd (v2 .f32), .fsub (v2 .f16x2), .fmul (v2 .bf16x2), .fma (v3 .bf16x2), .fmin (v2 .f32), .fmax (v2 .f32),
   .fabs (v1 .f32), .fcmp { v2 .f32 with d := rK 2 }, .fclass (v1 .f32), .frnd (v1 .f32), .cvt { v1 .i32 with sub := 1 },
   .rcp (v1 .f32), .rsq (v1 .f32), .sqrt (v1 .f32), .ex2 (v1 .f32), .lg2 (v1 .f32), .sin (v1 .f32), .cos (v1 .f32), .tanh (v1 .f32)] ++
  [.dot2 (v3 .i16x2), .dot4 (v3 .u8x4), .sad (v3 .u8x4),
   .avg (v2 .u8x4), .pack { v2 .f16x2 with sub := 1 }, .unpk { v1 .f16x2 with sub := 4, x10 := 1 }, .prmt (v2 .raw)]

/-- Every lane instruction executes somewhere. -/
theorem lane_words_ready : laneWords.all (laneReady mk) = true := by decide +kernel

/-- The uniform, affine and predicate forms, a pair and a guard. -/
theorem lane_forms_ready : ([.add { fmt := .i32, d := rS 4, a := rS 1, b := .imm (.i18 5) }, .add { fmt := .i64, d := rA 2, a := rA 1, b := .reg (rS 3) },
    .cmp { fmt := .i64, sub := 2, d := rK 15, a := rV 254, b := .reg (rV 252) }, .fcmp { fmt := .f32, sub := 7, d := rK 1, a := rV 0, b := .reg (rV 255) },
    .add { h := { gp := 1, gn := true }, fmt := .u64, d := rV 254, a := rV 0, b := .reg (rV 0) }] : List Instr).all (laneReady mk) = true := by decide +kernel

theorem wit_LaneInstructions : ∃ a, laneAlu (.add (v2 .i32)) = some a ∧ Meets mk a.need a.h fun e => e.p.active a.h = [0] :=
  ⟨aluAdd (v2 .i32), rfl, meets (by decide +kernel)⟩

/-- The hypotheses of the integer table, with a row, and of its bit fields. -/
theorem wit_IntegerTable : (laneAlu (.sar (v2 .u32))).isSome = true ∧ (intRow (.sar (v2 .u32))).isSome = true ∧ Instr.legal (.sar (v2 .u32)) = true ∧
    (fieldRow (.bfx { v2 .i64 with x10 := 63 })).isSome = true ∧ Instr.legal (.bfx { v2 .i64 with x10 := 63 }) = true := by decide +kernel

theorem int_rows : (laneWords.filter fun i => (intRow i).isSome || (fieldRow i).isSome).length = 24 := by decide +kernel

/-- CMP with a predicate, a varying, an affine and a uniform destination. -/
theorem wit_CompareTable : ([rK 1, rV 1, rA 1, rS 1].map fun d => Instr.legal (.cmp { fmt := .u64, sub := 9, d := d, a := rS 2, b := .reg (rS 3) })) = [true, true, true, true] ∧
    (aluCmp { fmt := .u64, sub := 9, d := rS 1, a := rS 2, b := .reg (rS 3) }).typeOk = true := by decide +kernel

/-- The two forms of a product, and an immediate. -/
theorem wit_AffineForms : (rA 2).cls = .a ∧ (rS 2).cls ≠ .a ∧ ((5, 0) : BitVec 64 × BitVec 64).2 = 0 ∧
    (∃ i : Imm, ({ fmt := .i64, b := .imm (.i18 3) } : Ops).b = .imm i) := ⟨rfl, by decide, rfl, _, rfl⟩
/-! ## Registers -/

theorem wit_MoveValues : (∃ x, (.i18 0x20FF0 : Imm) = .i18 x) ∧ (∃ x, (.i32 7 : Imm) = .i32 x) ∧
    (aluProm { d := rA 1, a := rS 2, fmt := .i64 }).typeOk = true ∧ (aluProm { d := rV 1, a := rA 2 }).typeOk = true ∧
    Fmt.packed .f16x2 = true := by exact ⟨⟨_, rfl⟩, ⟨_, rfl⟩, by decide +kernel⟩

/-- SEL under a predicate and under s[C], into V and into S. -/
theorem wit_SelectAndClassMoves_sel :
    Meets mk (selNeed { v3 .i64 with c := rK 1 }) { len := .w3 } (fun _ => True) ∧
    Meets mk (selNeed { v3 .i32 with c := rS 31 }) { len := .w3 } (fun e => e.f.sreg 31 = 0) ∧
    Meets (mk (f := sr [(7, 1)])) (selNeed { h := { len := .w3 }, fmt := .i32, d := rS 4, a := rS 1, b := .reg (rS 2), c := rS 7 }) { len := .w3 }
      (fun e => e.f.sreg 7 ≠ 0) :=
  ⟨meets (by decide +kernel), meets (by decide +kernel), meets (by decide +kernel)⟩

/-- Lane M of the lowest index among the active lanes, where indices fall with the lanes. -/
theorem wit_SelectAndClassMoves_demv :
    let s := mkN 2 fun p => { p with lanes := [(0, some 5), (63, some 2)] }
    Meets s (demvNeed { fmt := .i32, d := rS 4, a := rV 1 }) {} (fun e => Lowest e (e.p.active {}) 63) := by
  obtain ⟨e, h1, h2⟩ := meets (s := mkN 2 fun p => { p with lanes := [(0, some 5), (63, some 2)] })
    (n := demvNeed { fmt := .i32, d := rS 4, a := rV 1 }) (h := {})
    (P := fun e => e.p.active {} = [0, 63] ∧ e.p.fid 0 = 5 ∧ e.p.fid 63 = 2) (by decide +kernel)
  refine ⟨e, h1, ?_⟩
  obtain ⟨ha, h0, h63⟩ := h2
  refine ⟨ha ▸ by decide, ?_, ?_⟩
  all_goals rw [ha]; simp [h0, h63]

theorem wit_SelectAndClassMoves_parts : Meets mk (partNeed { d := rS 4, a := rA 0 }) {} (fun e => e.f.areg 0 = (0, 1)) :=
  meets (by decide +kernel)

/-- DEMA over two fibres and over one. -/
theorem wit_SelectAndClassMoves_dema :
    Meets (mkN 2) (demaNeed { fmt := .i64, d := rA 4, a := rV 2, x10 := 15 }) {} (fun e => e.p.active {} = [0, 1] ∧ e.p.fid 0 < e.p.fid 1) ∧
    Meets mk (demaNeed { fmt := .u64, sub := 1, d := rA 4, a := rV 2 }) {} (fun e => e.p.active {} = [0]) :=
  ⟨meets (by decide +kernel), meets (by decide +kernel)⟩

theorem wit_SpecialRegisters :
    Meets mk (sreadNeed { x10 := 0x42, d := rS 4 }) {} (fun _ => True) ∧ Meets mk (sreadNeed { x10 := 0x43, d := rV 4 }) {} (fun _ => True) ∧
    Meets (mk (inHandler .save)) (sreadNeed { x10 := 0x64, d := rV 4 }) {} (fun e => e.p.privileged = true) ∧
    Meets (mk (inHandler .save)) (swriteNeed { x10 := 0x40, a := rS 4 }) {} (fun _ => True) ∧
    Meets (mk (inHandler .restore)) (swriteNeed { x10 := 0x50, a := rV 4 }) {} (fun e => e.p.active {} = [0]) ∧
    Meets (mk (inHandler .save)) (swriteNeed { x10 := 0x00, a := rS 4 }) {} (fun _ => True) :=
  ⟨meets (by decide +kernel), meets (by decide +kernel), meets (by decide +kernel), meets (by decide +kernel), meets (by decide +kernel),
    meets (by decide +kernel)⟩

/-- SEGLD with no active lane, with a bad pair (base 2^52) and with the largest good one. -/
theorem wit_SegmentLoad :
    let o : Ops := { x10 := 4, a := rS 4, b := .reg (rS 5) }
    Meets (mk (inHandler .save)) (segldNeed { o with h := { gp := 1 } }) { gp := 1 } (fun e => e.p.active { gp := 1 } = []) ∧
    Meets (mk (inHandler .save) (f := sr [(4, 0x10000000000000)])) (segldNeed o) {} (fun e => e.p.active {} ≠ [] ∧ 2 ^ 52 ≤ (e.f.sreg 4).toNat) ∧
    Meets (mk (inHandler .save) (f := sr [(4, 0), (5, 0xE010000000000000)])) (segldNeed o) {}
      (fun e => e.p.active {} ≠ [] ∧ (e.f.sreg 5).extractLsb' 53 8 = 0 ∧ (e.f.sreg 4).toNat + ((e.f.sreg 5).extractLsb' 0 53).toNat = 2 ^ 52) ∧
    Meets (mk (inHandler .save) (f := sr [(5, 0x1000)])) (segldNeed { o with x10 := 1 }) {}
      (fun e => e.p.active {} ≠ [] ∧ e.f.sreg 4 = 0 ∧ ((e.f.sreg 5).extractLsb' 0 53).toNat = e.t.salloc) :=
  ⟨meets (by decide +kernel), meets (by decide +kernel), meets (by decide +kernel), meets (by decide +kernel)⟩
/-! ## Floating point -/

/-- A tie, an integer, an overflow and an infinity. -/
theorem wit_Rounding : (0 < 2 ∧ ¬ 2 ∣ 5 ∧ 2 ∣ 6) ∧ Mag.lt (Mag.ofScaled 1 200) ⟨2 ^ 201, 1⟩ = true ∧ FF.f32 ≠ .e4m3 ∧
    Mag.le ⟨1, 1⟩ ⟨3, 2⟩ = true ∧ FF.f32.decode 0x3F800000 = .fin false ⟨2 ^ 23, 2 ^ 23⟩ := by decide +kernel

/-- Operands of every kind. -/
theorem wit_FloatArithmetic : FF.f32.read false 0x7FC00000 = .nan ∧ FF.f32.read false 0x7F800000 = .inf false ∧ FF.f32.read false 0xFF800000 = .inf true ∧
    FF.f32.read false 0x80000000 = .fin true ⟨0, 2 ^ 149⟩ ∧ FF.f32.read false 0x3F800000 = .fin false ⟨2 ^ 23, 2 ^ 23⟩ ∧
    FF.f32.read false 0xBF800000 = .fin true ⟨2 ^ 23, 2 ^ 23⟩ ∧
    FF.f32.decode 0x7FC00000 = .nan ∧ FF.f32.decode 0xFFFFFFFF = .nan ∧ FF.f32.decode 0x7F7FFFFF ≠ .nan ∧ 0xFFFFFFFF < 2 ^ FF.f32.bits := by decide +kernel

theorem wit_Conversions : 0 < 8 ∧ FF.f16.decode 0x7E00 = .nan ∧ FF.f16.decode 0xFC00 = .inf true ∧ 0xFFFF < 2 ^ FF.f16.bits := by decide +kernel

theorem wit_SpecialInputs : FF.bf16 ∈ [FF.f32, FF.f16, FF.bf16] ∧ FF.bf16.decode 0x7FC0 = .nan ∧
    FF.f32.read false 0xBF800000 = .fin true ⟨2 ^ 23, 2 ^ 23⟩ ∧ (2 : Nat) ^ 23 ≠ 0 := by decide +kernel

theorem wit_PackedOperations : Fmt.inRange .i16x2 6 9 = true ∧ Fmt.inRange .u8x4 6 9 = true ∧ Fmt.count .u8x4 = 4 := by decide +kernel
/-! ## Lanes, predicates, flags -/

/-- The smallest and the largest group. -/
theorem wit_Shuffle : Instr.legal (.shuf { v2 .raw with x10 := 6 }) = true ∧ Instr.legal (.shuf { v2 .i64 with sub := 2, x10 := 16 + 6 }) = true ∧
    Meets mk (shufNeed { v2 .raw with x10 := 6 }) {} (fun _ => True) ∧ Meets mk (shufNeed { v2 .i64 with sub := 2, x10 := 16 + 6 }) {} (fun _ => True) :=
  ⟨by decide +kernel, by decide +kernel, meets (by decide +kernel), meets (by decide +kernel)⟩

/-- The bounds of the operations 3 to 8, 0 to 2 and 9, into V and S. -/
theorem wit_Reduce : let l : List Ops := [{ v1 .i32 with sub := 3 }, { v1 .u64 with sub := 8 }, { v1 .i32 with d := rS 1, sub := 3 },
      { v1 .i64 with d := rS 31, sub := 8 }, v1 .f32, { v1 .f16x2 with sub := 2 }, { v1 .f32 with d := rS 1, sub := 2 }, { v1 .f32 with sub := 9 }]
    (l.all fun o => Instr.legal (.red o)) = true ∧ ∀ o ∈ l, Meets mk (redNeed o) o.h (fun e => e.p.active o.h = [0]) :=
  ⟨by decide +kernel, meets_all (by decide +kernel)⟩

theorem wit_Scan : let l : List Ops := [{ v1 .i32 with sub := 3 }, { v1 .u64 with sub := 8, x10 := 1 }, v1 .f32, { v1 .bf16x2 with sub := 2 }]
    (l.all fun o => Instr.legal (.scan o)) = true ∧ ∀ o ∈ l, Meets mk (scanNeed o) o.h (fun e => e.p.active o.h = [0]) :=
  ⟨by decide +kernel, meets_all (by decide +kernel)⟩

/-- Each form of the predicate instructions. -/
theorem wit_PredicatesAndFlags :
    (∀ o ∈ ([{ d := rK 1, a := rK 0 }, { sub := 2, d := rS 4, a := rK 15 }] : List Ops), Meets mk (voteNeed o) o.h fun e => e.p.active o.h = [0]) ∧
    (∀ o ∈ ([{ d := rS 1, a := rK 0 }, { d := rV 254, a := rK 15 }] : List Ops), Meets mk (ballotNeed o) o.h fun _ => True) ∧
    (∀ o ∈ ([{ d := rS 1, a := rK 0 }, { d := rV 255, sub := 1, a := rK 15 }] : List Ops), Meets mk (pcntNeed o) o.h fun _ => True) ∧
    (∀ o ∈ ([{ d := rK 1, a := rK 0, x10 := 0x3F }, { d := rK 15, sub := 3, a := rK 15 }] : List Ops), Meets mk (plogNeed o) o.h fun _ => True) ∧
    Meets mk (pnotNeed { d := rK 1, a := rK 0 }) {} (fun _ => True) ∧
    ∀ o ∈ ([{ d := rK 1, a := rK 0 }, { sub := 1, d := rV 4 }, { sub := 2, d := rK 1, a := rV 3, x10 := 31 }, { sub := 3, a := rV 3 }] : List Ops),
      Meets mk (pmovNeed o) o.h fun _ => True :=
  ⟨meets_all (by decide +kernel), meets_all (by decide +kernel), meets_all (by decide +kernel), meets_all (by decide +kernel), meets (by decide +kernel),
    meets_all (by decide +kernel)⟩

/-- FLAGR, and FLAGC and FLAGA with and without an active lane. -/
theorem wit_PredicatesAndFlags_flags : Meets mk (flagrNeed { d := rS 4 }) {} (fun _ => True) ∧ Meets mk (flagrNeed { d := rV 4 }) {} (fun _ => True) ∧
    Meets mk (flagmNeed { b := .imm (.i18 63) }) {} (fun e => e.p.active {} ≠ []) ∧
    Meets mk (flagmNeed { h := { gp := 2 }, b := .reg (rS 3) }) { gp := 2 } (fun e => e.p.active { gp := 2 } = []) :=
  ⟨meets (by decide +kernel), meets (by decide +kernel), meets (by decide +kernel), meets (by decide +kernel)⟩
/-! ## Control -/

/-- A load that fills varying register r of posy 0. -/
def pendingV (r : Nat) : LoadOp := { seq := 0, uid := 0, dcls := .v, dst := r, count := 1, kind := .plain 4 .raw, lanes := [] }
def loads (l : List LoadOp) (t : Team) : Team := { t with loads := l }
def spn (n : Nat) (t : Team) : Team := { t with spn := SegReg.make 0x100000 n true true true }
/-- Predicate 1 of lane 0 is true. -/
def pred1 (p : Posy) : Posy := { p with preds := [(0, 2)] }

theorem wit_PlainJumps :
    Meets mk {} {} (fun _ => True) ∧ Meets mk (jmpNeed { b := .imm (.i18 0x20000) }) {} (fun _ => True) ∧
    Meets (mk (f := sr [(4, 0xFFFFFFFFFFFFC)])) (jmpNeed { b := .reg (rS 4) }) {} (fun e => GoodTarget (e.f.sreg 4)) ∧
    Meets (mk (f := sr [(4, 0x10000000000000)])) (jmpNeed { b := .reg (rS 4) }) {} (fun e => ¬GoodTarget (e.f.sreg 4)) ∧
    Meets (mk (f := sr [(4, 1)])) (jmpNeed { b := .reg (rS 4) }) {} (fun e => ¬GoodTarget (e.f.sreg 4)) ∧
    Meets (mk (f := sr [(4, 1)])) { type := (rS 4).cls == .s, regs := [opdUse (rS 4) 1 1 false] } {} (fun e => e.f.sreg 4 ≠ 0) ∧
    Meets mk { type := (rS 31).cls == .s, regs := [opdUse (rS 31) 1 1 false] } {} (fun e => e.f.sreg 31 = 0) :=
  ⟨meets (by decide +kernel), meets (by decide +kernel), meets (by decide +kernel), meets (by decide +kernel), meets (by decide +kernel),
    meets (by decide +kernel), meets (by decide +kernel)⟩

/-- A BR on predicate 1: one destination; a split whose records just fit, and that is one byte too large. -/
theorem wit_Branches_br : let n : Need := { ban := true, regs := [guardUse { gp := 1 }] }
    Meets (mkN 2) n {} (fun e => (e.p.present.all fun L => !e.p.guard 1 false L) = true) ∧
    Meets (mkN 2 pred1 (spn (768 + (64 + 16 + 128 + 2048)))) n {} (fun e => e.p.present = [0, 1] ∧ e.p.guard 1 false 0 = true ∧ e.p.guard 1 false 1 = false ∧
      e.t.spawnUsed + (recBytes 1 e.p.alloc + 768) ≤ e.t.spn.limit) ∧
    Meets (mkN 2 pred1 (spn (recBytes 1 256 + 767))) n {} (fun e => e.p.present.countP (e.p.guard 1 false) = 1 ∧
      e.t.spn.limit < e.t.spawnUsed + (recBytes 1 e.p.alloc + (if e.f.spawned then 0 else 768)) ∧ branchTo e (.i18 9) ≠ nextPc e .w2) :=
  ⟨meets (by decide +kernel), meets (by decide +kernel), meets (by decide +kernel)⟩

/-- A BR4 whose pairs send the two fibres to two places. -/
theorem wit_Branches_br4 : let o : Br4Ops := { p0 := 1, p1 := 15, neg := 2 }
    Meets (mkN 2 pred1 (spn 0x40000)) { ban := true, regs := (List.range 4).map fun i => { sp := .p, n := (br4Pred o i).toNat } } { len := .w4, y := o.y }
      (fun e => e.p.present = [0, 1] ∧ (e.p.pred 1 0 && !e.p.pred 1 1 && !e.p.pred 15 1) = true ∧
        e.t.spawnFits (frameBytes + 64 * recBytes 64 e.p.alloc) = false) ∧
    Meets (mkN 2 pred1 (spn 0x1000000)) { ban := true, regs := (List.range 4).map fun i => { sp := .p, n := (br4Pred o i).toNat } } { len := .w4, y := o.y }
      (fun e => e.t.spawnFits (frameBytes + 64 * recBytes 64 e.p.alloc) = true ∧ fibPending (mkN 2 pred1 (spn 0x1000000)) e e.p.present = false) :=
  ⟨meets (by decide +kernel), meets (by decide +kernel)⟩

/-- CALL and CALLI that slide by 2 and by 254, to a good and to a bad target. -/
theorem wit_CallsAndReturns_calls :
    (∀ n ∈ ([2, 254] : List (BitVec 8)), let o : Ops := { d := rS n, b := .imm (.i18 256) }
      Instr.legal (.call o) = true ∧ Meets mk { type := o.d.cls == .s, regs := [linkRegs o], regOk := slideFits o } o.h (fun _ => True)) ∧
    (let o : Ops := { d := rS 16, a := rS 4 }
     Instr.legal (.calli o) = true ∧
     Meets (mk (f := sr [(4, 0x20000)])) { type := o.d.cls == .s && o.a.cls == .s, regs := [linkRegs o, opdUse o.a 1 1 false], regOk := slideFits o } o.h
       (fun e => GoodTarget (e.f.sreg 4)) ∧
     Meets (mk (f := sr [(4, 2)])) { type := o.d.cls == .s && o.a.cls == .s, regs := [linkRegs o, opdUse o.a 1 1 false], regOk := slideFits o } o.h
       (fun e => ¬GoodTarget (e.f.sreg 4))) := by
  refine ⟨?_, by decide +kernel, meets (by decide +kernel), meets (by decide +kernel)⟩
  intro n hn
  have h : n = 2 ∨ n = 254 := by simpa using hn
  obtain rfl | rfl := h
  · exact ⟨by decide +kernel, meets (by decide +kernel)⟩
  · exact ⟨by decide +kernel, meets (by decide +kernel)⟩

/-- A RET at window base 2 with a good link, with a count of zero, with one above the base, and with a misaligned return address. -/
theorem wit_CallsAndReturns_ret : ∀ x ∈ ([(0x10010, 0x200000, false, true), (0x10010, 0, true, true), (0x10010, 0x400000, true, true), (0x10012, 0x200000, false, false)] :
      List (W32 × W32 × Bool × Bool)),
    Meets (mk fun p => { p with wbase := 2, v := [(0, x.1), (64, x.2.1)] }) { regOk := fun e => decide (2 ≤ e.p.wbase), ban := true } {}
      (fun e => lowPends e (e.p.wbase - 2) 2 = false ∧ e.p.present = [0] ∧
        (let hi := e.p.reg (e.p.wbase - 1) 0
         let c := (hi.extractLsb' 20 8).toNat
         (decide (hi.extractLsb' 28 4 ≠ 0 ∨ c % 2 = 1 ∨ c < 2 ∨ e.p.wbase < c) = x.2.2.1) ∧
         decide (((hi.extractLsb' 0 20) ++ e.p.reg (e.p.wbase - 2) 0).toNat % 4 = 0) = x.2.2.2)) := meets_all (by decide +kernel)

def otherJoins : Tab (Option JoinRec) := (List.range 4).map fun k => (k, some { pc := 4 * k })

/-- At a join: the holder itself; four other joins; no join yet, and four records with room in the last; and a waiting holder. -/
theorem wit_Joins :
    Meets (mk fun p => { p with joining := true }) { ban := true } {} (fun e => e.p.joining = true) ∧
    Meets (mk (f := fun f => { f with joins := otherJoins })) { ban := true } {} (fun e => e.p.joining = false ∧
      ∀ k ∈ List.range 4, (e.f.join k).map (·.pc) ≠ some e.p.pc ∧ (e.f.join k).isSome = true) ∧
    Meets (mk (f := fun f => { f with joins := otherJoins.take 3 })) { ban := true } {} (fun e => e.p.joining = false ∧ e.slot < 22 ∧
      (∀ k ∈ List.range 4, (e.f.join k).map (·.pc) ≠ some e.p.pc) ∧ (e.f.join 3).isNone = true) ∧
    Meets (mk (f := fun f => { f with joins := [(3, some { pc := 0x10000, holder := some 21 })] })) { ban := true } {} (fun e => e.p.joining = false ∧
      e.f.join 3 = some { pc := e.p.pc, open_ := true, holder := some 21 } ∧ ∀ k ∈ List.range 3, (e.f.join k).isNone = true) ∧
    Meets (mk (f := sr [(4, 100)])) { jmpNeed { b := .reg (rS 4) } with ban := true } {} (fun e => e.p.joining = false) ∧
    Meets mk { jmpNeed { b := .imm (.i18 0x1FFFF) } with ban := true } {} (fun e => e.p.joining = false) :=
  ⟨meets (by decide +kernel), meets (by decide +kernel), meets (by decide +kernel), meets (by decide +kernel), meets (by decide +kernel), meets (by decide +kernel)⟩

/-- FORK of 0, of 1024 beside a live fibre, of 1023 without and with room for its records. -/
theorem wit_Forks : ∀ x ∈ ([(0, 0x800000, 0), (1024, 0x800000, 0), (1023, 0x1000, 1), (1023, 0x800000, 2)] : List (Nat × Nat × Nat)),
    Meets (mk (p := fun p => { p with alloc := 8 }) (t := spn x.2.1) (f := sr [(5, b64 x.1)])) { type := true, regs := [opdUse (rS 4) 1 1 true, opdUse (rS 5) 1 1 false], full := true, ban := true } {}
      (fun e =>
        let c := (e.f.sreg 5).toNat
        let sizes := (List.range ((c + 63) / 64)).map fun k => recBytes (min 64 (c - 64 * k)) e.p.alloc
        let bad := c = 0 ∨ 1024 < c ∨ 1024 < e.t.liveFibres + c ∨ 65535 < e.t.nextFid + c
        if x.2.2 = 0 then bad else ¬bad ∧ if x.2.2 = 1 then e.t.spn.limit < e.t.spawnUsed + (768 + sizes.sum) else e.t.spawnUsed + (768 + sizes.sum) ≤ e.t.spn.limit) :=
  meets_all (by decide +kernel)

/-- EXIT (and TRAP, BRK) of no fibre, of every fibre, and of one of two. -/
theorem wit_ExitTrapBreak :
    Meets mk { ban := true } { gp := 1 } (fun e => e.p.active { gp := 1 } = []) ∧
    Meets mk { ban := true } {} (fun e => e.p.active {} ≠ [] ∧ e.f.refs ≤ (e.p.active {}).length ∧ ∀ L ∈ e.p.present, L ∈ e.p.active {}) ∧
    Meets (mkN 2 pred1) { ban := true } { gp := 1 } (fun e => e.p.active { gp := 1 } = [0] ∧ e.f.refs = 2 ∧ ∃ L ∈ e.p.present, L ∉ e.p.active { gp := 1 }) ∧
    Meets mk {} { gp := 1 } (fun e => e.p.active { gp := 1 } = []) ∧ Meets mk {} {} (fun e => e.p.active {} ≠ []) :=
  ⟨meets (by decide +kernel), meets (by decide +kernel), meets (by decide +kernel), meets (by decide +kernel), meets (by decide +kernel)⟩

/-- The state with posies of 256 registers in `n` further slots of the same bay. -/
def crowded (n : Nat) (s : State) : State :=
  (List.range n).foldl (fun s i => match s.posy 0 with | some p => s.setPosy (4 * i + 4) (some { p with alloc := 256, uid := i + 1 }) | none => s) s

/-- XACQ of 8: beyond 256 registers; up to 256; in a bay with exactly 8 registers left and with none; behind an earlier attempt. -/
theorem wit_RegisterBlocks_xacq :
    Meets mk {} {} (fun e => 256 < e.p.alloc + 8) ∧
    Meets (mk fun p => { p with alloc := 248 }) {} {} (fun e => e.p.alloc + 8 ≤ 256 ∧
      8 + (if e.slot < 22 then bayReserve (mk fun p => { p with alloc := 248 }) e.core (e.slot % 4) else 0) ≤ bayFree (mk fun p => { p with alloc := 248 }) e.core (e.slot % 4) ∧
      earlierXacq (mk fun p => { p with alloc := 248 }) e (e.p.xseq.getD ((mk fun p => { p with alloc := 248 }).core e.core).xseq) = false) ∧
    Meets (crowded 7 (mk fun p => { p with alloc := 248 })) {} {} (fun e => e.p.alloc + 8 ≤ 256 ∧
      bayFree (crowded 7 (mk fun p => { p with alloc := 248 })) e.core (e.slot % 4) < 8) ∧
    (let s := (mk fun p => { p with alloc := 8, xseq := some 5 }).setPosy 4 (some { uid := 1, team := 0, frame := 0, pc := 0, xseq := some 4 })
     Meets s {} {} (fun e => e.p.alloc + 8 ≤ 256 ∧ earlierXacq s e (e.p.xseq.getD (s.core e.core).xseq) = true)) :=
  ⟨meets (by decide +kernel), meets (by decide +kernel), meets (by decide +kernel), meets (by decide +kernel)⟩

/-- XREL of 8: with 15 and with 16 registers, the top ones free and pending. -/
theorem wit_RegisterBlocks_xrel :
    Meets (mk fun p => { p with alloc := 15 }) {} {} (fun e => e.p.alloc < 8 + 8) ∧
    Meets (mk fun p => { p with alloc := 16 }) {} {} (fun e => 8 + e.p.wbase < e.p.alloc ∧ 8 + 8 ≤ e.p.alloc ∧ topPends (mk fun p => { p with alloc := 16 }) e 8 = false) ∧
    Meets (mk (fun p => { p with alloc := 16 }) (loads [pendingV 15])) {} {} (fun e => 8 + e.p.wbase < e.p.alloc ∧ 8 + 8 ≤ e.p.alloc ∧
      topPends (mk (fun p => { p with alloc := 16 }) (loads [pendingV 15])) e 8 = true) :=
  ⟨meets (by decide +kernel), meets (by decide +kernel), meets (by decide +kernel)⟩

/-- REP of an ADD whose last repeat writes register 255, and one whose last repeat passes it; and its last repeat. -/
theorem wit_Repeats : ∀ x ∈ ([(3, none, true), (4, none, false), (3, some 3, true)] : List (BitVec 6 × Option Nat × Bool)),
    let o : RepOps := { cnt := x.1, dstep := 1, body := .reg 0x20 { fmt := .i32, d := rV 252, a := rV 0, b := .reg (rV 1) } }
    let k := x.2.1.getD 0
    Body.instr (repBody o k) = some (.add { fmt := .i32, d := rV (252 + BitVec.ofNat 8 k), a := rV 0, b := .reg (rV 1) }) ∧
    (aluAdd { fmt := .i32, d := rV (252 + BitVec.ofNat 8 k), a := rV 0, b := .reg (rV 1) }).need.type = true ∧
    Meets (mk fun p => { p with rep := x.2.1 }) (aluAdd { fmt := .i32, d := rV (252 + BitVec.ofNat 8 k), a := rV 0, b := .reg (rV 1) }).need {}
      (fun e => e.p.rep.getD 0 = k ∧ repInRange o e = x.2.2) := by
  intro x hx
  simp only [List.mem_cons, List.not_mem_nil, or_false] at hx
  obtain rfl | rfl | rfl := hx
  all_goals exact ⟨by decide +kernel, by decide +kernel, meets (by decide +kernel)⟩
/-! ## Memory -/

/-- The instruction passes its checks, and P holds of its access. -/
def accessReady (s : State) (i : Instr) (P : Env → MemOps → AccKind → Bool) : Bool :=
  match memAccess i, curEnv s with
  | some (o, n, k), some e => passB s e n o.h && P e o k
  | _, _ => false

theorem accessReady_spec {s : State} {i : Instr} {P : Env → MemOps → AccKind → Bool} (h : accessReady s i P = true) :
    ∃ o n k, memAccess i = some (o, n, k) ∧ Meets s n o.h fun e => P e o k = true := by
  unfold accessReady at h
  cases ha : memAccess i with
  | none => simp [ha] at h
  | some x =>
    refine ⟨x.1, x.2.1, x.2.2, rfl, meets ?_⟩
    cases he : curEnv s with
    | none => simp [ha, he] at h
    | some e => simpa [ha, he] using h

def m4 (sub : BitVec 4) (f : Fmt) : MemOps := { sub := sub, fmt := f, a := rS 4 }
def accesses (seg : Seg) : List Instr :=
  [.ld { m4 2 .i32 with d := rV 8, ord := .acq, seg := seg }, .st { m4 3 .i64 with b := .reg (rS 5), ord := .rel, seg := seg },
   .ldsx { m4 2 .f32 with d := rV 8, b := .reg (rS 5), seg := seg }, .atom { m4 0 .u32 with d := rV 8, b := .reg (rV 9), seg := seg },
   .acc { m4 0 .f32 with b := .reg (rV 9), seg := seg }, .sigadd { m4 0 .raw with b := .imm (.i18 1), seg := seg },
   .sigwait { m4 0 .raw with b := .imm (.i18 0), seg := seg }, .ctwait { m4 0 .raw with b := .reg (rS 5), seg := .scr }]

/-- Every kind of access, one byte beyond its segment, and misaligned in it. -/
theorem wit_AccessChecks :
    ((accesses .glb).all fun i => accessReady (mk (f := sr [(4, 0xFFFFFFFD)])) i fun e o k => decide (¬AllAdmitted e o k (e.p.active o.h))) = true ∧
    ((accesses .glb).all fun i => accessReady (mk (f := sr [(4, 0x101)])) i fun e o k =>
      decide (AllAdmitted e o k (e.p.active o.h) ∧ ¬Clear e o k (e.p.active o.h))) = true ∧
    (([.drain (m4 0 .raw), .bfree (m4 0 .raw)] : List Instr).all fun i => accessReady (mk (f := sr [(4, 0x100000000)])) i fun e o k =>
      decide (¬AllAdmitted e o k (e.p.active o.h))) = true := by decide +kernel

def top (n : Nat) : State := mk (f := sr [(4, b64 (2 ^ 32 - n))])

/-- LD without lanes into V and into S (a frame of no fibre), and of 1 and of 16 bytes at the top of the segment. -/
theorem wit_Loads :
    (Instr.legal (.ld { m4 0 .raw with d := rV 8 }) && Instr.legal (.ld { m4 4 .raw with d := rV 252, ord := .acq }) && Instr.legal (.ld { m4 3 .i64 with d := rS 8 })) = true ∧
    Meets mk (ldNeed { m4 0 .raw with d := rV 8 }) { len := .w3, gp := 1 } (fun e => e.p.active { len := .w3, gp := 1 } = []) ∧
    Meets (mk (f := fun f => { f with refs := 0 })) (ldNeed { m4 3 .i64 with d := rS 8 }) { len := .w3, gp := 1 } (fun e => e.p.active { len := .w3, gp := 1 } = []) ∧
    Meets (top 1) (ldNeed { m4 0 .raw with d := rV 8 }) { len := .w3 } (fun e => e.p.active { len := .w3 } ≠ [] ∧
      Clear e { m4 0 .raw with d := rV 8 } { size := 1, r := true } (e.p.active { len := .w3 })) ∧
    Meets (top 16) (ldNeed { m4 4 .raw with d := rV 252, ord := .acq }) { len := .w3 } (fun e => e.p.active { len := .w3 } ≠ [] ∧
      Clear e { m4 4 .raw with d := rV 252, ord := .acq } { size := 16, r := true, align := 16 } (e.p.active { len := .w3 })) ∧
    Meets (top 8) (ldNeed { m4 3 .i64 with d := rS 8 }) { len := .w3 } (fun e => e.p.active { len := .w3 } ≠ [] ∧
      Clear e { m4 3 .i64 with d := rS 8 } { size := 8, r := true } (e.p.active { len := .w3 })) :=
  ⟨by decide +kernel, meets (by decide +kernel), meets (by decide +kernel), meets (by decide +kernel), meets (by decide +kernel), meets (by decide +kernel)⟩

/-- ST without lanes, of a lane register to its own address, and of two lanes to one address, at the top of the segment. -/
theorem wit_Stores : let o : MemOps := { m4 2 .i32 with b := .reg (rV 8) }
    (Instr.legal (.st o) && Instr.legal (.st { m4 4 .raw with a := rV 6, b := .reg (rV 8), ord := .rel })) = true ∧
    Meets mk (stNeed o) { len := .w3, gp := 1 } (fun e => e.p.active { len := .w3, gp := 1 } = []) ∧
    (let s := mkN 2 (f := sr [(4, 0xFFFFFFFC)])
     Meets s (stNeed o) { len := .w3 } (fun e => Clear e o { size := 4, w := true } (e.p.active { len := .w3 }) ∧ (e.p.active { len := .w3 }).getLast? = some 1)) ∧
    (let s := mk fun p => { p with v := [(64 * 6, 0xFFFFFFF0)] }
     let o : MemOps := { m4 4 .raw with a := rV 6, b := .reg (rV 8), ord := .rel }
     Meets s (stNeed o) { len := .w3 } (fun e => e.p.active { len := .w3 } ≠ [] ∧ Clear e o { size := 16, w := true, align := 16 } (e.p.active { len := .w3 }))) :=
  ⟨by decide +kernel, meets (by decide +kernel), meets (by decide +kernel), meets (by decide +kernel)⟩

/-- LDSX without and with lanes; STSX without lanes, at a SEG, an ALIGN and a completing address. -/
theorem wit_BlockAccesses :
    let o : MemOps := { m4 2 .f32 with d := rV 8, b := .reg (rV 9), x10 := 3 }
    let q : MemOps := { m4 0 .f32 with b := .reg (rV 8), x10 := 3 }
    let h : Hdr := { len := .w3 }
    let at_ := fun (e : Env) => (e.t.seg q.seg).addr + (offset e q false 0 + (0 : Nat)).toNat
    let ok := fun (e : Env) => Admits (e.t.seg q.seg) (offset e q false 0 + (0 : Nat)) { size := SxFmt.blockBytes .sx2, w := true }
    (Instr.legal (.ldsx o) && Instr.legal (.stsx q)) = true ∧
    Meets mk (ldsxNeed o) { h with gp := 1 } (fun e => e.p.active { h with gp := 1 } = []) ∧
    Meets (top 296) (ldsxNeed o) h (fun e => e.p.active h ≠ [] ∧ Clear e o { size := SxFmt.blockBytes .sx7, r := true, align := 8 } (e.p.active h)) ∧
    Meets mk (stsxNeed q) { h with gp := 1 } (fun e => e.p.active { h with gp := 1 } = []) ∧
    Meets (top 135) (stsxNeed q) h (fun e => e.p.active h = [0] ∧ ¬ok e) ∧
    Meets (top 140) (stsxNeed q) h (fun e => e.p.active h = [0] ∧ ok e ∧ at_ e % 8 ≠ 0) ∧
    Meets (top 136) (stsxNeed q) h (fun e => e.p.active h = [0] ∧ ok e ∧ at_ e % 8 = 0) :=
  ⟨by decide +kernel, meets (by decide +kernel), meets (by decide +kernel), meets (by decide +kernel), meets (by decide +kernel), meets (by decide +kernel),
    meets (by decide +kernel)⟩

/-- ATOM into V, into S and without a return; CAS; ACC. -/
theorem wit_Atomics : let l : List MemOps := [{ m4 0 .u32 with d := rV 8, b := .reg (rV 9) }, { m4 2 .i64 with d := rS 8, b := .reg (rS 9) },
      { m4 1 .f32 with b := .reg (rV 9), x10 := 1 }, { m4 10 .u32 with d := rV 8, b := .reg (rV 9) }]
    let q : MemOps := { m4 0 .f32 with b := .reg (rV 9), ord := .rel }
    (l.all fun o => Instr.legal (.atom o)) = true ∧ Instr.legal (.acc q) = true ∧
    (∀ o ∈ l, Meets (top 8) (atomNeed o) o.h fun e => e.p.active o.h ≠ [] ∧
      Clear e o { size := if Fmt.wide o.fmt then 8 else 4, r := true, w := true, align := if Fmt.wide o.fmt then 8 else 4 } (e.p.active o.h)) ∧
    Meets (top 4) (accNeed q) q.h (fun e => e.p.active q.h ≠ [] ∧ Clear e q { size := 4, r := true, w := true, align := 4 } (e.p.active q.h)) :=
  ⟨by decide +kernel, by decide +kernel, meets_all (by decide +kernel), meets (by decide +kernel)⟩

def fenceReq (k : ReqKind) (fid : Nat) : Req := { seq := 0, kind := k, fids := [fid] }

/-- FENCE that issues, that waits for its request, and that goes on beside another fibre's; PREF; DRAIN and BFREE without and with lanes. -/
theorem wit_FencesAndRegions :
    Meets mk {} {} (fun e => e.p.phase = false) ∧
    Meets (mk (fun p => { p with phase := true }) (fun t => { t with reqs := [fenceReq .fence 0] })) {} {} (fun e => e.p.phase = true ∧
      ∃ r ∈ e.t.reqs, r.kind = .fence ∧ ∃ L ∈ e.p.present, e.p.fid L ∈ r.fids) ∧
    Meets (mk (fun p => { p with phase := true }) (fun t => { t with reqs := [fenceReq .fence 1] })) {} {} (fun e => e.p.phase = true ∧
      ∀ r ∈ e.t.reqs, r.kind = .fence → ∀ L ∈ e.p.present, e.p.fid L ∉ r.fids) ∧
    Meets mk { type := (rA 1).cls != .k, regs := [addrUse (rA 1)], priv := segPriv .glb } {} (fun _ => True) ∧
    Meets mk (regionNeed (m4 0 .raw)) { len := .w3, gp := 1 } (fun e => e.p.active { len := .w3, gp := 1 } = []) ∧
    Meets (top 1) (regionNeed (m4 0 .raw)) { len := .w3 } (fun e => e.p.active { len := .w3 } = [0] ∧
      Clear e (m4 0 .raw) { size := 1, r := true, w := true, dhi := false } (e.p.active { len := .w3 })) :=
  ⟨meets (by decide +kernel), meets (by decide +kernel), meets (by decide +kernel), meets (by decide +kernel), meets (by decide +kernel), meets (by decide +kernel)⟩

/-- BREG of 128 bytes at the top of the segment, of 127, of 256 there, and without lanes; of 2^34 bytes in a wide segment. -/
theorem wit_FencesAndRegions_breg : let o : MemOps := { m4 0 .raw with h := { len := .w4 }, d := rK 1, b := .reg (rS 5), w3 := 0x3F800000 }
    ∀ x ∈ ([(0xFFFFFF80, 128, 2 ^ 32, true, true), (0xFFFFFF80, 127, 2 ^ 32, true, false), (0xFFFFFF80, 256, 2 ^ 32, false, true), (0, 2 ^ 34, 2 ^ 34, true, true)] :
        List (Nat × Nat × Nat × Bool × Bool)),
      Meets (mk (f := sr [(4, b64 x.1), (5, b64 x.2.1)]) (t := fun t => { t with glb := SegReg.make 0 x.2.2.1 true true true })) (bregNeed o) o.h (fun e =>
        e.p.active o.h ≠ [] ∧ decide (Admits (e.t.seg o.seg) (offset e o false 0) { size := (e.f.sreg 5).toNat, r := true, w := true }) = x.2.2.2.1 ∧
        decide (address e o false 0 % 128 = 0 ∧ (e.f.sreg 5).toNat ≠ 0 ∧ (e.f.sreg 5).toNat % 128 = 0 ∧ (e.f.sreg 5).toNat ≤ 2 ^ 34) = x.2.2.2.2) :=
  meets_all (by decide +kernel)
/-! ## Copies, handles, kiln -/

/-- s[4] the source, s[5] the destination, s[8] to s[11] the bytes, rows and pitches of a copy. -/
def cpState (src dst rb rows sp dp : Nat) : State :=
  mk (f := sr [(4, b64 src), (5, b64 dst), (8, b64 rb), (9, b64 rows), (10, b64 sp), (11, b64 dp)])
def cpOps (two : Bool) (ds : Seg) (lc : Bool) (off : BitVec 19) : CpyOps × Bool := ({ d := rK 17, a := rS 4, b := rS 5, c := rS 8, dseg := ds, lc := lc, lcoff := off }, two)

/-- The bytes of the copy of `e`. -/
def cpShape (o : CpyOps) (two : Bool) (e : Env) : Shape :=
  let S := fun n => (e.f.sreg n).toNat
  let C := o.c.n.toNat
  ⟨S C, if two then S (C + 1) else 1, fun k => S o.a.n.toNat + (if two then k * S (C + 2) else 0), fun k => S o.b.n.toNat + (if two then k * S (C + 3) else 0)⟩

/-- The tests of CPY and CPY2D in their order: something to move; SEG; the counter's SEG, its ALIGN; the size; a byte that is source and destination. -/
def cpFacts (o : CpyOps) (two : Bool) (e : Env) : List Bool :=
  let g := cpShape o two e
  let ss := e.t.seg o.sseg
  let ds := e.t.seg o.dseg
  let lc := o.lcoff.toNat
  [decide (g.rb ≠ 0 ∧ g.rows ≠ 0), decide (g.inside g.src ss true false ∧ g.inside g.dst ds false true), !o.lc || decide (lc + 8 ≤ e.t.scr.limit),
   !o.lc || decide (lc % 8 = 0), decide (g.rb * g.rows ≤ 2 ^ 32),
   o.dseg == .scr || (List.range g.rows).all fun i => (List.range g.rows).all fun j =>
     !decide (ss.addr + g.src i < ds.addr + g.dst j + g.rb ∧ ds.addr + g.dst j < ss.addr + g.src i + g.rb)]

/-- A CPY and a CPY2D of each outcome: the test that fails first has the place given, or none fails. -/
theorem wit_Copies : ∀ x ∈ ([
    (cpOps false .glb false 0, (0, 0x1000, 0, 1, 0, 0), some 0), (cpOps true .glb false 0, (0, 0x1000, 128, 0, 0, 0), some 0),
    (cpOps false .glb false 0, (0xFFFFFFFF, 0x1000, 2, 1, 0, 0), some 1), (cpOps true .scr false 0, (0, 0xFFF, 1, 2, 0, 1), some 1),
    (cpOps false .glb true 0xFF9, (0, 0x1000, 1, 1, 0, 0), some 2), (cpOps false .glb true 0xFF4, (0, 0x1000, 1, 1, 0, 0), some 3),
    (cpOps true .glb true 0xFF8, (0, 0, 0x80000001, 2, 0, 0), some 4), (cpOps false .glb false 0, (0x1000, 0x107F, 0x80, 1, 0, 0), some 5),
    (cpOps false .glb false 0, (0x1000, 0x1080, 0x80, 1, 0, 0), none), (cpOps true .glb false 0, (0, 8, 8, 4, 16, 16), none),
    (cpOps true .scr true 0xFF8, (0, 0, 16, 4, 16, 32), none)] : List ((CpyOps × Bool) × (Nat × Nat × Nat × Nat × Nat × Nat) × Option Nat)),
    Meets (cpState x.2.1.1 x.2.1.2.1 x.2.1.2.2.1 x.2.1.2.2.2.1 x.2.1.2.2.2.2.1 x.2.1.2.2.2.2.2) (cpyNeed x.1.1 (if x.1.2 then 4 else 1)) x.1.1.h
      (fun e => (cpFacts x.1.1 x.1.2 e).findIdx? (!·) = x.2.2) := meets_all (by decide +kernel)

/-- A PUT of nothing, beyond its segment, with a misaligned counter, of 512 KiB and a byte, and of 512 KiB. -/
theorem wit_Copies_put : ∀ x ∈ ([(0, 0, 0, [false, true, true, true]), (0xFFFFFFFF, 2, 0, [true, false, true, true]), (0, 1, 4, [true, true, false, true]),
      (0, 524289, 0, [true, true, true, false]), (0, 524288, 8, [true, true, true, true])] : List (Nat × Nat × BitVec 19 × List Bool)),
    Meets (cpState x.1 0 x.2.1 0 0 0) (cpyNeed (cpOps false .glb true x.2.2.1).1 2) { len := .w4 } (fun e =>
      let g : Shape := ⟨(e.f.sreg 8).toNat, 1, fun _ => (e.f.sreg 4).toNat, fun _ => 0⟩
      [decide (g.rb ≠ 0), decide (g.inside g.src e.t.glb true false), decide (x.2.2.1.toNat % 8 = 0), decide (g.rb ≤ 524288)] = x.2.2.2) :=
  meets_all (by decide +kernel)

/-- A team with one command. -/
def cmd1 (h : HandleSt) (t : Team) : Team := { t with handles := [(1, some h)], nextTok := 2 }
def hr (l : Tab (BitVec 64)) (f : Frame) : Frame := { f with h := l }

/-- HWAIT and HTEST of the null handle, of a pending and of a finished one, into a predicate and a register. -/
theorem wit_Handles_wait : let o : Ops := { sub := 1, d := rK 1, a := rK 17 }
    let q : Ops := { sub := 2, d := rV 4, a := rK 31 }
    Meets mk (handleNeed o) {} (fun e => (e.f.hreg 1).toNat = 0) ∧ Meets (mk (f := hr [(15, 7)])) (handleNeed q) {} (fun e => e.t.handle (e.f.hreg 15).toNat = none) ∧
    Meets (mk (t := cmd1 { kind := .copy }) (f := hr [(1, 1)])) (handleNeed o) {} (fun e => e.t.handle (e.f.hreg 1).toNat = some { kind := .copy, status := 0 }) ∧
    Meets (mk (t := cmd1 { kind := .copy, status := 5 }) (f := hr [(15, 1)])) (handleNeed q) {} (fun e => e.t.handle (e.f.hreg 15).toNat = some { kind := .copy, status := 5 }) :=
  ⟨meets (by decide +kernel), meets (by decide +kernel), meets (by decide +kernel), meets (by decide +kernel)⟩

/-- HMOV and HCANCEL of the null handle and of a command; HADOPT of a token that is held already, and of one that is not. -/
theorem wit_Handles_move : let n : Need := { type := true, regs := [kUse .h 16 true, opdUse (rS 4) 1 1 true], full := true }
    let a : Need := { type := true, regs := [kUse .h 17 true, opdUse (rS 4) 1 1 false], full := true }
    let c : Need := { type := true, regs := [kUse .h 16 false], full := true }
    Meets mk n {} (fun e => (e.f.hreg 0).toNat = 0) ∧ Meets (mk (t := cmd1 { kind := .copy }) (f := hr [(0, 1)])) n {} (fun e => (e.f.hreg 0).toNat ≠ 0 ∧ e.t.handle 1 ≠ none) ∧
    Meets (mk (t := cmd1 { kind := .copy }) (f := fun f => sr [(4, 1)] (hr [(0, 1)] f))) a {} (fun e => ¬(e.f.sreg 4 ≠ 0 ∧ e.t.handle 1 ≠ none ∧ attached e.t 1 = false)) ∧
    Meets (mk (t := cmd1 { kind := .copy }) (f := sr [(4, 1)])) a {} (fun e => e.f.sreg 4 ≠ 0 ∧ e.t.handle (e.f.sreg 4).toNat ≠ none ∧ attached e.t (e.f.sreg 4) = false) ∧
    Meets mk c {} (fun e => (e.f.hreg 0).toNat = 0) ∧
    Meets (mk (t := cmd1 { kind := .copy, ready := true }) (f := hr [(0, 1)])) c {} (fun e => ∃ h ∈ e.t.handle (e.f.hreg 0).toNat, h.ready = true) ∧
    Meets (mk (t := fun t => { cmd1 { kind := .launch } t with reqs := [fenceReq (.append 1) 0] }) (f := hr [(0, 1)])) c {} (fun e =>
      (∃ h ∈ e.t.handle (e.f.hreg 0).toNat, h.status = 0 ∧ h.ready = false ∧ h.kind = .launch) ∧ ∃ r ∈ e.t.reqs, r.kind = .append 1) :=
  ⟨meets (by decide +kernel), meets (by decide +kernel), meets (by decide +kernel), meets (by decide +kernel), meets (by decide +kernel),
    meets (by decide +kernel), meets (by decide +kernel)⟩

/-- Macros of core 0. -/
def macros (l : Tab Macro) (s : State) : State := s.modCore 0 fun c => { c with macros := l }
def full16 : Tab Macro := (List.range 16).map fun m => (m, { st := .ready, tag := m + 10, team := 0 })

/-- The tests of KLOAD in their order: SEG, ALIGN, the tag, a tag that is held, and free macros. -/
def kloadFacts (o : KloadOps) (s : State) (e : Env) : List Bool :=
  let src := (e.f.sreg o.a.n.toNat).toNat
  let tag := (e.f.sreg o.b.n.toNat).toNat
  let c := s.core e.core
  let size := match o.sfmt with | .sx m => 63 * o.pitch.toNat + SxFmt.blockBytes m | f => 127 * o.pitch.toNat + 128 * SrcFmt.esize f
  let al := match o.sfmt with | .sx _ => 8 | f => SrcFmt.esize f
  [decide (Admits (e.t.seg o.sseg) src { size := size, r := true }), decide (src % al = 0), !e.p.privileged && decide (tag < 2 ^ 16),
   !((List.range 16).any fun m => (c.macro_ m).team == e.p.team && (c.macro_ m).tag == tag && (c.macro_ m).st == .ready),
   decide (o.nmac.toNat + 1 ≤ ((List.range 16).filter fun m => ((c.macro_ m).st == .empty || (c.macro_ m).st == .freeing) && (c.macro_ m).resv.isNone).length)]

theorem wit_KilnCommands_load : let o : KloadOps := { d := rK 18, a := rS 4, b := rS 5, pitch := 200, mfmt := .sx4, sfmt := .sx .sx4, nmac := 15 }
    let q : KloadOps := { o with sfmt := .f32, pitch := 512 }
    ∀ x ∈ ([(o, 0x100000000 - 63 * 200 - 199, 0, [], some 0), (o, 4, 0, [], some 1), (q, 2, 0, [], some 1), (o, 8, 2 ^ 16, [], some 2),
      (o, 8, 25, full16, some 3), (o, 8, 9, full16.take 1, some 4), (o, 0x100000000 - 63 * 200 - 200, 2 ^ 16 - 1, [], none)] : List (KloadOps × Nat × Nat × Tab Macro × Option Nat)),
      Meets (macros x.2.2.2.1 (mk (f := sr [(4, b64 x.2.1), (5, b64 x.2.2.1)]))) (kloadNeed x.1) x.1.h (fun e =>
        (kloadFacts x.1 (macros x.2.2.2.1 (mk (f := sr [(4, b64 x.2.1), (5, b64 x.2.2.1)]))) e).findIdx? (!·) = x.2.2.2.2) := meets_all (by decide +kernel)

/-- KTASK: SEG, ALIGN, in a handler, with a full ring, and with a place in it. -/
theorem wit_KilnCommands_task : let n : Need := { type := true, regs := [kUse .h 17 true, opdUse (rS 4) 1 1 false], full := true }
    let off := fun (e : Env) => ((e.f.sreg 4).toNat : Int) + memDisp { m4 0 .raw with seg := .scr } false
    let ok := fun (e : Env) => decide (Admits e.t.scr (off e) { size := 64, r := true })
    let ring := fun (k : Nat) (s : State) => s.modCore 0 fun c => { c with ring := (List.range k).map fun i => { team := 0, token := i, seq := i } }
    Meets (mk (f := sr [(4, 0xFC1)])) n {} (fun e => ok e = false) ∧ Meets (mk (f := sr [(4, 32)])) n {} (fun e => ok e = true ∧ (off e).toNat % 64 ≠ 0) ∧
    Meets (mk (inHandler .save) (f := sr [(4, 0xFC0)])) n {} (fun e => ok e = true ∧ (off e).toNat % 64 = 0 ∧ e.p.privileged = true) ∧
    Meets (ring 64 mk) n {} (fun e => ok e = true ∧ e.p.privileged = false ∧ 64 ≤ ringUsed ((ring 64 mk).core e.core)) ∧
    Meets (ring 63 mk) n {} (fun e => ok e = true ∧ e.p.privileged = false ∧ ringUsed ((ring 63 mk).core e.core) < 64) :=
  ⟨meets (by decide +kernel), meets (by decide +kernel), meets (by decide +kernel), meets (by decide +kernel), meets (by decide +kernel)⟩

/-- KZERO, KREAD and KWRITE, plain and adding, on a core whose kiln rests. -/
theorem wit_TileMoves : (mk.core 0).kcmds = [] ∧ Meets mk (kzeroNeed { d := rK 35 }) {} (fun _ => True) ∧
    Meets mk (kreadNeed { fmt := .f32, sub := 7, d := rV 240, a := rK 32, b := .imm (.i18 31) }) {} (fun e => e.p.hd.late = [] ∧
      ∀ x ∈ Tab.live mk.posies, x.2.uid = e.p.uid → x.1 = e.key) ∧
    (∀ o ∈ ([{ fmt := .f32, sub := 7, d := rK 35, a := rV 240, b := .imm (.i18 31) }, { fmt := .f32, sub := 15, d := rK 32, a := rV 0, b := .reg (rS 3) }] : List Ops),
      Meets mk (kwriteNeed o) o.h (fun e => e.p.holds (64 % 64) = true ∧ e.p.holds 63 = false ∧ ∀ x ∈ Tab.live mk.posies, x.2.uid = e.p.uid → x.1 = e.key)) :=
  ⟨by decide +kernel, meets (by decide +kernel), meets (by decide +kernel), meets_all (by decide +kernel)⟩

/-- KSTORE: SEG, ALIGN, complete. KFREE of a tag that loads and of one that is ready. KSTAT into S and V. -/
theorem wit_KilnStores : let o : MemOps := { a := rK 32, b := .reg (rS 4), fmt := .f32, seg := .scr }
    let ok := fun (e : Env) => decide (Admits e.t.scr ((e.f.sreg 4).toNat : Int) { size := kstoreBytes o, w := true })
    let loading : State := (mk (f := sr [(4, 0xFFFF)])).modCore 0 fun c => { c with kloads := [{ team := 0, token := 1, seq := 0, desc := { tag := 0xFFFF }, macros := [0] }] }
    Meets (mk (f := sr [(4, 0xE01)])) (kstoreNeed o) o.h (fun e => ok e = false) ∧ Meets (mk (f := sr [(4, 4)])) (kstoreNeed o) o.h (fun e => ok e = true ∧ (e.f.sreg 4).toNat % 8 ≠ 0) ∧
    Meets (mk (f := sr [(4, 0xE00)])) (kstoreNeed o) o.h (fun e => ok e = true ∧ (e.f.sreg 4).toNat % 8 = 0) ∧
    Meets loading { type := (rowB (.reg (rS 4))).1, regs := (rowB (.reg (rS 4))).2, full := true } {} (fun e => (e.f.sreg 4).toNat < 2 ^ 16 ∧
      ∃ k ∈ (loading.core e.core).kloads, k.team = e.p.team ∧ k.desc.tag = (e.f.sreg 4).toNat) ∧
    Meets (macros full16 mk) { type := (rowB (.imm (.i18 25))).1, regs := (rowB (.imm (.i18 25))).2, full := true } {} (fun e => ((macros full16 mk).core e.core).kloads = [] ∧
      (((macros full16 mk).core e.core).macro_ 15).st = .ready ∧ (((macros full16 mk).core e.core).macro_ 15).tag = 25) ∧
    Meets mk { type := true, regs := opdUse (rS 4) 1 1 true :: [], full := true } {} (fun _ => True) ∧
    Meets mk { type := true, regs := opdUse (rV 4) 1 1 true :: (rowB (.reg (rS 5))).2 } {} (fun _ => True) :=
  ⟨meets (by decide +kernel), meets (by decide +kernel), meets (by decide +kernel), meets (by decide +kernel), meets (by decide +kernel), meets (by decide +kernel),
    meets (by decide +kernel)⟩
/-! ## Counters -/

/-- A dirty byte in the L1 of core 0, and a launch of `n` cores. -/
def dirty (s : State) : State := s.modCore 0 fun c => { c with l1 := [(512, some { valid := 15, dirty := 1 })] }
def lau (n : Nat) (s : State) : State := s.setLaunch 0 (some { queue := 0, vd := 0, r := { cores := n } })
def bars (w : BitVec 64) (s : State) : State := s.modCore 0 fun c => { c with bars := [(63, w)] }
def phase (p : Posy) : Posy := { p with phase := true }

/-- Where the release of `e` stands: its request has performed; it has none, and the caches are clean or not; older requests are left. -/
def releaseFacts (s : State) (e : Env) (w : Width) : Option Bool × Bool :=
  ((ownRelease e).map (·.stage == .replied), releaseSnap s e.core w == [])

/-- The decisions of BAR: the level, an armed flag, a lane, the release, the barrier's home. -/
def barFacts (s : State) (o : Ops) (e : Env) : List Bool :=
  let l := o.x10.toNat / 256
  [l == 0 || (match s.launch e.t.lid with | some x => decide (l + 1 ≤ x.r.cores) | none => false), e.t.flags &&& e.t.arm == 0, !(e.p.active o.h).isEmpty,
   ownRelease e == none && releaseSnap s e.core (levelWidth l) == [] && releaseClear s e.t { seq := e.t.nextSeq, kind := .rel_, addr := e.p.pc, fids := (e.p.active o.h).map e.p.fid, core := e.core, slot := e.slot, width := levelWidth l },
   decide (e.core < 192) && (l == 0 || (s.vd e.t.part e.t.vd).isSome)]

/-- BAR.ARRIVE above its launch's level, with an armed flag, without lanes, with a release that waits, and complete at the first and last level. -/
theorem wit_Barriers_arrive : let o : Ops := { x10 := 0x33F, d := rV 9 }
    let p : Ops := { x10 := 0x30F, d := rV 9 }
    (Instr.legal (.barArrive p) && !Instr.legal (.barArrive o) && Instr.legal (.barArrive { x10 := 0x7F })) = true ∧
    ∀ x ∈ ([(lau 3 mk, p, some 0), (lau 4 (mk (t := fun t => { t with flags := flagMerr, arm := flagMerr })), p, some 1), (mk, { x10 := 63, h := { gp := 1 } }, some 2),
      (dirty (lau 4 mk), p, some 3), (lau 4 mk, p, none), (mk, { x10 := 0x7F }, none)] : List (State × Ops × Option Nat)),
      Meets x.1 (arriveNeed x.2.1) x.2.1.h (fun e => (barFacts x.1 x.2.1 e).findIdx? (!·) = x.2.2) := ⟨by decide +kernel, meets_all (by decide +kernel)⟩

/-- A release that has performed, and one that has not. -/
theorem wit_Barriers_release : ∀ x ∈ ([(.queued, false), (.replied, true)] : List (Stage × Bool)),
    Meets (mk (t := fun t => { t with reqs := [{ seq := 0, kind := .rel_, addr := 0x10000, stage := x.1 }] })) (arriveNeed {}) {} (fun e =>
      (ownRelease e).map (·.stage == .replied) = some x.2) := meets_all (by decide +kernel)

/-- BAR.WAIT above the level, with the current phase, with another; BAR.SYNC in its waiting phase with the current phase and with another; an arrival that starts a phase, and one that does not; BAR.QUERY. -/
theorem wit_Barriers_wait : let w : Ops := { sub := 1, x10 := 63, a := rV 9 }
    let y : Ops := { sub := 2, x10 := 63, d := rV 9 }
    let s7 : State := bars 0x0000070000000000 (mk fun p => { p with v := [(64 * 9, 7)] })
    let t7 : State := bars 0x0000070000000000 (mk fun p => phase { p with v := [(64 * 9, 7)] })
    let nW : Need := { type := true, regs := [opdUse w.a 1 1 false] }
    (Instr.legal (.barWait w) && Instr.legal (.barSync y) && Instr.legal (.barQuery { sub := 3, x10 := 63, d := rV 8 })) = true ∧
    Meets mk { type := true, regs := [opdUse w.a 1 1 false] } {} (fun e => (barFacts mk { w with x10 := 0x100 } e).head? = some false) ∧
    Meets s7 nW {} (fun e => ∃ L ∈ e.p.active {}, (e.p.reg (e.p.wbase + 9) L).toNat % 2 ^ 24 = (barGet s7 e 0 63).phase) ∧
    Meets (bars 0 s7) nW {} (fun e => ∀ L ∈ e.p.active {}, (e.p.reg (e.p.wbase + 9) L).toNat % 2 ^ 24 ≠ (barGet (bars 0 s7) e 0 63).phase) ∧
    Meets t7 (syncNeed y) {} (fun e => e.p.phase = true ∧ ∃ L ∈ e.p.active {}, (e.p.reg (e.p.wbase + 9) L).toNat % 2 ^ 24 = (barGet t7 e 0 63).phase) ∧
    Meets (bars 0 t7) (syncNeed y) {} (fun e => e.p.phase = true ∧ ∀ L ∈ e.p.active {}, (e.p.reg (e.p.wbase + 9) L).toNat % 2 ^ 24 ≠ (barGet (bars 0 t7) e 0 63).phase) ∧
    Meets (bars 0x0000070000100000 mk) (syncNeed y) {} (fun e => e.p.phase = false ∧ (barFacts (bars 0x0000070000100000 mk) y e).all id = true ∧
      (barAfter (barGet (bars 0x0000070000100000 mk) e 0 63) 0 false 1).phase ≠ 7) ∧
    Meets (bars 0x0000070000200000 mk) (syncNeed y) {} (fun e => e.p.phase = false ∧ (barAfter (barGet (bars 0x0000070000200000 mk) e 0 63) 0 false 1).phase = 7) ∧
    Meets mk (queryNeed { sub := 3, x10 := 63, d := rV 8 }) {} (fun _ => True) ∧ Meets mk (queryNeed { sub := 3, d := rS 8 }) {} (fun _ => True) :=
  ⟨by decide +kernel, meets (by decide +kernel), meets (by decide +kernel), meets (by decide +kernel), meets (by decide +kernel), meets (by decide +kernel),
    meets (by decide +kernel), meets (by decide +kernel), meets (by decide +kernel), meets (by decide +kernel)⟩

/-- The other cases of BAR.SYNC: above the level, an armed flag, no lane, a release that waits. -/
theorem wit_Barriers_sync : let p : Ops := { sub := 2, x10 := 0x30F, d := rV 9 }
    ∀ x ∈ ([(lau 3 mk, p, some 0), (lau 4 (mk (t := fun t => { t with flags := flagSat, arm := flagSat })), p, some 1), (lau 4 mk, { p with h := { gp := 1 } }, some 2),
      (dirty (lau 4 mk), p, some 3), (lau 4 mk, p, none)] : List (State × Ops × Option Nat)),
      Meets x.1 (syncNeed x.2.1) x.2.1.h (fun e => e.p.phase = false ∧ (barFacts x.1 x.2.1 e).findIdx? (!·) = x.2.2) := meets_all (by decide +kernel)

/-- A signal read of the posy with its answer. -/
def sigReq (st : Stage) (v : Nat) (merr : Bool := false) : Req := { seq := 0, kind := .sig, addr := 0x100, size := 8, stage := st, reply := (List.range 8).map fun i => (0x100 + i, (leBytes 8 v).getD i 0), merr := merr }

/-- SIGADD without and with lanes; SIGWAIT without lanes, before its read, and with a read that is out, that fails and that satisfies the comparison. -/
theorem wit_Signals : let o : MemOps := { m4 0 .raw with b := .imm (.i18 0x3FFFF) }
    let k := ({ size := 8, r := true, align := 8, dhi := false } : AccKind)
    let h : Hdr := { len := .w3 }
    let sg := fun (l : Bool) (v : Nat) => mk phase (fun t => { t with reqs := [{ sigReq (if l then .replied else .queued) v with landed := l }] }) (sr [(4, 0x100)])
    Meets mk (sigaddNeed o) { h with gp := 1 } (fun e => e.p.active { h with gp := 1 } = []) ∧
    Meets (top 8) (sigaddNeed o) h (fun e => e.p.active h = [0] ∧ Clear e o { k with w := true } (e.p.active h)) ∧
    Meets mk (sigwaitNeed { o with d := rV 8 }) { h with gp := 1 } (fun e => e.p.active { h with gp := 1 } = []) ∧
    Meets (top 8) (sigwaitNeed o) h (fun e => e.p.active h = [0] ∧ Clear e o k (e.p.active h) ∧ e.p.phase = false) ∧
    Meets (sg false 0) (sigwaitNeed o) h (fun e => Clear e o k (e.p.active h) ∧ e.p.phase = true ∧ ∃ r ∈ ownSig e, r.landed = false) ∧
    Meets (sg true 0) (sigwaitNeed o) h (fun e => Clear e o k (e.p.active h) ∧ e.p.phase = true ∧ ∃ r ∈ ownSig e, r.landed = true ∧ ¬(b64 (leNat (r.reply.map (·.2)))).toInt ≤ (operandB e o.b).toInt) ∧
    Meets (sg true (2 ^ 64 - 1)) (sigwaitNeed o) h (fun e => Clear e o k (e.p.active h) ∧ e.p.phase = true ∧ ∃ r ∈ ownSig e, r.landed = true ∧ (b64 (leNat (r.reply.map (·.2)))).toInt ≤ (operandB e o.b).toInt) :=
  ⟨meets (by decide +kernel), meets (by decide +kernel), meets (by decide +kernel), meets (by decide +kernel), meets (by decide +kernel), meets (by decide +kernel),
    meets (by decide +kernel)⟩

/-- CTWAIT without lanes; behind an older store to the counter; on a poisoned, on a full and on a low counter. -/
theorem wit_CounterAndTimeWaits : let o : MemOps := { m4 0 .raw with seg := .scr, b := .imm (.i18 5) }
    let h : Hdr := { len := .w3 }
    let facts := fun (s : State) (e : Env) => let a := address e o false 0
      ([counterHeld s e o (e.p.active h) a, scratchPoisoned e.t a, decide (a % 8 = 0), decide ((operandB e o.b).toNat ≤ leNat ((List.range 8).map fun i => Tab.get 0 e.t.scratch (a + i)))] : List Bool)
    let st := fun (t : Team → Team) => mk (t := t) (f := sr [(4, 0xFF8)])
    Meets mk (ctwaitNeed o) { h with gp := 1 } (fun e => e.p.active { h with gp := 1 } = []) ∧
    (∀ x ∈ ([(st fun t => { t with reqs := [{ seq := 0, kind := .store, scratch := true, addr := 0xFF8, size := 8, fids := [0], tol := 0 }], nextSeq := 1 }, [true, false, true, false]),
        (st fun t => { t with spoison := [(0x1FF, true)] }, [false, true, true, false]),
        (st fun t => { t with scratch := [(0xFF8, 5)] }, [false, false, true, true]), (st fun t => { t with scratch := [(0xFF8, 4)] }, [false, false, true, false])] : List (State × List Bool)),
      Meets x.1 (ctwaitNeed o) h (fun e => e.p.active h = [0] ∧ Clear e o { size := 8, r := true, align := 8, dhi := false } (e.p.active h) ∧ facts x.1 e = x.2)) :=
  ⟨meets (by decide +kernel), meets_all (by decide +kernel)⟩

/-- TWAIT at its end, before it, and in progress; the expiry before and at the end. -/
theorem wit_CounterAndTimeWaits_time : let at_ := fun (n : Nat) (p : Posy → Posy) => { mk (p := p) (f := sr [(4, 100)]) with time := n }
    Meets (at_ 100 id) (twaitNeed { b := .reg (rS 4) }) {} (fun e => (operandB e (.reg (rS 4))).toNat ≤ (at_ 100 id).time) ∧
    Meets (at_ 99 id) (twaitNeed { b := .reg (rS 4) }) {} (fun e => e.p.active {} ≠ [] ∧ (at_ 99 id).time < (operandB e (.reg (rS 4))).toNat) ∧
    Meets (at_ 99 fun p => { p with wait_ := some (150, 0) }) (twaitNeed { sub := 1, b := .reg (rS 4) }) {} (fun e => ∃ w ∈ e.p.wait_, 99 < w.1) ∧
    Meets (at_ 100 fun p => { p with wait_ := some (100, 0x10008) }) {} {} (fun e => e.p.wait_ = some (100, 0x10008) ∧ e.t.running = true) :=
  ⟨meets (by decide +kernel), meets (by decide +kernel), meets (by decide +kernel), meets (by decide +kernel)⟩
/-! ## Launches, calls, contexts -/

/-- The context area of VD 0 at 32 MiB, in a page of its own. -/
def wide (s : State) : State := (s.modVd 0 0 fun v => { v with ctxva := 0x2000000, ctxsize := 0x2000000 }).write64 0x3008 0x200069F

/-- A system-call ring at 64 MiB, in a page of host memory. -/
def ringed (s : State) : State := (s.modVd 0 0 fun v => { v with syscring := 0x4000000, sysclog := 4 }).write64 0x3010 (Config.hostBase + 0x69F)

/-- LAUNCH: SEG, ALIGN, a release that waits, a poisoned record, complete. -/
theorem wit_LaunchesAndCalls_launch : let o : LaunchOps := { h := { len := .w4 }, d := rK 18, a := rS 6, b := rS 7 }
    let facts := fun (s : State) (e : Env) => let off := (e.f.sreg 6).toNat
      ([decide (Admits e.t.scr off { size := 128, r := true }), decide (off % 8 = 0), ownRelease e == none && releaseSnap s e.core .sys == [], !scratchBad e.t off 128] : List Bool)
    ∀ x ∈ ([(mk (f := sr [(6, 0xF81)]), some 0), (mk (f := sr [(6, 4)]), some 1), (dirty (mk (f := sr [(6, 0xF80)])), some 2),
      (mk (t := fun t => { t with spoison := [(0x1FF, true)] }) (f := sr [(6, 0xF80)]), some 3), (mk (f := sr [(6, 0xF80)]), none)] : List (State × Option Nat)),
      Meets x.1 (launchNeed o) o.h (fun e => (facts x.1 e).findIdx? (!·) = x.2) := meets_all (by decide +kernel)

/-- SYSC without lanes, in its waiting phase, behind a release, with a ring that no page holds (SUB 0 and 1), and complete, with SUB 0 and 1. -/
theorem wit_LaunchesAndCalls_call : let o : Ops := { d := rV 20, a := rV 8 }
    let q : Ops := { sub := 1, d := rK 17, a := rV 8, x10 := 0x3FF }
    let w : State := ringed mk
    let lost : State := mk |>.modVd 0 0 fun v => { v with syscring := 0x80000 }
    Meets mk (syscNeed o) { gp := 1 } (fun e => e.p.active { gp := 1 } = []) ∧
    Meets (mk phase) (syscNeed o) {} (fun e => e.p.active {} ≠ [] ∧ e.p.phase = true) ∧ Meets (mk phase) (syscNeed q) {} (fun e => e.p.active {} ≠ [] ∧ e.p.phase = true) ∧
    Meets (dirty w) (syscNeed q) {} (fun e => e.p.active {} ≠ [] ∧ e.p.phase = false ∧ releaseSnap (dirty w) e.core .sys ≠ []) ∧
    (∀ x ∈ ([(lost, o, false), (lost, q, false), (w, o, true), (w, q, true)] : List (State × Ops × Bool)),
      Meets x.1 (syscNeed x.2.1) {} (fun e => e.p.active {} ≠ [] ∧ e.p.phase = false ∧ ownRelease e = none ∧ e.t.reqs = [] ∧ releaseSnap x.1 e.core .sys = [] ∧
        (sendCall x.1 e x.2.1 (e.p.active {}) (if x.2.1.sub = 0 then 0 else e.t.nextTok) (if x.2.1.sub = 0 then e.t.nextSeq else 0)).isSome = x.2.2)) :=
  ⟨meets (by decide +kernel), meets (by decide +kernel), meets (by decide +kernel), meets (by decide +kernel), meets_all (by decide +kernel)⟩

def ctxSeg (t : Team) : Team := { t with ctx := SegReg.make 0x2000000 0x2000000 true true true }
def cm (sub : BitVec 4) (v : BitVec 18) : MemOps := { sub := sub, a := rS 4, b := .imm (.i18 v), seg := .ctx }

/-- The tests of SAVEK and RESTK: the registers, the segment, the alignment. -/
def ctxFacts (o : MemOps) (v : BitVec 18) (wr : Bool) (e : Env) : List Bool :=
  let off := ctxOff e o
  let first := v.toNat % 256
  let n := v.toNat / 256 % 256 + 1
  let ranges : List (Nat × Nat) := if o.sub = 0 then [(16384 + 256 * first, 256 * n), (12800 + first, n)] else if o.sub = 1 then [(13056, 128)] else [(0, 16384)]
  [decide ((o.sub = 0 → first + n ≤ e.p.alloc) ∧ (o.sub = 2 → v.toNat % 32 < e.t.ktiles)),
   decide (∀ r ∈ ranges, Admits e.t.ctx (off + (r.1 : Nat)) { size := r.2, r := !wr, w := wr }), decide (off % 256 = 0)]

/-- Each test, for registers, predicates and a tile; with a pending register. -/
theorem wit_ContextMoves : let s := fun (a : Nat) (n : Nat) => mk (fun p => inHandler .save { p with alloc := n }) ctxSeg (sr [(4, b64 a)])
    ((([(0, 0xFFFF), (1, 0), (2, 3)] : List (BitVec 4 × BitVec 18)).all fun x => Instr.legal (.savek (cm x.1 x.2)) && Instr.legal (.restk (cm x.1 x.2))) = true) ∧
    (∀ x ∈ ([(0, 0x01FF, 0, some 0), (2, 4, 0, some 0), (0, 0xFF00, 0x2000000 - 81919, some 1), (2, 3, 0x2000000 - 16383, some 1), (1, 0, 128, some 2),
        (0, 0xFF00, 0x1FEC000, none), (1, 0, 0, none), (2, 3, 0x2000000 - 16384, none), (0, 0x00FF, 0, none)] : List (BitVec 4 × BitVec 18 × Nat × Option Nat)),
      Meets (s x.2.2.1 256) (ctxNeed (cm x.1 x.2.1)) { len := .w3 } (fun e => (ctxFacts (cm x.1 x.2.1) x.2.1 true e).findIdx? (!·) = x.2.2.2 ∧
        (ctxFacts (cm x.1 x.2.1) x.2.1 false e).findIdx? (!·) = x.2.2.2 ∧ mayRead ((s x.2.2.1 256).core e.core) e.p.team ((s x.2.2.1 256).core e.core).kseq 3 = true ∧
        runPends (s x.2.2.1 256) e 0 256 = false)) ∧
    (let p := mk (inHandler .restore) (fun t => loads [pendingV 9] (ctxSeg t))
     Meets p (ctxNeed (cm 0 9)) { len := .w3 } (fun e => (ctxFacts (cm 0 9) 9 false e).all id = true ∧ runPends p e 9 1 = true)) :=
  ⟨by decide +kernel, meets_all (by decide +kernel), meets (by decide +kernel)⟩

/-- The answer of a WRDIV's read: a first and a last record. -/
def divReq (st : Stage) (a z : Nat) : Req :=
  { seq := 0, kind := .sig, addr := 0x2000000, size := 64, stage := st, reply := (List.range 64).map fun i => (0x2000000 + i, (leBytes 8 a ++ leBytes 8 z).getD i 0) }

/-- RDDIV and WRDIV: SEG, ALIGN, complete; WRDIV outside a restore; its read out, with a bad record, and with none. -/
theorem wit_ContextMoves_div : let o : MemOps := { a := rS 4, seg := .ctx }
    let s := fun (m : HMode) (a : Nat) (rs : List Req) => mk (fun p => phase (inHandler m p)) (fun t => { ctxSeg t with reqs := rs }) (sr [(4, b64 a)])
    let facts := fun (e : Env) => ([e.p.hd.mode == .restore, decide (Admits e.t.ctx (ctxOff e o) { size := 64, r := true, w := true }), decide ((e.t.ctx.addr + (ctxOff e o + (0 : Nat)).toNat) % 64 = 0)] : List Bool)
    let bad := fun (e : Env) (x : Nat) => x ≠ 2 ^ 64 - 1 ∧ (x % 64 ≠ 0 ∨ e.t.spn.limit < x + 64)
    (Instr.legal (.rddiv o) && Instr.legal (.wrdiv o)) = true ∧
    (∀ x ∈ ([(.save, 0, [false, true, true]), (.restore, 0x1FFFFC1, [true, false, false]), (.restore, 32, [true, true, false]), (.restore, 0x1FFFFC0, [true, true, true])] : List (HMode × Nat × List Bool)),
      Meets (s x.1 x.2.1 []) (ctxNeed o) { len := .w3 } (fun e => facts e = x.2.2)) ∧
    Meets (s .restore 0 [divReq .queued 0 0]) (ctxNeed o) { len := .w3 } (fun e => e.p.phase = true ∧ ∃ r ∈ ownSig e, r.landed = false) ∧
    Meets (s .restore 0 [{ divReq .replied 32 (2 ^ 64 - 1) with landed := true }]) (ctxNeed o) { len := .w3 } (fun e => e.p.phase = true ∧ ∃ r ∈ ownSig e, r.landed = true ∧ bad e (leNat ((r.reply.map (·.2)).take 8))) ∧
    Meets (s .restore 0 [{ divReq .replied (2 ^ 64 - 1) (2 ^ 64 - 1) with landed := true }]) (ctxNeed o) { len := .w3 } (fun e => e.p.phase = true ∧ ∃ r ∈ ownSig e, r.landed = true ∧
      ¬bad e (leNat ((r.reply.map (·.2)).take 8)) ∧ ¬bad e (leNat (((r.reply.map (·.2)).drop 8).take 8))) :=
  ⟨by decide +kernel, meets_all (by decide +kernel), meets (by decide +kernel), meets (by decide +kernel), meets (by decide +kernel)⟩

/-- Saved by one posy in slot 0, whose image lies at an offset. -/
def saving (t : Team → Team) : State :=
  mk (inHandler .save) (fun x => t { x with salloc := 0, save := .saving 0 false, images := [{ slot := 0, unit := 0, off := 0x130000, uid := 0, alloc := 256 }] })
/-- Every line of the image was aborted: its writes are dropped (R436). -/
def dropped (t : Team) : Team := { t with ctxAborted := (List.range 64).map (0x40040 + ·) ++ (List.range 128).map (0x42600 + ·) }

/-- TRET of a restore routine with a restoring load and without; of a save handler whose image's page is absent, and one whose image lines were aborted. -/
theorem wit_HandlerReturns :
    Meets (mk (inHandler .restore) (loads [{ pendingV 9 with kind := .restReg 0 }])) { priv := true } {} (fun e => e.p.hd.mode = .restore ∧
      ∃ l ∈ e.t.loads, l.uid = e.p.uid ∧ LoadKind.isRest l.kind = true) ∧
    Meets (mk (inHandler .restore)) { priv := true } {} (fun e => e.p.hd.mode = .restore ∧ e.t.loads = []) ∧
    (∀ x ∈ ([(saving id, false), (wide (saving dropped), true)] : List (State × Bool)),
      Meets x.1 { priv := true } {} (fun e => e.p.hd.mode = .save ∧ ownRelease e = none ∧ e.t.reqs = [] ∧ releaseSnap x.1 e.core .dev = [] ∧
        (e.t.image e.slot).isSome = true ∧ (x.1.posiesOf e.p.team).length = 1 ∧ (x.1.core e.core).kcmds = [] ∧ kilnQuiet x.1 e.core e.p.team = true ∧
        (ctxWrite x.1 e.p.team (posyWrites e 0x130000 { pc := e.p.hd.hepc, state := 1, rep := e.p.hd.hrep.toNat, phase := e.p.hd.phase } ++ teamWrites x.1 e.p.team e.t false)).2 = x.2)) :=
  ⟨meets (by decide +kernel), meets (by decide +kernel), meets_all (by decide +kernel)⟩
/-! ## Fibres, queues, launches -/

/-- Posy 0 with another changed into place at `k`. -/
def also (k : Nat) (p : Posy → Posy) (s : State) : State :=
  match s.posy 0 with | some q => s.setPosy k (some (p { q with uid := k })) | none => s
def at_ (n : Nat) (s : State) : State := { s with time := n, cycle := n }

/-- A join whose one fibre has come and whose deadline is 5; and one that still lacks one. -/
def joined (refs : Nat) : State :=
  mk (fun p => { p with joining := true }) (f := fun f => { f with refs := refs, joins := [(3, some { pc := 0x10000, next := 0x10008, deadline := some 5, bounded := true, holder := some 0 })] })

theorem wit_FibreSteps_join : (∀ x ∈ ([(1, true, true), (2, false, true), (2, false, false)] : List (Nat × Bool × Bool)), let s := at_ (if x.2.2 then 5 else 4) (joined x.1)
    ∃ tm f j, s.team 0 = some tm ∧ tm.frame 0 = some f ∧ f.join 3 = some j ∧ j.open_ = true ∧ Tab.wf none f.joins = true ∧ tm.running = true ∧ tm.stopped = none ∧
      decide (f.refs ≤ j.passed + presentAt s tm 0 j) = x.2.1 ∧ j.deadline = some 5 ∧ decide (5 ≤ s.time) = x.2.2) := by
  intro x hx
  simp only [List.mem_cons, List.not_mem_nil, or_false] at hx
  obtain rfl | rfl | rfl := hx
  all_goals exact ⟨_, _, _, rfl, rfl, rfl, by decide +kernel⟩

def fibRec (n : Nat) : Rec := { pc := 0x20000, frame := 0, wbase := 8, wsize := n, kind := .pending, fibres := [{ fid := 7, preds := 3, regs := [(5, 9)] }] }
def queued (n : Nat) (s : State) : State := (s.modTeam 0 fun t => { t with recs := [(4, some (fibRec n))] }).modCore 0 fun c => { c with fifo := [(0, 4)] }

/-- The posy former with slot 22 and with slot 23 free, with the registers that a bay has left and with one more. -/
theorem wit_FibreSteps_form : (∀ x ∈ ([(queued 248 mk, 22, 1), (queued 248 (also 22 id mk), 23, 1), (queued 249 ((List.range 5).foldl (fun s i => also (4 * i + 2) id s) mk), 22, 0)] : List (State × Nat × Nat)),
    (∃ tm r, fifoReady x.1 0 = [(0, 4)] ∧ x.1.team 0 = some tm ∧ Tab.get none tm.recs 4 = some r ∧ Tab.wf 0 (r.fibres.flatMap (·.regs)) = true ∧
      (if x.2.1 = 22 then (x.1.posy 22).isNone else (x.1.posy 22).isSome && (x.1.posy 23).isNone) = true ∧
      decide (r.wbase + r.wsize ≤ bayFree x.1 0 (x.2.1 % 4)) = decide (x.2.2 = 1))) := by
  intro x hx
  simp only [List.mem_cons, List.not_mem_nil, or_false] at hx
  obtain rfl | rfl | rfl := hx
  all_goals exact ⟨_, _, by decide +kernel, rfl, rfl, by decide +kernel⟩

/-- Rotation: a posy that is due and may go, one that is not due yet, one that is in a launch slot. -/
theorem wit_FibreSteps_rotate : (∀ x ∈ ([(22, 4096, true, true), (23, 4095, false, true), (0, 4096, true, false)] : List (Nat × Nat × Bool × Bool)),
    let s := at_ x.2.1 (queued 8 (also x.1 (fun p => { p with blocked := some 0, since := x.2.1 }) mk))
    ∃ e, envAt s (posyKey 0 x.1) = some e ∧ decide ((∃ c ∈ e.p.blocked, c + 4096 ≤ s.cycle) ∨ e.p.since + 65536 ≤ s.cycle) = x.2.2.1 ∧
      (decide (22 ≤ x.1) && !(s.core 0).fifo.isEmpty && !anyPending s e && e.p.rep.isNone && !e.p.privileged && e.t.running) = x.2.2.2) := by
  intro x hx
  simp only [List.mem_cons, List.not_mem_nil, or_false] at hx
  obtain rfl | rfl | rfl := hx
  all_goals exact ⟨_, rfl, by decide +kernel⟩

/-- What a read gives, if it gives bytes. -/
def bytesOf (g : QGot) : Option (List Byte × Bool) := match g with | .bytes bs b => some (bs, b) | _ => none

/-- Queue 0 with its words in the page at 0x10000, which the die has translated. -/
def qs (q : Queue → Queue) (w : List (Nat × Nat) := []) : State :=
  let s := mk.modDie 0 fun d => { d with tlb := [{ part := 0, vd := 0, vbase := 0x10000, leaf := { pa := 0x10000, r := true, w := true, x := true } }] }
  w.foldl (fun s x => s.write64 x.1 x.2)
    (s.modQueue 0 fun x => q { x with ring := 0x10000, taila := 0x11000, trapr := 0x12000, enable := true, head := 2, tail := 3 })

def rec0 : List Byte := (List.replicate 64 0)

/-- No record; a full ring; a ring with room, whose writes go through. -/
theorem wit_QueueSteps_trap : let s := fun w => { qs id w with traps := [(0, rec0)] }
    (qs id).traps = [] ∧ (s []).traps.find? (fun r => r.1 == 0) = some (0, rec0) ∧ recordWaits (s []) rec0 = false ∧
    bytesOf (qRead (s [(0x12000, 256)]) 0 0 0x12000 8) = some (leBytes 8 256, false) ∧ bytesOf (qRead (s [(0x12000, 256)]) 0 0 0x12080 8) = some (leBytes 8 0, false) ∧
    bytesOf (qRead (s []) 0 0 0x12000 8) = some (leBytes 8 0, false) ∧
    ((qWrite (s []) 0 0 (0x12000 + 256) (postedRecord (s []) rec0)).bind fun s1 => qWrite s1 0 0 0x12000 (leBytes 8 1)).isSome = true := by decide +kernel

/-- A tail that falls back, one that passes the ring, one at its end, and one that stays. -/
theorem wit_QueueSteps_tail : (∀ x ∈ ([(2, false), (19, false), (18, true), (3, true)] : List (Nat × Bool)), let s := qs (fun q => { q with tailDirty := true }) [(0x11000, x.1)]
    ((s.queue 0).enable && (s.queue 0).tailDirty) = true ∧ bytesOf (qRead s 0 0 (s.queue 0).taila 8) = some (leBytes 8 x.1, false) ∧
    decide ((s.queue 0).tail ≤ x.1 ∧ x.1 ≤ (s.queue 0).head + 2 ^ (s.queue 0).logsize) = x.2) ∧ (qs fun q => { q with tail := 2 }).queues ≠ [] := by decide +kernel

/-- A post that is owed; a record at the head that is unread; one that waits for its dependency, or for its queue; and one whose writes go through. -/
theorem wit_QueueSteps_dispatch : let s := qs id [(0x10100, 0x10000)]
    let d := qs fun q => { q with hs := .ok { dep := true } {} }
    let b := (qs fun q => { q with hs := .ok { serial := true } {} }).setLaunch 9 (some { queue := 0, vd := 0 })
    let g := qs fun q => { q with hs := .ok {} {} }
    (let p := { qs fun q => { q with enable := false, owed := [.error 0x13000 5] } with poison := [] }
     (p.queue 0).owed = [.error 0x13000 5] ∧ (p.queue 0).enable = false ∧ 0x13000 % 8 = 0 ∧ (qSignal p 0 0 0x13000 fun _ => 2 ^ 63 + 5).isSome = true) ∧
    (∀ x ∈ [s, d, b, g], (x.queue 0).owed = []) ∧
    ((s.queue 0).enable = true ∧ (s.queue 0).head < (s.queue 0).tail ∧ (s.vd 0 0).isSome = true ∧ (s.queue 0).hs = .unread) ∧
    (bytesOf (qRead s 0 0 (headVa (s.queue 0)) 128)).any (fun x => !x.2 && (LRec.ofBytes x.1).entry == 0x10000) = true ∧
    (bytesOf (qRead s 0 0 0x10020 32)).isSome = true ∧
    (d.queue 0).depMet = false ∧ queueBusy b 0 = true ∧
    ((qWrite g 0 0 (headVa (g.queue 0) + 80) (leBytes 8 1)).bind fun s1 => (capture s1 0 1 {}).bind fun s2 => qWrite s2 0 0 (0x11000 + 128) (leBytes 8 3)).isSome = true := by
  decide +kernel

/-- A dependency that is met and read already; and one to be read: good, poisoned, and in error. -/
theorem wit_QueueSteps_dependency : let s := fun (q : Queue → Queue) v p => { qs (fun x => q { x with hs := .ok { dep := true, dsig := 0x13000 } {} }) [(0x13000, v)] with poison := p }
    ((s (fun q => { q with depMet := true, depDirty := false }) 0 []).queue 0).depDirty = false ∧
    (∀ x ∈ ([(0, [], false, 0), (0, [(0x2600, true)], true, 0), (2 ^ 63 + 7, [], false, 2 ^ 55)] : List (Nat × Tab Bool × Bool × Nat)),
      ((s id x.1 x.2.1).queue 0).depDirty = true ∧ (bytesOf (qRead (s id x.1 x.2.1) 0 0 0x13000 8)).any (fun y => y.2 == x.2.2.1 && (y.2 || leNat y.1 / 256 == x.2.2.2)) = true) := by
  decide +kernel

/-- A launch of 65 fibres of VD 0, which has core 0 as its place 0. -/
def l0 : Launch := { queue := 0, vd := 0, started := true, r := { fibres := 65, split := 15, entry := 0x10000, args := 3, csig := 0 } }
def ls (l : Launch) : State :=
  let s := (State.reset.setVd 0 0 (some { ptroot := 0x1000, asize := 2 ^ 32, places := [(0, { core := 0, valid := true })] })).setCore 0 { vd := some 0, lsplit := 4 }
  s.setLaunch 1 (some l)

/-- A place that takes the team; a launch that is placed, that fits nowhere, whose teams all have a place. -/
theorem wit_LaunchSteps_place : (placeTeam (ls l0) 1 l0 0 0).isSome = true ∧ 64 * 1 < l0.r.fibres ∧
    ((ls l0).launch 1 = some l0 ∧ l0.next < l0.r.teams ∧ turnToPlace (ls l0) 1 l0 = true ∧ (placeNow (ls l0) 1 l0).isSome = true) ∧
    (let l := { l0 with r := { l0.r with ktiles := 33 } }
     turnToPlace (ls l) 1 l = true ∧ (placeOne (ls l) 1 l fun _ => true).isNone = true) ∧
    { l0 with next := 1 }.r.teams ≤ { l0 with next := 1 }.next := by decide +kernel

/-- A timed start at and before its time; a launch with teams left, with lines left, ended without a signal, and with one. -/
theorem wit_LaunchSteps_end : (l0.r.start ≤ (ls l0).time ∧ (ls l0).time < { l0.r with start := 1 }.start) ∧ l0.retired < l0.r.teams ∧ { l0 with snap := [(.l1 0, 3)] }.snap ≠ [] ∧
    (let l := { l0 with retired := 1 }
     l.r.teams ≤ l.retired ∧ l.snap = [] ∧ l.r.csig = 0) ∧
    (let l := { l0 with retired := 1, r := { l0.r with csig := 0x13000 } }
     let s := (qs id).setLaunch 1 (some l)
     s.launch 1 = some l ∧ l.r.csig ≠ 0 ∧ (qSignal s 0 0 0x13000 fun v => v + 2 ^ 64 - 1).isSome = true) := by decide +kernel

/-- A core in the split that the launch served first needs; in another split with a team; while the launch that took the split places; with a dirty L1;
and ready. A core for which no launch waits. -/
theorem wit_LaunchSteps_split : let free : State := { mk with teams := [], posies := [] }
    let l := { l0 with r := { l0.r with split := 4 } }
    (∀ x ∈ ([(4, mk, 1, false, false, true), (3, mk, 1, false, false, true), (3, free.setLaunch 2 (some l0), 2, true, true, true), (3, dirty free, 0, true, false, false),
        (3, free, 0, true, false, true)] : List (Nat × State × Nat × Bool × Bool × Bool)),
      let s := (x.2.1.modCore 0 fun c => { c with waiting := [1], lsplit := x.1, taken := x.2.2.1 }).setLaunch 1 (some l)
      servedFirst s 0 = some (1, l) ∧ (teamsOn s 0).isEmpty = x.2.2.2.1 ∧ ((s.core 0).taken != 1 && (s.launch (s.core 0).taken).any (fun k =>
        decide (k.next < k.r.teams) && turnToPlace s (s.core 0).taken k)) = x.2.2.2.2.1 ∧ l1Clean s 0 = x.2.2.2.2.2) ∧
    servedFirst mk 0 = none ∧ (mk.core 0).splitting = false := by decide +kernel

/-- A team with a fibre, and one that is done; a watchdog that is off, short of its end, at it, and at it with a launch whose teams
have all retired. -/
theorem wit_LaunchSteps_retire : (∀ x ∈ ([(mk, false), ({ mk (t := fun t => { t with frames := [] }) with posies := [] }, true)] : List (State × Bool)),
      (x.1.team 0).any (fun tm => teamDone x.1 0 tm == x.2) = true) ∧
    (∀ x ∈ ([(0, 5000, 0, false), (5, 4999, 0, false), (5, 5000, 1, false), (5, 5000, 0, true)] : List (Nat × Nat × Nat × Bool)),
      let s := (qs fun q => { q with timeout := x.1, wd := x.2.1 }).setLaunch 1 (some { l0 with retired := x.2.2.1 })
      let ends := (Tab.live s.launches).any (fun e => e.2.queue == 0 && decide (e.2.r.teams ≤ e.2.retired) && e.2.snap.isEmpty) ||
        (Tab.live s.teams).any fun e => e.2.queue == 0 && (s.launch e.2.lid).any fun l => decide (l.r.teams ≤ l.retired + 1) && teamDone s e.1 e.2
      (decide ((s.queue 0).timeout ≠ 0) && decide (1000 * (s.queue 0).timeout ≤ (s.queue 0).wd) && queueBusy s 0 && !ends) = x.2.2.2) := by decide +kernel
/-! ## Contexts, order -/

/-- A slice: held by another change, before its end, at its end with nobody to follow, and with VD 1 that has a saved team for the core. -/
def vd1 (s : State) : State :=
  (s.setVd 0 1 (some { ptroot := 0x1000, asize := 2 ^ 32, places := [(0, { core := 0, valid := true })] })).setTeam 7
    (some { lid := 0, idx := 0, vd := 1, core := 0, save := .saved false })

theorem wit_ContextSteps_slice : ((mk.modCore 0 fun c => { c with nextVd := some 1 }).core 0).nextVd ≠ none ∧
    (∀ x ∈ ([(at_ 999 mk, false, false), (at_ 1000 mk, true, false), (at_ 1000 (vd1 mk), true, true)] : List (State × Bool × Bool)),
      (x.1.core 0).nextVd = none ∧ ((x.1.core 0).vd.bind fun k => Tab.get none x.1.vds k).any (fun v => decide ((x.1.core 0).sliceAt + 1000 * v.slice ≤ x.1.time) == x.2.1) = true ∧
      (nextVdFor x.1 0 ((x.1.core 0).vd.map (· % 64)) == if x.2.2 then some 1 else none) = true ∧
      (teamsOn x.1 0).all (fun y => y.2.save != .restoring) = true) := by decide +kernel

/-- A change of the VD of a core with a team, and of one without. -/
theorem wit_ContextSteps_switch : let s := (vd1 mk).modCore 0 fun c => { c with nextVd := some 1 }
    let t := { s with teams := [], posies := [] }
    ((s.core 0).nextVd = some 1 ∧ (s.vd (1 / 64) (1 % 64)).isSome = true ∧ (teamsOn s 0).length = 1) ∧
    (teamsOn t 0).length = 0 ∧ l1Clean t 0 = true ∧ (t.vd 0 1).any (fun v => (barsIn t 0 0 1 v).2.isSome && (switchOut (barsIn t 0 0 1 v).1 0).2) = true := by decide +kernel

/-- A posy of a team being saved: without a handler, and with one, whose image page is there (its lines aborted). -/
def entering (h : Nat) : State :=
  (wide (mk (t := fun x => { dropped x with save := .saving 0 false, images := [{ slot := 0, unit := 0, off := 0x130000, uid := 0, alloc := 256 }] }))).modQueue 0 fun q =>
    { q with saveh := h }

theorem wit_ContextSteps_entry : ((entering 0).queue 0).saveh = 0 ∧
    (let s := entering 0x20000
     ∃ e, envAt s (posyKey 0 0) = some e ∧ e.t.save = .saving 0 false ∧ e.t.image 0 = some { slot := 0, unit := 0, off := 0x130000, uid := 0, alloc := 256 } ∧ (s.queue e.t.queue).saveh ≠ 0 ∧
      e.t.stopped = none ∧ e.p.hd.mode = .none ∧ e.p.joining = false ∧ (ctxWrite s e.p.team [(e.t.header + 14, [1])]).2 = true) :=
  ⟨by decide +kernel, _, rfl, by decide +kernel⟩

/-- A budget that is not over; a team without posies to be saved by force, whose page is absent, and present. -/
theorem wit_ContextSteps_force : (mk.team 0).any (fun t => !mustForce mk 0 t) = true ∧
    (∀ x ∈ ([(saving fun t => { t with ktiles := 0 }, false), (wide (saving fun t => { dropped t with ktiles := 0 }), true)] : List (State × Bool)), let s := { x.1 with posies := [], cores := [(0, { x.1.core 0 with held := [0] })] }
      (s.team 0).any (fun t => mustForce s 0 t && (s.core t.core).held.contains 0 && (s.posiesOf 0).isEmpty && kilnQuiet s t.core 0 &&
        (ctxWrite s 0 (teamWrites s 0 t true)).2 == x.2) = true) := by decide +kernel

/-- A saved team without posies, whose image is there. -/
def savedTeam (t : Team → Team := id) : State :=
  { wide (mk (t := fun x => t { x with salloc := 0, ktiles := 0, tileNos := [], save := .saved false })) with posies := [] }

/-- A resident team; one that another comes before; one that comes back. -/
theorem wit_ContextSteps_restore : (mk.team 0).any (fun t => t.occupies) = true ∧
    (let s := savedTeam.setTeam 3 (some { lid := 0, idx := 0, vd := 0, core := 0, prio := 5, save := .saved false })
     (s.team 0).any (fun t => restorable s t && (splitFor s t).isNone && restoresFirst s 0 t) = true) ∧
    (savedTeam.team 0).any (fun t => restorable savedTeam t && (splitFor savedTeam t).isNone && (fitSaved savedTeam 0).isSome && !restoresFirst savedTeam 0 t && !placesFirst savedTeam t && wholeFits savedTeam t) = true ∧
    (let s := savedTeam dropped
     (s.team 0).any (fun t => let r := ctxRead (ctxRead s 0 [(t.header, 8192)]).1 0 []
      t.images == [] && t.salloc == 0 && !t.forced && (ctxRead s 0 [(t.header, 8192)]).2.isSome && r.2.isSome && (ctxWrite r.1 0 [(t.header + 14, [3])]).2 &&
      (fitSaved (ctxWrite r.1 0 [(t.header + 14, [3])]).1 0).any fun s2 => (s2.team 0).isSome) = true) := by decide +kernel

/-- A resident team; a restoring one whose posy is not held, one whose tasks find no room in the ring, and one whose posies are held and tasks have room. -/
theorem wit_ContextSteps_end : let s := fun (m : HMode) => wide (mk (inHandler m) (fun x => { dropped x with save := .restoring }))
    (mk.team 0).any (fun t => t.save != .restoring) = true ∧ ((s .restore).posiesOf 0).any (fun x => x.2.hd.mode != .held) = true ∧
    ((s .held).posiesOf 0).all (fun x => x.2.hd.mode == .held) = true ∧ ((s .held).team 0).any (fun t => t.save == .restoring &&
      decide (ringUsed ((s .held).core t.core) + t.savedTasks.length ≤ 64) && (ctxWrite (s .held) 0 [(t.header + 14, [0])]).2) = true ∧
    (let f := mk (inHandler .held) fun x => { x with save := .restoring, savedTasks := (List.range 65).map fun i => { team := 0, token := i, seq := i } }
     (f.team 0).any (fun t => decide (64 < ringUsed (f.core t.core) + t.savedTasks.length)) = true) := by
  decide +kernel

/-- A request of a saved posy that is not complete, and one that is gone. -/
theorem wit_ContextSteps_retagged : let s := fun rs => savedTeam fun t => { dropped t with retagged := [{ seq := 5, sub := 0, slot := 0 }], reqs := rs, images := [{ slot := 0, unit := 0, off := 0x130000, uid := 0 }] }
    ((s [{ seq := 5, kind := .load, stage := .atHome }]).team 0).any (fun t => !owedDone t { seq := 5, sub := 0, slot := 0 }) = true ∧
    ((s []).team 0).any (fun t => t.reqs == [] && t.retagged[0]? == some { seq := 5, sub := 0, slot := 0 } && (t.image 0).isSome && (ctxWrite (s []) 0 (owedCounts 0x130000 0 [])).2) = true ∧
    ((s []).team 0).any (fun t => t.loads == []) = true := by decide +kernel

/-- One request of team 0. -/
def rq (r : Req) (t : Team → Team := id) : State := mk (t := fun x => t { x with reqs := [r], nextSeq := r.seq + 1 })
def goes (v : Verdict) : Option (Leaf × (PageCls × Width)) := match v with | .go l o => some (l, o) | _ => none

/-- An L1 of 256 KiB in which every line is dirty: a store to another line finds no room. -/
def crammed (s : State) : State :=
  s.modCore 0 fun c => { c with lsplit := 8, l1 := (List.range 2048).map fun i => (1024 + i, some { valid := 15, dirty := 1 }) }

/-- Requests that wait, that a save keeps, that find the L1 full, and that load from and store to scratch and memory. -/
theorem wit_OrderSteps_leave : let q : Req := { seq := 3, kind := .load, addr := 0x10000, size := 4, fids := [0] }
    let st : Req := { q with kind := .store, data := (List.range 4).map fun i => (0x10000 + i, 7) }
    (verdict (rq q fun t => { t with reqs := [{ seq := 1, kind := .store, addr := 0x10000, size := 4, fids := [0] }, q] }) (((rq q fun t => { t with reqs := [{ seq := 1, kind := .store, addr := 0x10000, size := 4, fids := [0] }, q] }).team 0).getD { lid := 0, idx := 0, vd := 0, core := 0 }) q = .wait) ∧
    (∀ x ∈ ([({ q with scratch := true, addr := 0 }, true), ({ st with scratch := true, addr := 0, data := [(0, 1), (1, 2), (2, 3), (3, 4)] }, true), (q, false), (st, false)] : List (Req × Bool)),
      ((rq x.1).team 0).any (fun t => t.reqs[0]? == some x.1 && !unsent (rq x.1) t x.1 && !replayBehind (rq x.1) 0 x.1 && decide ((x.1.data.map (·.1)).Nodup) && match goes (verdict (rq x.1) t x.1) with
        | some (l, c, w) => x.2 || (x.1.kind != .store || (bufferBytes (rq x.1) 0 0 (paBytes l x.1) (w == .core)).any fun s1 => x.1.data.all fun y =>
              !(s1.cline (.l1 0) (lineOf (l.pa_ y.1))).poison.getLsbD (l.pa_ y.1 % 128 / 8)) && (reaches (rq x.1) 0 (l.pa_ 0x10000) && (match paKind (l.pa_ 0x10000) with | .hbm _ => true | _ => false) && !touchesRegion (rq x.1) t l x.1 &&
            !(c == .so && w != .core) && !bindWaits (rq x.1) 0 (l.pa_ 0x10000) && decide ((x.1.data.map fun y => l.pa_ y.1).Nodup))
        | none => false) = true) ∧
    ((rq { q with kept := true }).team 0).any (fun t => unsent (rq { q with kept := true }) t { q with kept := true }) = true ∧
    ((crammed (rq st)).team 0).any (fun t => !unsent (crammed (rq st)) t st && match goes (verdict (crammed (rq st)) t st) with
      | some (l, c, w) => reaches (crammed (rq st)) 0 (l.pa_ 0x10000) && !touchesRegion (crammed (rq st)) t l st && !(c == .so && w != .core) &&
          (bufferBytes (crammed (rq st)) 0 0 (paBytes l st) (w == .core)).isNone
      | none => false) = true := by decide +kernel

/-- The last reply of a load of one lane. -/
theorem wit_OrderSteps_reply : let r : Req := { seq := 3, kind := .load, addr := 0x100, size := 4, stage := .replied, reply := [(0x100, 1), (0x101, 2), (0x102, 3), (0x103, 4)] }
    let o : LoadOp := { seq := 3, uid := 0, dcls := .v, dst := 9, count := 1, kind := .plain 4 .i32, lanes := [{ lane := 0, fid := 0, addr := 0x100, subs := [0] }] }
    let s := rq r (loads [o])
    (s.team 0).any (fun t => t.reqs[0]? == some r && t.loads.find? (fun x => x.seq == 3) == some o && t.retagged.isEmpty) = true ∧ r.discard = false ∧
    posyOf s o.uid = (s.posy 0).map (fun p => (0, p)) ∧ (s.posy 0).isSome = true := by decide +kernel

/-- A clean and a dirty line, a dirty line of an RDC behind a closed port, one to be invalidated, one to be filled, and one that no request wants. -/
theorem wit_OrderSteps_lines : let m : Merging := { line := 512, parent := none, wait := [.l1 0, .host] }
    (mk.cline (.l1 0) 512).dirty = 0 ∧ ((dirty mk).cline (.l1 0) 512).dirty ≠ 0 ∧ ((dirty mk).cline (.l1 0) 512).sent = 0 ∧ (dirty mk).wbs = [] ∧
    wbRefused (dirty mk) (.l1 0) 512 = false ∧
    (let s := (mk.setCline (.rdc 1) 512 { valid := 15, dirty := 1 }).modDie 1 fun d => { d with fwClosed := 7 }
     (s.cline (.rdc 1) 512).dirty ≠ 0 ∧ (s.cline (.rdc 1) 512).sent = 0 ∧ s.wbs = [] ∧ isMerging s 512 (some 1) = false ∧ wbRefused s (.rdc 1) 512 = true) ∧
    Sharer.l1 0 ∈ m.wait ∧ m.line = 512 ∧ m.held = [] ∧ mk.merging = [] ∧
    (let s := rq { seq := 3, kind := .load, addr := 0x10000, size := 4, fids := [0] }
     fillWanted s (.l1 0) 512 0 = true ∧ (s.cline (.l1 0) 512).valid.getLsbD 0 = false ∧ canHold s (.l1 0) 512 = true ∧ parentOf (.l1 0) 512 = none ∧
     isMerging s 512 none = false ∧ (makeRooms s (.l1 0) 512).isSome = true ∧ fillWanted s (.l1 0) 512 1 = false) := by decide +kernel

/-- A write-back behind another, and one that merges; a line to evict, dirty and clean; an atomic at its home. -/
theorem wit_OrderSteps_home : let w : WBack := { from_ := .l1 0, line := 512, parent := none, bytes := [(0, 1), (127, 2)] }
    let r : Req := { seq := 3, kind := .atomic, addr := 0x10000, pa := 0x10000, size := 8, fmt := .i64, opnds := [{ lane := 0, x := 5 }], stage := .atHome }
    ({ mk with wbs := [w, w] }).wbs[1]? = some w ∧ (∃ v ∈ ({ mk with wbs := [w, w] }).wbs.take 1, v.line = w.line ∧ v.parent = w.parent) ∧
    isMerging { mk with wbs := [w] } w.line w.parent = false ∧ (w.bytes.map (·.1)).Nodup ∧
    (let c := mk.setCline (.l1 0) 512 { valid := 15 }
     let d := mk.setCline (.l1 0) 512 { valid := 15, dirty := 1 }
     (Sharer.l1 0 ∈ holders c 512 ∧ (c.cline (.l1 0) 512).unmerged = false) ∧ (Sharer.l1 0 ∈ holders d 512 ∧ (d.cline (.l1 0) 512).unmerged = true) ∧
     Sharer.l1 1 ∉ holders d 512) ∧
    ((rq r).team 0).any (fun t => t.reqs[0]? == some r) = true ∧ isMerging (rq r) (lineOf r.pa) none = false ∧ isMerging { rq r with merging := [{ line := 512, parent := none, wait := [.host] }] } (lineOf r.pa) none = true ∧
    (rq r).merging = [] ∧ r.pcls ≠ .bv ∧ (∀ i ∈ List.range r.size, (rq r).poisoned (r.pa + i) = false) ∧ r.pa % 128 + r.size ≤ 128 := by decide +kernel

/-- A delta of the die that is the authority; a region load at its home that no recall holds, one that waits for a recall, and one that is not there. -/
theorem wit_BoundedSteps : let k : ShareKey := { who := .l1 0, vd := 0, base := 0x20000, home := 0 }
    let x : Share := { who := .l1 0, vd := 0, base := 0x20000, home := 0, deltas := [(0x20000, 0x3F800000)], pas := [(0x20000, 0x20000)] }
    let s : State := { mk with shares := [x] }
    let r : Req := { seq := 3, kind := .load, addr := 0x20000, pa := 0x20000, size := 4, stage := .atHome }
    parentKey { k with who := .rdc 0 } = none ∧ (share s k).deltas = [(0x20000, 0x3F800000)] ∧ Tab.get 0 (share s k).pas 0x20000 = 0x20000 ∧ s.poisoned 0x20000 = false ∧
    ((List.range 4).all fun j => isMem (0x20000 + j)) = true ∧
    ((rq r).team 0).any (fun t => t.reqs[0]? == some r) = true ∧ isMerging (rq r) (lineOf r.pa) none = false ∧ ({ r with stage := .queued } : Req).stage ≠ .atHome ∧
    (∀ y ∈ ([({ r with pcls := .bv }, false), (r, true)] : List (Req × Bool)),
      let w := (rq y.1).modDie 0 fun d => { d with bound := [(0, { base := 0x20000, size := 0x80, st := .active, limit := 0x3F800000 })] }
      let v := { w with shares := [{ who := .l1 5, vd := 0, base := 0x20000, home := 0, g := 0x3F800000 }] }
      (v.team 0).any (fun t => (wordsRecall v t y.1 { pa := 0x20000, cls := y.1.pcls } (wordsTouched y.1.addr y.1.size)).isNone == y.2) = true) := by decide +kernel
/-! ## The park store, commands, engines -/

/-- A request of team 0 that reads an absent page, and a die with a limit. -/
def absent (st : Stage := .queued) (k : ReqKind := .load) : Req := { seq := 3, kind := k, addr := 0x80000, size := 4, fids := [0], stage := st }
def failing (s : State) : Bool := (s.team 0).any fun t => match t.reqs[0]? with
  | some r => (match verdict s t r with | .fail _ _ => true | _ => false)
  | none => false
def ent (o : Owner) (st : EntrySt := .parked) (n : Nat := 9) : Entry := { pseq := n, owner := o, va := 0x80000, size := 4, st := st, idxs := [0] }
def die0 (f : Die → Die) (s : State) : State := s.modDie 0 f

/-- Requests that go and that fail: on chip at the limit, in the overflow area, with no room, with an entry in replay, and one that a save keeps;
refused ones before and at 256 cycles. -/
theorem wit_ParkSteps_park :
    (((rq absent).team 0).any (fun t => !unsent (rq absent) t absent && !replayBehind (rq absent) 0 absent) = true ∧ failing (rq absent) = true ∧ onChip ((rq absent).die 0) + 1 ≤ ((rq absent).die 0).parkLimit ∧ ((rq absent).die 0).entries = []) ∧
    (let s := die0 (fun x => { x with parkLimit := 1, entries := [ent (.queue 5 0)] }) (rq absent)
     failing s = true ∧ (s.die 0).parkLimit < onChip (s.die 0) + 1 ∧ ovfSlots (s.die 0) = 0) ∧
    (let s := die0 (fun x => { x with parkLimit := 1, entries := [ent (.queue 5 0)], ovfCfg := 1, ovfBase := 0x40000 }) (rq absent)
     failing s = true ∧ (s.die 0).parkLimit < onChip (s.die 0) + 1 ∧ ovfSlots (s.die 0) = 2) ∧
    (let s := die0 (fun x => { x with entries := [ent (.req 0 3 0) .replay] }) (rq absent)
     failing s = true ∧ (s.team 0).any (fun t => !unsent s t absent && !replayBehind s 0 absent) = true ∧
     ((s.die 0).entries.find? fun e => e.owner == .req 0 3 0 && e.st == .replay) = some (ent (.req 0 3 0) .replay)) ∧
    (let r : Req := { absent with kept := true }
     ((rq r).team 0).any (fun t => unsent (rq r) t r) = true) ∧
    (let r := absent (.refused 0)
     ((rq r).team 0).any (fun t => !unsent (rq r) t r && !replayBehind (rq r) 0 r) = true ∧ failing (rq r) = true ∧ (at_ 255 (rq (absent (.refused 0)))).cycle < 0 + 256 ∧ 0 + 256 ≤ (at_ 256 (rq (absent (.refused 0)))).cycle) := by decide +kernel

/-- A request that follows a parked one. -/
theorem wit_ParkSteps_follow : let a : Req := { absent (.parked 0 9) with acq := true, width := .dev, kind := .load }
    let b : Req := { absent with seq := 4, addr := 0x80000 }
    let s := mk (t := fun t => { t with reqs := [a, b], nextSeq := 5 })
    (s.team 0).any (fun t => match verdict s t b with | .follow _ _ => true | _ => false) = true := by decide +kernel

def frec (n : Nat) : FaultRec := { pseq := n, bytes := rec0 }

/-- No record, a full ring, and two records with room in the smallest ring. -/
theorem wit_ParkSteps_post : (mk.die 0).pending = [] ∧
    (let s := die0 (fun x => { x with frCfg := 6, frTail := 64, pending := [frec 1], frWords := 0x50000, frBase := 0x51000 }) mk
     (s.die 0).frTail - s.phys64 ((s.die 0).frWords.toNat + 128) = 2 ^ (s.die 0).frCfg.toNat) ∧
    (let s := die0 (fun x => { x with frCfg := 6, frTail := 63, pending := [frec 2, frec 1], frWords := 0x50000, frBase := 0x51000 }) mk
     (s.die 0).pending ≠ [] ∧ ((List.range 64).all fun i => isMem ((s.die 0).frBase.toNat + i) && isMem ((s.die 0).frWords.toNat + i)) = true ∧ (s.die 0).frTail - s.phys64 ((s.die 0).frWords.toNat + 128) ≠ 2 ^ (s.die 0).frCfg.toNat ∧ (frec 1).bytes.length = 64) := by decide +kernel

/-- Entries that are parked, in replay with a request left, in replay and done, of a read that nobody waits for and whose page still fails; followers
without a leader, behind another follower, with their leader and with another. -/
theorem wit_ParkSteps_entries : let s := fun (st : EntrySt) (rs : List Req) => die0 (fun x => { x with entries := [ent (.req 0 3 0) st] }) (mk (t := fun t => { t with reqs := rs }))
    findEntry (s .parked []) 0 9 = some (ent (.req 0 3 0)) ∧ ownerDone (s .replay [absent]) (.req 0 3 0) = false ∧ ownerDone (s .replay []) (.req 0 3 0) = true ∧
    lostFail (s .replay []) 0 (ent (.req 0 3 0) .replay) = none ∧
    (let l := ent (.lost (some 0) (some 0) false 9) .replay
     let s := die0 (fun x => { x with entries := [l] }) mk
     findEntry s 0 9 = some l ∧ (lostFail s 0 l).isSome = true ∧ ((s.die 0).entries.find? fun o => o.owner == l.owner && o.st == .replay) = some l) ∧
    (let f := absent (.parked 0 9)
     ((s .follower [f]).team 0).any (fun t => t.reqs.find? (fun q => q.seq == 3 && q.sub == 0) == some f && stillLeads t f == [] && !followerBefore t f) = true) ∧
    (let q : Req := { absent (.parked 0 5) with seq := 2, addr := 0x90000, followed := [1] }
     let f : Req := { absent (.parked 0 9) with followed := [1] }
     ((s .follower [q, f]).team 0).any (fun t => stillLeads t f == [] && followerBefore t f) = true) ∧
    (let l : Req := { absent (.parked 0 5) with seq := 2 }
     let f := absent (.parked 0 9)
     ((s .follower [l, f]).team 0).any (fun t => (stillLeads t f).getLast? == some l && pseqOf l == some 5) = true ∧
     (ent (.req 0 3 0) .follower).leader ≠ some 5 ∧ ({ ent (.req 0 3 0) .follower with leader := some 5 } : Entry).leader = pseqOf l) := by decide +kernel

/-- A command of each code, of each scope, with the entry that it names. -/
theorem wit_ParkSteps_commands : let s := fun (op scope : Nat) => die0 (fun x => { x with entries := [{ ent (.req 0 3 0) with va := 0x80000 }], parkCmd := some { op := op, scope := scope, pgsz := 0, vd := 0, arg := if scope = 0 then 9 else if scope = 1 then 0x80000 else 0, limit := [9] } }) (rq (absent (.parked 0 9)))
    (∀ op ∈ [1, 2, 3], ∀ scope ∈ [0, 1, 2], ((s op scope).die 0).parkCmd.any (fun c => c.op == op && (((s op scope).die 0).entries.filter fun e => inScope c e) == [ent (.req 0 3 0)]) = true) ∧ (mk.die 0).parkCmd = none := by
  decide +kernel

/-- The state in which a table command is pending. -/
def cmd (n : Nat) (a0 a1 : BitVec 64) (s : State := mk) : State := { s with xd := { s.xd with cmd := some n, cmda0 := a0, cmda1 := a1 } }
def hasCore0 (s : State) : State := s.modVd 0 0 fun v => { v with plcount := 2, places := [(0, { core := 0, valid := true })] }

/-- TINV behind a write of the host, of a bad scope and of a page; PLACESET of an undefined VD, of a bad core, of a core that another place has, of a place whose core is busy and of one whose core is not. -/
theorem wit_Commands_tables : (∃ m ∈ ({ cmd 1 0 0 with merging := [{ line := 512, parent := none, wait := [.l1 0] }] } : State).merging, m.req = none ∧
      (m.writer = none ∨ m.writer = some .host)) ∧ (cmd 1 0x3000 0).merging = [] ∧ (cmd 1 0x3000 0).xd.cmd = some 1 ∧ (0x3000 : BitVec 64).toNat / 2 ^ 12 % 4 = 3 ∧
    (0x2000 : BitVec 64).toNat / 2 ^ 12 % 4 = 2 ∧ (0x10000 : Nat) % pageBytes ((0x2000 : BitVec 64).toNat / 2 ^ 16 % 4) = 0 ∧
    ((cmd 2 5 0).vd 0 5).isNone = true ∧ ((cmd 2 0 192 (hasCore0 mk)).vd 0 0).any (fun v => v.plcount == 2) = true ∧
    (let s := cmd 2 0x10000 0 (hasCore0 mk)
     (s.xd.cmda0.toNat / 2 ^ 16 % 256 = 1) ∧ (s.vd 0 0).any (fun v => (Tab.get {} v.places 0).valid && (Tab.get {} v.places 0).core == s.xd.cmda1.toNat % 256) = true) ∧
    (let s := cmd 2 0 0x105 (hasCore0 mk)
     partOfCore s 5 = 0 ∧ (Tab.live s.teams).any (fun e => e.2.part == 0 && e.2.vd == 0 && e.2.core == 0) = true) ∧
    (let s := cmd 2 0x10000 0x105 (hasCore0 mk)
     (Tab.live s.teams).any (fun e => e.2.part == 0 && e.2.vd == 0 && e.2.core == (Tab.get { core := 191 } [] 1 : Place).core) = false) := by decide +kernel

/-- Queue 1 of partition 0, whose descriptor lies at 0x20040. -/
def qd (en : Bool) (f : List (Nat × Nat)) (n : Nat := 3) : State :=
  let s := cmd n 0 1 (qs id ([(0x13000, 0), (0x13080, 0)] ++ f))
  { s with xd := { s.xd with qdtBase := 0x20000, qrange := [(0, 0x1FFFF0000)] }, queues := [(1, { enable := en })] }

/-- QENABLE of an enabled queue, of one that no partition has, of a bad descriptor, and of a good one; QDISABLE of both kinds. -/
theorem wit_Commands_queues : ((qd true []).queue 1).enable = true ∧ partOfQueue { qd false [] with xd := { (qd false []).xd with qrange := [] } } 1 = none ∧
    (partOfQueue (qd false []) 1 = some 0 ∧ leNat (((qd false []).physBytes 0x20040 64).drop 16 |>.take 1) < 4) ∧
    (let s := qd false [(0x20040, 0x10000), (0x20048, 0x13000), (0x20050, 4), (0x20060, 16)]
     (s.queue 1).enable = false ∧ partOfQueue s 1 = some 0 ∧ badQueue (s.physBytes 0x20040 64) = false ∧ isMem (0x20040 + 19) = true ∧ (s.vd 0 0).isSome = true ∧
     bytesOf (qRead s 0 0 (0x13000 + 128) 8) = some (leBytes 8 0, false) ∧ bytesOf (qRead s 0 0 0x13000 8) = some (leBytes 8 0, false)) ∧
    ((qd false [] 4).queue 1).enable = false ∧ ((qd true [] 4).queue 1).enable = true := by decide +kernel

/-- VD 1 of partition 0, whose descriptor lies at 0x20080. -/
def vdd (w : List (Nat × Nat)) : State :=
  let s := cmd 5 1 0 (w.foldl (fun s x => s.write64 x.1 x.2) mk)
  { s with xd := { s.xd with vdtBase := 0x20000 } }

/-- VDCREATE of a defined VD, of a bad descriptor, and of a good one; VDDESTROY of a VD with a team, and of one without. -/
theorem wit_Commands_vds : ((cmd 5 0 0).vd 0 0).isSome = true ∧ (leNat (((vdd []).physBytes 0x20080 128).drop 48 |>.take 2) < 1 ∧ ((vdd []).vd 0 1).isNone = true) ∧
    (let s := vdd [(0x20088, 0x1000), (0x20090, 0x100000000), (0x200A0, Config.coreArea), (0x200A8, 0x30000), (0x200B0, 1 + 2 ^ 32), (0x200C8, 1), (0x30000, 0x100)]
     badVd (s.physBytes 0x20080 128) = false ∧ isMem 0x20080 = true ∧ badPlaces s 0 1 (readPlaces s 0x30000 1) = false ∧ (s.vd 0 1).isNone = true) ∧
    vdBusy (cmd 6 0 0) 0 0 = true ∧ vdBusy (cmd 6 1 0) 0 1 = false := by decide +kernel

def tcmd (n : Nat) (a0 a1 a2 : BitVec 64) (s : State) : State := { s with xd := { s.xd with tcmd := some n, tcmda0 := a0, tcmda1 := a1, tcmda2 := a2 } }
def stopped : State := mk (t := fun t => { t with stopped := some (0, true) })

/-- TRESUME of a team that is not stopped, to a bad address, with a record to post, and without; LKILL of no launch and of one. -/
theorem wit_Commands_traps : stoppedTeam mk 0 0 = none ∧ (stoppedTeam stopped 0 0).any (fun x => x.1 == 0 && x.2.stops == [(0, true)]) = true ∧
    ((2 : BitVec 64) ≠ BitVec.allOnes 64 ∧ (2 : BitVec 64).toNat % 4 ≠ 0) ∧
    (recordTeam stopped rec0).any (fun u => u.lid == 0 && u.idx == 0) = true ∧ stopped.traps = [] ∧ (stopped.team 0).any (fun t => t.occupies) = true ∧
    (stopped.posy 0).any (fun p => p.team == 0) = true ∧ (mk.launch 1).isNone = true ∧ ((ls l0).launch 1).isSome = true ∧
    ((ls l0).queue l0.queue).owed = [] := by decide +kernel

/-- Registers: a park store with and without overflow entries, pending records, a move in progress and one to start; a bad and a good
move, one that waits, and one that was checked and whose entry has changed since. -/
theorem wit_RegisterWrites_die : inRing ((die0 (fun x => { x with entries := [{ ent (.queue 5 0) with overflow := true }] }) mk).die 0) ≠ 0 ∧ inRing (mk.die 0) = 0 ∧
    ((die0 (fun x => { x with pending := [frec 1] }) mk).die 0).pending ≠ [] ∧ (mk.die 0).pending = [] ∧ ((die0 (fun x => { x with migStat := 4 }) mk).die 0).migStat.getLsbD 2 = true ∧
    (mk.die 3).migStat.getLsbD 2 = false ∧
    (let mig : List Nat → Tab Byte := fun l => Tab.ofList 0 0 ([0, 0, 0, 0, 0, 0, 0, 0] ++ l.flatMap (leBytes 8))
     let s := fun (l : List Nat) (w : State) => die0 (fun x => { x with migRun := true, mig := mig l }) (w.write64 0x4010 0x200006BF)
     let l := [0x20000, 0x20000, 0x30000, 0x4010, 0x3069F]
     (moveOf ((s [1] mk).die 0)).va % pageBytes 0 ≠ 0 ∧
     (let m := moveOf ((s l mk).die 0)
      m.pgsz ≤ 2 ∧ m.va % pageBytes m.pgsz = 0 ∧ m.src % pageBytes m.pgsz = 0 ∧ m.dst % pageBytes m.pgsz = 0 ∧ m.ptea % 8 = 0 ∧ ((s l mk).phys64 m.ptea).testBit 5 = true ∧ ((List.range 8).all fun i => isMem (m.ptea + i) && isMem ((mk.die 0).frWords.toNat + i)) = true ∧ m.newpte.testBit 5 = false ∧
      moveWaits (s l mk) m = false ∧ (linesIn (s l mk) m.src (pageBytes m.pgsz)).isEmpty = true ∧ (s l mk).merging = [] ∧
      ((s l mk).dies.all fun x => x.2.bound.isEmpty && x.2.entries.isEmpty) = true ∧
      moveWaits (s l (rq { absent .atHome with pa := 0x2FFFC })) m = true ∧
      reaches (s l mk) 0 m.ptea = true ∧ (s l mk).poisoned m.ptea = false ∧ ((s l mk).die 0).migSt = .check ∧
      (let w := die0 (fun x => { x with migSt := .drain }) ((s l mk).write64 0x4010 0x2000069F)
       (w.die 0).migRun = true ∧ (w.die 0).migSt = .drain ∧ (w.phys64 m.ptea).testBit 5 = false ∧ moveWaits w m = false ∧ linesIn w m.src (pageBytes m.pgsz) = [] ∧
       pageAuthorities w (partOfDie w 0) m.vd m.va (pageBytes m.pgsz) = [] ∧
       (let g : State := die0 (fun x => { x with bound := [(0, { base := 0x20000, size := 0x80, st := .active, limit := 0x3F800000 })] })
          { w with shares := [{ who := .l1 5, vd := 0, base := 0x20000, home := 0, g := 0x3F800000 }] }
        (pageAuthorities g (partOfDie g 0) m.vd m.va (pageBytes m.pgsz)).any (fun a => !(grantsOf g a.key none).isEmpty) = true ∧ moveWaits g m = false)))) := by decide +kernel

/-- Maps of partitions that are in use and that are not; a base in use; FEAT_ACCEPT locked; a call that ends. -/
theorem wit_RegisterWrites_module : let free : State := { mk with vds := [], queues := [], teams := [], posies := [] }
    (mk.xd.partmap.toNat % 4 ≠ (1 : BitVec 64).toNat % 4 ∧ (Tab.live mk.vds).any (fun x => x.1 / 64 == 0) = true) ∧
    (free.queues = [] ∧ (Tab.live free.vds).isEmpty = true) ∧ (Tab.live mk.vds).isEmpty = false ∧ mk.xd.acceptLocked = false ∧
    (let c : CallRec := { pa := 0x10000, va := 0x10000, vd := 0, team := 0, uid := 0, sub := 1, token := 1 }
     let s := { qs id with calls := [c] }
     c.pa = (b64 (2 ^ 61 * 5 + 0x10000)).toNat / 2 ^ 6 % 2 ^ 46 * 64 ∧ (b64 (2 ^ 61 * 5 + 0x10000)).toNat / 2 ^ 61 = 5 ∧
     (qWrite { s with calls := [{ c with status := 5 }] } 0 0 (0x10000 + 6) (leBytes 2 5)).any (fun s1 => (s1.team 0).isSome) = true) ∧
    ((cmd 1 0 0).xd.cmd ≠ none ∧ mk.xd.cmd = none ∧ mk.xd.tcmd = none ∧ (mk.die 3).parkCmd = none ∧ (b64 (2 ^ 60)).toNat / 2 ^ 58 = 4) := by decide +kernel

/-! ### Engines -/

/-- A handle that is over, one that is not ready, one that takes its final status. -/
theorem wit_EngineSteps_handles : ∀ x ∈ ([({ kind := .copy, status := 1 }, false), ({ kind := .copy }, false), ({ kind := .copy, ready := true, bad := true, cancelled := true }, true)] : List (HandleSt × Bool)),
    ((mk (t := cmd1 x.1)).team 0).any (fun t => Tab.get none t.handles 1 == some x.1 && (x.1.status == 0 && x.1.ready) == x.2 && t.save == .resident) = true := by decide +kernel

/-- A copy of one part on core 0. -/
def copying (c : CopyCmd) (w : State := mk (t := cmd1 { kind := .copy })) : State := w.modCore 0 fun x => { x with copies := [c] }
def cp (c : CopyCmd → CopyCmd) (p : CpPart) : CopyCmd := c { team := 0, token := 1, parts := [p], left := true }
def part1 : CpPart := { src := 0x10000, dst := 0x10080, len := 128 }

/-- A copy that has not left; that reads scratch and memory; that writes scratch with a counter, and memory. -/
theorem wit_EngineSteps_copies :
    (∀ c ∈ [cp (fun c => { c with left := false }) part1, cp (fun c => { c with srcScr := true }) part1, cp id part1,
        cp (fun c => { c with dstScr := true, lc := some 0xF00 }) { part1 with dst := 0x80, st := .have_ (List.replicate 128 5) }, cp id { part1 with st := .have_ (List.replicate 128 5) }],
      findCopy (copying c) 0 0 1 = some c ∧ ((copying c).team 0).any (fun t => !isCancelled t 1 && t.onCore && !scratchPoisoned t 0xF00) = true) ∧
    (let s := copying (cp id part1)
     (s.team 0).any (fun t => match engWalk s t 0 0x10000 { r := true }, engWalk s t 0 0x10080 { w := true } with
       | .leaf l, .leaf m => (match paKind (l.pa_ 0x10000) with | .hbm _ => true | _ => false) && reaches s 0 (l.pa_ 0x10000) && reaches s 0 (m.pa_ 0x10080) &&
          !touchesRegion s t l (engReq 0 0x10000 (l.pa_ 0x10000) 128 l.pgsz) && (List.range 128).all (fun j => !bindWaits s 0 (l.pa_ 0x10000 + j)) &&
          m.cls != .bv && (List.range 128).all (fun j => isMem (m.pa_ 0x10080 + j))
       | _, _ => false) = true) := by decide +kernel

/-- A PUT with a part left; to no team; beyond the receiver's segment; to a saved team; to a resident one at the end of its segment. -/
theorem wit_EngineSteps_puts : let s := fun (c : CopyCmd) (t2 : Team → Team) => copying c (hasCore0 ((mk (t := cmd1 { kind := .copy })).setTeam 5
      (some (t2 { lid := 0, idx := 1, vd := 0, core := 0, place := 0, scr := SegReg.make 0 0x1000 true true true }))))
    let c := fun (off : Nat) (idx : Nat) => cp (fun c => { c with put := some (0, idx, off), lc := some 0, total := 128, buf := (List.range 128).map fun i => (i, some 7) }) { part1 with st := .done }
    let named := fun (s : State) (idx : Nat) => (s.team 0).bind fun t => if placeOk s t 0 then putTeam s t 0 idx else none
    (cp (fun c => { c with put := some (0, 1, 0) }) part1).parts.any (fun p => p.st != .done) = true ∧ (named (s (c 0 9) id) 9).isNone = true ∧
    (named (s (c 0xF81 1) id) 1).any (fun x => decide (x.2.scr.limit < 0xF81 + 128)) = true ∧
    (named (s (c 0xF80 1) fun t => { t with save := .saved false }) 1).any (fun x => !x.2.onCore) = true ∧
    (named (s (c 0xF80 1) id) 1).any (fun x => x.1 == 5 && decide (0xF80 + 128 ≤ x.2.scr.limit) && x.2.onCore) = true := by decide +kernel

/-- A core with a load, a task and macros. -/
def kiln (c : Core → Core) (h : HandleSt := { kind := .ktask }) : State := (mk (t := cmd1 h)).modCore 0 c
def kl : KLoad := { team := 0, token := 1, seq := 3, desc := { sseg := .scr, sfmt := .f32, mfmt := .sx2, pitch := 512, tag := 7 }, macros := [0, 15] }
def tk : Task := { team := 0, token := 1, seq := 4, afmt := .mem (.sx .sx2), aseg := .scr, btag := 7, block := 2, acc := 3 }

/-- A load whose macro is not there, that is refused, that has a request to make, and that ends. -/
theorem wit_KilnSteps_load : ∀ x ∈ ([(.empty, 0, [], 0), (.loading, 5, [], 1), (.loading, 0, [(0xF80, 128)], 2), (.loading, 0, [], 3)] : List (MacSt × Nat × List (Nat × Nat) × Nat)),
    let l := { kl with retry := x.2.1, todo := x.2.2.1 }
    let s := kiln fun c => { c with kloads := [l], macros := [(0, { st := x.1 }), (15, { st := x.1 })] }
    (s.core 0).kcmds = [] ∧ (s.core 0).kloads.find? (fun k => k.team == 0 && k.token == 1) = some l ∧ l.reload = false ∧ l.aborted = [] ∧ (s.team 0).any (fun t => t.onCore) = true ∧
    (decide (s.cycle < l.retry) = (x.2.2.2 == 1)) ∧ (l.macros.all fun m => ((s.core 0).macro_ m).st == .loading) = (x.2.2.2 != 0) := by decide +kernel

/-- A task that enters its fetch, that may not, that reads, that has read; one that runs and one whose time is over. -/
theorem wit_KilnSteps_task :
    (∀ x ∈ ([(tk, true), ({ tk with deps := [1] }, false), ({ tk with st := .fetching, todo := [(0, 128)] }, true), ({ tk with st := .fetching }, true)] : List (Task × Bool)),
      let s := kiln fun c => { c with ring := [x.1] }
      (s.core 0).kcmds = [] ∧ findTask (s.core 0) 0 1 = some x.1 ∧ ((s.team 0).any fun t => (x.1.st != .entered || fetchMay (s.core 0) t x.1) == x.2 && t.onCore) = true ∧
      entriesUsed (s.core 0) < 16 ∧ (s.core 0).held = [] ∧ x.1.afmt ≠ .acc) ∧
    (let k := { tk with st := .started 0 64, rows := 32 }
     let s := kiln fun c => { c with ring := [k], blocks := [{ id := 2, team := 0, rows := [], mA := 2 }], macros := [(0, { st := .ready, tag := 7, running := some 1 })] }
     findTask (s.core 0) 0 1 = some k ∧ (at_ 63 s).cycle < 64 ∧ 64 ≤ (at_ 64 s).cycle ∧ (s.core 0).blocks.find? (fun b => b.id == k.block) ≠ none ∧ k.rows ≤ 32) := by decide +kernel

/-- A task that fails after another that does not; a task that may start behind one that may not; an empty ring. -/
theorem wit_KilnSteps_start : let b : ABlock := { id := 2, team := 0, rows := [], mA := 2 }
    let m : Tab Macro := [(15, { st := .ready, team := 0, tag := 7, lseq := 0 })]
    let s := kiln fun c => { c with ring := [{ tk with st := .fetched }], blocks := [b], macros := m }
    let f := kiln (fun c => { c with ring := [{ tk with st := .fetched, deps := [1] }], blocks := [b], macros := m }) { kind := .ktask, status := 3 }
    let n := kiln fun c => { c with ring := [tk] }
    (s.team 0).any (fun t => startOn (s.core 0) t { tk with st := .fetched } == some 15 && taskFails (s.core 0) t { tk with st := .fetched } == none) = true ∧
    (f.team 0).any (fun t => taskFails (f.core 0) t { tk with st := .fetched, deps := [1] } == some 3) = true ∧
    (n.team 0).any (fun t => taskFails (n.core 0) t tk == some 5 && startOn (n.core 0) t tk == none) = true ∧ (mk.core 0).ring = [] := by decide +kernel
/-! ## From outside, and the whole machine -/

def links (s : State) : State := { s with xd := { s.xd with cxlUp := 3 } }

/-- HBM, device registers and host memory; links up and down; a machine whose firmware failed; a line that the host port must drop. -/
theorem wit_OutsideSteps_host : paKind 0xBFFFFFFFF8 = .hbm 3 ∧ ((List.range 8).all fun i => isMem (0x1007C + i) && isMem (0xBFFFFFFFF8 + i)) = true ∧ (cutLines 0x1007C 8).all (fun x => !isMerging mk (lineOf x.1) none) = true ∧ (links mk).xd.cxlUp ≠ 0 ∧ mk.xd.cxlUp = 0 ∧
    mk.bootFailed = false ∧ paKind Config.devBase = .dev ∧ State.reset.boot < 5 ∧ 5 ≤ (links mk).boot ∧ ({ mk with bootFailed := true }).bootFailed = true ∧
    paKind (linePa (lineOf Config.hostBase)) = .host ∧ isMerging mk (lineOf Config.hostBase) none = false ∧
    (let m : Merging := { line := 512, parent := none, wait := [.host] }
     ({ mk with merging := [m] }).merging.find? (fun m => m.line == 512 && m.wait.contains .host) = some m) ∧ mk.merging = [] := by decide +kernel

/-- A port that is down; a request inside its window to the last byte; one byte beyond; soft errors. -/
theorem wit_OutsideSteps_peer : let s : State := { mk with xd := { mk.xd with peerUp := 2, peerInb := [(1, 2 ^ 63 + 0x10000)], peerInl := [(1, 0x100)] } }
    s.xd.peerUp.getLsbD 0 = false ∧ s.xd.peerUp.getLsbD 1 = true ∧ (Tab.get 0 s.xd.peerInb 1).getLsbD 63 = true ∧ (Tab.get 0 s.xd.peerInb 1).toNat % 2 ^ 52 = 0x10000 ∧
    0xF8 + 8 ≤ (Tab.get 0 s.xd.peerInl 1).toNat ∧ ¬0xF9 + 8 ≤ (Tab.get 0 s.xd.peerInl 1).toNat ∧ paKind 0x100F8 = .hbm 0 ∧ paKind 0x100FF = .hbm 0 ∧ ((List.range 8).all fun i => isMem (0x100F8 + i)) = true ∧ s.merging = [] ∧
    partOfDie s 0 = partOfPort s 1 ∧ (s.team 0).any (fun t => decide (8 * 0x1FF < t.salloc)) = true := by decide +kernel

/-- Each step of bring-up; each edge of the temperatures and of the dwell; a nonce. -/
theorem wit_OutsideSteps_own : (∀ n ∈ [0, 1, 2, 3, 4, 5], ({ State.reset with boot := n }).boot = n) ∧ ({ State.reset with boot := 1 }).bootFailed = false ∧
    (∀ x ∈ ([(89, 1), (90, 1), (94, 0), (95, 0), (95, 1), (95, 2), (104, 0), (105, 0)] : List (BitVec 8 × Nat)), let s : State := { State.reset with tj := x.1, thermStep := x.2, hotSince := some 0, coolSince := some 0 }
      s.tj = x.1 ∧ s.thermStep = x.2 ∧ (at_ 999999 s).time < 0 + 1000000 ∧ 0 + 1000000 ≤ (at_ 1000000 s).time) ∧
    (List.replicate 48 (7 : Byte)).length = 48 ∧ State.reset.bootFailed = false := by decide +kernel

/-- An instruction of two words at the end of a fetch block, a REP whose body begins the next block, and words that decode. -/
theorem wit_DecodeAndEncodeAgree : let i : Instr := .add (v2 .i32)
    let r : Instr := .rep { cnt := 7, dstep := 1, body := .reg 0x20 (v2 .i32) }
    (Instr.WellFormed i ∧ encode i ≠ [] ∧ InBlock 24 i) ∧ (Instr.WellFormed r ∧ encode r ≠ [] ∧ InBlock 24 r) ∧
    (decode 0 [0x02044C81, 0xFFE83AFD] = .ok (.add { h := { gp := 3, gn := true }, fmt := .i32, d := rV 4, a := rV 2, b := .imm (.i18 (-3)) }) ∧
      Instr.words (.add { h := { gp := 3, gn := true }, fmt := .i32, d := rV 4, a := rV 2, b := .imm (.i18 (-3)) }) ≤ 2) :=
  ⟨⟨by decide +kernel, by decide +kernel, by decide +kernel, by decide +kernel⟩, ⟨by decide +kernel, by decide +kernel, by decide +kernel, by decide +kernel, by decide +kernel⟩,
    okAs (by decide +kernel), by decide +kernel⟩

/-- Words of each kind: LEN zero, past the block, an unassigned opcode at the edges of each range, a reserved format. -/
theorem wit_ChecksAndTraps_words : (0xFFFFFFFC : W32).toNat % 4 = 0 ∧ (32 < 28 + 4 * ((0x20 : Nat) * 4 % 4 + 1 + 1)) ∧
    (∀ c ∈ [0x12, 0x1F, 0x3C, 0x3F, 0x48, 0x4F, 0x63, 0x6B, 0x6F, 0x75, 0x7A, 0x7F, 0x93, 0x9F, 0xA8, 0xAF, 0xB8, 0xBF, 0xC7, 0xFF],
      (BitVec.ofNat 32 (4 * c + 1)).toNat / 4 % 256 = c ∧ (BitVec.ofNat 32 (4 * c + 1)).toNat % 4 ≠ 0) ∧
    (0x00380000 : W32).toNat / 2 ^ 18 % 16 = 14 ∧ (0x003C0000 : W32).toNat / 2 ^ 18 % 16 = 15 := by decide +kernel

/-- The checks of one instruction, by what fails first. -/
def firstFail (n : Need) (h : Hdr) (s : State) (e : Env) : Option Nat :=
  [n.type, n.regs.all (RegUse.ok e) && n.regOk e, !n.priv || e.p.privileged, !(n.regs.any (pends s e) || pends s e (guardUse h)),
   !n.full || (e.p.active h).length == e.f.refs, n.tags.all (TagUse.ok e)].findIdx? (!·)

/-- A class, a register, a mode, a pending register, a mask, a tag. -/
theorem wit_ChecksAndTraps_first : (let f := fun (s : State) (o : Ops) => (curEnv s).bind fun e => firstFail (aluAdd o).need o.h s e
    f mk { v2 .i16x2 with d := rS 1 } = some 0 ∧ f mk { v2 .u64 with d := rV 255 } = some 1 ∧ f (mk (t := loads [pendingV 2])) (v2 .i32) = some 3 ∧
    f (mkN 2 pred1) { h := { gp := 1 }, fmt := .i32, d := rS 1, a := rS 2, b := .reg (rS 3) } = some 4 ∧
    f (mk fun p => { p with tags := [(8, 2)] }) (v2 .i32) = some 5) ∧
    ((curEnv mk).bind fun e => firstFail (swriteNeed { x10 := 0x40, a := rS 4 }) {} mk e) = some 2 := by decide +kernel

/-- A trap of a posy whose numbers are in range. -/
theorem wit_ChecksAndTraps_record : (curEnv mk).any (fun e => decide (e.p.pc < 2 ^ 64 ∧ e.t.lid < 2 ^ 64 ∧ e.t.idx < 2 ^ 32 ∧ e.slot < 256)) = true ∧ (0xFFFF : Nat) < 2 ^ 16 ∧
    ∀ L ∈ [0, 63], L < 64 := by decide +kernel

/-- A turn that issues an instruction and one that meets a decode trap; the fetch from HBM; a turn of another agent; a tick. -/
theorem wit_StepRunsTheDecodedInstruction : let s := State.reset.withFetchWord 64 0xFFE83AFD02044C81
    let b := State.reset.withFetchWord 64 0
    let s0 := { s with turns := [] }
    (s.turns = .issue 0 0 :: s0.turns ∧ 4 ≤ s0.boot ∧ (envAt s0 (posyKey 0 0)).any (fun e => mayIssue s0 e && e.p.fetchOnes == none && e.p.pc % 32 != 24 &&
      (match translate s0 e.t.part e.t.vd (some e.core) (dieOf e.core) e.p.pc { x := true } e.p.privileged with
       | .leaf l => (match paKind (l.pa_ e.p.pc) with | .hbm _ => true | _ => false) && reaches s0 (dieOf e.core) (l.pa_ e.p.pc) && (List.range 32).all (fun j => !s0.poisoned (l.pa_ e.p.pc + j)) && !isMerging s0 (lineOf (l.pa_ e.p.pc)) none
       | .fail _ => false) &&
      (match fetchBytes s0 e with | .got _ bs => (match decodeBytes (e.p.pc % 32) bs with | .ok i => i == .add { h := { gp := 3, gn := true }, fmt := .i32, d := rV 4, a := rV 2, b := .imm (.i18 (-3)) } | _ => false) | _ => false)) = true) ∧
    (envAt { b with turns := [] } (posyKey 0 0)).any (fun e => match fetchBytes { b with turns := [] } e with | .got _ bs => (match decodeBytes (e.p.pc % 32) bs with | .ok (.unassignedOpcode _) => true | _ => false) | _ => false) = true ∧
    (encode .bringUp = [] ∧ encode (.add (v2 .i32)) ≠ []) ∧ (State.reset.sixths < 6 ∧ 4 ≤ State.reset.boot) := by decide +kernel

/-- A state that meets the invariant, and its step. -/
theorem wit_StepKeepsTheInvariant : Inv { State.reset with turns := [.tick] } ∧ ∃ t, step { State.reset with turns := [.tick] } = .next t :=
  ⟨⟨by decide, by decide, by decide, by decide⟩, ⟨_, rfl⟩⟩

/-! ## Further cases -/

/-- The largest value that does not round above the largest finite one, and the next that does: F16 in RNE and RUP, E4M3. -/
theorem wit_Rounding_overflow : let r := fun (F : FF) (m : RMode) n => (roundInt m 1 false n (1 * 2 ^ (topFinite F).2)).1
    r .f16 .rne 65519 ≤ (topFinite .f16).1 ∧ (topFinite .f16).1 < r .f16 .rne 65520 ∧ r .f16 .rz 65535 ≤ (topFinite .f16).1 ∧
    (topFinite .f16).1 < r .f16 .rup 65505 ∧ r .e4m3 .rne 464 ≤ (topFinite .e4m3).1 ∧ (topFinite .e4m3).1 < r .e4m3 .rne 465 ∧
    0 < 1 := by decide +kernel

theorem wit_Conversions_finite : (match FF.f32.decode 0x4B800000 with | .fin neg m => !neg && decide (2 ^ FF.f32.p * m.d ≤ m.n) | _ => false) = true ∧
    (match FF.bf16.decode 0xBFC0 with | .fin neg m => neg && decide (m.n < 2 ^ FF.bf16.p * m.d ∧ ¬m.d ∣ m.n) | _ => false) = true ∧ 0x4B800000 < 2 ^ 32 := by
  decide +kernel

def isFin : FVal → Bool | .fin _ _ => true | _ => false

/-- A finite result of a nonzero input: EX2 of 3 in F16 and F32, LG2 of 4 and of 1 (near 1); and inputs of SIN and TANH whose true value is at most 2. -/
theorem wit_SpecialInputs_bounds :
    (([(.ex2, .f16, 0x4200), (.ex2, .f32, 0x40400000), (.lg2, .f32, 0x40800000), (.lg2, .f32, 0x3F800000)] : List (SfuOp × FF × Nat)).all fun x =>
      isFin (x.2.1.decode x.2.2) && isFin (x.2.1.decode (x.1.eval x.2.1 {} 1 x.2.2).pat)) = true ∧
    (([(.sin, 0x40400000), (.tanh, 0x42480000)] : List (SfuOp × Nat)).all fun x => match FF.f32.decode x.2 with
      | .fin neg m => decide (m.n ≠ 0) && Mag.le (x.1.true_ ⟨neg, m⟩).m ⟨2, 1⟩
      | _ => false) = true := by decide +kernel

/-- Floating DOT with a NaN and with finite elements; PACK of F32 into each half and of F16; UNPK into F32 and into F16. -/
theorem wit_PackedOperations_floats : FF.ofFmt .e4m3x4 = some .e4m3 ∧ FF.ofFmt .bf16x2 = some .bf16 ∧ FF.f16.read false 0x7E00 = .nan ∧ FF.e4m3.read false 0x7F = .nan ∧
    ([0x3C00, 0xBC00, 0].all fun x => isFin (FF.f16.read false x)) = true ∧ isFin (FF.f32.read false 0x3F800000) = true ∧
    (([{ v2 .f16x2 with sub := 1 }, { v2 .i8x4 with sub := 1, x10 := 1 }, { v2 .e4m3x4 with sub := 2 }] : List Ops).map fun o =>
      (Instr.legal (.pack o), Fmt.count ((Fmt.ofCode o.sub.toNat).getD .raw))) = [(true, 1), (true, 1), (true, 2)] ∧
    (([{ v1 .f32 with sub := 4, x10 := 1 }, { v1 .f16x2 with sub := 4, x10 := 1 }] : List Ops).map fun o => (Instr.legal (.unpk o), Fmt.count o.fmt)) = [(true, 1), (true, 2)] := by
  decide +kernel

/-- A launch with a seed; a team being saved, in its handler, whose VD is there. -/
theorem wit_SpecialRegisters_values : (lau 4 mk).launch 0 ≠ none ∧
    (let s := mk (inHandler .save) fun t => { t with save := .saving 0 false }
     ∃ e, curEnv s = some e ∧ (s.vd e.t.part e.t.vd).isSome = true ∧ e.p.privileged = true ∧ e.t.save = .saving 0 false) := by
  refine ⟨by decide +kernel, _, rfl, ?_⟩; decide +kernel

/-- A load that fills a varying register of one lane of posy 0. -/
def pendingIn (r L : Nat) : LoadOp := { pendingV r with lanes := [{ lane := L, fid := L, addr := 0 }] }

/-- A BR on predicate 1 (lane 0 of three goes): it waits for a load of the leaving lane, and not for one of a staying lane; a tie, in which the
group of the guard, group 0, stays; and a posy whose fibres have one destination. -/
theorem wit_Branches_parts : let n : Need := { ban := true, regs := [guardUse { gp := 1 }] }
    let x := fun (e : Env) => ({ dest := fun L => if e.p.guard 1 false L then 0x11000 else nextPc e .w2, wb := fun _ => e.p.wbase, key := fun L => if e.p.guard 1 false L then 0 else 1 } : Parting)
    let s := fun k L => mkN k pred1 (fun t => spn 0x10000 (loads [pendingIn 9 L] t))
    (∀ y ∈ ([(3, 0, [0], true), (3, 1, [0], false), (2, 1, [1], true)] : List (Nat × Nat × List Nat × Bool)),
      Meets (s y.1 y.2.1) n {} (fun e => (∃ L ∈ e.p.present, ∃ M ∈ e.p.present, (x e).same L M = false) ∧ (e.p.present.filter fun L => !(x e).stays e.p L) = y.2.2.1 ∧
        e.t.spawnUsed + (x e).need e ≤ e.t.spn.limit ∧ fibPending (s y.1 y.2.1) e (e.p.present.filter fun L => !(x e).stays e.p L) = y.2.2.2)) ∧
    Meets (mkN 3) n {} (fun e => ∀ L ∈ e.p.present, ∀ M ∈ e.p.present, (x e).same L M = true) ∧
    Meets (mkN 3 pred1 (spn 100)) n {} (fun e => e.t.spn.limit < e.t.spawnUsed + (x e).need e) :=
  ⟨meets_all (by decide +kernel), meets (by decide +kernel), meets (by decide +kernel)⟩

/-- An arrival at a join whose holder waits in slot 1, with room, with another window base, with a full holder; and one that waits for a load. -/
theorem wit_Joins_arrive : let w := fun (q : Posy → Posy) (l : List LoadOp) =>
      (mk (t := loads l) (f := fun f => { f with joins := [(2, some { pc := 0x10000, holder := some 1 })] })).setPosy 1 (some (q { uid := 5, team := 0, frame := 0, pc := 0x10000, alloc := 256, joining := true, lanes := [(3, some 7)] }))
    let full : Posy → Posy := fun p => { p with lanes := (List.range 64).map fun L => (L, some (L + 1)) }
    ∀ y ∈ ([(id, [], false, true, 2), (fun p => { p with wbase := 2 }, [], false, false, 2), (full, [], false, true, 65), (id, [pendingIn 9 0], true, true, 2)] : List ((Posy → Posy) × List LoadOp × Bool × Bool × Nat)),
      Meets (w y.1 y.2.1) { ban := true } {} (fun e => e.p.joining = false ∧ e.f.join 2 = some { pc := e.p.pc, holder := some 1 } ∧
        ((w y.1 y.2.1).posy (posyKey e.core 1)).any (fun hp => decide (hp.wbase = e.p.wbase ∧ hp.alloc = e.p.alloc) == y.2.2.2.1 && hp.present.length + e.p.present.length == y.2.2.2.2) = true ∧
        (∀ k' ∈ List.range 4, k' ≠ 2 → (e.f.join k').map (·.pc) ≠ some e.p.pc) ∧ 1 ≠ e.slot ∧ fibPending (w y.1 y.2.1) e e.p.present = y.2.2.1 ∧ e.p.present ≠ []) :=
  meets_all (by decide +kernel)

/-- A PUT to the issuer's own place and index whose ranges meet in one byte, whose ranges touch, and to a team of an index beyond 32 bits. -/
theorem wit_Copies_own : let o : CpyOps := { (cpOps false .glb true 8).1 with sseg := .scr }
    ∀ x ∈ ([(0, 0x7F, true), (0, 0x80, false), (2 ^ 48, 0x7F, false)] : List (Nat × Nat × Bool)),
      Meets (cpState 0 x.1 0x80 x.2.1 0 0) (cpyNeed o 2) { len := .w4 } (fun e =>
        let S := fun n => (e.f.sreg n).toNat
        let target := S o.b.n.toNat
        let g : Shape := ⟨S 8, 1, fun _ => S 4, fun _ => 0⟩
        S 8 ≠ 0 ∧ g.inside g.src e.t.scr true false ∧ o.lcoff.toNat % 8 = 0 ∧ S 8 ≤ 524288 ∧ (2 ^ 48 ≤ target → e.t.place ≠ 2 ^ 16) ∧
        decide (target < 2 ^ 48 ∧ target % 2 ^ 16 = e.t.place ∧ target / 2 ^ 16 = e.t.idx ∧ S 4 < S 9 + S 8 ∧ S 9 < S 4 + S 8) = x.2.2) :=
  meets_all (by decide +kernel)

/-- HCANCEL of a copy with nothing in flight, with a part read and with a part merging; of a task that has not started and of one that has; of a load. -/
theorem wit_Handles_cancel : let c : Need := { type := true, regs := [kUse .h 16 false], full := true }
    let s := fun (k : CmdKind) (f : Core → Core) => (mk (t := cmd1 { kind := k }) (f := hr [(0, 1)])).modCore 0 f
    let part1 : CpPart := { src := 0x10000, dst := 0x10080, len := 128 }
    (∀ x ∈ ([(.todo, false), (.have_ [], true), (.merging 0 1 [], true)] : List (CpStage × Bool)),
      let w := s .copy fun y => { y with copies := [{ team := 0, token := 1, parts := [{ part1 with st := x.1 }] }] }
      Meets w c {} (fun e => (e.t.handle (e.f.hreg 0).toNat).any (fun h => h.status == 0 && !h.ready && h.kind == .copy) = true ∧
        (findCopy w e.core e.p.team (e.f.hreg 0).toNat).any (fun k => k.parts.any (fun p => p.st != .done) &&
          (k.parts.any (fun p => match p.st with | .have_ _ | .merging _ _ _ => true | _ => false) == x.2)) = true)) ∧
    (∀ x ∈ ([(.fetched, true), (.started 0 64, false)] : List (TaskSt × Bool)),
      let w := s .ktask fun y => { y with ring := [{ team := 0, token := 1, seq := 4, st := x.1 }] }
      Meets w c {} (fun e => (findTask (w.core e.core) e.p.team (e.f.hreg 0).toNat).any (fun k => k.unstarted == x.2) = true)) ∧
    (let w := s .kload fun y => { y with kloads := [{ team := 0, token := 1, seq := 0, desc := { tag := 7 }, macros := [0] }] }
     Meets w c {} (fun e => ∃ k ∈ (w.core e.core).kloads, k.team = e.p.team ∧ k.token = (e.f.hreg 0).toNat ∧ k.reload = false)) :=
  ⟨meets_all (by decide +kernel), meets_all (by decide +kernel), meets (by decide +kernel)⟩

/-- The landed read of a SIGWAIT whose comparison fails: its line unchanged, and invalidated since. -/
theorem wit_Signals_again : let o : MemOps := { m4 0 .raw with b := .imm (.i18 0) }
    let s := fun st => mk phase (fun t => { t with reqs := [{ sigReq .replied 5 with landed := true, stale := st }] }) (sr [(4, 0x100)])
    ∀ st ∈ [false, true], Meets (s st) (sigwaitNeed o) { len := .w3 } (fun e => e.p.active { len := .w3 } = [0] ∧
      Clear e o { size := 8, r := true, align := 8, dhi := false } (e.p.active { len := .w3 }) ∧ e.p.phase = true ∧
      (ownSig e).any (fun r => r.landed && r.stale == st && !r.merr && decide (0 < (b64 (leNat (r.reply.map (·.2)))).toInt)) = true) :=
  meets_all (by decide +kernel)

/-- A posy that waits in TWAIT: of a running team, in its save handler with budget left, and with none. -/
theorem wit_CounterAndTimeWaits_expiry : (∀ x ∈ ([(id, id, 0, true, 0), (inHandler .save, fun t => { t with save := .saving 0 false }, 0, false, 20000),
      (inHandler .save, fun t => { t with save := .saving 0 false }, 20000, false, 0)] : List ((Posy → Posy) × (Team → Team) × Nat × Bool × Nat)),
    let s := at_ x.2.2.1 (mk (fun p => { x.1 p with wait_ := some (100, 0x10008) }) x.2.1)
    (envAt s (posyKey 0 0)).any (fun e => e.p.wait_ == some (100, 0x10008) && e.t.stopped.isNone && e.t.running == x.2.2.2.1 &&
      (e.t.running || (e.p.privileged && e.t.save == .saving 0 false && budgetLeft s e.t == x.2.2.2.2))) = true) := by decide +kernel

/-- WRDIV that sends its read; and with an answer of no record, whose header line is there, and absent. -/
theorem wit_ContextMoves_wrdiv : let o : MemOps := { a := rS 4, seg := .ctx }
    let s := fun (rs : List Req) (t : Team → Team) (ph : Bool) => mk (fun p => { inHandler .restore p with phase := ph }) (fun x => t { ctxSeg x with reqs := rs }) (sr [(4, 0)])
    let r := { divReq .replied (2 ^ 64 - 1) (2 ^ 64 - 1) with landed := true }
    Meets (s [] id false) (ctxNeed o) { len := .w3 } (fun e => e.p.hd.mode = .restore ∧ e.p.phase = false ∧ Admits e.t.ctx (ctxOff e o) { size := 64, r := true } ∧
      (e.t.ctx.addr + (ctxOff e o + (0 : Nat)).toNat) % 64 = 0) ∧
    (∀ x ∈ ([(wide (s [r] dropped true), true), (s [r] id true, false)] : List (State × Bool)), Meets x.1 (ctxNeed o) { len := .w3 } (fun e => e.p.phase = true ∧ ownSig e = some r ∧
      (ctxWrite x.1 e.p.team [(e.t.header + 112, r.reply.map (·.2))]).2 = x.2)) :=
  ⟨meets (by decide +kernel), meets_all (by decide +kernel)⟩

/-- The L1 of core 5 holds a line. -/
def holds5 (pa : Nat) (s : State) : State := s.setCline (.l1 5) (lineOf pa) { valid := 15 }

/-- The line of a trap record that nobody holds, and one that must be invalidated first. -/
theorem wit_QueueSteps_release : (∀ x ∈ ([(qs id, false), (holds5 0x12100 (qs id), true)] : List (State × Bool)),
      (qWrite x.1 0 0 0x12100 (postedRecord x.1 rec0)).any (fun s1 => qBusy s1 0 0 0x12100 == x.2) = true) ∧
    (let p := fun (s : State) => { s with queues := (qs fun q => { q with enable := false, owed := [.error 0x13000 5] }).queues, poison := [] }
     postReady (p (qs id)) ((p (qs id)).queue 0) = true ∧
     (let s := p { qs id with merging := [{ line := lineOf 0x11080, parent := none, wait := [.l1 5] }] }
      postReady s (s.queue 0) = false ∧ (s.queue 0).owed = [.error 0x13000 5])) := by decide +kernel

/-- A record whose dependency was met and has been written since; one whose DSIG has no page; one whose page moves. -/
theorem wit_QueueSteps_again : let s := fun (d : Nat) => qs fun q => { q with depMet := true, depDirty := true, hs := .ok { dep := true, dsig := d } {} }
    ((s 0x13000).queue 0).depDirty = true ∧
    (match qRead (s 0x80000) 0 0 0x80000 8 with | .fail f _ => f.cause != .migrating | _ => false) = true ∧
    (match qRead ((s 0x80000).write64 0x4040 0x200006BF) 0 0 0x80000 8 with | .fail f _ => f.cause == .migrating | _ => false) = true := by decide +kernel

/-- A holder below an open port and below a closed one; an RDC and an L1. -/
theorem wit_BoundedSteps_cut : let k : ShareKey := { who := .l1 0, vd := 0, base := 0x20000, home := 1 }
    let s := fun c => die0 (fun x => { x with fwClosed := c }) mk
    (∀ h ∈ [k, { k with who := .rdc 0 }], holderCut (s 0) h = false ∧ holderCut (s 7) h = true) ∧ (∃ d, ({ k with who := .rdc 0 } : ShareKey).who = .rdc d) := by
  refine ⟨by decide +kernel, _, rfl⟩

/-- A line whose holder's port is open, and closed. -/
theorem wit_OrderSteps_evict : let line := lineOf 0x3000000000
    let s := fun c => die0 (fun x => { x with fwClosed := c }) (mk.setCline (.l1 0) line { valid := 15 })
    (∀ x ∈ ([(0, false), (7, true)] : List (BitVec 3 × Bool)), Sharer.l1 0 ∈ holders (s x.1) line ∧ cutOff (s x.1) line (.l1 0) = x.2 ∧
      ((s x.1).cline (.l1 0) line).unmerged = false) := by decide +kernel

/-- A page move whose copied lines, and whose entry's line, are merging, and are not. -/
theorem wit_RegisterWrites_phase : let s := fun (w : State) => die0 (fun x => { x with migRun := true, migSt := .copied, mig := Tab.ofList 0 0 ([0, 0, 0, 0, 0, 0, 0, 0] ++ [0x20000, 0x20000, 0x30000, 0x4010, 0x3069F].flatMap (leBytes 8)) }) w
    let m := moveOf ((s mk).die 0)
    copyMerging (s mk) m = false ∧ copyMerging (s { mk with merging := [{ line := lineOf 0x30080, parent := none, wait := [.l1 5] }] }) m = true ∧
    ((s mk).dies.all fun x => x.2.entries.isEmpty) = true ∧ ((s mk).die 0).migSt = .copied ∧
    ((List.range 8).all fun i => isMem (m.ptea + i) && reaches (s mk) 0 (m.ptea + i)) = true ∧
    (let e := die0 (fun x => { x with migSt := .done }) (s mk)
     (e.die 0).migSt = .done ∧ isMerging e (lineOf m.ptea) none = false ∧
     isMerging { e with merging := [{ line := lineOf m.ptea, parent := none, wait := [.l1 5] }] } (lineOf m.ptea) none = true) ∧
    moveReaches (s mk) 0 m.src = true ∧ moveReaches (s mk) 0 m.dst = true ∧ moveReaches (die0 (fun x => { x with fwClosed := 7 }) mk) 0 0x3000000000 = false := by decide +kernel

/-- The end of a call whose record's line nobody holds, and one whose line must be invalidated first. -/
theorem wit_RegisterWrites_call : let c : CallRec := { pa := 0x10000, va := 0x10000, vd := 0, team := 0, uid := 0, sub := 1, token := 1 }
    let v := b64 (2 ^ 61 * 5 + 0x10000)
    let w := (List.range 2).map fun i => (c.pa + 6 + i, (leBytes 2 5).getD i 0)
    (∀ x ∈ ([(qs id, false), (holds5 0x10000 (qs id), true)] : List (State × Bool)), let s := { x.1 with calls := [c] }
      v.toNat / 2 ^ 61 = 5 ∧ c.status = 0 ∧ c.stored = false ∧ c.pa = v.toNat / 2 ^ 6 % 2 ^ 46 * 64 ∧ c.sub ≠ 0 ∧ (s.team c.team).isSome = true ∧ isMerging s (lineOf c.pa) none = false ∧
      qReaches s c.part c.pa = true ∧ paKind c.pa ≠ .dev ∧ (w.all fun y => isMem y.1) = true ∧ isMerging (sysWrite s w) (lineOf c.pa) none = x.2) := by decide +kernel

/-- A fault record whose line nobody holds, one whose line must be invalidated first, and one whose line is merging already. -/
theorem wit_ParkSteps_record : let s := fun (w : State) => die0 (fun x => { x with frCfg := 6, frTail := 63, pending := [frec 1], frWords := 0x50000, frBase := 0x51000 }) w
    let after := fun (s : State) => sysWrite s ((List.range 64).map fun i => (0x51000 + 64 * 63 + i, (rec0.take 48 ++ leBytes 8 0 ++ rec0.drop 56).getD i 0))
    let line := lineOf (0x51000 + 64 * 63)
    (∀ x ∈ ([(mk, false), (holds5 (0x51000 + 64 * 63) mk, true)] : List (State × Bool)), isMerging (s x.1) line none = false ∧ isMerging (after (s x.1)) line none = x.2) ∧
    isMerging (s { mk with merging := [{ line := line, parent := none, wait := [.l1 5] }] }) line none = true := by decide +kernel

/-- A follower of the second of two parked leaders, when the first is gone; and one whose remaining leader is in replay. -/
theorem wit_ParkSteps_leader : let l : Req := { absent (.parked 0 5) with seq := 2 }
    let f := absent (.parked 0 9)
    let s := fun (q : Req) (es : List Entry) => die0 (fun x => { x with entries := es }) (mk (t := fun t => { t with reqs := [q, f] }))
    let me := { ent (.req 0 3 0) .follower with leader := some 4 }
    ((s l [me]).team 0).any (fun t => stillLeads t f == [l] && (stillLeads t f).filterMap pseqOf == [5]) = true ∧
    ((s { l with stage := .queued, replay := true } [me]).team 0).any (fun t => !(stillLeads t f).isEmpty && (stillLeads t f).filterMap pseqOf == []) = true ∧
    (∃ x ∈ ((s l [{ me with leader := some 5 }, ent (.req 0 2 0) .parked 5]).die 0).entries, some x.pseq = some 5) := by
  refine ⟨by decide +kernel, by decide +kernel, ent (.req 0 2 0) .parked 5, by decide +kernel, rfl⟩

/-- While one launch that took the split still places, another waits. -/
theorem wit_LaunchSteps_first : let l := { l0 with r := { l0.r with split := 4 } }
    let s := (({ mk with teams := [], posies := [] }.setLaunch 2 (some l0)).modCore 0 fun c => { c with waiting := [1], lsplit := 4, taken := 2 }).setLaunch 1 (some l)
    servedFirst s 0 = some (1, l) ∧ (s.core 0).taken ≠ 1 ∧ (s.launch (s.core 0).taken).any (fun k => decide (k.next < k.r.teams) && turnToPlace s (s.core 0).taken k) = true := by
  decide +kernel

/-- A watchdog at its end beside a launch that would complete now. -/
theorem wit_LaunchSteps_watchdog : let s := (qs fun q => { q with timeout := 5, wd := 5000 }).setLaunch 1 (some { l0 with retired := 1 })
    (Tab.live s.launches).any (fun e => e.2.queue == 0 && ((launchComplete s e.1).launch e.1).isNone) = true := by decide +kernel

/-- A team whose budget is over at handler entry; one that must be saved by force and is not held yet, whose header page is absent, and present. -/
theorem wit_ContextSteps_budget : (let s := at_ 20000 (entering 0x20000)
      (envAt s (posyKey 0 0)).any (fun e => e.t.save == .saving 0 false && budgetLeft s e.t == 0) = true) ∧
    (∀ x ∈ ([(saving id, false), (wide (saving dropped), true)] : List (State × Bool)), let s := at_ 20000 x.1
      (s.team 0).any (fun t => mustForce s 0 t && !(s.core t.core).held.contains 0 && (ctxWrite s 0 [(t.header + 14, [1])]).2 == x.2) = true) := by decide +kernel

/-- A turn that comes before its place in the cycle: a posy that would trap after another of its team in a lower slot; and a turn that does not. -/
theorem wit_Step_inCycle : let w := State.reset.withFetchWord 64 0
    let s := { w with turns := [] }
    let t := also 1 (fun p => { p with lanes := [(0, some 1)] }) s
    (envAt s (posyKey 0 0)).any (fun e => !heldInCycle s e) = true ∧ (envAt t (posyKey 0 1)).any (fun e => heldInCycle t e) = true := by decide +kernel

/-- A decoder base; and the machine before and after bring-up's last step. -/
theorem wit_Step_turns : ({ State.reset with turns := [.decoder 0x100000] } : State).turns = .decoder 0x100000 :: [] ∧ 5 ≤ mk.boot ∧ State.reset.boot < 5 ∧
    cycleOwes State.reset = false := by decide +kernel

/-- Host requests before the rails' order ends, after a failed check, on a line of each port, and of BAR0; a store that crosses from one port's line to the other's. -/
theorem wit_OutsideSteps_ports : let s := fun (n : BitVec 2) => { mk with xd := { mk.xd with cxlUp := n } }
    ((cutLines 0x10000 8).all fun x => (s 1).xd.cxlUp.getLsbD (x.1 / 128 % 2)) = true ∧ ((cutLines 0x10080 8).all fun x => (s 1).xd.cxlUp.getLsbD (x.1 / 128 % 2)) = false ∧
    ((cutLines 0x1007C 8).all fun x => (s 3).xd.cxlUp.getLsbD (x.1 / 128 % 2)) = true ∧ (cutLines 0x1007C 8).length = 2 ∧
    ({ State.reset with boot := 3 } : State).boot < 4 ∧ ({ mk with bootFailed := true } : State).bootFailed = true ∧
    paKind 0x1000000200340 = .dev ∧ ¬(mk.hdmBase ≤ 0x1000000200340 ∧ 0x1000000200340 ≤ mk.hdmBase + 0xC000000000) ∧
    (s 2).xd.cxlUp.getLsbD 0 = false ∧ 5 ≤ (s 1).boot ∧ (s 1).xd.cxlUp.getLsbD 0 = true ∧
    ({ s 1 with bootFailed := true } : State).xd.cxlUp.getLsbD 0 = true := by decide +kernel

/-- A word of HBM for the service cluster's atomics, and a reservation that holds and one that does not. -/
theorem wit_OutsideSteps_cluster : let s : State := { mk with reserved := [(2, some (0x10000, mk.readBytes 0x10000 8))] }
    paKind 0x10000 = .hbm 0 ∧ ((List.range 8).all fun i => isMem (0x10000 + i) && !s.poisoned (0x10000 + i)) = true ∧ (cutLines 0x10000 8).all (fun x => !isMerging s (lineOf x.1) none) = true ∧
    s.bootFailed = false ∧ Tab.get none s.reserved 2 = some (0x10000, s.readBytes 0x10000 8) ∧ Tab.get none s.reserved 3 ≠ some (0x10000, s.readBytes 0x10000 8) ∧
    (leBytes 8 5).length = 8 := by decide +kernel

/-- Finite operands, pairs of which the first lies below the second, and infinities to compare. -/
theorem wit_FloatArithmetic_values : (([0x3F800000, 0xBF800000, 0x40000000] : List Nat).all fun x => isFin (FF.f32.read false x)) = true ∧
    Below (FF.f32.decode 0x3F800000) (FF.f32.decode 0x40000000) ∧ Below (FF.f32.decode 0x80000000) (FF.f32.decode 0) ∧
    Below (FF.f32.decode 0xFF800000) (FF.f32.decode 0) ∧ Below (FF.f32.decode 0) (FF.f32.decode 0x7F800000) ∧
    FF.f32.decode 0x7F800000 = .inf false ∧ FF.f32.decode 0xFF800000 = .inf true := by
  have h1 : FF.f32.decode 0x3F800000 = .fin false ⟨2 ^ 23, 2 ^ 23⟩ := by decide +kernel
  have h2 : FF.f32.decode 0x40000000 = .fin false ⟨2 ^ 23, 2 ^ 22⟩ := by decide +kernel
  have h3 : FF.f32.decode 0x80000000 = .fin true ⟨0, 2 ^ 149⟩ := by decide +kernel
  have h4 : FF.f32.decode 0 = .fin false ⟨0, 2 ^ 149⟩ := by decide +kernel
  have h5 : FF.f32.decode 0xFF800000 = .inf true := by decide +kernel
  have h6 : FF.f32.decode 0x7F800000 = .inf false := by decide +kernel
  rw [h1, h2, h3, h4, h5, h6]
  exact ⟨by decide +kernel, Or.inl (by decide +kernel), Or.inr ⟨by decide +kernel, rfl, rfl⟩, rfl, rfl, rfl, rfl⟩

/-- SQRT of 2, LG2 of 2 and of one half, EX2 of 3 and of −3 with the pattern of the power. -/
theorem wit_SpecialInputs_exact : (([(0x40000000, 2), (0x3F000000, (1 / 2 : Rat))] : List (Nat × Rat)).all fun x => match FF.f32.read false x.1 with
      | .fin false m => decide (m.n ≠ 0) && decide (ratOf false m = x.2) | _ => false) = true ∧ (1 / 2 : Rat) * 2 ^ 1 = 1 ∧ (2 : Rat) = 2 ^ 1 ∧
    (([(0x40400000, 0x41000000, 8), (0xC0400000, 0x3E000000, (1 / 8 : Rat))] : List (Nat × Nat × Rat)).all fun x => match FF.f32.decode x.1, FF.f32.decode x.2.1 with
      | .fin _ m, .fin false w => decide (m.n = 3 * m.d) && decide (ratOf false w = x.2.2) | _, _ => false) = true ∧ (1 / 8 : Rat) * 2 ^ 3 = 1 ∧ (8 : Rat) = 2 ^ 3 := by
  decide +kernel

/-- A kiln in which a task of team 0 that has not read its tile 2 adds into tile 3. -/
def busyKiln : Core := { (mk.core 0) with kcmds := [{ team := 0, seq := 4, cmd := .task 1 3 (some 2) }], ring := [{ team := 0, token := 1, seq := 4, acc := 3 }], kseq := 5 }

/-- No command of the kiln acts; a write of tile 3 or 2 and a read of tile 3 wait, a read of tile 2 and a write of tile 4 do not. -/
theorem wit_TileMoves_held : let s := mk.setCore 0 busyKiln
    s.core 0 = busyKiln ∧ NoneActs busyKiln ∧ HeldUp busyKiln 0 busyKiln.kseq 3 true ∧ HeldUp busyKiln 0 busyKiln.kseq 2 true ∧ HeldUp busyKiln 0 busyKiln.kseq 3 false ∧
    ¬HeldUp busyKiln 0 busyKiln.kseq 2 false ∧ ¬HeldUp busyKiln 0 busyKiln.kseq 4 true ∧ Meets s (kzeroNeed { d := rK 35 }) {} (fun e => e.core = 0 ∧ e.p.team = 0) ∧
    Meets s (kreadNeed { fmt := .f32, sub := 7, d := rV 240, a := rK 35, b := .imm (.i18 31) }) {} (fun e => e.core = 0) ∧
    Meets s (kwriteNeed { fmt := .f32, sub := 7, d := rK 34, a := rV 240, b := .imm (.i18 31) }) {} (fun e => e.core = 0) := by
  have hm : ∀ y ∈ busyKiln.kcmds, y = { team := 0, seq := 4, cmd := .task 1 3 (some 2) } := fun y hy => by simpa [busyKiln] using hy
  refine ⟨by decide +kernel, ⟨by decide +kernel, fun x hx => by rw [hm x hx]; trivial⟩, ?_, ?_, ?_, ?_, ?_, meets (by decide +kernel), meets (by decide +kernel),
    meets (by decide +kernel)⟩
  · exact ⟨_, List.mem_singleton.mpr rfl, rfl, by decide +kernel, by decide +kernel, Or.inl rfl⟩
  · exact ⟨_, List.mem_singleton.mpr rfl, rfl, by decide +kernel, by decide +kernel, Or.inr ⟨rfl, rfl, { team := 0, token := 1, seq := 4, acc := 3 }, by decide +kernel, Or.inl rfl⟩⟩
  · exact ⟨_, List.mem_singleton.mpr rfl, rfl, by decide +kernel, by decide +kernel, Or.inl rfl⟩
  · rintro ⟨y, hy, -, -, -, h | ⟨h, -⟩⟩
    · rw [hm y hy] at h; exact absurd (show (3 : Nat) = 2 from h) (by decide)
    · exact absurd h (by decide)
  · rintro ⟨y, hy, -, -, -, h | ⟨-, h⟩⟩
    · rw [hm y hy] at h; exact absurd (show (3 : Nat) = 4 from h) (by decide)
    · rw [hm y hy] at h; exact absurd h.1 (by decide)

/-- A SAVEK whose run has a volatile register and others. -/
theorem wit_ContextMoves_volatile : let s := (mk (fun p => inHandler .save { p with alloc := 256 }) ctxSeg (sr [(4, 0)])).setLaunch 0 (some { queue := 0, vd := 0, h := { vol := some (9, 15) } })
    Meets s (ctxNeed (cm 0 0x0208)) { len := .w3 } (fun e => volatileReg s e.t 8 = false ∧ volatileReg s e.t 9 = true ∧ volatileReg s e.t 10 = true ∧
      (ctxFacts (cm 0 0x0208) 0x0208 true e).all id = true) ∧ Instr.legal (.savek (cm 0 0x0208)) = true := ⟨meets (by decide +kernel), by decide +kernel⟩

/-- A record whose LID line nobody holds, and one whose line must be invalidated first; and a dispatch that has begun, with its lines acknowledged or not. -/
theorem wit_QueueSteps_sent : let g := qs fun q => { q with hs := .ok {} {} }
    let r' : LRec := { bytes := ([] : List Byte).take 80 ++ leBytes 8 1 ++ ([] : List Byte).drop 88 }
    (∀ x ∈ ([(g, false), (holds5 0x10150 g, true)] : List (State × Bool)), (x.1.queue 0).owed = [] ∧ (x.1.queue 0).sending = false ∧
      (qWrite x.1 0 0 (headVa (x.1.queue 0) + 80) (leBytes 8 1)).any (fun s1 => (capture s1 0 1 r').any fun s2 =>
        ((dispatchLines x.1 (x.1.queue 0) r').any fun l => isMerging s2 l none) == x.2 &&
        (qWrite { s2.modQueue 0 (fun q => { q with hs := .sent {} (some {}) 0 1 (dispatchLines x.1 (x.1.queue 0) r') }) with lastLid := 1 } 0 0 (0x11000 + 128) (leBytes 8 3)).isSome) = true) ∧
    (∀ x ∈ ([([], false), ([{ line := lineOf 0x10150, parent := none, wait := [.l1 5] }], true)] : List (List Merging × Bool)),
      let s := { qs (fun q => { q with enable := false, hs := .sent {} (some {}) 0 1 [lineOf 0x10150] }) with merging := x.1 }
      (s.queue 0).owed = [] ∧ (s.queue 0).head < (s.queue 0).tail ∧ (s.vd 0 0).isSome = true ∧ isMerging s (lineOf 0x10150) none = x.2 ∧
      (qWrite s 0 0 (0x11000 + 128) (leBytes 8 3)).isSome = true) ∧
    ((qs id).die (engineDie (qs id) 0)).entries = [] := by decide +kernel

/-- A core to which the end of a slice owes a team of its VD. -/
theorem wit_LaunchSteps_slice : let free : State := { mk with teams := [], posies := [] }
    let s := free.setTeam 7 (some { lid := 0, idx := 0, vd := 0, core := 0, save := .saved false })
    (teamsOn s 0).isEmpty = true ∧ slicePending s 0 = true ∧ slicePending free 0 = false := by decide +kernel

/-- The team of a slice has its granules from the switch on. -/
theorem wit_ContextSteps_granules : let s := ({ vd1 mk with posies := [] }.setTeam 0 none).modTeam 7 fun t => { t with salloc := 0x2000 }
    let t := vdSwitch (s.modCore 0 fun c => { c with nextVd := some 1, lsplit := 4 }) 0
    (Tab.live t.teams).filter (fun x => x.2.core == 0 && x.2.part == 0 && x.2.vd == 1 && x.2.save == .saved false) = (Tab.live t.teams) ∧ (Tab.live t.teams).length = 1 ∧
    ((t.team 7).any fun tm => decide (tm.salloc / 4096 ≤ 16 * (t.core 0).lsplit)) = true ∧ ((t.core 0).gmap.any fun x => x.2.any fun y => y.1 == 7) = true := by decide +kernel

/-- A team that has issued and one that has not; an instruction after which the posy stands elsewhere. -/
theorem wit_Step_issued : let s := State.reset.withFetchWord 64 0xFFE83AFD02044C81
    let s0 := { s with turns := [] }
    (envAt s0 (posyKey 0 0)).any (fun e => !e.t.issued && match (attemptIssue s0 e).1 with | .next t => (t.posy e.key).any (fun p => p.pc != e.p.pc) | _ => false) = true ∧
    (envAt (mk (t := fun t => { t with issued := true })) (posyKey 0 0)).any (fun e => e.t.issued) = true ∧ (s0.die 0).entries = [] := by decide +kernel

/-- No replay on the die of a copy; the first request of a load and of a task that is not parked; a queue whose dispatch has begun; the words of a
fault ring that the die reaches. -/
theorem wit_Steps_replay : ((copying (cp id part1)).die (dieOf 0)).entries = [] ∧
    (let l : KLoad := { kl with todo := [(0xF00, 128), (0xF80, 128)], parked := [0xF00] }
     l.todo.find? (fun x => !l.parked.contains x.1) = some (0xF80, 128)) ∧
    (let k : Task := { tk with st := .fetching, todo := [(0, 128)] }
     k.todo.find? (fun x => !k.parked.contains x.1) = some (0, 128)) ∧
    (let s := { qd false [(0x20040, 0x10000), (0x20048, 0x13000), (0x20050, 4), (0x20060, 16)] with queues := [(1, { hs := .sent {} none 8 1 [], owed := [] })] }
     (s.queue 1).sending = true ∧ (s.queue 1).enable = false ∧ (s.vd (s.queue 1).part (s.queue 1).vd).isSome = true ∧ badQueue (s.physBytes 0x20040 64) = false) ∧
    (qd false []).queues.all (fun x => !x.2.sending) = true ∧
    ((List.range 64).all fun i => isMem (0x51000 + i) && reaches mk 0 (0x51000 + i) && reaches mk 0 (0x50000 + i)) = true := by decide +kernel

/-- The forms of ATOM and ACC without an active lane. -/
theorem wit_Atomics_empty : (∀ o ∈ ([{ m4 0 .u32 with d := rV 8, b := .reg (rV 9) }, { m4 2 .i64 with d := rV 8, b := .reg (rV 6) }, { m4 1 .f32 with b := .reg (rV 9), x10 := 1 }] : List MemOps),
      Instr.legal (.atom { o with h := { o.h with gp := 1 } }) = true ∧ Meets mk (atomNeed o) { o.h with gp := 1 } (fun e => e.p.active { o.h with gp := 1 } = [])) ∧
    Meets mk (accNeed { m4 0 .f32 with b := .reg (rV 9) }) { len := .w3, gp := 1 } (fun e => e.p.active { len := .w3, gp := 1 } = []) := by
  refine ⟨?_, meets (by decide +kernel)⟩
  intro o ho
  simp only [List.mem_cons, List.not_mem_nil, or_false] at ho
  obtain rfl | rfl | rfl := ho
  all_goals exact ⟨by decide +kernel, meets (by decide +kernel)⟩

end Sys2Proof.Tests
end

