-- ==== Sys2Proof/Tests/Slice0.lean ====
section
/-!
SUPPORT. The model's own tests: ill-formed terms that the check refuses beside well-formed neighbours, words written out
from the encoding tables, and single instructions with results worked out by hand from the rules.
-/
namespace Sys2Proof.Tests
open Sys2Proof.Machine Sys2Proof.Claims
set_option Elab.async false

/-! ## Well-formedness: each pair is an ill-formed term and a neighbour that differs in what the check tests -/

def refuses (l : List (Instr × Instr)) : Bool := l.all fun x => !Instr.legal x.1 && Instr.legal x.2

def w3h : Hdr := { len := .w3 }
def w4h : Hdr := { len := .w4 }
def m0 : MemOps := { a := rS 4 }

theorem test_refuses_shapes : refuses [
    (.nop { d := rS 1 }, .nop {}),
    (.join { h := { gp := 1 } }, .join {}),
    (.join { h := w3h }, .join { h := { y := true } }),
    (.add { v2 .i32 with x10 := 1 }, .add (v2 .i32)),
    (.add { v2 .i32 with sub := 2 }, .add { v2 .i32 with sub := 1 }),
    (.add (v2 .raw), .add (v2 .i16x2)),
    (.add (v2 .e5m2x4), .add (v2 .u8x4)),
    (.add { v2 .i32 with b := .reg (rK 1) }, .add { v2 .i32 with b := .reg (rA 1) }),
    (.add { v2 .i32 with b := .imm (.i32 1) }, .add { v2 .i32 with b := .imm (.i32 1), h := w3h }),
    (.add { v2 .i64 with b := .imm (.i64 1), h := w4h }, .li { v1 .i64 with a := {}, b := .imm (.i64 1), h := w4h }),
    (.add { v2 .i32 with c := rV 1 }, .mad (v3 .i32)),
    (.mad { v3 .i32 with h := {} }, .mad (v3 .i64)),
    (.add { v2 .i32 with h := w3h, xa := { amt := 1 } }, .add { v2 .i32 with h := w3h, xa := { amt := 1, pat := .rot } }),
    (.add { v2 .i32 with h := w3h, xa := { amt := 6, pat := .mirr } }, .add { v2 .i32 with h := w3h, xa := { amt := 8, pat := .mirr } }),
    (.add { v2 .i32 with xa := { amt := 1, pat := .rot } }, .add { v2 .i32 with h := w3h, xa := { rel := true, amt := 1, pat := .bfly } }),
    (.add { v2 .i32 with h := w3h, rnd := .rz }, .fadd { v2 .f32 with h := w3h, rnd := .rz })] = true := by decide +kernel

theorem test_refuses_control : refuses [
    (.jmp { h := { gp := 1 }, b := .imm (.i18 8) }, .jmp { b := .imm (.i18 8) }),
    (.jmp { d := rS 1, b := .imm (.i18 8) }, .jmp { b := .reg (rS 1) }),
    (.bra { a := rS 4, sub := 2, b := .imm (.i18 8) }, .bra { a := rS 4, sub := 1, b := .imm (.i18 8) }),
    (.bra { a := rS 4, b := .reg (rS 1) }, .bra { a := rS 4, b := .imm (.i32 8), h := w3h }),
    (.br { b := .reg (rS 1) }, .br { h := { gp := 2 }, b := .imm (.i18 8) }),
    (.joinw { b := .imm (.i18 (-1)) }, .joinw { b := .imm (.i18 1) }),
    (.call { d := rS 17, b := .imm (.i18 8) }, .call { d := rS 16, b := .imm (.i18 8) }),
    (.call { d := rS 0, b := .imm (.i18 8) }, .call { d := rS 254, b := .imm (.i18 8) }),
    (.calli { d := rS 2, a := rS 4, b := .imm (.i18 0) }, .calli { d := rS 2, a := rS 4 }),
    (.fork { d := rS 2, a := rV 4, b := .reg (rS 1) }, .fork { d := rS 2, a := rV 4, b := .imm (.i18 8) }),
    (.exit { d := rS 1 }, .exit { h := { gp := 3 } }),
    (.trap { sub := 1, x10 := 7 }, .trap { x10 := 7 }),
    (.brk { x10 := 1 }, .brk {}),
    (.xacq { b := .imm (.i18 4) }, .xacq { b := .imm (.i18 8) }),
    (.xacq { h := { gp := 1 }, b := .imm (.i18 8) }, .xrel { b := .imm (.i18 248) }),
    (.xrel { b := .imm (.i18 256) }, .xrel { b := .imm (.i18 240) }),
    (.rep { body := .reg 0x4A {} }, .rep { body := .reg 0x20 (v2 .i32) }),
    (.rep { body := .reg 0x02 { b := .imm (.i18 8) } }, .rep { body := .mem 0x80 { m0 with d := rV 1, sub := 2 } }),
    (.rep { cstep := 1, body := .reg 0x20 (v2 .i32) }, .rep { cstep := 1, body := .reg 0x24 (v3 .i32) }),
    (.rep { bstep := 1, body := .reg 0x20 { v2 .i32 with b := .imm (.i18 1) } }, .rep { bstep := 1, dstep := 2, body := .reg 0x20 (v2 .i32) }),
    (.rep { dstep := 1, body := .mem 0x81 { m0 with sub := 2, b := .reg (rV 1) } }, .rep { bstep := 1, body := .mem 0x81 { m0 with sub := 2, b := .reg (rV 1) } })] = true := by
  decide +kernel

theorem test_refuses_integers_and_moves : refuses [
    (.mulh (v2 .i16x2), .mulh (v2 .u64)),
    (.div (v2 .i8x4), .div (v2 .i32)),
    (.and (v2 .i8x4), .and (v2 .raw)),
    (.not { v1 .i32 with b := .reg (rS 1) }, .not (v1 .i32)),
    (.abs { v1 .i32 with sub := 2 }, .abs { v1 .i32 with sub := 1 }),
    (.cmp { v2 .i32 with d := rK 1, sub := 10 }, .cmp { v2 .i32 with d := rK 1, sub := 9 }),
    (.bfx { v2 .i32 with x10 := 32 }, .bfx { v2 .i64 with x10 := 32 }),
    (.bfx { v2 .i32 with b := .imm (.i18 3) }, .bfx (v2 .u32)),
    (.bfi (v2 .i32), .bfi (v3 .i32)),
    (.lop3 { v3 .i32 with x10 := 256 }, .lop3 { v3 .i32 with x10 := 255 }),
    (.li { v1 .i32 with a := {}, b := .reg (rV 1) }, .li { v1 .i32 with a := {}, b := .imm (.i18 1) }),
    (.li { v1 .i32 with b := .imm (.i18 1) }, .li { v1 .f32 with a := {}, b := .imm (.i32 1), h := w3h }),
    (.prom { v1 .raw with a := rS 1 }, .prom { v1 .i32 with a := rS 1 }),
    (.dema { d := rA 2, a := rV 4, fmt := .i32 }, .dema { d := rA 2, a := rV 4, fmt := .i64 }),
    (.dema { d := rA 2, a := rV 4, fmt := .i64, x10 := 16 }, .dema { d := rA 2, a := rV 4, fmt := .i64, sub := 1, x10 := 15 }),
    (.base { d := rS 2, a := rA 2, fmt := .u32 }, .base { d := rS 2, a := rA 2, fmt := .u64 }),
    (.sread { d := rS 1, x10 := 0x22 }, .sread { d := rS 1, x10 := 0x21 }),
    (.swrite { a := rS 1, x10 := 0x65 }, .swrite { a := rS 1, x10 := 0x64 }),
    (.sread { d := rS 1, a := rS 2, x10 := 1 }, .sread { d := rV 1, x10 := 0x50 }),
    (.segld { a := rS 4, b := .reg (rS 5), x10 := 5 }, .segld { a := rS 4, b := .reg (rS 5), x10 := 4 })] = true := by decide +kernel

theorem test_refuses_floating : refuses [
    (.fadd (v2 .e4m3x4), .fadd (v2 .bf16x2)),
    (.fadd { v2 .f32 with h := w3h, d := rS 4, a := rS 2, b := .reg (rS 6), rnd := .stoch }, .fadd { v2 .f32 with h := w3h, rnd := .stoch }),
    (.fmin { v2 .f32 with h := w3h, rnd := .rz }, .fmin { v2 .f32 with h := w3h }),
    (.fma (v2 .f32), .fma (v3 .f32)),
    (.fabs { v1 .f32 with sub := 3 }, .fabs { v1 .f32 with sub := 2 }),
    (.fcmp { v2 .f32 with d := rK 1, sub := 8 }, .fcmp { v2 .f32 with d := rK 1, sub := 7 }),
    (.fclass { v1 .f32 with x10 := 1 }, .fclass { v1 .f32 with d := rK 1, x10 := 511 }),
    (.cvt { v1 .i32 with sub := 10 }, .cvt { v1 .f32 with sub := 1 }),
    (.cvt { v1 .i8x4 with sub := 8 }, .cvt { v1 .e4m3x4 with sub := 8 }),
    (.cvt { v1 .f16x2 with sub := 1 }, .cvt { v1 .f16x2 with sub := 3 }),
    (.cvt { v1 .f32 with sub := 14 }, .cvt { v1 .f32 with sub := 13 }),
    (.rcp { v1 .f32 with sub := 1 }, .rcp (v1 .f16x2)),
    (.dot2 (v3 .i8x4), .dot2 (v3 .f16x2)),
    (.dot2 { v3 .f16x2 with sub := 1 }, .dot2 { v3 .i16x2 with sub := 1 }),
    (.dot4 (v3 .f16x2), .dot4 (v3 .e5m2x4)),
    (.sad (v3 .f32), .sad (v3 .i16x2)),
    (.avg { v2 .u8x4 with sub := 2 }, .avg { v2 .u8x4 with sub := 1 }),
    (.pack { v2 .f16x2 with sub := 2 }, .pack { v2 .f16x2 with sub := 1 }),
    (.pack { v2 .u8x4 with sub := 10, x10 := 2 }, .pack { v2 .u8x4 with sub := 10, x10 := 1 }),
    (.unpk { v1 .f32 with sub := 2, x10 := 2 }, .unpk { v1 .f32 with sub := 2, x10 := 1 }),
    (.unpk { v1 .f16x2 with sub := 6 }, .unpk { v1 .f16x2 with sub := 8, x10 := 1 }),
    (.prmt { v2 .raw with b := .imm (.i18 0x10000) }, .prmt { v2 .raw with b := .imm (.i18 0xFFFF) })] = true := by decide +kernel

theorem test_refuses_lanes : refuses [
    (.shuf { v2 .raw with x10 := 7 }, .shuf { v2 .raw with x10 := 6 }),
    (.shuf { v2 .raw with sub := 3 }, .shuf { v2 .raw with sub := 2, x10 := 16 }),
    (.shuf (v2 .i32), .shuf (v2 .i64)),
    (.red { v1 .i32 with sub := 2 }, .red { v1 .i32 with sub := 3 }),
    (.red { v1 .f16x2 with sub := 9 }, .red { v1 .f32 with sub := 9 }),
    (.scan { v1 .f32 with sub := 9 }, .scan { v1 .f32 with x10 := 1 }),
    (.vote { d := rK 1, a := rK 2, sub := 3 }, .vote { d := rK 1, a := rK 2, sub := 2 }),
    (.ballot { d := rS 2, a := rK 2, sub := 1 }, .ballot { d := rS 2, a := rK 2 }),
    (.plog { d := rK 1, a := rK 2, x10 := 64 }, .plog { d := rK 1, a := rK 2, sub := 3, x10 := 63 }),
    (.pmov { d := rS 1, sub := 4 }, .pmov { d := rS 1, a := rK 2, sub := 2, x10 := 31 }),
    (.pmov { d := rS 1, a := rK 2, sub := 1 }, .pmov { d := rS 1, sub := 1 }),
    (.pcnt { d := rS 1, a := rK 2, sub := 2 }, .pcnt { d := rS 1, a := rK 2, sub := 1 })] = true := by decide +kernel

theorem test_refuses_memory : refuses [
    (.ld { m0 with d := rV 1, sub := 5 }, .ld { m0 with d := rV 1, sub := 4 }),
    (.ld { m0 with d := rV 1, sub := 0, fmt := .f32 }, .ld { m0 with d := rV 1, sub := 0, fmt := .u32 }),
    (.ld { m0 with d := rV 1, sub := 2, tol := 3 }, .ld { m0 with d := rV 1, sub := 2, fmt := .f32, tol := 3 }),
    (.ld { m0 with d := rV 1, sub := 2, ord := .rel }, .ld { m0 with d := rV 1, sub := 2, ord := .acq }),
    (.ld { m0 with d := rV 1, sub := 2, w3 := 1 }, .ld { m0 with h := w4h, d := rV 1, sub := 2, w3 := 1 }),
    (.st { m0 with d := rS 1, sub := 2, b := .reg (rV 1) }, .st { m0 with sub := 2, b := .reg (rV 1), ord := .rel }),
    (.st { m0 with sub := 4, b := .imm (.i18 0) }, .st { m0 with sub := 3, b := .imm (.i18 0) }),
    (.st { m0 with sub := 2, b := .reg (rK 1) }, .st { m0 with sub := 2, b := .reg (rS 1) }),
    (.ldsx { m0 with d := rV 1, fmt := .i32, b := .reg (rS 1) }, .ldsx { m0 with d := rV 1, fmt := .f32, b := .reg (rS 1) }),
    (.stsx { m0 with fmt := .f32, x10 := 1, a := rV 1, b := .reg (rV 2) }, .stsx { m0 with fmt := .f32, x10 := 3, a := rV 1, b := .reg (rV 2) }),
    (.stsx { m0 with h := w4h, fmt := .f32, x10 := 3, b := .reg (rV 2), w3 := 0x7F80 }, .stsx { m0 with h := w4h, fmt := .f32, x10 := 3, b := .reg (rV 2), w3 := 0x3F80 }),
    (.atom { m0 with d := rV 1, sub := 1, fmt := .i32, b := .reg (rV 2) }, .atom { m0 with d := rV 1, sub := 2, fmt := .i32, b := .reg (rV 2) }),
    (.atom { m0 with d := rV 1, sub := 2, fmt := .i32, x10 := 1, b := .reg (rV 2) }, .atom { m0 with sub := 2, fmt := .i32, x10 := 1, b := .reg (rV 2) }),
    (.atom { m0 with sub := 10, x10 := 1, b := .reg (rV 2) }, .atom { m0 with d := rV 1, sub := 10, b := .reg (rV 2) }),
    (.acc { m0 with fmt := .f32, ord := .acq, b := .reg (rV 2) }, .acc { m0 with fmt := .f32, ord := .rel, b := .reg (rV 2) }),
    (.fence { h := w3h }, .fence {}),
    (.pref { m0 with sub := 2 }, .pref { m0 with sub := 1 }),
    (.drain { m0 with seg := .scr }, .drain m0),
    (.breg { m0 with h := w4h, b := .reg (rS 1), w3 := 0x7F800000 }, .breg { m0 with h := w4h, b := .reg (rS 1), w3 := 0x3F800000 }),
    (.breg { m0 with h := w4h, b := .reg (rS 1) }, .bfree m0),
    (.put { d := rK 17, a := rS 4, b := rS 6, c := rS 5 }, .put { d := rK 17, a := rS 4, b := rS 6, c := rS 5, lc := true }),
    (.hwait { d := rS 1, a := rK 17 }, .hwait { a := rK 17 }),
    (.htest { a := rK 17 }, .htest { d := rS 1, a := rK 17, sub := 1 }),
    (.hcancel { a := rK 17, sub := 1 }, .hcancel { a := rK 17 }),
    (.hmov { d := rK 18, a := rK 17, x10 := 1 }, .hmov { d := rK 18, a := rK 17 })] = true := by decide +kernel

theorem test_refuses_kiln_counters_contexts : refuses [
    (.kload { d := rK 17, a := rS 4, b := rS 5, pitch := 192, mfmt := .sx4, sfmt := .sx .sx4 },
      .kload { d := rK 17, a := rS 4, b := rS 5, pitch := 200, mfmt := .sx4, sfmt := .sx .sx4 }),
    (.kload { d := rK 17, a := rS 4, b := rS 5, pitch := 200, mfmt := .sx2, sfmt := .sx .sx4 },
      .kload { d := rK 17, a := rS 4, b := rS 5, pitch := 256, mfmt := .sx2, sfmt := .bf16 }),
    (.ktask m0, .ktask { m0 with d := rK 17, seg := .scr }),
    (.kzero { d := rK 32, a := rS 1 }, .kzero { d := rK 32 }),
    (.kread { v1 .f32 with a := rK 32, b := .imm (.i18 32) }, .kread { v1 .f32 with a := rK 32, b := .imm (.i18 31) }),
    (.kwrite { v1 .f32 with d := rK 32, h := w3h, rnd := .stoch, b := .reg (rS 1) },
      .kwrite { v1 .f32 with d := rK 32, h := w3h, rnd := .stoch, sub := 8, b := .reg (rS 1) }),
    (.kstore { m0 with fmt := .f32, a := rK 32, b := .reg (rS 1), seg := .scr, x10 := 32 * 31 + 1 },
      .kstore { m0 with fmt := .f32, a := rK 32, b := .reg (rS 1), seg := .scr, x10 := 32 * 30 + 1 }),
    (.kstore { m0 with sub := 1, a := rK 32, b := .reg (rS 1), seg := .scr, x10 := 0 },
      .kstore { m0 with sub := 1, a := rK 32, b := .reg (rS 1), seg := .scr, x10 := 32 }),
    (.kfree { b := .imm (.i18 65536) }, .kfree { b := .imm (.i18 65535) }),
    (.kstat { d := rS 1, sub := 4 }, .kstat { d := rS 1, sub := 3 }),
    (.barArrive { x10 := 256 + 16 }, .barArrive { x10 := 63 }),
    (.barArrive { b := .reg (rS 1) }, .barArrive { x10 := 128, b := .reg (rS 1) }),
    (.barWait { sub := 1, x10 := 128 }, .barWait { sub := 1 }),
    (.barSync { sub := 2, x10 := 64 }, .barSync { sub := 2 }),
    (.barQuery { sub := 3, d := rK 1, a := rS 1 }, .barQuery { sub := 3, d := rK 1 }),
    (.sigadd { m0 with d := rV 2 }, .sigadd { m0 with sub := 1 }),
    (.sigwait { m0 with sub := 6 }, .sigwait { m0 with sub := 5, d := rV 2 }),
    (.ctwait m0, .ctwait { m0 with seg := .scr }),
    (.twait { b := .imm (.i18 1) }, .twait { sub := 1, b := .imm (.i18 1) }),
    (.flagr { d := rS 1, b := .reg (rS 2) }, .flagr { d := rS 1 }),
    (.flagc { b := .imm (.i18 64) }, .flagc { b := .imm (.i18 63) }),
    (.launch { h := {} , d := rK 17, a := rS 4, b := rS 6 }, .launch { d := rK 17, a := rS 4, b := rS 6 }),
    (.sysc { d := rV 20, a := rV 8, sub := 2 }, .sysc { d := rV 20, a := rV 8, sub := 1, x10 := 1023 }),
    (.savek { m0 with b := .imm (.i18 65536), seg := .ctx }, .savek { m0 with b := .imm (.i18 65535), seg := .ctx }),
    (.savek { m0 with sub := 2, b := .imm (.i18 32), seg := .ctx }, .savek { m0 with sub := 2, b := .imm (.i18 31), seg := .ctx }),
    (.restk { m0 with b := .imm (.i18 1) }, .restk { m0 with b := .imm (.i18 1), seg := .ctx }),
    (.rddiv { m0 with sub := 1, seg := .ctx }, .rddiv { m0 with seg := .ctx }),
    (.tret { h := w3h }, .tret {})] = true := by decide +kernel

/-- A step of another agent is no instruction that words can hold. -/
theorem test_refuses_steps : (Instr.legal .bringUp, Instr.legal (.dispatch 0), encode .bringUp) = (false, false, []) := by decide +kernel

/-! ## Words written out from the encoding tables (R74 to R81, R95, R98, R170, R263, R340), one or more of every instruction -/

def decodes (l : List (List W32 × Instr)) : Bool := l.all fun x => match decode 0 x.1 with | .ok i => decide (i = x.2) | .error _ => false

theorem test_decodes_control : decodes [
    ([0x00008007, 0x00000000, 0x00000000, 0x00000000], .nop { h := { len := .w4, y := true } }),
    ([0x00000009, 0x00000005], .jmp { b := .reg (rS 5) }),
    ([0x0000000A, 0x00003000, 0x80000000], .jmp { h := w3h, b := .imm (.i32 0x80000000) }),
    ([0x0300000D, 0xFFC070F8], .bra { a := rS 3, sub := 1, b := .imm (.i18 (-8)) }),
    ([0x00005011, 0x00003018], .br { h := { gp := 4, gn := true }, b := .imm (.i18 24) }),
    ([0x03210017, 0x00008000, 0x00020001, 0x00040003], .br4 { p0 := 1, p1 := 2, p2 := 3, p3 := 0, neg := 2, disp := 0x0004000300020001 }),
    ([0x00000019, 0x00000000], .join {}),
    ([0x0000001D, 0x00C030E8], .joinw { b := .imm (.i18 1000) }),
    ([0x001E0022, 0x00003000, 0x7FFFFFF8], .call { h := w3h, d := rS 30, b := .imm (.i32 0x7FFFFFF8) }),
    ([0x07100025, 0x00000000], .calli { d := rS 16, a := rS 7 }),
    ([0x00000029, 0x00000000], .ret {}),
    ([0x0108082D, 0xFFC038FC], .fork { h := { gp := 2 }, d := rS 8, a := rV 1, b := .imm (.i18 (-4)) }),
    ([0x00007C31, 0x00000000], .exit { h := { gp := 15, gn := true } }),
    ([0x00000035, 0xA9400000], .trap { x10 := 0x2A5 }),
    ([0x00008039, 0x00000000], .brk { h := { y := true } }),
    ([0x0201803D, 0xFC00FF03, 0x08040092, 0x00282A02, 0x00000206], .rep { y := true, cnt := 63, cstep := 255, bstep := 3, astep := 2, dstep := 1, body := .reg 0x24 (v3 .i32) }),
    ([0x0001003D, 0x04000000, 0x01040202, 0x00048600, 0x00000040], .rep { cnt := 1, dstep := 1, body := .mem 0x80 { fmt := .f32, sub := 2, d := rV 4, a := rA 1, disp := 64 } }),
    ([0x00000041, 0x000030F8], .xacq { b := .imm (.i18 248) }),
    ([0x00000045, 0x00003008], .xrel { b := .imm (.i18 8) })] = true := by decide +kernel

theorem test_decodes_integers : decodes [
    ([0x0FFF1481, 0x0020061F], .add { h := { gp := 5 }, fmt := .i8x4, d := rV 255, a := rA 15, b := .reg (rS 31) }),
    ([0x0FFF1485, 0x0034061F], .sub { h := { gp := 5 }, fmt := .u64, d := rV 255, a := rA 15, b := .reg (rS 31) }),
    ([0x0FFF1489, 0x001C061F], .mul { h := { gp := 5 }, fmt := .u16x2, d := rV 255, a := rA 15, b := .reg (rS 31) }),
    ([0x0FFF148D, 0x0030061F], .mulh { h := { gp := 5 }, fmt := .i64, d := rV 255, a := rA 15, b := .reg (rS 31) }),
    ([0x0FFF1495, 0x002C061F], .div { h := { gp := 5 }, fmt := .u32, d := rV 255, a := rA 15, b := .reg (rS 31) }),
    ([0x0FFF1499, 0x0028061F], .rem { h := { gp := 5 }, fmt := .i32, d := rV 255, a := rA 15, b := .reg (rS 31) }),
    ([0x0FFF149D, 0x0000061F], .and { h := { gp := 5 }, fmt := .raw, d := rV 255, a := rA 15, b := .reg (rS 31) }),
    ([0x0FFF14A1, 0x0034061F], .or { h := { gp := 5 }, fmt := .u64, d := rV 255, a := rA 15, b := .reg (rS 31) }),
    ([0x0FFF14A5, 0x0030061F], .xor { h := { gp := 5 }, fmt := .i64, d := rV 255, a := rA 15, b := .reg (rS 31) }),
    ([0x0FFF14AD, 0x0018061F], .shl { h := { gp := 5 }, fmt := .i16x2, d := rV 255, a := rA 15, b := .reg (rS 31) }),
    ([0x0FFF14B1, 0x0024061F], .shr { h := { gp := 5 }, fmt := .u8x4, d := rV 255, a := rA 15, b := .reg (rS 31) }),
    ([0x0FFF14B5, 0x0028061F], .sar { h := { gp := 5 }, fmt := .i32, d := rV 255, a := rA 15, b := .reg (rS 31) }),
    ([0x0FFF14B9, 0x0028061F], .min { h := { gp := 5 }, fmt := .i32, d := rV 255, a := rA 15, b := .reg (rS 31) }),
    ([0x0FFF14BD, 0x002C061F], .max { h := { gp := 5 }, fmt := .u32, d := rV 255, a := rA 15, b := .reg (rS 31) }),
    ([0x080400AA, 0x00000A00, 0x00022400], .not { h := w3h, fmt := .raw, d := rV 4, a := rV 8, xa := { amt := 17, pat := .rot } }),
    ([0x080400C2, 0x00200A00, 0x00022400], .abs { h := w3h, fmt := .i8x4, d := rV 4, a := rV 8, xa := { amt := 17, pat := .rot } }),
    ([0x080400C6, 0x00300A00, 0x00022400], .neg { h := w3h, fmt := .i64, d := rV 4, a := rV 8, xa := { amt := 17, pat := .rot } }),
    ([0x080400D2, 0x002C0A00, 0x00022400], .popc { h := w3h, fmt := .u32, d := rV 4, a := rV 8, xa := { amt := 17, pat := .rot } }),
    ([0x080400D6, 0x00340A00, 0x00022400], .clz { h := w3h, fmt := .u64, d := rV 4, a := rV 8, xa := { amt := 17, pat := .rot } }),
    ([0x080400DA, 0x00280A00, 0x00022400], .brev { h := w3h, fmt := .i32, d := rV 4, a := rV 8, xa := { amt := 17, pat := .rot } }),
    ([0x080400E6, 0x00080A00, 0x00022400], .mov { h := w3h, fmt := .f16x2, d := rV 4, a := rV 8, xa := { amt := 17, pat := .rot } }),
    ([0x08040092, 0x00342A02, 0x21400206], .mad { v3 .u64 with xb := { rel := true, amt := 2, pat := .mirr } }),
    ([0x020900CA, 0x0028F300, 0xFFFFFFFE], .cmp { h := w3h, fmt := .i32, sub := 3, d := rK 9, a := rS 2, b := .imm (.i32 0xFFFFFFFE) }),
    ([0x080400CE, 0x000C2A02, 0x00000307], .sel { v3 .bf16x2 with c := rK 7 }),
    ([0x030400DD, 0x01E82A02], .bfx { v2 .i32 with x10 := 7, a := rV 3 }),
    ([0x080400E2, 0x0FF42A02, 0x00000206], .bfi { v3 .u64 with x10 := 63 }),
    ([0x000200EB, 0x00303100, 0x89ABCDEF, 0x01234567], .li { h := w4h, fmt := .i64, d := rA 2, b := .imm (.i64 0x0123456789ABCDEF) }),
    ([0x000600E9, 0x3F843200], .li { fmt := .f32, d := rV 6, b := .imm (.i18 0xFE00) }),
    ([0x080400EE, 0x25802A02, 0x00000206], .lop3 { v3 .raw with x10 := 0x96 }),
    ([0x09030101, 0x00300100], .prom { fmt := .i64, d := rA 3, a := rS 9 }),
    ([0x09030105, 0x002C0800], .demv { fmt := .u32, d := rS 3, a := rV 9 }),
    ([0x08030109, 0x02744900], .dema { fmt := .u64, sub := 1, x10 := 9, d := rA 3, a := rV 8 }),
    ([0x0903010D, 0x00300400], .base { fmt := .i64, d := rS 3, a := rA 9 }),
    ([0x0A040111, 0x00300400], .strd { fmt := .i64, d := rS 4, a := rA 10 }),
    ([0x00040115, 0x08400000], .sread { x10 := 0x21, d := rS 4 }),
    ([0x04000119, 0x10C00800], .swrite { x10 := 0x43, a := rV 4 }),
    ([0x0400011D, 0x01000005], .segld { x10 := 4, a := rS 4, b := .reg (rS 5) })] = true := by decide +kernel

theorem test_decodes_floating : decodes [
    ([0x08040142, 0x000C2A02, 0xD0600000], .fadd { v2 .bf16x2 with h := w3h, xb := { amt := 32, pat := .shu }, rnd := .dyn }),
    ([0x08040146, 0x00042A02, 0x90600000], .fsub { v2 .f32 with h := w3h, xb := { amt := 32, pat := .shu }, rnd := .stoch }),
    ([0x0804014A, 0x00082A02, 0x50600000], .fmul { v2 .f16x2 with h := w3h, xb := { amt := 32, pat := .shu }, rnd := .rz }),
    ([0x0804014E, 0x00042A02, 0x80000206], .fma { v3 .f32 with rnd := .stoch }),
    ([0x08040152, 0x00043A00, 0x3F800000], .fmin { h := w3h, fmt := .f32, d := rV 4, a := rV 8, b := .imm (.i32 0x3F800000) }),
    ([0x08040156, 0x00043A00, 0x3F800000], .fmax { h := w3h, fmt := .f32, d := rV 4, a := rV 8, b := .imm (.i32 0x3F800000) }),
    ([0x08040159, 0x00088A00], .fabs { v1 .f16x2 with sub := 2 }),
    ([0x0803015D, 0x0005EB02], .fcmp { v2 .f32 with d := rK 3, sub := 7 }),
    ([0x08030161, 0x7FC40B00], .fclass { v1 .f32 with d := rK 3, x10 := 0x1FF }),
    ([0x08040166, 0x00040A00, 0x40000000], .frnd { v1 .f32 with h := w3h, rnd := .rz }),
    ([0x08040169, 0x00210A00], .cvt { v1 .i8x4 with sub := 4 }),
    ([0x0804016D, 0x00040A00], .rcp (v1 .f32)),
    ([0x08040171, 0x00080A00], .rsq (v1 .f16x2)),
    ([0x08040175, 0x000C0A00], .sqrt (v1 .bf16x2)),
    ([0x08040179, 0x00040A00], .ex2 (v1 .f32)),
    ([0x0804017D, 0x00040A00], .lg2 (v1 .f32)),
    ([0x08040181, 0x00040A00], .sin (v1 .f32)),
    ([0x08040185, 0x00080A00], .cos (v1 .f16x2)),
    ([0x08040189, 0x000C0A00], .tanh (v1 .bf16x2)),
    ([0x08040192, 0x00186A02, 0x00000206], .dot2 { v3 .i16x2 with sub := 1 }),
    ([0x08040196, 0x00242A02, 0x00000206], .sad (v3 .u8x4)),
    ([0x08040199, 0x00246A02], .avg { v2 .u8x4 with sub := 1 }),
    ([0x0804019D, 0x00506A02], .pack { v2 .e4m3x4 with sub := 1, x10 := 1 }),
    ([0x080401A1, 0x00C64A00], .unpk { v1 .f32 with sub := 9, x10 := 3 }),
    ([0x080401A5, 0x1D403A31], .prmt { v1 .raw with b := .imm (.i18 0x7531) }),
    ([0x080401AA, 0x00142A02, 0x00000206], .dot4 (v3 .e5m2x4))] = true := by decide +kernel

theorem test_decodes_lanes : decodes [
    ([0x080401C1, 0x05B06A02], .shuf { v2 .i64 with sub := 1, x10 := 0x16 }),
    ([0x080A01C5, 0x00064A00], .red { v1 .f32 with sub := 9, d := rV 10 }),
    ([0x080401C9, 0x00754A00], .scan { v1 .u64 with sub := 5, x10 := 1 }),
    ([0x020101CD, 0x00008F00], .vote { d := rK 1, a := rK 2, sub := 2 }),
    ([0x020101D1, 0x00000C00], .ballot { d := rS 1, a := rK 2 }),
    ([0x020101D9, 0x08C0CF00], .plog { d := rK 1, a := rK 2, sub := 3, x10 := 0x23 }),
    ([0x020101DD, 0x00000F00], .pnot { d := rK 1, a := rK 2 }),
    ([0x020101E1, 0x07C08C00], .pmov { d := rS 1, a := rK 2, sub := 2, x10 := 31 }),
    ([0x020101E5, 0x00004C00], .pcnt { d := rS 1, a := rK 2, sub := 1 })] = true := by decide +kernel

theorem test_decodes_memory : decodes [
    ([0x01040202, 0x00048600, 0xB0AFFFF0], .ld { fmt := .f32, sub := 2, d := rV 4, a := rA 1, nt := true, ord := .acq, tol := 33, seg := .cst, disp := 0xFFFF0 }),
    ([0x0D000207, 0xFFE8B0FF, 0x40000040, 0xFFFFFFFF], .st { h := w4h, fmt := .i32, sub := 2, a := rS 13, b := .imm (.i18 (-1)), ord := .rel, disp := 64, w3 := 0xFFFFFFFF }),
    ([0x0904020A, 0x00C88A06, 0x00100008], .ldsx { sub := 2, fmt := .f16x2, x10 := 3, d := rV 4, a := rV 9, b := .reg (rS 6), seg := .scr, disp := 8 }),
    ([0x0900020F, 0x00C46806, 0x00000000, 0x00003F80], .stsx { h := w4h, sub := 1, fmt := .f32, x10 := 3, a := rV 9, b := .reg (rV 6), w3 := 0x3F80 }),
    ([0x020A0212, 0x0002A612, 0x60000010], .atom { sub := 10, d := rV 10, a := rA 2, b := .reg (rV 18), ord := .acqrel, disp := 16 }),
    ([0x02000216, 0x00042412, 0x00000004], .acc { fmt := .f32, a := rA 2, b := .reg (rV 18), disp := 4 }),
    ([0x00000219, 0x00000000], .fence {}),
    ([0x0200021E, 0x00004800, 0x00100080], .pref { sub := 1, a := rV 2, seg := .scr, disp := 128 }),
    ([0x04000222, 0x00000000, 0x00000080], .drain { a := rS 4, disp := 128 }),
    ([0x04020227, 0x00000305, 0x00000080, 0x42C80000], .breg { h := w4h, d := rK 2, a := rS 4, b := .reg (rS 5), disp := 128, w3 := 0x42C80000 }),
    ([0x0400022A, 0x00000000, 0x00000080], .bfree { a := rS 4, disp := 128 }),
    ([0x04110233, 0x00000306, 0x0001281C, 0x00000000], .cpy2d { d := rK 17, a := rS 4, b := rS 6, c := rS 28, sseg := .cst, dseg := .scr, nt := true }),
    ([0x041F0237, 0x00000306, 0x00000405, 0x8007FFF8], .put { d := rK 31, a := rS 4, b := rS 6, c := rS 5, sseg := .scr, lc := true, lcoff := 0x7FFF8 }),
    ([0x0411022F, 0x00000306, 0x00002005, 0x80000100], .cpy { d := rK 17, a := rS 4, b := rS 6, c := rS 5, dseg := .scr, lc := true, lcoff := 256 }),
    ([0x11030239, 0x00008F00], .hwait { a := rK 17, sub := 2, d := rK 3 }),
    ([0x1103023D, 0x00004C00], .htest { a := rK 17, sub := 1, d := rS 3 }),
    ([0x11000241, 0x00000C00], .hcancel { a := rK 17 }),
    ([0x1F040245, 0x00000C00], .hmov { d := rS 4, a := rK 31 }),
    ([0x04100249, 0x00000300], .hadopt { d := rK 16, a := rS 4 })] = true := by decide +kernel

theorem test_decodes_kiln : decodes [
    ([0x04120283, 0x00000305, 0x000F0630, 0x00000200], .kload { d := rK 18, a := rS 4, b := rS 5, pitch := 0x200, nmac := 15, sseg := .scr, mfmt := .sx7, sfmt := .bf16 }),
    ([0x06110286, 0x00000300, 0x00100040], .ktask { d := rK 17, a := rS 6, seg := .scr, disp := 64 }),
    ([0x003F0289, 0x00000300], .kzero { d := rK 63 }),
    ([0x2308028D, 0x0004FE1F], .kread { fmt := .f32, sub := 3, d := rV 8, a := rK 35, b := .imm (.i18 31) }),
    ([0x08230292, 0x00070B02, 0xC0000000], .kwrite { h := w3h, fmt := .f32, sub := 12, d := rK 35, a := rV 8, b := .reg (rS 2), rnd := .dyn }),
    ([0x28000296, 0x78008C02, 0x80100088], .kstore { sub := 2, x10 := 0x1E0, a := rK 40, b := .reg (rS 2), nt := true, seg := .scr, disp := 136 }),
    ([0x00000299, 0x3FC030FF], .kfree { b := .imm (.i18 65535) }),
    ([0x0001029D, 0x00004002], .kstat { d := rS 1, sub := 1, b := .reg (rS 2) })] = true := by decide +kernel

theorem test_decodes_counters : decodes [
    ([0x000002C1, 0x30000006], .barArrive { x10 := 0xC0, b := .reg (rS 6) }),
    ([0x000902C1, 0x20C00206], .barArrive { d := rV 9, x10 := 0x83, b := .reg (rS 6) }),
    ([0x090002C1, 0xC3C04800], .barWait { sub := 1, a := rV 9, x10 := 0x30F }),
    ([0x000902C1, 0x20C08206], .barSync { sub := 2, d := rV 9, x10 := 0x83, b := .reg (rS 6) }),
    ([0x000902C1, 0x43C0C000], .barQuery { sub := 3, d := rS 9, x10 := 0x10F }),
    ([0x040002C6, 0x00006806, 0x00100008], .sigadd { sub := 1, a := rV 4, b := .reg (rV 6), seg := .scr, disp := 8 }),
    ([0x040202CA, 0x00017207, 0x00000008], .sigwait { sub := 5, d := rV 2, a := rS 4, b := .imm (.i18 7), disp := 8 }),
    ([0x040002CE, 0x00003007, 0x00100008], .ctwait { a := rS 4, b := .imm (.i18 7), seg := .scr, disp := 8 }),
    ([0x000002D2, 0x00007000, 0x000F4240], .twait { h := w3h, sub := 1, b := .imm (.i32 1000000) }),
    ([0x000702D5, 0x00000000], .flagr { d := rS 7 }),
    ([0x000002D9, 0x0000303F], .flagc { b := .imm (.i18 63) }),
    ([0x000026DD, 0x00003020], .flaga { h := { gp := 9 }, b := .imm (.i18 32) })] = true := by decide +kernel

theorem test_decodes_contexts : decodes [
    ([0x06120303, 0x00000307, 0x00000000, 0x00000000], .launch { h := w4h, d := rK 18, a := rS 6, b := rS 7 }),
    ([0x08140305, 0xFFC04A00], .sysc { sub := 1, x10 := 0x3FF, d := rV 20, a := rV 8 }),
    ([0x1400030A, 0x0000B01F, 0x00400008], .savek { sub := 2, a := rS 20, b := .imm (.i18 31), seg := .ctx, disp := 8 }),
    ([0xFA00030E, 0x0FC03800, 0x00400000], .restk { a := rV 250, b := .imm (.i18 0x3F00), seg := .ctx }),
    ([0x14000312, 0x00000000, 0x00400080], .rddiv { a := rS 20, seg := .ctx, disp := 0x80 }),
    ([0x14000316, 0x00000000, 0x00400080], .wrdiv { a := rS 20, seg := .ctx, disp := 0x80 }),
    ([0x00008319, 0x00000000], .tret { h := { y := true } })] = true := by decide +kernel

/-! ## Single instructions of one lane -/

def after (i : Instr) (s : State) : Option State := match exec i s with | .next t => some t | _ => none

/-- Varying registers of lane 0. -/
def vs (l : List (Nat × W32)) (p : Posy) : Posy := { p with v := l.map fun x => (64 * x.1, x.2) }

def vAt (s : State) (r L : Nat) : Option W32 := (s.posy 0).map fun p => Tab.get 0 p.v (64 * r + L)
def sAt (s : State) (n : Nat) : Option (BitVec 64) := (s.team 0).bind fun t => (t.frame 0).map fun f => f.sreg n
def flagsOf (s : State) : Option (BitVec 6) := (s.team 0).map (·.flags)
def predsAt (s : State) (n : Nat) : Option (List Bool) := (s.posy 0).map fun p => (List.range 64).filterMap fun L => (Tab.get none p.lanes L).map fun _ => p.pred n L

/-- v4 and the sticky flags after an instruction on v8, v2 and v6. -/
def out1 (i : Instr) (a : W32) (b : W32 := 0) (c : W32 := 0) : Option (W32 × BitVec 6) :=
  (after i (mk (vs [(8, a), (2, b), (6, c)]))).bind fun t => (vAt t 4 0).bind fun v => (flagsOf t).map fun f => (v, f)

/-- The pair v4, v5 after an instruction on the pairs v8, v9 and v2, v3. -/
def out2 (i : Instr) (a b : BitVec 64) : Option (BitVec 64) :=
  (after i (mk (vs [(8, a.setWidth 32), (9, a.extractLsb' 32 32), (2, b.setWidth 32), (3, b.extractLsb' 32 32)]))).bind fun t =>
    (vAt t 4 0).bind fun lo => (vAt t 5 0).map fun hi => hi ++ lo

def satOf (o : Ops) : Ops := { o with sub := 1 }
-- The bits of FLAGS: 1 SAT, 2 INV, 4 DZ, 8 OVF, 16 UNF (R109).

theorem test_add_wraps : out1 (.add (v2 .i32)) 0x7FFFFFFF 1 = some (0x80000000, 0) := by decide +kernel
theorem test_add_pair_carries : out2 (.add (v2 .i64)) 0x00000001FFFFFFFF 1 = some 0x0000000200000000 := by decide +kernel
theorem test_sub_packed_saturates : out1 (.sub (satOf (v2 .u8x4))) 0x05100300 0x01200301 = some (0x04000000, 1) := by decide +kernel
theorem test_mul_packed : out1 (.mul (v2 .i16x2)) 0xFFFF0003 0x00020004 = some (0xFFFE000C, 0) := by decide +kernel
theorem test_mulh_signed : out1 (.mulh (v2 .i32)) 0xFFFFFFFF 2 = some (0xFFFFFFFF, 0) := by decide +kernel
theorem test_mulh_unsigned : out1 (.mulh (v2 .u32)) 0xFFFFFFFF 2 = some (1, 0) := by decide +kernel
theorem test_mad : out1 (.mad (v3 .i32)) 7 6 0xFFFFFFFF = some (41, 0) := by decide +kernel
theorem test_div_truncates : out1 (.div (v2 .i32)) 0xFFFFFFF9 2 = some (0xFFFFFFFD, 0) := by decide +kernel
theorem test_div_by_zero : out1 (.div (v2 .u32)) 5 0 = some (0xFFFFFFFF, 4) := by decide +kernel
theorem test_rem_takes_the_sign_of_x : out1 (.rem (v2 .i32)) 0xFFFFFFF9 2 = some (0xFFFFFFFF, 0) := by decide +kernel
theorem test_rem_corner : out1 (.rem (v2 .i32)) 0x80000000 0xFFFFFFFF = some (0, 0) := by decide +kernel
theorem test_and : out1 (.and (v2 .raw)) 0xF0F0F0F0 0xFF00FF00 = some (0xF000F000, 0) := by decide +kernel
theorem test_or : out1 (.or (v2 .raw)) 0xF0F0F0F0 0x0F000F00 = some (0xFFF0FFF0, 0) := by decide +kernel
theorem test_xor : out1 (.xor (v2 .u32)) 0xF0F0F0F0 0xFF00FF00 = some (0x0FF00FF0, 0) := by decide +kernel
theorem test_not : out1 (.not (v1 .raw)) 0xF0F0F0F0 = some (0x0F0F0F0F, 0) := by decide +kernel
theorem test_shl_by_more_than_the_width : out1 (.shl (v2 .i32)) 1 33 = some (2, 0) := by decide +kernel
theorem test_shr_packed_by_its_own_element : out1 (.shr (v2 .u16x2)) 0x80008000 0x00010011 = some (0x40004000, 0) := by decide +kernel
theorem test_sar_of_an_unsigned_format : out1 (.sar (v2 .u32)) 0x80000000 4 = some (0xF8000000, 0) := by decide +kernel
theorem test_min_signed : out1 (.min (v2 .i32)) 0xFFFFFFFF 1 = some (0xFFFFFFFF, 0) := by decide +kernel
theorem test_max_unsigned : out1 (.max (v2 .u32)) 0xFFFFFFFF 1 = some (0xFFFFFFFF, 0) := by decide +kernel
theorem test_abs_wraps_and_saturates : (out1 (.abs (v1 .i8x4)) 0x80FF0102, out1 (.abs (satOf (v1 .i8x4))) 0x80FF0102) = (some (0x80010102, 0), some (0x7F010102, 1)) := by
  decide +kernel
theorem test_neg_of_an_unsigned_saturates : out1 (.neg (satOf (v1 .u32))) 3 = some (0, 1) := by decide +kernel
theorem test_sel : out1 (.sel { v3 .i32 with c := rK 0 }) 3 4 = some (3, 0) := by decide +kernel
theorem test_popc : out1 (.popc (v1 .u32)) 0xF000000F = some (8, 0) := by decide +kernel
theorem test_clz_of_zero : out1 (.clz (v1 .u32)) 0 = some (32, 0) := by decide +kernel
theorem test_brev : out1 (.brev (v1 .u32)) 1 = some (0x80000000, 0) := by decide +kernel
theorem test_bfx_signed : out1 (.bfx { v2 .i32 with x10 := 3 }) 0x000000F0 4 = some (0xFFFFFFFF, 0) := by decide +kernel
theorem test_bfi : out1 (.bfi { v3 .u32 with x10 := 7 }) 0xAB 8 0xFFFFFFFF = some (0xFFFFABFF, 0) := by decide +kernel
theorem test_mov : out1 (.mov (v1 .raw)) 0xDEADBEEF = some (0xDEADBEEF, 0) := by decide +kernel
theorem test_li_float : out1 (.li { v1 .f32 with a := {}, b := .imm (.i18 0xFE00) }) 0 = some (0x3F800000, 0) := by decide +kernel
theorem test_li_pair : out2 (.li { v1 .i64 with a := {}, b := .imm (.i18 (-2)) }) 0 0 = some 0xFFFFFFFFFFFFFFFE := by decide +kernel
theorem test_lop3_is_xor : out1 (.lop3 { v3 .raw with x10 := 0x96 }) 0xF0F0F0F0 0xFF00FF00 0xFFFF0000 = some (0xF00F0FF0, 0) := by decide +kernel

theorem test_fadd : out1 (.fadd (v2 .f32)) 0x3F800000 0x3F800000 = some (0x40000000, 0) := by decide +kernel
theorem test_fadd_overflow : out1 (.fadd (v2 .f32)) 0x7F7FFFFF 0x7F7FFFFF = some (0x7F800000, 8) := by decide +kernel
theorem test_fsub_of_infinities : out1 (.fsub (v2 .f32)) 0x7F800000 0x7F800000 = some (0x7FC00000, 2) := by decide +kernel
theorem test_fmul_packed : out1 (.fmul (v2 .f16x2)) 0x3C004000 0x40004200 = some (0x40004600, 0) := by decide +kernel
theorem test_fma_rounds_once : out1 (.fma (v3 .f32)) 0x3F800001 0x3F800001 0xBF800002 = some (0x28800000, 0) := by decide +kernel
theorem test_fmin_of_signed_zeros : out1 (.fmin (v2 .f32)) 0x00000000 0x80000000 = some (0x80000000, 0) := by decide +kernel
theorem test_fmax_ignores_nan : out1 (.fmax (v2 .f32)) 0x7FC00000 0xC0000000 = some (0xC0000000, 0) := by decide +kernel
theorem test_fabs : out1 (.fabs (v1 .f32)) 0xC0000000 = some (0x40000000, 0) := by decide +kernel
theorem test_frnd_ties_to_even : out1 (.frnd (v1 .f32)) 0x40200000 = some (0x40000000, 0) := by decide +kernel
theorem test_cvt_to_integer : out1 (.cvt { v1 .i32 with sub := 1 }) 0x40600000 = some (4, 0) := by decide +kernel
theorem test_cvt_saturates : out1 (.cvt { v1 .u32 with sub := 1 }) 0xBF800000 = some (0, 1) := by decide +kernel
theorem test_sqrt : out1 (.sqrt (v1 .f32)) 0x40800000 = some (0x40000000, 0) := by decide +kernel
theorem test_sqrt_of_a_negative : out1 (.sqrt (v1 .f32)) 0xBF800000 = some (0x7FC00000, 2) := by decide +kernel
theorem test_rcp_of_zero : out1 (.rcp (v1 .f32)) 0x80000000 = some (0xFF800000, 4) := by decide +kernel
theorem test_rsq_of_infinity : out1 (.rsq (v1 .f32)) 0x7F800000 = some (0, 0) := by decide +kernel
theorem test_ex2_of_an_integer : out1 (.ex2 (v1 .f32)) 0x40400000 = some (0x41000000, 0) := by decide +kernel
theorem test_lg2_of_a_power : out1 (.lg2 (v1 .f32)) 0x41000000 = some (0x40400000, 0) := by decide +kernel
theorem test_sin_of_minus_zero : out1 (.sin (v1 .f32)) 0x80000000 = some (0x80000000, 0) := by decide +kernel
theorem test_cos_of_zero : out1 (.cos (v1 .f32)) 0 = some (0x3F800000, 0) := by decide +kernel
theorem test_tanh_of_infinity : out1 (.tanh (v1 .f32)) 0xFF800000 = some (0xBF800000, 0) := by decide +kernel
theorem test_dot2 : out1 (.dot2 (v3 .i16x2)) 0xFFFF0003 0x00020005 10 = some (23, 0) := by decide +kernel
theorem test_dot4 : out1 (.dot4 (v3 .u8x4)) 0x01020304 0x05060708 1 = some (71, 0) := by decide +kernel
theorem test_sad : out1 (.sad (v3 .u8x4)) 0x00FF0A05 0x01000505 2 = some (263, 0) := by decide +kernel
theorem test_avg : (out1 (.avg (v2 .u8x4)) 0x01020304 0x02020401, out1 (.avg (satOf (v2 .u8x4))) 0x01020304 0x02020401) = (some (0x02020403, 0), some (0x01020302, 0)) := by
  decide +kernel
theorem test_pack : out1 (.pack { v2 .f16x2 with sub := 1 }) 0x3F800000 0x40000000 = some (0x40003C00, 0) := by decide +kernel
theorem test_unpk : out1 (.unpk { v1 .i32 with sub := 8, x10 := 2 }) 0x00800000 = some (0xFFFFFF80, 0) := by decide +kernel
theorem test_prmt : out1 (.prmt { v1 .raw with a := rV 8, b := .imm (.i18 0x0123) }) 0x44332211 = some (0x11223344, 0) := by decide +kernel

/-- CMP of −1 and 1, signed and unsigned, into a predicate. -/
theorem test_cmp_signedness : ([2, 6, 8] : List (BitVec 4)).map (fun c => (after (.cmp { v2 .i32 with d := rK 3, sub := c }) (mk (vs [(8, 0xFFFFFFFF), (2, 1)]))).bind (predsAt · 3)) =
    [some [true], some [false], some [true]] := by decide +kernel

/-- EQ, NE, LT and UN with a NaN. -/
theorem test_fcmp_of_nan : ([0, 1, 2, 6] : List (BitVec 4)).map (fun c => (after (.fcmp { v2 .f32 with d := rK 3, sub := c }) (mk (vs [(8, 0x7FC00000), (2, 0)]))).bind (predsAt · 3)) =
    [some [false], some [true], some [false], some [true]] := by decide +kernel

/-- Uniform, affine and special registers. -/
theorem test_uniform_add_sign_extends : (after (.add { fmt := .i32, d := rS 5, a := rS 1, b := .imm (.i18 1) }) (mk (f := sr [(1, 0x7FFFFFFF)]))).bind (sAt · 5) =
    some 0xFFFFFFFF80000000 := by decide +kernel
theorem test_affine_add : (after (.add { fmt := .i64, d := rA 2, a := rA 1, b := .reg (rS 3) }) (mk (f := fun f => { f with s := [(3, 5)], abase := [(1, 10)], astride := [(1, 4)] }))).bind
    (fun t => (t.team 0).bind fun x => (x.frame 0).map fun f => f.areg 2) = some (15, 4) := by decide +kernel
theorem test_prom_expands : (after (.prom { fmt := .i32, d := rV 4, a := rA 1 }) (mkN 3 (f := fun f => { f with abase := [(1, 100)], astride := [(1, 8)] }))).bind
    (fun t => (vAt t 4 2)) = some 116 := by decide +kernel
theorem test_demv_takes_one_lane : (after (.demv { fmt := .i32, d := rS 4, a := rV 8 }) (mk (vs [(8, 0xFFFFFFFF)]))).bind (sAt · 4) = some 0xFFFFFFFFFFFFFFFF := by decide +kernel
theorem test_dema : (after (.dema { fmt := .i64, d := rA 2, a := rV 8, x10 := 2 }) (mk (vs [(8, 7)]))).bind
    (fun t => (t.team 0).bind fun x => (x.frame 0).map fun f => f.areg 2) = some (7, 0) := by decide +kernel
theorem test_base_and_strd : let s := mk (f := fun f => { f with abase := [(1, 10)], astride := [(1, 4)] })
    ((after (.base { fmt := .i64, d := rS 5, a := rA 1 }) s).bind (sAt · 5), (after (.strd { fmt := .i64, d := rS 5, a := rA 1 }) s).bind (sAt · 5)) = (some 10, some 4) := by decide +kernel
theorem test_sread_lane_number : (after (.sread { d := rV 4, x10 := 0x44 }) (mkN 3)).bind (vAt · 4 2) = some 2 := by decide +kernel
theorem test_swrite_fctl : (after (.swrite { a := rS 1, x10 := 0x40 }) (mk (inHandler .save) (f := sr [(1, 0xFF)]))).bind (fun t => (t.team 0).map (·.fctl)) = some 7 := by decide +kernel

/-- The class of −0 and of +∞ is in the mask, that of a normal is not. -/
theorem test_fclass : ([0x80000000, 0x7F800000, 0x3F800000] : List W32).map (fun x => (after (.fclass { v1 .f32 with d := rK 3, x10 := 0x088 }) (mk (vs [(8, x)]))).bind (predsAt · 3)) =
    [some [true], some [true], some [false]] := by decide +kernel
/-- A user posy may not write a special register: PRIV (code 9). -/
theorem test_swrite_traps : (after (.swrite { a := rS 1, x10 := 0x40 }) mk).map (fun t => t.traps.map fun x => recField x.2 1 1) = some [9] := by decide +kernel

/-! ## Lanes and predicates -/

/-- Four fibres with values in v8 and with p1 true in lanes 0 and 2. -/
def four (a b c d : W32) (p : Posy → Posy := id) : State :=
  mkN 4 fun x => p { x with v := [(512, a), (513, b), (514, c), (515, d)], preds := [(0, 2), (2, 2)] }
def lanes4 (i : Instr) (s : State) (r : Nat := 4) : Option (List (Option W32)) := (after i s).map fun t => (List.range 4).map (vAt t r)

theorem test_shuf_xor : lanes4 (.shuf { v1 .raw with b := .reg (rS 1), sub := 2, x10 := 0x12 }) ((four 10 11 12 13).modTeam 0 fun t => t.setFrame 0 ((t.frame 0).map (sr [(1, 1)]))) =
    some [some 11, some 10, some 13, some 12] := by decide +kernel
theorem test_red_add : lanes4 (.red { v1 .i32 with sub := 3 }) (four 1 2 3 4) = some [some 10, some 10, some 10, some 10] := by decide +kernel
theorem test_red_of_the_guarded_lanes : lanes4 (.red { v1 .i32 with h := { gp := 1 }, sub := 5 }) (four 1 9 3 9) = some [some 3, some 0, some 3, some 0] := by decide +kernel
theorem test_scan_exclusive : lanes4 (.scan { v1 .i32 with sub := 3, x10 := 1 }) (four 1 2 3 4) = some [some 0, some 1, some 3, some 6] := by decide +kernel
theorem test_crossbar_rot_is_lane_plus_n : lanes4 (.mov { v1 .raw with h := w3h, xa := { amt := 1, pat := .rot } }) (four 1 2 3 4) = some [some 2, some 3, some 4, some 0] := by decide +kernel
theorem test_vote : (after (.vote { d := rK 2, a := rK 1 }) (four 0 0 0 0)).bind (predsAt · 2) = some [true, true, true, true] := by decide +kernel
theorem test_ballot : (after (.ballot { d := rS 1, a := rK 1 }) (four 0 0 0 0)).bind (sAt · 1) = some 5 := by decide +kernel
theorem test_plog_andn : (after (.plog { d := rK 2, a := rK 0, sub := 3, x10 := 1 }) (four 0 0 0 0)).bind (predsAt · 2) = some [false, true, false, true] := by decide +kernel
theorem test_pnot : (after (.pnot { d := rK 2, a := rK 1 }) (four 0 0 0 0)).bind (predsAt · 2) = some [false, true, false, true] := by decide +kernel
theorem test_pmov_save : lanes4 (.pmov { d := rV 4, sub := 1 }) (four 0 0 0 0) = some [some 3, some 1, some 3, some 1] := by decide +kernel
theorem test_pmov_bit : (after (.pmov { d := rK 2, a := rV 8, sub := 2, x10 := 1 }) (four 0 1 2 3)).bind (predsAt · 2) = some [false, false, true, true] := by decide +kernel
theorem test_pcnt_prefix : lanes4 (.pcnt { d := rV 4, a := rK 1, sub := 1 }) (four 0 0 0 0) = some [some 0, some 1, some 1, some 2] := by decide +kernel
theorem test_flags : ((after (.flagr { d := rS 4 }) (mk (t := fun t => { t with flags := 0x25 }))).bind (sAt · 4),
    (after (.flagc { b := .imm (.i18 5) }) (mk (t := fun t => { t with flags := 0x25 }))).bind flagsOf) = (some 0x25, some 0x20) := by decide +kernel
theorem test_flaga_arms : (after (.flaga { b := .imm (.i18 5) }) mk).bind (fun t => (t.team 0).map (·.arm)) = some 5 := by decide +kernel

/-! ## Control -/

def pcOf (i : Instr) (s : State) : Option Nat := (after i s).bind fun t => (t.posy 0).map (·.pc)
def trapsOf (i : Instr) (s : State) : Option (List Nat) := (after i s).map fun t => t.traps.map fun x => recField x.2 1 1

theorem test_nop_lengths : ([.w2, .w3, .w4] : List Len).map (fun l => pcOf (.nop { h := { len := l } }) mk) = [some 0x10008, some 0x1000C, some 0x10010] := by decide +kernel
theorem test_jmp_scales_by_four : pcOf (.jmp { b := .imm (.i18 (-2)) }) mk = some 0xFFF8 := by decide +kernel
theorem test_jmp_misaligned : trapsOf (.jmp { b := .reg (rS 1) }) (mk (f := sr [(1, 0x10002)])) = some [4] := by decide +kernel
theorem test_bra : ([0, 1] : List (BitVec 64)).map (fun v => pcOf (.bra { a := rS 1, sub := 1, b := .imm (.i18 4) }) (mk (f := sr [(1, v)]))) = [some 0x10010, some 0x10008] := by decide +kernel
theorem test_br_moves_all : pcOf (.br { h := { gp := 1, gn := true }, b := .imm (.i18 4) }) (mkN 4) = some 0x10010 := by decide +kernel
/-- Of four fibres lanes 0 and 2 branch; the groups are equal, so group 0 (taken) stays and the others are written. -/
theorem test_br_splits : (after (.br { h := { gp := 1 }, b := .imm (.i18 4) }) (mkN 4 (fun p => { p with preds := [(0, 2), (2, 2)] }) (fun t => { t with spn := SegReg.make 0x100000 0x10000 true true true }))).map
    (fun t => ((t.posy 0).map (·.pc), (predsAt t 0).map (·.length), (t.team 0).map fun x => (x.recs.filterMap (·.2)).map fun r => (r.pc, r.fibres.map (·.fid)))) =
    some (some 0x10010, some 2, some [(0x10008, [1, 3])]) := by decide +kernel
theorem test_br4 : pcOf (.br4 { p0 := 1, p1 := 0, neg := 0, disp := 0x0004000300020010 }) mk = some 0x10008 := by decide +kernel
theorem test_call_links : (after (.call { d := rS 16, b := .imm (.i18 256) }) mk).map (fun t => ((t.posy 0).map fun p => (p.pc, p.wbase), vAt t 14 0, vAt t 15 0)) =
    some (some (0x10400, 16), some 0x10008, some 0x01000000) := by decide +kernel
theorem test_ret : (after (.ret {}) (mk fun p => { vs [(14, 0x1008), (15, 0x01000000)] p with wbase := 16 })).map (fun t => (t.posy 0).map fun p => (p.pc, p.wbase)) = some (some (0x1008, 0)) := by
  decide +kernel
theorem test_calli_misaligned : trapsOf (.calli { d := rS 16, a := rS 1 }) (mk (f := sr [(1, 3)])) = some [4] := by decide +kernel
def forked : Option Team := (after (.fork { d := rS 9, a := rS 8, b := .imm (.i18 16) }) (mk (t := fun t => { t with spn := SegReg.make 0x100000 0x10000 true true true }) (f := sr [(8, 2)]))).bind (·.team 0)
theorem test_fork_frame : forked.map (fun x => (x.nextFid, x.frames.length)) = some (3, 2) ∧
    forked.bind (fun x => (x.frame 1).map fun f => (f.refs, f.parent, f.sreg 9)) = some (2, some 0, 1) := by decide +kernel
theorem test_fork_children : forked.map (fun x => (x.recs.filterMap (·.2)).map fun r => (r.pc, r.frame, r.fibres.map (·.fid))) = some [(0x10040, 1, [1, 2])] := by decide +kernel
theorem test_exit_ends_the_guarded : (after (.exit { h := { gp := 1 } }) (four 0 0 0 0)).bind (predsAt · 0) = some [true, true] := by decide +kernel
theorem test_trap_code : (after (.trap { x10 := 0x155 }) mk).map (fun t => t.traps.map fun x => (recField x.2 1 1, recField x.2 2 2, recField x.2 8 8)) = some [(13, 0x155, 0x10000)] := by
  decide +kernel
theorem test_brk_guarded_off : trapsOf (.brk { h := { gn := true } }) mk = some [] := by decide +kernel
theorem test_rep_steps : (after (.rep { cnt := 2, dstep := 1, astep := 1, body := .reg 0x39 { fmt := .raw, d := rV 20, a := rV 8 } }) (mk (vs [(8, 5), (9, 6), (10, 7)]))).map
    (fun t => ((t.posy 0).map fun p => (p.pc, p.rep), vAt t 20 0, vAt t 21 0)) = some (some (0x10000, some 1), some 5, some 0) := by decide +kernel
theorem test_xacq_and_xrel : ((after (.xacq { b := .imm (.i18 8) }) (mk fun p => { p with alloc := 16 })).bind fun t => (t.posy 0).map (·.alloc),
    (after (.xrel { b := .imm (.i18 8) }) (mk fun p => { p with alloc := 16 })).bind fun t => (t.posy 0).map (·.alloc), trapsOf (.xrel { b := .imm (.i18 16) }) (mk fun p => { p with alloc := 16 })) =
    (some 24, some 8, some [15]) := by decide +kernel
theorem test_unassigned_traps : trapsOf (.unassignedOpcode 0x49) mk = some [1] := by decide +kernel

/-! ## Memory, handles, kiln, counters -/

def reqsOf (i : Instr) (s : State) : Option (List (Nat × Nat × Bool × Bool)) := (after i s).bind fun t => (t.team 0).map fun x => x.reqs.map fun r => (r.addr, r.size, r.acq, r.rel)

/-- An acquire of 4 bytes at GLB 0xF0 + 0x10. -/
theorem test_ld_requests : reqsOf (.ld { fmt := .f32, sub := 2, d := rV 4, a := rS 4, ord := .acq, disp := 0x10 }) (mk (f := sr [(4, 0xF0)])) = some [(0x100, 4, true, false)] := by decide +kernel
theorem test_ld_misaligned : (trapsOf (.ld { fmt := .i32, sub := 2, d := rV 4, a := rS 4, disp := 2 }) mk, trapsOf (.ld { fmt := .i32, sub := 2, d := rV 4, a := rS 4, ord := .acq, disp := 2 }) mk) = (some [], some [7]) := by decide +kernel
theorem test_ld_past_the_limit : trapsOf (.ld { fmt := .i32, sub := 2, d := rV 4, a := rS 4, seg := .scr, disp := 0x1000 }) mk = some [8] := by decide +kernel
theorem test_st_of_lanes : reqsOf (.st { fmt := .i32, sub := 2, a := rV 8, b := .reg (rV 2) }) (four 0x80 0x84 0x10000 0x80) =
    some [(0x80, 4, false, false), (0x84, 4, false, false), (0x10000, 4, false, false), (0x80, 4, false, false)] := by decide +kernel
theorem test_atom_request : reqsOf (.atom { fmt := .u32, sub := 2, d := rV 4, a := rS 4, b := .reg (rV 2), ord := .acqrel }) (mk (f := sr [(4, 0x100)])) = some [(0x100, 4, true, true)] := by
  decide +kernel
theorem test_acc_request : reqsOf (.acc { fmt := .f32, a := rS 4, b := .reg (rV 2) }) (mk (f := sr [(4, 0x100)])) = some [(0x100, 4, false, false)] := by decide +kernel
theorem test_scratch_privilege : trapsOf (.ld { sub := 2, d := rV 4, a := rS 4, seg := .spn }) mk = some [9] := by decide +kernel
theorem test_stsx_misaligned : trapsOf (.stsx { fmt := .f32, x10 := 3, a := rS 4, b := .reg (rV 8) }) (mk (f := sr [(4, 4)])) = some [7] := by decide +kernel

/-! ## Segments, blocks, handles, commands, waits -/

def teamOf (i : Instr) (s : State) : Option Team := (after i s).bind (·.team 0)
def phaseOf (i : Instr) (s : State) : Option (Nat × Bool) := (after i s).bind fun t => (t.posy 0).map fun p => (p.pc, p.phase)

/-- A privileged posy shortens its scratch segment; a user posy traps PRIV. -/
theorem test_segld : ((teamOf (.segld { x10 := 1, a := rS 4, b := .reg (rS 5) }) (mk (inHandler .save) (f := sr [(4, 0), (5, 0xE000000000000800)]))).map fun t => (t.scr.base, t.scr.lim)) =
      some (0, 0xE000000000000800) ∧ trapsOf (.segld { x10 := 1, a := rS 4, b := .reg (rS 5) }) mk = some [9] := by decide +kernel
theorem test_cpy_of_nothing_is_done : (teamOf (.cpy (cpOps false .glb false 0).1) (cpState 0 0x1000 0 0 0 0)).map (fun t => (t.handles.length, (t.handle 1).map (·.status))) = some (1, some 1) := by decide +kernel
theorem test_cpy2d_overlap : (teamOf (.cpy2d (cpOps true .glb false 0).1) (cpState 0x1000 0x1010 32 2 64 64)).bind (fun t => (t.handle 1).map (·.status)) = some 4 := by decide +kernel
theorem test_put_above_512_KiB_is_refused : (teamOf (.put { (cpOps false .glb true 0).1 with c := rS 8 }) (cpState 0 0 524289 0 0 0)).bind (fun t => (t.handle 1).map (·.status)) = some 5 := by decide +kernel
def held (st : Nat) : State := mk (t := cmd1 { kind := .copy, status := st }) (f := hr [(1, 1)])
theorem test_hwait : ((after (.hwait { d := rV 4, a := rK 17, sub := 2 }) (held 3)).bind (vAt · 4 0), pcOf (.hwait { a := rK 17 }) (held 0), trapsOf (.hwait { a := rK 18 }) (held 0)) =
    (some 3, some 0x10000, some [10]) := by decide +kernel
theorem test_htest_never_waits : (after (.htest { d := rK 3, a := rK 17, sub := 1 }) (held 0)).bind (predsAt · 3) = some [false] := by decide +kernel
theorem test_hmov_detaches : (after (.hmov { d := rS 5, a := rK 17 }) (held 0)).bind (fun t => (t.team 0).bind fun x => (x.frame 0).map fun f => (f.sreg 5, f.hreg 1)) = some (1, 0) := by decide +kernel
theorem test_hadopt : (trapsOf (.hadopt { d := rK 18, a := rS 5 }) (mk (t := cmd1 { kind := .copy }) (f := fun f => sr [(5, 1)] (hr [(1, 1)] f))),
    (after (.hadopt { d := rK 18, a := rS 5 }) (mk (t := cmd1 { kind := .copy }) (f := sr [(5, 1)]))).bind fun t => (t.team 0).bind fun x => (x.frame 0).map fun f => f.hreg 2) = (some [10], some 1) := by decide +kernel
theorem test_hcancel_of_a_finished_handle : (teamOf (.hcancel { a := rK 17 }) (held 1)).bind (fun t => (t.handle 1).map fun h => (h.status, h.cancelled)) = some (1, false) := by decide +kernel
theorem test_fence_waits : (phaseOf (.fence {}) mk, phaseOf (.fence {}) (mk phase)) = (some (0x10000, true), some (0x10008, false)) := by decide +kernel

def kcmdsOf (i : Instr) (s : State) : Option (List KCmdKind) := (after i s).map fun t => (t.core 0).kcmds.map (·.cmd)
theorem test_kload_enters : (after (.kload { d := rK 18, a := rS 4, b := rS 5, pitch := 200, nmac := 1, mfmt := .sx4, sfmt := .sx .sx4 }) (mk (f := sr [(4, 0x1000), (5, 9)]))).map
    (fun t => ((t.core 0).kloads.map fun k => (k.desc.src, k.desc.tag, k.desc.pitch, k.macros.length), (t.team 0).bind fun x => (x.handle 1).map (·.status))) =
    some ([(0x1000, 9, 200, 2)], some 0) := by decide +kernel
theorem test_ktask_misaligned : trapsOf (.ktask { d := rK 17, a := rS 4, seg := .scr }) (mk (f := sr [(4, 32)])) = some [7] := by decide +kernel
theorem test_kzero : (teamOf (.kzero { d := rK 33 }) (mk (t := fun t => { t with tiles := [(4096 + 5, 7), (5, 8)] }))).map (fun t => (Tab.get 0 t.tiles (4096 + 5), Tab.get 0 t.tiles 5)) = some (0, 8) := by decide +kernel
/-- Row 31 and then row 0; register j of a row holds the columns 64 j up. -/
theorem test_kread_wraps_rows : (after (.kread { fmt := .f32, sub := 1, d := rV 8, a := rK 32, b := .imm (.i18 31) }) (mk (t := fun t => { t with tiles := [(0, 5), (64, 6), (31 * 128, 7)] }))).map
    (fun t => (List.range 4).map fun r => vAt t (8 + r) 0) = some [some 7, some 0, some 5, some 6] := by decide +kernel
theorem test_kwrite_keeps_vacant_lanes : (teamOf (.kwrite { fmt := .f32, d := rK 32, a := rV 8, b := .imm (.i18 2) }) (mk (vs [(8, 9), (9, 10)]) (fun t => { t with tiles := [(257, 3)] }))).map
    (fun t => [256, 257, 320].map (Tab.get 0 t.tiles)) = some [9, 3, 10] := by decide +kernel
theorem test_kwrite_adds : (teamOf (.kwrite { fmt := .f32, sub := 8, d := rK 32, a := rV 8, b := .imm (.i18 0) }) (mk (vs [(8, 0x3F800000)]) (fun t => { t with tiles := [(0, 0x3F800000)] }))).map
    (fun t => Tab.get 0 t.tiles 0) = some 0x40000000 := by decide +kernel
theorem test_kstore_past_the_limit : trapsOf (.kstore { a := rK 32, b := .reg (rS 4), fmt := .f32, seg := .scr }) (mk (f := sr [(4, 0xE08)])) = some [8] := by decide +kernel
theorem test_kfree : (after (.kfree { b := .imm (.i18 25) }) (macros full16 mk)).map (fun t => [14, 15].map fun m => ((t.core 0).macro_ m).st) = some [.ready, .empty] := by decide +kernel
theorem test_kstat_macros_of_the_tag : (after (.kstat { d := rS 1, sub := 1, b := .reg (rS 2) }) (macros full16 (mk (f := sr [(2, 25)])))).bind (sAt · 1) = some 1 := by decide +kernel

theorem test_bar_arrive : (after (.barArrive { x10 := 63, d := rV 9 }) (bars 0x0000070000300001 mk)).map (fun t => (Tab.get 0 (t.core 0).bars 63, vAt t 9 0)) =
    some (0x0000070000300002, some 7) := by decide +kernel
theorem test_bar_completes_a_phase : (after (.barArrive { x10 := 63, d := rV 9 }) (bars 0x0000070000200001 mk)).map (fun t => Tab.get 0 (t.core 0).bars 63) = some 0x0000080000200000 := by decide +kernel
theorem test_bar_wait : ([7, 6] : List W32).map (fun v => pcOf (.barWait { sub := 1, x10 := 63, a := rV 9 }) (bars 0x0000070000200000 (mk (vs [(9, v)])))) = [some 0x10000, some 0x10008] := by decide +kernel
theorem test_bar_sync_waits : phaseOf (.barSync { sub := 2, x10 := 63, d := rV 9 }) (bars 0x0000070000200000 mk) = some (0x10000, true) := by decide +kernel
theorem test_bar_query : (after (.barQuery { sub := 3, x10 := 63, d := rS 9 }) (bars 0x0000070000200001 mk)).bind (sAt · 9) = some 0x0000070000200001 := by decide +kernel
theorem test_sigadd_is_a_release : reqsOf (.sigadd { m4 0 .raw with b := .imm (.i18 (-1)), disp := 8 }) (mk (f := sr [(4, 0x100)])) = some [(0x108, 8, false, true)] := by decide +kernel
theorem test_sigwait_reads : (reqsOf (.sigwait { m4 0 .raw with b := .imm (.i18 0) }) (mk (f := sr [(4, 0x100)]))).map (fun l => l.map fun r => (r.1, r.2.1)) = some [(0x100, 8)] := by decide +kernel
theorem test_ctwait : ([4, 5] : List Byte).map (fun v => pcOf (.ctwait { m4 0 .raw with seg := .scr, b := .imm (.i18 5) }) (mk (t := fun t => { t with scratch := [(8, v)] }) (f := sr [(4, 8)]))) =
    [some 0x10000, some 0x1000C] := by decide +kernel
theorem test_twait_abs : ([99, 100] : List Nat).map (fun n => pcOf (.twait { b := .reg (rS 4) }) (at_ n (mk (f := sr [(4, 100)])))) = [some 0x10000, some 0x10008] := by decide +kernel
theorem test_launch_misaligned : trapsOf (.launch { h := w4h, d := rK 18, a := rS 6, b := rS 7 }) (mk (f := sr [(6, 4)])) = some [7] := by decide +kernel
theorem test_savek_of_a_short_allocation : trapsOf (.savek (cm 0 0x01FF)) (mk (inHandler .save) ctxSeg) = some [3] := by decide +kernel
theorem test_restk_is_privileged : trapsOf (.restk (cm 0 0)) mk = some [9] := by decide +kernel
theorem test_tret_is_privileged : trapsOf (.tret {}) mk = some [9] := by decide +kernel

/-! ## Steps of the other agents -/

theorem test_tick : (match step { State.reset with turns := [.tick, .tick] } with | .next t => some (t.cycle, t.time, t.sixths) | _ => none) = some (1, 0, 3) := by decide +kernel
/-- Words with a bit of an unused field: a decode trap. -/
theorem test_step_takes_a_decode_trap : (match step (State.reset.withFetchWord 64 0xFFE82AFD02040081) with | .next t => some ((t.posy 0).map (·.pc), t.traps.map fun x => recField x.2 1 1) | _ => none) =
    some (some 0x10000, [1]) := by decide +kernel
/-- The bytes at the PC are fetched, decoded and executed. -/
theorem test_step_runs_the_word : (match step (State.reset.withFetchWord 64 0xFFE83AFD02040081) with | .next t => (t.posy 0).map (fun p => (p.pc, Tab.get 0 p.v (64 * 4))) | _ => none) =
    some (0x10008, 0xFFFFFFFD) := by decide +kernel
theorem test_request_leaves_and_reads : (after (.requestLeave 0 0) ((rq { seq := 3, kind := .load, addr := 0x10000, size := 4, fids := [0] }).write64 0x10000 0x04030201)).bind
    (fun t => (t.team 0).bind fun x => x.reqs.head?.map fun r => (r.stage == .replied, r.reply.map (·.2))) = some (true, [1, 2, 3, 4]) := by decide +kernel
theorem test_reply_writes_the_register : (after (.requestReply 0 0) (rq { seq := 3, kind := .load, addr := 0x100, size := 4, stage := .replied, reply := [(0x100, 1), (0x101, 2), (0x102, 3), (0x103, 4)] }
    (loads [{ seq := 3, uid := 0, dcls := .v, dst := 9, count := 1, kind := .plain 4 .i32, lanes := [{ lane := 0, fid := 0, addr := 0x100, subs := [0] }] }]))).map
    (fun t => (vAt t 9 0, (t.team 0).map fun x => (x.reqs.length, x.loads.length))) = some (some 0x04030201, some (0, 0)) := by decide +kernel
theorem test_park : (after (.park 0 0) (rq absent)).map (fun t => ((t.die 0).entries.map fun e => (e.va, e.size, e.cause == .notPresent), (t.die 0).pending.length)) = some ([(0x80000, 4, true)], 1) := by decide +kernel
theorem test_park_limit_write : (after (.parkLimitWrite 2 100) mk).map (fun t => ((t.die 2).parkLimit, (t.die 1).parkLimit)) = some (100, 2048) := by decide +kernel
theorem test_atomic_performs : (after (.atomicPerform 0 0) ((rq { seq := 3, kind := .atomic, addr := 0x20000, pa := 0x20000, size := 8, fmt := .i64, opnds := [{ lane := 0, x := 5 }], stage := .atHome }).write64 0x20000 7)).map
    (fun t => (t.read64 0x20000, (t.team 0).map fun x => x.reqs.map fun r => r.olds)) = some (12, some [[(0, 7)]]) := by decide +kernel
theorem test_write_back : (after (.writeBack (.l1 0) 512) (mk.modCore 0 fun c => { c with l1 := [(512, some { valid := 15, dirty := 2, data := [(1, 9)] })] })).map
    (fun t => t.wbs.map fun w => (w.line, w.bytes)) = some [(512, [(1, 9)])] := by decide +kernel
theorem test_merge : (after (.merge 0) { mk with wbs := [{ from_ := .l1 0, line := 512, parent := none, bytes := [(1, 9)] }] }).map (fun t => (t.byte 0x10001, t.wbs.length)) = some (9, 0) := by decide +kernel
/-- The place's core is busy with a team, so the change is pending. -/
theorem test_placeset : (after .placeset (cmd 2 0x10000 0x105 (hasCore0 mk))).map (fun t => (t.xd.cmd, t.xd.cmdCode, (t.vd 0 0).map fun v => (Tab.get {} v.places 1 : Place).pend)) =
    some (none, 0, some (some (5, true))) := by decide +kernel
theorem test_vddestroy_of_a_busy_vd : (after .vddestroy (cmd 6 0 0)).map (fun t => (t.xd.cmd, (t.vd 0 0).isSome)) = some (none, true) := by decide +kernel
theorem test_host_store : (after (.hostRequest (.store 0x10000 [1, 2]) false) (links mk)).map (fun t => (t.byte 0x10000, t.byte 0x10001)) = some (1, 2) := by decide +kernel
theorem test_soft_error_poisons_the_word : (after (.softError (.home 0x10013)) mk).map (fun t => [0x1000F, 0x10010, 0x10017, 0x10018].map t.poisoned) = some [false, true, true, false] := by decide +kernel
theorem test_thermal : ((after .thermalStepDown { State.reset with boot := 5, tj := 95 }).map (·.thermStep), (after .thermalStepDown { State.reset with boot := 5, tj := 94 }).map (·.thermStep)) = (some 1, some 0) := by decide +kernel
theorem test_placement : (after (.placement 1) (ls l0)).map (fun t => ((t.team 0).map fun x => (x.lid, x.idx, x.core), (t.posy 0).map fun p => (p.pc, p.lanes.length), (t.launch 1).map (·.next))) =
    some (some (1, 0, 0), some (0x10000, 64), some 1) := by decide +kernel
theorem test_copy_reads_a_part : (after (.copyRequest 0 0 1 0) (copying (cp id { part1 with len := 2 }) (((mk (t := cmd1 { kind := .copy })).write64 0x10000 0x0201)))).map
    (fun t => (t.core 0).copies.map fun c => c.parts.map fun p => p.st == .have_ [1, 2]) = some [[true]] := by decide +kernel
theorem test_handle_completes : (after (.handleComplete 0 1) (mk (t := cmd1 { kind := .copy, ready := true, bad := true }))).bind (fun t => (t.team 0).bind fun x => (x.handle 1).map (·.status)) = some 3 := by decide +kernel
theorem test_partition_write_while_in_use : (after (.partitionWrite 0 1) mk).map (·.xd.partmap) = some 0 := by decide +kernel
theorem test_tresume : (after .tresume (tcmd 1 0 0 (BitVec.allOnes 64) stopped)).bind (fun t => (t.team 0).map fun x => (x.stopped, t.xd.tcmd)) = some (none, none) := by decide +kernel

end Sys2Proof.Tests
end

section
namespace Sys2Proof.Claims
open Sys2Proof.Machine

/-! # Every step keeps the invariant

`Inv` speaks of five fields of the state (`held`), and few operations write them: those of memory at home, the marks of poison,
bring-up, the rails, the thermal steps and the clock. Each function that gives a state has a lemma `inv_<function>`, with the
lemmas of the functions it calls; a function that writes other fields only keeps the invariant by `inv_of_held`. -/

/-! ## The invariant on answers -/

/-- The part of the state that `Inv` speaks of. -/
def held (s : State) : Memory × Tab Bool × Nat × Nat × Nat := (s.mem, s.poison, s.boot, s.thermStep, s.sixths)

/-- A property of what an answer holds, if it holds anything. -/
def Every {α : Type} (P : α → Prop) : Option α → Prop
  | some x => P x
  | none => True

/-- The next state of an outcome, if there is one, meets the invariant. -/
def InvOut : Out → Prop
  | .next t => Inv t
  | _ => True

/-- The state of an answer, if there is one, meets the invariant. -/
abbrev InvSome (o : Option State) : Prop := Every Inv o
/-- The same of an answer that holds more than a state. -/
abbrev InvFst {α : Type} (o : Option (State × α)) : Prop := Every (fun x => Inv x.1) o

/-- The state after a read of the kiln meets the invariant. -/
def InvGot : KGot → Prop
  | .wait => True
  | .parked t | .refused t | .got t _ _ => Inv t

/-- The state after a fetch meets the invariant. -/
def InvFetched : Fetched → Prop
  | .held t | .got t _ => Inv t

section
variable {α β : Type} {P : α → Prop} {Q : β → Prop}

theorem Every.of_eq {o : Option α} {x : α} (h : Every P o) (e : o = some x) : P x := by subst e; exact h

theorem Every.map {o : Option α} {f : α → β} (h : Every P o) (hf : ∀ x, P x → Q (f x)) : Every Q (o.map f) := by
  cases o with
  | none => trivial
  | some x => exact hf x h

theorem Every.bind {o : Option α} {f : α → Option β} (h : Every P o) (hf : ∀ x, P x → Every Q (f x)) :
    Every Q (o.bind f) := by
  cases o with
  | none => trivial
  | some x => exact hf x h

theorem Every.getD {o : Option α} {x : α} (h : Every P o) (hx : P x) : P (o.getD x) := by
  cases o with
  | none => exact hx
  | some y => exact h

theorem every_map {o : Option α} {f : α → β} (hf : ∀ x, Q (f x)) : Every Q (o.map f) := by
  cases o with
  | none => trivial
  | some x => exact hf x

theorem every_bind {o : Option α} {f : α → Option β} (hf : ∀ x, Every Q (f x)) : Every Q (o.bind f) := by
  cases o with
  | none => trivial
  | some x => exact hf x

theorem every_findSome {xs : List α} {f : α → Option β} (hf : ∀ x, Every Q (f x)) : Every Q (xs.findSome? f) := by
  induction xs with
  | nil => trivial
  | cons x xs ih =>
    rw [List.findSome?_cons]
    split
    · exact (hf x).of_eq ‹_›
    · exact ih

theorem every_foldlM {xs : List β} {f : α → β → Option α} {x : α} (h : P x) (hf : ∀ x y, P x → Every P (f x y)) :
    Every P (xs.foldlM f x) := by
  induction xs generalizing x with
  | nil => exact h
  | cons y xs ih =>
    rw [List.foldlM_cons]
    exact (hf x y h).bind fun _ h => ih h

/-- A fold that may fail at each step. -/
theorem every_foldl_bind {xs : List β} {f : α → β → Option α} {o : Option α} (h : Every P o)
    (hf : ∀ x y, P x → Every P (f x y)) :
    Every P (xs.foldl (fun o y => o.bind fun x => f x y) o) := by
  induction xs generalizing o with
  | nil => exact h
  | cons y xs ih => exact ih (h.bind fun x hx => hf x y hx)
end

section
variable {s t : State} {α : Type}

theorem InvOut.of_eq {o : Out} (h : InvOut o) (e : o = .next t) : Inv t := by subst e; exact h
theorem InvGot.of_parked {g : KGot} (h : InvGot g) (e : g = .parked t) : Inv t := by subst e; exact h
theorem InvGot.of_refused {g : KGot} (h : InvGot g) (e : g = .refused t) : Inv t := by subst e; exact h
theorem InvGot.of_got {g : KGot} {bs : List Byte} {b : Bool} (h : InvGot g) (e : g = .got t bs b) : Inv t := by
  subst e; exact h
theorem InvFetched.of_held {g : Fetched} (h : InvFetched g) (e : g = .held t) : Inv t := by subst e; exact h
theorem InvFetched.of_got {g : Fetched} {bs : List Byte} (h : InvFetched g) (e : g = .got t bs) : Inv t := by
  subst e; exact h
theorem InvFst.of_eq {o : Option (State × α)} {x : State × α} (h : InvFst o) (e : o = some x) : Inv x.1 := by
  subst e; exact h

/-- A change of other fields. -/
theorem inv_of_held (h : Inv s) (e : held t = held s) : Inv t := by
  simp only [held, Prod.mk.injEq] at e
  obtain ⟨hm, hp, hb, ht, hx⟩ := e
  exact ⟨hm ▸ h.mem, hp ▸ h.poison, hb ▸ h.boot, ht ▸ hx ▸ h.clock⟩

/-- A new memory and new marks, both canonical, with the rest as it was. -/
theorem inv_of_mem (h : Inv s) (hm : Memory.wf t.mem = true) (hp : Tab.wf false t.poison = true)
    (e : (held t).2.2 = (held s).2.2) : Inv t := by
  simp only [held, Prod.mk.injEq] at e
  obtain ⟨hb, ht, hx⟩ := e
  exact ⟨hm, hp, hb ▸ h.boot, ht ▸ hx ▸ h.clock⟩

theorem inv_foldl {f : State → α → State} {xs : List α} (h : Inv s) (hf : ∀ s x, Inv s → Inv (f s x)) :
    Inv (xs.foldl f s) := by
  induction xs generalizing s with
  | nil => exact h
  | cons x xs ih => exact ih (hf s x h)

theorem inv_ite {c : Prop} [Decidable c] (hs : Inv s) (ht : Inv t) : Inv (if c then s else t) := by
  split
  · exact hs
  · exact ht
end

section
variable {s : State}

/-! ## The tables of the state -/

theorem inv_setPosy {k : Nat} {p : Option Posy} (h : Inv s) : Inv (s.setPosy k p) := inv_of_held h rfl
theorem inv_setTeam {id : Nat} {t : Option Team} (h : Inv s) : Inv (s.setTeam id t) := inv_of_held h rfl
theorem inv_setCore {c : Nat} {x : Core} (h : Inv s) : Inv (s.setCore c x) := inv_of_held h rfl
theorem inv_seat {core slot : Nat} {p : Posy} (h : Inv s) : Inv (s.seat core slot p) := inv_of_held h rfl
theorem inv_setNextUid {n : Nat} (h : Inv s) : Inv { s with nextUid := n } := inv_of_held h rfl
theorem inv_setFresh {n : Nat} (h : Inv s) : Inv { s with fresh := n } := inv_of_held h rfl
theorem inv_setDie {d : Nat} {x : Die} (h : Inv s) : Inv (s.setDie d x) := inv_of_held h rfl
theorem inv_setQueue {q : Nat} {x : Queue} (h : Inv s) : Inv (s.setQueue q x) := inv_of_held h rfl
theorem inv_setLaunch {l : Nat} {x : Option Launch} (h : Inv s) : Inv (s.setLaunch l x) := inv_of_held h rfl
theorem inv_setVd {part vd : Nat} {x : Option Vd} (h : Inv s) : Inv (s.setVd part vd x) := inv_of_held h rfl
theorem inv_modCore {c : Nat} {f : Core → Core} (h : Inv s) : Inv (s.modCore c f) := inv_setCore h
theorem inv_modDie {d : Nat} {f : Die → Die} (h : Inv s) : Inv (s.modDie d f) := inv_setDie h
theorem inv_modQueue {q : Nat} {f : Queue → Queue} (h : Inv s) : Inv (s.modQueue q f) := inv_setQueue h

theorem inv_modTeam {id : Nat} {f : Team → Team} (h : Inv s) : Inv (s.modTeam id f) := by
  unfold State.modTeam
  split
  · exact inv_setTeam h
  · exact h

theorem inv_modPosy {k : Nat} {f : Posy → Posy} (h : Inv s) : Inv (s.modPosy k f) := by
  unfold State.modPosy
  split
  · exact inv_setPosy h
  · exact h

theorem inv_modVd {part vd : Nat} {f : Vd → Vd} (h : Inv s) : Inv (s.modVd part vd f) := by
  unfold State.modVd
  split
  · exact inv_setVd h
  · exact h

theorem inv_modLaunch {l : Nat} {f : Launch → Launch} (h : Inv s) : Inv (s.modLaunch l f) := by
  unfold State.modLaunch
  split
  · exact inv_setLaunch h
  · exact h

/-! ## Memory at home -/

theorem inv_writeHome {w : List (Nat × Byte)} (h : Inv s) : Inv (s.writeHome w) :=
  inv_of_mem h (State.writeHome_wf w h.mem) (State.writeHome_poison_wf w h.poison) (by rw [State.writeHome_eq]; rfl)

/-! ## The operations of an instruction -/

theorem inv_takeTrap {e : Env} {tr : Trap} {lanes : List Nat} {sw : Nat} (h : Inv s) : Inv (takeTrap s e tr lanes sw) :=
  inv_of_held h rfl
theorem inv_trap {e : Env} {tr : Trap} {lanes : List Nat} (h : Inv s) : InvOut (trap s e tr lanes) := inv_takeTrap h
theorem inv_put {e : Env} (h : Inv s) : Inv (e.put s) := inv_of_held h rfl
theorem inv_commit {e : Env} {l : Len} {x : Eff} (h : Inv s) : InvOut (commit s e l x) := inv_put h

/-- An instruction stalls, traps, or runs its body. -/
theorem inv_issue {n : Need} {hd : Hdr} {body : Env → List Nat → Out} (h : Inv s) (hb : ∀ e act, InvOut (body e act)) :
    InvOut (issue s n hd body) := by
  obtain hs | ⟨e, tr, -, ht⟩ | ⟨e, -, hr⟩ := issue_cases (s := s) (n := n) (h := hd) body
  · rw [hs]; exact h
  · rw [ht]; exact inv_takeTrap h
  · rw [hr]; exact hb e _

theorem inv_run {a : Alu} (h : Inv s) : InvOut (a.run s) := inv_issue h fun _ _ => inv_commit h

/-! ## Special registers -/

theorem inv_execSegld {o : Ops} (h : Inv s) : InvOut (execSegld o s) :=
  inv_issue h fun _ _ => by
    dsimp only
    split
    · exact inv_commit h
    split
    · exact inv_trap h
    · exact inv_commit h

/-! ## Walks and translation caches -/

theorem inv_countRefused {die pa : Nat} (h : Inv s) : Inv (countRefused s die pa) := by
  unfold countRefused
  split
  · split
    · exact h
    split
    exact inv_modDie h
  · exact h

theorem inv_countWalk {die : Nat} {f : Fail} (h : Inv s) : Inv (countWalk s die f) := by
  unfold countWalk
  split
  · exact inv_countRefused h
  · exact h

theorem inv_tlbFill {part vd : Nat} {core : Option Nat} {die va : Nat} {l : Leaf} (h : Inv s) :
    Inv (tlbFill s part vd core die va l) := by
  unfold tlbFill
  refine inv_modDie ?_
  split
  · exact inv_modCore h
  · exact h

/-! ## Caches, merges and writes at SYS width -/

theorem inv_putCline {who : Sharer} {line : Nat} {x : CLine} (h : Inv s) : Inv (s.putCline who line x) := by
  unfold State.putCline
  dsimp only
  split
  · exact inv_modCore h
  · exact inv_modDie h
  · exact h

theorem inv_noteDir {who : Sharer} {line : Nat} {holds : Bool} (h : Inv s) : Inv (noteDir s who line holds) := by
  unfold noteDir
  exact inv_of_held h rfl

theorem inv_setCline {who : Sharer} {line : Nat} {x : CLine} (h : Inv s) : Inv (s.setCline who line x) := by
  unfold State.setCline
  dsimp only
  split
  · exact h
  · exact inv_noteDir (inv_putCline h)
  split
  · exact inv_noteDir (inv_putCline h)
  · exact inv_noteDir (inv_putCline (inv_putCline h))

theorem inv_makeRoom {who : Sharer} {line : Nat} (h : Inv s) : InvSome (makeRoom s who line) := by
  unfold makeRoom
  dsimp only
  split
  · exact h
  · exact every_map fun _ => inv_setCline h

theorem inv_makeRooms {who : Sharer} {line : Nat} (h : Inv s) : InvSome (makeRooms s who line) := by
  unfold makeRooms
  split
  · exact (inv_makeRoom h).bind fun _ h => inv_makeRoom h
  · exact inv_makeRoom h

theorem inv_touchL2 {who : Sharer} {line : Nat} {sectors : BitVec 4} (h : Inv s) : Inv (touchL2 s who line sectors) := by
  unfold touchL2
  split
  · split
    · exact inv_modDie h
    · exact h
  · exact h

theorem inv_applyAt {parent : Option Nat} {line : Nat} {bytes : List (Nat × Byte)} {narrow : BitVec 128}
    {teams : List Nat} (h : Inv s) :
    Inv (applyAt s parent line bytes narrow teams) := by
  unfold applyAt
  split
  · exact inv_writeHome h
  · exact inv_setCline h

theorem inv_staleSigs {core : Option Nat} {hit : Nat → Bool} (h : Inv s) : Inv (staleSigs s core hit) := inv_of_held h rfl

theorem inv_noteMerge {lines : List Nat} (h : Inv s) : Inv (noteMerge s lines) := by
  have h1 : Inv (staleSigs s none lines.contains) := inv_staleSigs h
  exact inv_of_held h1 rfl

theorem inv_mapSnaps {f : Bool → Bool → List (Sharer × Nat) → List (Sharer × Nat)} (h : Inv s) : Inv (mapSnaps s f) :=
  inv_of_held h rfl

theorem inv_dropDirty {who : Sharer} {line : Nat} (h : Inv s) : Inv (dropDirty s who line) := by
  unfold dropDirty
  exact inv_mapSnaps (inv_setCline h)

theorem inv_writeBack {who : Sharer} {line : Nat} (h : Inv s) : Inv (writeBack s who line) := by
  unfold writeBack
  extract_lets x held
  split
  · exact h
  split
  · exact inv_foldl (inv_countRefused (inv_dropDirty h)) fun _ _ h => inv_modTeam h
  · exact inv_of_held (inv_setCline h) rfl

theorem inv_followBack {who : Sharer} {line : Nat} (h : Inv s) : Inv (followBack s who line) := by
  unfold followBack
  split
  · exact inv_writeBack h
  · exact h

theorem inv_ackWriter {m : Merging} (h : Inv s) : Inv (ackWriter s m) := by
  unfold ackWriter
  extract_lets s1 s2
  have h1 : Inv s1 := by
    unfold s1
    split
    · exact inv_followBack (inv_mapSnaps (inv_setCline h))
    · exact h
  have h2 : Inv s2 := by
    unfold s2
    split
    · exact inv_followBack h1
    · exact h1
  split
  · exact inv_modTeam h2
  · exact h2

theorem inv_enterMerge {line : Nat} {parent : Option Nat} {writer : Option Sharer} {req : Option (Nat × Nat × Nat)}
    {defers : List Authority} {unit : Option Nat} (h : Inv s) :
    Inv (enterMerge s line parent writer req defers unit) := by
  unfold enterMerge
  dsimp only
  split
  · exact inv_ackWriter h
  · exact inv_of_held h rfl

theorem inv_beginMerge {line : Nat} {parent : Option Nat} {bytes : List (Nat × Byte)} {writer : Option Sharer}
    {req : Option (Nat × Nat × Nat)} {narrow : BitVec 128} {defers : List Authority} {teams : List Nat} (h : Inv s) :
    Inv (beginMerge s line parent bytes writer req narrow defers teams) :=
  inv_enterMerge (inv_noteMerge (inv_applyAt h))

theorem inv_mergeWb {idx : Nat} (h : Inv s) : Inv (mergeWb s idx) := by
  unfold mergeWb
  split
  · exact h
  split
  · exact h
  · refine inv_beginMerge ?_
    split
    · split
      · exact inv_setCline (inv_touchL2 (inv_of_held h rfl))
      · exact inv_touchL2 (inv_of_held h rfl)
    · exact inv_touchL2 (inv_of_held h rfl)

theorem inv_dropReplica {who : Sharer} {line : Nat} (h : Inv s) : Inv (dropReplica s who line) := by
  unfold dropReplica
  split
  · exact inv_of_held h rfl
  · exact inv_setCline h

theorem inv_invalidate {who : Sharer} {line : Nat} (h : Inv s) : Inv (invalidate s who line) := by
  unfold invalidate
  split
  · exact h
  dsimp only
  split
  · exact inv_ackWriter (inv_of_held (inv_dropReplica h) rfl)
  · exact inv_of_held (inv_dropReplica h) rfl

theorem inv_fillSector {s0 : State} {who : Sharer} {line sector : Nat} (h : Inv s0) :
    Inv (fillSector s0 who line sector) := by
  unfold fillSector
  extract_lets parent ready
  split
  · exact h
  split
  · exact h
  next s1 hs => exact inv_touchL2 (inv_setCline ((inv_makeRooms h).of_eq hs))

theorem inv_fetchLine {core pa n : Nat} (h : Inv s) : Inv (fetchLine s core pa n) := by
  unfold fetchLine
  exact inv_foldl h fun _ _ h1 => inv_foldl h1 fun _ _ h => inv_fillSector h

theorem inv_directoryEvict {line : Nat} (h : Inv s) : Inv (directoryEvict s line) :=
  inv_foldl h fun _ _ h => by
    dsimp only
    split
    · exact h
    split
    · exact inv_writeBack h
    split
    · exact h
    · exact inv_staleSigs (inv_dropReplica h)

theorem inv_bufferBytes {core team : Nat} {bytes : List (Nat × Byte)} {narrow : Bool} (h : Inv s) :
    InvSome (bufferBytes s core team bytes narrow) :=
  every_foldl_bind h fun _ _ h1 => (inv_makeRooms h1).map fun _ h => inv_staleSigs (inv_setCline h)

theorem inv_dropL1 {core : Nat} (h : Inv s) : Inv (dropL1 s core) := inv_foldl h fun _ _ h => inv_setCline h

theorem inv_sysWriteBy {writer : Option Sharer} {bytes : List (Nat × Byte)} {defers : List Authority}
    {unit : Option Nat} (h : Inv s) :
    Inv (sysWriteBy writer s bytes defers unit) := by
  unfold sysWriteBy
  exact inv_foldl (inv_noteMerge (inv_writeHome h)) fun _ _ h => inv_enterMerge h

theorem inv_dieReach {d : Nat} {bytes : List (Nat × Byte)} (h : Inv s) : Inv (dieReach s d bytes).1 :=
  inv_foldl h fun _ _ h => inv_countRefused h

theorem inv_dieStore {d : Nat} {bytes : List (Nat × Byte)} (h : Inv s) : Inv (dieStore s d bytes) := by
  unfold dieStore
  exact inv_sysWriteBy (inv_dieReach h)

theorem inv_sysWrite {bytes : List (Nat × Byte)} (h : Inv s) : Inv (sysWrite s bytes) := inv_sysWriteBy h

theorem inv_sysWrite64 {pa v : Nat} (h : Inv s) : Inv (sysWrite64 s pa v) := inv_sysWrite h

/-! ## Records, divergence, joins and the posy former -/

theorem inv_withSpawn {s0 : State} {team : Nat} (h : Inv s) : Inv (withSpawn s0 team s) := by
  unfold withSpawn
  split
  · exact h
  next t _ =>
    have hu := inv_sysWriteBy (writer := none) (bytes := (dieReach s (dieOf t.core) (spawnChanges s0 s team)).2) (defers := [])
      (unit := some (dieOf t.core)) (inv_dieReach (d := dieOf t.core) (bytes := spawnChanges s0 s team) h)
    exact inv_modTeam (inv_of_mem h hu.mem hu.poison rfl)

theorem inv_addRec {team : Nat} {r : Rec} {runnable : Bool} (h : Inv s) : Inv (addRec s team r runnable) := by
  unfold addRec
  split
  · exact h
  · exact inv_setCore (inv_setTeam h)

theorem inv_releaseRec {team id pc : Nat} (h : Inv s) : Inv (releaseRec s team id pc) := by
  unfold releaseRec
  split
  · exact h
  split
  · exact h
  dsimp only
  split <;> exact inv_setCore (inv_setTeam h)

theorem inv_freePosy {k : Nat} (h : Inv s) : Inv (freePosy s k) := by
  unfold freePosy
  split
  · exact h
  · exact inv_modTeam (inv_setPosy h)

theorem inv_diverge {e : Env} {gs : List Machine.Group} (h : Inv s) : InvOut (diverge s e gs) := by
  unfold diverge
  split
  · exact h
  · exact inv_setPosy h
  extract_lets stay out need
  split
  · exact inv_trap h
  split
  · exact h
  · exact inv_withSpawn (inv_setPosy (inv_foldl h fun _ _ h => inv_addRec h))

theorem inv_joinFinish {team frame i : Nat} (h : Inv s) : Inv (joinFinish s team frame i) := by
  unfold joinFinish
  split
  · exact h
  split
  · exact h
  · exact inv_foldl (by
      split
      · exact inv_modPosy (inv_setTeam h)
      · exact inv_setTeam h) fun _ _ h => inv_releaseRec h

theorem inv_absorb {team k : Nat} {xs : List (Nat × Rec)} (h : Inv s) : Inv (absorb s team k xs) := by
  induction xs generalizing s with
  | nil => exact h
  | cons x rest ih =>
    unfold absorb
    split
    · split
      · exact ih (inv_setTeam (inv_setPosy h))
      · exact ih h
    · exact h

theorem inv_moveInto {hk : Nat} {p : Posy} (h : Inv s) : Inv (moveInto s hk p).1 := by
  unfold moveInto
  dsimp only
  split
  · split
    · exact inv_setPosy h
    · exact h
  · exact h

theorem inv_expirePast {e : Env} (h : Inv s) : Inv (expirePast s e).1 := by
  unfold expirePast
  dsimp only
  split
  · exact inv_joinFinish h
  · exact h

theorem inv_arrive {s0 : State} {e0 : Env} {len : Len} {bound : Option Nat} (h : Inv s0) :
    InvOut (arrive s0 e0 len bound) := by
  unfold arrive
  split
  · exact h
  extract_lets x s e free jb mine p
  have hs : Inv s := inv_expirePast h
  split
  · exact inv_commit hs
  extract_lets i j0 j last put s1 s2
  have hp : ∀ j, Inv (put s j) := fun _ => inv_setTeam hs
  split
  · refine inv_withSpawn ?_
    split
    · exact inv_absorb (inv_setPosy (hp _))
    · exact inv_joinFinish (inv_setPosy (hp _))
  split
  · exact hs
  refine inv_withSpawn (inv_freePosy ?_)
  split
  · exact inv_ite (inv_moveInto (hp j)) (inv_addRec (inv_moveInto (hp j)))
  · exact inv_ite (hp j) (inv_addRec (hp j))

theorem inv_fork {e : Env} {c entry d : Nat} {len : Len} (h : Inv s) : InvOut (fork s e c entry d len) := by
  unfold fork
  dsimp only
  split
  · exact inv_trap h
  split
  · exact inv_trap h
  · exact inv_withSpawn (inv_foldl (inv_setPosy (inv_setTeam h)) fun _ _ h => inv_addRec h)

theorem inv_exitLanes {e : Env} {act : List Nat} {len : Len} (h : Inv s) : Inv (exitLanes s e act len) := by
  unfold exitLanes
  dsimp only
  split
  · exact inv_withSpawn (inv_modTeam (inv_freePosy (inv_setPosy (inv_setTeam h))))
  · exact inv_setPosy (inv_setTeam h)

theorem inv_formPosy {core : Nat} (h : Inv s) : Inv (formPosy s core) := by
  unfold formPosy
  dsimp only
  split
  · split
    · exact h
    split
    · exact h
    split
    · exact h
    · exact inv_withSpawn (inv_setNextUid (inv_modCore (inv_seat (inv_setTeam h))))
  · exact h

theorem inv_rotate {core slot : Nat} (h : Inv s) : Inv (rotate s core slot) := by
  unfold rotate
  split
  · exact h
  split
  · exact inv_withSpawn (inv_modTeam (inv_freePosy (inv_addRec h)))
  · exact h

/-! ## Registers of the dies and of the X-die -/

theorem inv_writeParkLimit {d : Nat} {v : BitVec 64} (h : Inv s) : Inv (writeParkLimit s d v) := by
  unfold writeParkLimit
  exact inv_modDie h

theorem inv_writeFaultRing {d which : Nat} {v : BitVec 64} (h : Inv s) : Inv (writeFaultRing s d which v) := by
  unfold writeFaultRing
  dsimp only
  split
  · exact h
  · exact inv_dieStore (inv_dieStore (inv_setDie h))

theorem inv_writeParkCmd {d : Nat} {v : BitVec 64} (h : Inv s) : Inv (writeParkCmd s d v) := by
  unfold writeParkCmd
  dsimp only
  split <;> exact inv_setDie h

theorem inv_dieWrite {d off : Nat} {v : BitVec 64} (h : Inv s) : Inv (dieWrite s d off v) := by
  have hd : ∀ f, Inv (s.modDie d f) := fun _ => inv_modDie h
  have ho : ∀ c, Inv (writeOverflow s d c v) := fun _ => inv_modDie h
  have hr : ∀ k, Inv (writeFaultRing s d k v) := fun _ => inv_writeFaultRing h
  unfold dieWrite
  exact inv_ite (inv_writeParkLimit h) <| inv_ite (ho _) <| inv_ite (ho _) <| inv_ite (hr 0) <| inv_ite (hr 1) <|
    inv_ite (hr 2) <| inv_ite (hd _) <| inv_ite (inv_writeParkCmd h) <| inv_ite (hd _) <| inv_ite (inv_modDie h) <|
    inv_ite (inv_modDie h) <| inv_ite (inv_ite (inv_modDie h) (inv_ite (inv_modDie h) h)) h

theorem inv_dropTlbs {keep : TlbEntry → Bool} (h : Inv s) : Inv (dropTlbs s keep) := inv_of_held h rfl

theorem inv_writePartition {off : Nat} {v : BitVec 64} (h : Inv s) : Inv (writePartition s off v) := by
  unfold writePartition
  split
  · dsimp only
    split
    · exact h
    · exact inv_dropTlbs (inv_of_held h rfl)
  split
  · dsimp only
    split
    · exact h
    · exact inv_of_held h rfl
  split
  · dsimp only
    split
    · exact h
    · exact inv_of_held h rfl
  · exact h

theorem inv_writeDescBase {vdt : Bool} {v : BitVec 64} (h : Inv s) : Inv (writeDescBase s vdt v) := by
  unfold writeDescBase
  split
  · exact h
  · exact inv_of_held h rfl

theorem inv_writeAccept {v : BitVec 64} (h : Inv s) : Inv (writeAccept s v) := by
  unfold writeAccept
  split
  · exact h
  · exact inv_of_held h rfl

theorem inv_writeSyscDone {v : BitVec 64} (h : Inv s) : Inv (writeSyscDone s v) := by
  unfold writeSyscDone
  dsimp only
  split
  · exact inv_of_held h rfl
  · exact h

theorem inv_writeCmd {v : BitVec 64} (h : Inv s) : Inv (writeCmd s v) := by
  unfold writeCmd
  exact inv_of_held h rfl

theorem inv_writeTcmd {v : BitVec 64} (h : Inv s) : Inv (writeTcmd s v) := by
  unfold writeTcmd
  exact inv_of_held h rfl

theorem inv_xWrite {off : Nat} {v : BitVec 64} (h : Inv s) : Inv (xWrite s off v) := by
  have hx : ∀ x, Inv { s with xd := x } := fun _ => inv_of_held h rfl
  unfold xWrite
  exact inv_ite (hx _) <| inv_ite (hx _) <| inv_ite (inv_writeCmd h) <| inv_ite (hx _) <| inv_ite (inv_writeDescBase h) <|
    inv_ite (inv_writeDescBase h) <| inv_ite (inv_writePartition h) <| inv_ite (hx _) <| inv_ite (hx _) <| inv_ite (hx _) <|
    inv_ite (inv_writeTcmd h) <| inv_ite (hx _) <| inv_ite (inv_writeAccept h) <| inv_ite (hx _) <| inv_ite (hx _) <|
    inv_ite (inv_writeSyscDone h) h

theorem inv_regWrite {pa : Nat} {v : BitVec 64} (h : Inv s) : Inv (regWrite s pa v) := by
  -- the function is replaced before it is applied, so that `regOf pa` is not evaluated
  generalize hf : regWrite = f
  delta regWrite at hf
  subst hf
  dsimp only
  generalize regOf pa = r
  cases r with
  | x off => exact inv_xWrite h
  | die d off => exact inv_dieWrite h
  | bound => exact h
  | none => exact h

theorem inv_devStore {bytes : List (Nat × Byte)} (h : Inv s) : Inv (devStore s bytes).1 := by
  unfold devStore
  exact inv_foldl h fun _ _ h => by
    split
    · exact inv_regWrite h
    · exact h

/-! ## The park store -/

theorem inv_syncEntry {d : Nat} {e : Entry} (h : Inv s) : Inv (syncEntry s d e) := by
  unfold syncEntry
  split
  · exact inv_foldl h fun _ _ h => inv_dieStore h
  · exact h

theorem inv_syncFree {d : Nat} {e : Entry} (h : Inv s) : Inv (syncFree s d e) := by
  unfold syncFree
  split
  · exact inv_foldl h fun _ _ h => inv_dieStore h
  · exact h

theorem inv_setEntry {d : Nat} {e : Entry} (h : Inv s) : Inv (setEntry s d e) := inv_syncEntry (inv_modDie h)

theorem inv_freeEntry {d : Nat} {e : Entry} (h : Inv s) : Inv (freeEntry s d e) := inv_syncFree (inv_modDie h)

theorem inv_detach {mine : Owner → Bool} {priv : Bool} (h : Inv s) : Inv (detach s mine priv) :=
  inv_foldl h fun _ _ h1 => inv_foldl h1 fun _ _ h => inv_setEntry h

theorem inv_unpark {mine : Owner → Bool} (h : Inv s) : Inv (unpark s mine) :=
  inv_foldl h fun _ _ h1 => inv_foldl h1 fun _ _ h => inv_freeEntry h

theorem inv_parkAs {d : Nat} {e : Entry} {i : Issuer} (h : Inv s) : Inv (parkAs s d e i).1 := by
  unfold parkAs
  dsimp only
  split
  · exact inv_setEntry (inv_modDie h)
  split
  · exact h
  · exact inv_syncEntry (inv_setDie h)

theorem inv_postFault {d : Nat} (h : Inv s) : Inv (postFault s d) := by
  unfold postFault
  dsimp only
  split
  · exact h
  split
  · exact h
  split
  · exact h
  split
  · exact inv_dieStore h
  split
  · exact inv_syncEntry (inv_dieStore (inv_modDie (inv_dieStore h)))
  · exact inv_dieStore (inv_modDie (inv_dieStore h))

/-! ## Bounded values -/

theorem inv_setShare {k : ShareKey} {x : Share} (h : Inv s) : Inv (setShare s k x) := by
  unfold setShare
  exact inv_of_held h rfl

theorem inv_applyWord {pa : Nat} {x : W32} (h : Inv s) : Inv (applyWord s pa x) := by
  unfold applyWord
  split
  · exact h
  · exact inv_sysWrite h

theorem inv_applyFrom {k : ShareKey} {ds : List (Nat × Nat × W32)} (h : Inv s) : Inv (applyFrom s k ds) := by
  unfold applyFrom
  split
  · exact (every_map fun _ => inv_countRefused h).getD h
  · exact inv_foldl h fun _ _ h => inv_applyWord h

theorem inv_drainToHome {k : ShareKey} (h : Inv s) : Inv (drainToHome s k) := by
  unfold drainToHome
  exact inv_setShare (inv_applyFrom h)

theorem inv_drainInto {k : ShareKey} {ds : List (Nat × Nat × W32)} {t : W32} (h : Inv s) : Inv (drainInto s k ds t).1 := by
  unfold drainInto
  dsimp only
  split
  · exact inv_applyFrom h
  split
  · split
    · exact inv_applyFrom h
    · exact inv_setShare h
  split
  · exact inv_applyFrom (inv_drainToHome h)
  · exact inv_setShare (inv_drainToHome h)

theorem inv_drainHolder {k : ShareKey} (h : Inv s) : Inv (drainHolder s k) := by
  unfold drainHolder
  split
  · exact inv_drainToHome h
  · exact inv_setShare (inv_drainInto h)

theorem inv_recallOne {k : ShareKey} (h : Inv s) : Inv (recallOne s k) := by
  unfold recallOne
  exact inv_setShare (inv_drainHolder h)

theorem inv_recallHolder {k : ShareKey} (h : Inv s) : Inv (recallHolder s k) := by
  unfold recallHolder
  split
  · exact inv_recallOne h
  split
  · exact h
  · exact inv_recallOne (inv_foldl h fun _ _ h => inv_recallOne h)

theorem inv_recallWhile {q : Option ShareKey} {k : ShareKey} {spare : Option Holder}
    {cond : State → List Share → Bool} {n : Nat} (h : Inv s) : Inv (recallWhile q k spare cond n s) := by
  induction n generalizing s with
  | zero => exact h
  | succ n ih =>
    unfold recallWhile
    dsimp only
    split
    · split
      · exact ih (inv_recallHolder h)
      · exact h
    · exact h

theorem inv_recallNext {as : List Authority} (h : Inv s) : InvSome (recallNext s as) := by
  induction as with
  | nil => trivial
  | cons a t ih =>
    unfold recallNext
    split
    · exact inv_recallHolder h
    · exact ih

theorem inv_grantFrom {k : ShareKey} {q : Option ShareKey} {floor : W32} (h : Inv s) : Inv (grantFrom s k q floor).1 := by
  unfold grantFrom
  dsimp only
  split
  · exact inv_setShare (inv_recallWhile h)
  · exact inv_recallWhile h

theorem inv_grantTo {k : ShareKey} {floor : W32} (h : Inv s) : InvFst (grantTo s k floor) := by
  unfold grantTo
  extract_lets open_
  split
  · split
    · exact inv_grantFrom h
    · trivial
  next q _ =>
  split
  · exact h
  split
  · trivial
  extract_lets s1 r s2 s3
  have h1 : Inv s1 := inv_ite (inv_grantFrom h) h
  have hr : Inv r.1 := inv_grantFrom h1
  have h3 : Inv s3 := inv_grantFrom (inv_recallOne hr)
  split
  · exact hr
  split
  · exact hr
  split
  · trivial
  split
  · exact h3
  · exact inv_grantFrom h3

theorem inv_accRegion {core d : Nat} {b : Bound} {va pa : Nat} {x : W32} {ovfsat : Bool} (h : Inv s) :
    InvFst (accRegion s core d b va pa x ovfsat) := by
  unfold accRegion
  refine Every.map (P := Inv) ?_ fun s1 h => ?_
  · split
    · exact (inv_grantTo h).map fun _ h => h
    · exact h
  dsimp only
  split
  · exact inv_drainInto h
  split
  · exact inv_setShare h
  split
  · exact inv_setShare (inv_drainHolder h)
  · exact inv_drainInto (inv_drainHolder h)

theorem inv_loadRecall {core d : Nat} {b : Bound} {t : W32} (h : Inv s) : InvSome (loadRecall s core d b t) := by
  unfold loadRecall
  extract_lets k top others
  split
  · exact every_map fun _ => inv_recallHolder h
  split
  · trivial
  extract_lets slack
  split
  · exact every_map fun _ => inv_recallHolder h
  · trivial

theorem inv_drainRegion {part vd base : Nat} (h : Inv s) : Inv (drainRegion s part vd base) := by
  unfold drainRegion
  exact inv_foldl (inv_foldl h fun _ _ h => inv_drainHolder h) fun _ _ h => inv_drainHolder h

theorem inv_registerRegion {part vd base size : Nat} {limit : W32} (h : Inv s) :
    Inv (registerRegion s part vd base size limit).1 := by
  unfold registerRegion
  dsimp only
  split
  · exact inv_foldl h fun _ _ h => by
      split
      · exact inv_modDie h
      · exact h
  · exact h

theorem inv_settleRemoving {part vd base : Nat} (h : Inv s) : Inv (settleRemoving s part vd base) := by
  unfold settleRemoving
  split
  · exact h
  · exact inv_foldl h fun _ _ h => inv_modDie h

theorem inv_freeRegion {part vd base : Nat} (h : Inv s) : Inv (freeRegion s part vd base) := by
  unfold freeRegion
  dsimp only
  split
  · split
    · exact inv_settleRemoving ((inv_recallNext h).of_eq ‹_›)
    · exact inv_settleRemoving h
  · exact inv_settleRemoving (inv_foldl (inv_drainRegion h) fun _ _ h => inv_modDie h)

theorem inv_recallFor {part vd va pa n : Nat} (h : Inv s) : InvSome (recallFor s part vd va pa n) := by
  unfold recallFor
  dsimp only
  split
  · exact inv_foldl h fun _ _ h => inv_recallWhile h
  · trivial

theorem inv_execHolderReturn {who : Holder} {vd base home : Nat} {give : Bool} (h : Inv s) :
    InvOut (execHolderReturn who vd base home give s) := by
  unfold execHolderReturn
  split
  · exact inv_settleRemoving (inv_recallHolder h)
  · exact inv_drainHolder h

/-! ## Control instructions -/

theorem inv_execJmp {o : Ops} (h : Inv s) : InvOut (execJmp o s) :=
  inv_issue h fun _ _ => by
    split
    · exact inv_setPosy h
    dsimp only
    split
    · exact inv_trap h
    · exact inv_setPosy h

theorem inv_execBra {o : Ops} (h : Inv s) : InvOut (execBra o s) :=
  inv_issue h fun _ _ => by
    dsimp only
    split
    · split
      · exact inv_setPosy h
      · exact inv_commit h
    · exact inv_commit h

theorem inv_callTo {e : Env} {n target : Nat} {len : Len} (h : Inv s) : InvOut (callTo s e n target len) := by
  unfold callTo
  exact inv_put h

theorem inv_execCall {o : Ops} (h : Inv s) : InvOut (execCall o s) :=
  inv_issue h fun _ _ => by
    split
    · exact inv_callTo h
    · exact inv_commit h

theorem inv_execCalli {o : Ops} (h : Inv s) : InvOut (execCalli o s) :=
  inv_issue h fun _ _ => by
    dsimp only
    split
    · exact inv_trap h
    · exact inv_callTo h

theorem inv_execRet {o : Ops} (h : Inv s) : InvOut (execRet o s) :=
  inv_issue h fun _ _ => by
    split
    · exact h
    split
    · exact inv_trap h
    · exact inv_diverge h

theorem inv_execFork {o : Ops} (h : Inv s) : InvOut (execFork o s) :=
  inv_issue h fun _ _ => by
    split
    · exact inv_fork h
    · exact inv_commit h

theorem inv_execExit {o : Ops} (h : Inv s) : InvOut (execExit o s) :=
  inv_issue h fun _ _ => by
    split
    · exact inv_commit h
    · exact inv_exitLanes h

theorem inv_execTrap {o : Ops} (h : Inv s) : InvOut (execTrap o s) :=
  inv_issue h fun _ _ => by
    split
    · exact inv_commit h
    · exact inv_takeTrap h

theorem inv_execBrk {o : Ops} (h : Inv s) : InvOut (execBrk o s) :=
  inv_issue h fun _ _ => by
    split
    · exact inv_commit h
    · exact inv_takeTrap h

theorem inv_execXacq {o : Ops} (h : Inv s) : InvOut (execXacq o s) :=
  inv_issue h fun _ _ => by
    extract_lets n c mine reserve
    split
    · exact inv_trap h
    split
    · exact inv_setPosy h
    · exact inv_setCore (inv_setPosy h)

theorem inv_execXrel {o : Ops} (h : Inv s) : InvOut (execXrel o s) :=
  inv_issue h fun _ _ => by
    dsimp only
    split
    · exact inv_trap h
    split
    · exact h
    · exact inv_setPosy h

theorem inv_execJoinComplete {team frame i : Nat} (h : Inv s) : InvOut (execJoinComplete team frame i s) := by
  unfold execJoinComplete
  split
  · exact h
  split
  · exact h
  split
  · split
    · exact inv_withSpawn (inv_joinFinish h)
    · exact h
  · exact h

theorem inv_execJoinExpiry {team frame i : Nat} (h : Inv s) : InvOut (execJoinExpiry team frame i s) := by
  unfold execJoinExpiry
  split
  · exact h
  split
  · split
    · exact inv_modCore (inv_withSpawn (inv_joinFinish h))
    · exact h
  · exact h

/-! ## Memory instructions -/

theorem inv_sendReqs {e : Env} {len : Len} {rs : List Req} {l : Option LoadOp} {flags : BitVec 6} (h : Inv s) :
    InvOut (sendReqs s e len rs l flags) := by
  unfold sendReqs
  exact inv_commit h

theorem inv_execLd {o : MemOps} (h : Inv s) : InvOut (execLd o s) :=
  inv_issue h fun _ _ => by
    dsimp only
    split
    · exact inv_trap h
    split
    · exact inv_commit h
    · exact inv_sendReqs h

theorem inv_execSt {o : MemOps} (h : Inv s) : InvOut (execSt o s) :=
  inv_issue h fun _ _ => by
    dsimp only
    split
    · exact inv_trap h
    split
    · exact inv_commit h
    · exact inv_sendReqs h

theorem inv_execLdsx {o : MemOps} (h : Inv s) : InvOut (execLdsx o s) :=
  inv_issue h fun _ _ => by
    dsimp only
    split
    · exact inv_trap h
    split
    · exact inv_commit h
    · exact inv_sendReqs h

theorem inv_execStsx {o : MemOps} (h : Inv s) : InvOut (execStsx o s) :=
  inv_issue h fun _ _ => by
    extract_lets m size n g scale used sg off addr r parts
    split
    · exact inv_trap h
    split
    · exact inv_trap h
    split
    · exact inv_commit h
    · exact inv_sendReqs h

theorem inv_execAtom {o : MemOps} (h : Inv s) : InvOut (execAtom o s) :=
  inv_issue h fun _ _ => by
    extract_lets size nr n
    split
    · exact inv_trap h
    extract_lets uniform as r
    split
    · exact inv_commit h
    · exact inv_sendReqs h

theorem inv_execAcc {o : MemOps} (h : Inv s) : InvOut (execAcc o s) :=
  inv_issue h fun _ _ => by
    split
    · exact inv_trap h
    dsimp only
    split
    · exact inv_commit h
    · exact inv_sendReqs h

theorem inv_execFence {o : Ops} (h : Inv s) : InvOut (execFence o s) :=
  inv_issue h fun _ _ => by
    split
    · split
      · exact inv_setPosy h
      · exact inv_commit h
    · exact inv_setPosy (inv_setTeam h)

theorem inv_regionReq {o : MemOps} {kind : ReqKind} (h : Inv s) : InvOut (regionReq s o kind) :=
  inv_issue h fun _ _ => by
    split
    · exact inv_trap h
    split
    · exact inv_commit h
    · exact inv_sendReqs h

theorem inv_execBreg {o : MemOps} (h : Inv s) : InvOut (execBreg o s) :=
  inv_issue h fun _ _ => by
    extract_lets size
    split
    · exact inv_commit h
    extract_lets off g a lanes
    split
    · exact inv_trap h
    split
    · exact inv_trap h
    · exact inv_sendReqs h

/-! ## The ordering machine -/

theorem inv_modReq {tid : Nat} {r : Req} {f : Req → Req} (h : Inv s) : Inv (modReq s tid r f) := inv_modTeam h

theorem inv_dropReq {tid : Nat} {r : Req} (h : Inv s) : Inv (dropReq s tid r) := inv_modTeam h

theorem inv_flagTeam {tid : Nat} {f : BitVec 6} (h : Inv s) : Inv (flagTeam s tid f) := inv_modTeam h

theorem inv_replyWith {tid : Nat} {r : Req} {bytes : List (Nat × Byte)} {olds : List (Nat × BitVec 64)} {merr : Bool}
    {flags : BitVec 6} (h : Inv s) :
    Inv (replyWith s tid r bytes olds merr flags) :=
  inv_modReq h

theorem inv_poisonReply {tid : Nat} {r : Req} (h : Inv s) : Inv (poisonReply s tid r) := by
  unfold poisonReply
  split
  · exact inv_replyWith h
  · exact inv_replyWith h
  · exact inv_replyWith h
  · exact inv_dropReq (inv_flagTeam h)

theorem inv_goLoad {tid : Nat} {t : Team} {r : Req} {l : Leaf} {o : PageCls × Width} (h : Inv s) :
    Inv (goLoad s tid t r l o) := by
  unfold goLoad
  dsimp only
  split
  · exact inv_replyWith h
  · exact inv_replyWith (inv_of_held h rfl)
  · exact inv_poisonReply h
  split
  · exact inv_modReq h
  split
  · split
    · exact h
    · exact inv_replyWith h
  split
  · exact h
  · exact inv_replyWith (inv_fetchLine h)

theorem inv_regionStep {tid : Nat} {r : Req} {as : List Authority} {go : State → State} (h : Inv s) (hg : Inv (go s)) :
    Inv (regionStep s tid r as go) := by
  unfold regionStep
  split
  · exact inv_modTeam ((inv_recallNext h).of_eq ‹_›)
  · exact hg

theorem inv_goSig {tid : Nat} {t : Team} {r : Req} {l : Leaf} {o : PageCls × Width} (h : Inv s) :
    Inv (goSig s tid t r l o) := by
  unfold goSig
  extract_lets pa put p
  have hp : ∀ xs, Inv (put s xs) := fun _ => inv_replyWith h
  split
  case h_1 | h_2 =>
    split
    · exact inv_ite h (hp _)
    · exact inv_ite h (inv_regionStep h (hp _))
  · exact inv_goLoad h

theorem inv_writeThrough {tid : Nat} {r : Req} {p : Option Nat} {bs : List (Nat × Byte)} {pa : Nat} {defers : List Authority}
    (h : Inv s) : Inv (writeThrough s tid r p bs pa defers) := by
  have hp : InvSome (match p with | some d => makeRoom s (.rdc d) (lineOf pa) | none => some s) := by
    split
    · exact inv_makeRoom h
    · exact h
  unfold writeThrough
  split
  · exact h
  split
  · exact h
  next s1 hs => exact inv_beginMerge (inv_modReq (hp.of_eq hs))

theorem inv_goStore {tid : Nat} {t : Team} {r : Req} {l : Leaf} {o : PageCls × Width} (h : Inv s) :
    Inv (goStore s tid t r l o) := by
  unfold goStore
  extract_lets pa bs
  split
  · exact inv_dropReq (inv_ite (inv_flagTeam (inv_devStore h)) (inv_devStore h))
  · exact inv_dropReq h
  · exact inv_poisonReply h
  split
  · exact inv_regionStep h (inv_writeThrough h)
  split
  · exact inv_writeThrough h
  split
  · exact h
  next s1 hs =>
    have h1 : Inv s1 := (inv_bufferBytes h).of_eq hs
    extract_lets s2
    have h2 : Inv s2 := inv_ite (inv_writeBack (inv_setCline h1)) h1
    split
    · exact inv_modReq h2
    · exact inv_dropReq h2

theorem inv_goAtomic {tid : Nat} {t : Team} {r : Req} {l : Leaf} (h : Inv s) : Inv (goAtomic s tid t r l) := by
  unfold goAtomic
  extract_lets pa region x a s1
  clear_value region
  split
  · split
    · split
      · exact inv_dropReq (inv_flagTeam ((inv_accRegion h).of_eq ‹_›))
      · exact h
    · exact h
  split
  case h_1 | h_2 => exact inv_ite (inv_poisonReply h) (inv_ite (inv_modReq h) h)
  · have h1 : Inv s1 := inv_of_held h rfl
    exact inv_ite (inv_poisonReply h) (inv_ite (inv_dropReq h1) (inv_replyWith h1))
  · exact inv_poisonReply h

theorem inv_goScratch {tid : Nat} {t : Team} {r : Req} (h : Inv s) : Inv (goScratch s tid t r) := by
  unfold goScratch
  split
  · exact inv_replyWith h
  · exact inv_replyWith h
  · exact inv_dropReq (inv_setTeam h)
  split
  · exact inv_poisonReply h
  dsimp only
  split
  · exact inv_dropReq (inv_flagTeam (inv_setTeam h))
  · exact inv_replyWith (inv_setTeam h)

theorem inv_goReq {tid : Nat} {t : Team} {r0 : Req} {l : Leaf} {o : PageCls × Width} (h : Inv s) :
    Inv (goReq s tid t r0 l o) := by
  unfold goReq
  dsimp only
  split
  · exact inv_goScratch h
  split
  · exact inv_poisonReply (inv_countRefused (inv_modReq (inv_tlbFill h)))
  split
  · exact inv_goLoad (inv_modReq (inv_tlbFill h))
  · exact inv_goSig (inv_modReq (inv_tlbFill h))
  · exact inv_goStore (inv_modReq (inv_tlbFill h))
  · exact inv_goAtomic (inv_modReq (inv_tlbFill h))

theorem inv_stepFence {tid : Nat} {t : Team} {r : Req} (h : Inv s) : Inv (stepFence s tid t r) := by
  unfold stepFence
  split
  · exact h
  split
  · exact inv_modReq h
  · exact inv_dropReq h
  · exact h

theorem inv_stepRegion {tid : Nat} {t : Team} {r : Req} (h : Inv s) : Inv (stepRegion s tid t r) := by
  unfold stepRegion
  split
  · exact h
  split
  · split
    · exact h
    · exact inv_replyWith (inv_registerRegion h)
  split
  · exact h
  split
  · exact inv_dropReq h
  split
  · exact inv_dropReq (inv_drainRegion h)
  split
  · exact h
  dsimp only
  split
  · exact inv_dropReq (inv_freeRegion h)
  · exact inv_freeRegion h

theorem inv_parkReq {tid : Nat} {t : Team} {r : Req} {f : Fail} {o : PageCls × Width} {leader : Option Req} (h : Inv s) :
    Inv (parkReq s tid t r f o leader) := by
  unfold parkReq
  exact inv_modReq (inv_parkAs (inv_countWalk h))

theorem inv_attempt {tid : Nat} {t : Team} {r : Req} {goes parks : Bool} (h : Inv s) :
    Inv (attempt s tid t r goes parks) := by
  unfold attempt
  split
  · exact h
  split
  · exact h
  · exact inv_modReq h
  · exact inv_modReq h
  · split
    · exact inv_goReq h
    · exact h
  · split
    · exact inv_parkReq h
    · exact h
  split
  · exact inv_parkReq h
  · exact h

theorem inv_finishLoad {tid : Nat} {l : LoadOp} (h : Inv s) : Inv (finishLoad s tid l) := by
  unfold finishLoad
  dsimp only
  split
  · split
    · exact inv_modTeam h
    · exact inv_setPosy (inv_modTeam h)
  · exact inv_modTeam h

theorem inv_landReply {tid : Nat} {t : Team} {r : Req} {fin : State → LoadOp → State} (h : Inv s)
    (hf : ∀ t l, Inv t → Inv (fin t l)) : Inv (landReply s tid t r fin) := by
  have h1 : Inv (dropReq (flagTeam s tid (r.flags ||| flagIf r.merr flagMerr)) tid r) := inv_modTeam (inv_modTeam h)
  unfold landReply
  dsimp only
  split
  · exact h1
  split
  · split
    · exact inv_modTeam h1
    · exact hf _ _ (inv_modTeam h1)
  · exact inv_modTeam h1

/-! ## Steps of caches, homes and the park store -/

theorem inv_execFill {who : Sharer} {line sector : Nat} (h : Inv s) : InvOut (execFill who line sector s) := by
  unfold execFill
  split
  · exact inv_fillSector h
  · exact h

theorem inv_execDirectoryEvict {line : Nat} (h : Inv s) : InvOut (execDirectoryEvict line s) := inv_directoryEvict h

theorem inv_prefLane {e : Env} {o : MemOps} {L : Nat} (h : Inv s) : Inv (prefLane s e o L) := by
  unfold prefLane
  extract_lets g off va
  split
  · exact h
  split
  · exact inv_countWalk h
  extract_lets pa s1
  have h1 : Inv s1 := inv_ite (inv_countRefused h) h
  split
  · exact h1
  split
  · exact inv_fetchLine h1
  split
  · exact inv_ite (inv_touchL2 h1) (inv_foldl h1 fun _ _ h => inv_fillSector h)
  · exact h1

theorem inv_execPref {o : MemOps} (h : Inv s) : InvOut (execPref o s) :=
  inv_issue h fun _ _ => by
    split
    · exact inv_foldl ((inv_commit h).of_eq ‹_›) fun _ _ h => inv_prefLane h
    · exact inv_commit h

theorem inv_atomicAtHome {tid : Nat} {t : Team} {r : Req} (h : Inv s) : Inv (atomicAtHome s tid t r) := by
  unfold atomicAtHome
  dsimp only
  split
  · exact h
  · refine inv_regionStep h ?_
    split
    · exact inv_poisonReply h
    · exact inv_beginMerge (inv_modReq h)

theorem inv_execAtomicPerform {team idx : Nat} (h : Inv s) : InvOut (execAtomicPerform team idx s) := by
  unfold execAtomicPerform
  split
  · exact h
  split
  · split
    · exact inv_atomicAtHome h
    · exact h
  · exact h

theorem inv_wordsRecall {t : Team} {r : Req} {l : Leaf} {ws : List Nat} (h : Inv s) : InvSome (wordsRecall s t r l ws) :=
  every_findSome fun _ => by
    split
    · split
      · trivial
      · exact inv_loadRecall h
    · trivial

theorem inv_wordsRecallAll {t : Team} {r : Req} {l : Leaf} {ws : List Nat} {n : Nat} (h : Inv s) :
    Inv (wordsRecallAll t r l ws n s) := by
  induction n generalizing s with
  | zero => exact h
  | succ n ih =>
    unfold wordsRecallAll
    split
    · exact ih ((inv_wordsRecall h).of_eq ‹_›)
    · exact h

theorem inv_execRegionLoadAnswer {team idx : Nat} (h : Inv s) : InvOut (execRegionLoadAnswer team idx s) := by
  unfold execRegionLoadAnswer
  split
  · exact h
  split
  · split
    · dsimp only
      split
      · exact (inv_wordsRecall h).of_eq ‹_›
      · exact inv_replyWith h
    · exact h
  · exact h

theorem inv_withReq {team idx : Nat} {f : Team → Req → State} (h : Inv s) (hf : ∀ t r, Inv (f t r)) :
    InvOut (withReq s team idx f) := by
  unfold withReq
  split
  · exact h
  · split
    · exact hf _ _
    · exact h

theorem inv_execPark {team idx : Nat} (h : Inv s) : InvOut (execPark team idx s) :=
  inv_withReq h fun _ _ => by
    split
    · exact inv_attempt h
    · exact h

theorem inv_execParkRetry {team idx : Nat} (h : Inv s) : InvOut (execParkRetry team idx s) :=
  inv_withReq h fun _ _ => by
    split
    · split
      · exact inv_attempt h
      · exact h
    · exact h

theorem inv_modPart {core team token part : Nat} {f : CpPart → CpPart} (h : Inv s) :
    Inv (modPart s core team token part f) :=
  inv_modCore h

theorem inv_modKload {core team token : Nat} {f : KLoad → KLoad} (h : Inv s) :
    Inv (modKload s core team token f) := inv_modCore h

theorem inv_modTask {core team token : Nat} {f : Task → Task} (h : Inv s) :
    Inv (modTask s core team token f) := inv_modCore h

theorem inv_ownerReplay {o : Owner} (h : Inv s) : Inv (ownerReplay s o) := by
  unfold ownerReplay
  split
  · exact inv_modTeam h
  · exact inv_modPosy h
  · exact inv_modPart h
  · exact inv_modPart h
  · exact inv_modKload h
  · exact inv_modTask h
  · exact h
  · exact h
  · exact inv_modQueue h
  · exact h

theorem inv_ownerAbort {o : Owner} {va : Nat} (h : Inv s) : Inv (ownerAbort s o va) := by
  unfold ownerAbort
  split
  · split
    · split
      · exact inv_poisonReply h
      · exact h
    · exact h
  · exact inv_flagTeam (inv_modPosy h)
  · exact inv_flagTeam (inv_modPart h)
  · exact inv_flagTeam (inv_modPart h)
  · exact inv_modKload h
  · exact inv_modTask h
  · exact inv_flagTeam (inv_modTeam h)
  · exact inv_modCore h
  · exact inv_modQueue h
  split
  · exact inv_flagTeam h
  · exact h

theorem inv_ownerDiscard {die : Nat} {e : Entry} (h : Inv s) : Inv (ownerDiscard s die e) := by
  unfold ownerDiscard
  split
  · exact inv_modTeam h
  · exact inv_modPosy h
  · exact inv_modPart h
  · exact inv_modPart h
  · exact inv_modKload h
  · exact inv_modTask h
  · exact inv_modTeam h
  · exact h

theorem inv_execFollowerReplay {die pseq : Nat} (h : Inv s) : InvOut (execFollowerReplay die pseq s) := by
  unfold execFollowerReplay
  split
  · split
    · split
      · split
        · dsimp only
          split
          · exact h
          split
          · exact inv_ownerReplay (inv_setEntry h)
          split
          · split
            · exact h
            · exact inv_setEntry h
          · exact h
        · exact h
      · exact h
    · exact h
  · exact h

theorem inv_execReplayComplete {die pseq : Nat} (h : Inv s) : InvOut (execReplayComplete die pseq s) := by
  unfold execReplayComplete
  split
  · split
    · exact h
    split
    · exact inv_parkAs h
    split
    · exact inv_freeEntry h
    · exact h
  · exact h

theorem inv_runCmd {d op : Nat} {hit : Entry → Bool} {act : State → Entry → State} (h : Inv s)
    (ha : ∀ t e, Inv t → Inv (act t e)) : InvOut (Machine.runCmd s d op hit act) := by
  unfold Machine.runCmd
  split
  · split
    · exact inv_modDie (inv_foldl h ha)
    · exact h
  · exact h

theorem inv_execRelease {die : Nat} (h : Inv s) : InvOut (execRelease die s) :=
  inv_runCmd h fun _ _ h => inv_ownerReplay (inv_setEntry h)

theorem inv_execAbort {die : Nat} (h : Inv s) : InvOut (execAbort die s) :=
  inv_runCmd h fun _ _ h => inv_freeEntry (inv_ownerAbort h)

theorem inv_purgeLaunch {lid : Nat} (h : Inv s) : Inv (purgeLaunch s lid) :=
  inv_foldl h fun _ _ h1 => inv_foldl h1 fun _ _ h => inv_freeEntry h

theorem inv_execParkLimitWrite {die : Nat} {v : BitVec 64} (h : Inv s) : InvOut (execParkLimitWrite die v s) := by
  unfold execParkLimitWrite
  split
  · exact inv_writeParkLimit h
  · exact h

theorem inv_execOverflowConfigWrite {die : Nat} {cfg : Bool} {v : BitVec 64} (h : Inv s) :
    InvOut (execOverflowConfigWrite die cfg v s) := by
  unfold execOverflowConfigWrite
  split
  · exact inv_modDie h
  · exact h

theorem inv_execFaultRingConfigWrite {die : Nat} {which : BitVec 2} {v : BitVec 64} (h : Inv s) :
    InvOut (execFaultRingConfigWrite die which v s) := by
  unfold execFaultRingConfigWrite
  split
  · exact inv_writeFaultRing h
  · exact h

/-! ## Accesses of engines, context images and handles -/

theorem inv_engPark {t : Team} {core va size : Nat} {owner : Owner} {write : Bool} {unit : Nat} {data : List Byte}
    {f : Fail} (h : Inv s) :
    Inv (engPark s t core va size owner write unit data f).1 :=
  inv_parkAs (inv_countWalk h)

theorem inv_engRead {t : Team} {core : Nat} {l : Leaf} {va n : Nat} (h : Inv s) : InvFst (engRead s t core l va n) := by
  unfold engRead
  dsimp only
  split
  · exact h
  · exact h
  split
  · exact inv_countRefused h
  split
  · exact inv_of_held h rfl
  split
  · split
    · trivial
    · exact inv_wordsRecallAll h
  split
  · trivial
  · exact inv_fetchLine h

theorem inv_supersede {who : Sharer} {line : Nat} {idx : List Nat} (h : Inv s) : Inv (supersede s who line idx) := by
  unfold supersede
  dsimp only
  split
  · exact inv_of_held h rfl
  next hx => exact inv_mapSnaps (inv_of_held (inv_setCline (who := who) (line := line) h) rfl)

theorem inv_engWrite {t : Team} {core : Nat} {l : Leaf} {va : Nat} {bytes : List Byte} (h : Inv s) :
    InvFst (engWrite s t core l va bytes) := by
  unfold engWrite
  dsimp only
  split
  · exact h
  · exact inv_devStore h
  split
  · exact inv_countRefused h
  split
  · exact h
  refine Every.map (P := Inv) ?_ fun _ h => inv_sysWriteBy (inv_foldl h fun _ _ h => inv_supersede h)
  split
  · exact inv_recallFor h
  · exact h

theorem inv_ctxPark {tid : Nat} {t : Team} {write : Bool} {va : Nat} {bs : List Byte} {n : Nat} {f : Fail} (h : Inv s) :
    Inv (ctxPark s tid t write va bs n f) := by
  unfold ctxPark
  dsimp only
  split
  · exact h
  split
  · exact inv_engPark h
  · exact inv_modTeam (inv_engPark h)

theorem inv_ctxDone {tid : Nat} {write : Bool} {lines : List Nat} (h : Inv s) : Inv (ctxDone s tid write lines) :=
  inv_foldl h fun _ _ h1 => inv_foldl h1 fun _ _ h => inv_freeEntry h

theorem inv_ctxStores {t : Team} {ps : List (Nat × List Byte)} (h : Inv s) : InvFst (ctxStores s t ps) := by
  induction ps generalizing s with
  | nil => exact h
  | cons p rest ih =>
    unfold ctxStores
    split
    · exact ih h
    · split
      · trivial
      · exact (inv_engWrite h).bind fun _ hx => (ih hx).map fun _ hy => hy

theorem inv_ctxWrite {tid : Nat} {w : List (Nat × List Byte)} (h : Inv s) : Inv (ctxWrite s tid w).1 := by
  unfold ctxWrite
  split
  · exact h
  dsimp only
  split
  · exact h
  split
  · exact inv_ctxPark h
  split
  next s1 hs =>
    have h1 := (inv_ctxStores h).of_eq hs
    dsimp only
    exact inv_ctxDone (inv_modTeam h1)
  · exact h

theorem inv_ctxLoads {t : Team} {ps : List (Nat × Nat)} (h : Inv s) : InvFst (ctxLoads s t ps) := by
  induction ps generalizing s with
  | nil => exact h
  | cons p rest ih =>
    have h1 : InvFst (if t.ctxAborted.contains (p.1 / 128) then some (s, List.replicate p.2 0xFF, true)
        else match engWalk s t t.core p.1 { r := true } with
          | .fail _ => none
          | .leaf l => engRead s t t.core l p.1 p.2) := by
      split
      · exact h
      · split
        · trivial
        · exact inv_engRead h
    unfold ctxLoads
    dsimp only
    split
    · trivial
    · next s1 bs bad hx => exact (ih (h1.of_eq hx)).map fun _ hy => hy

theorem inv_ctxRead {tid : Nat} {rs : List (Nat × Nat)} (h : Inv s) : Inv (ctxRead s tid rs).1 := by
  unfold ctxRead
  split
  · exact h
  dsimp only
  split
  · exact h
  split
  · exact inv_ctxPark h
  split
  next s1 bs bad hs =>
    have h1 : Inv s1 := (inv_ctxLoads h).of_eq hs
    dsimp only
    exact inv_ctxDone (inv_modTeam h1)
  · exact h

theorem inv_modHandle {team tok : Nat} {f : HandleSt → HandleSt} (h : Inv s) : Inv (modHandle s team tok f) := inv_modTeam h

theorem inv_completeHandle {team token : Nat} {t : Team} {kh : HandleSt} (h : Inv s) :
    Inv (completeHandle s team token t kh) := by
  unfold completeHandle
  extract_lets done x
  have hd : ∀ t, Inv t → Inv (done t) := fun _ h => inv_modHandle (inv_flagTeam h)
  split
  · have hx : Inv x.1 := inv_ctxWrite h
    exact inv_ite (inv_modTeam (hd _ hx)) hx
  · exact hd _ h

theorem inv_execHandleComplete {team token : Nat} (h : Inv s) : InvOut (execHandleComplete team token s) := by
  unfold execHandleComplete
  split
  · split
    · split
      · exact inv_completeHandle h
      · exact h
    · exact h
  · exact h

/-! ## The copy unit -/

theorem inv_doneAtOnce {e : Env} {d : Nat} {kind : CmdKind} {status : Nat} {len : Len} (h : Inv s) :
    InvOut (doneAtOnce s e d kind status len) :=
  inv_commit h

theorem inv_engineCmd {e : Env} {kind : ReqKind} {act : List Nat} {len : Len} {put : State → State} (h : Inv s)
    (hp : ∀ t, Inv t → Inv (put t)) : InvOut (engineCmd s e kind act len put) := hp _ (inv_put h)

theorem inv_cpyBody {e : Env} {act : List Nat} {o : CpyOps} {g : Rows} (h : Inv s) : InvOut (cpyBody s e act o g) := by
  unfold cpyBody
  dsimp only
  split
  · exact inv_doneAtOnce h
  split
  · exact inv_trap h
  split
  · exact inv_trap h
  split
  · exact inv_trap h
  split
  · exact inv_doneAtOnce h
  split
  · exact inv_doneAtOnce h
  · exact inv_engineCmd h fun _ h => inv_modCore h

theorem inv_execPut {o : CpyOps} (h : Inv s) : InvOut (execPut o s) :=
  inv_issue h fun _ _ => by
    dsimp only
    split
    · exact inv_doneAtOnce h
    split
    · exact inv_trap h
    split
    · exact inv_trap h
    split
    · exact inv_doneAtOnce h
    split
    · exact inv_doneAtOnce h
    · exact inv_engineCmd h fun _ h => inv_modCore h

theorem inv_modCopy {core team token : Nat} {f : CopyCmd → CopyCmd} (h : Inv s) : Inv (modCopy s core team token f) :=
  inv_modCore h

theorem inv_settleCopy {core team token : Nat} (h : Inv s) : Inv (settleCopy s core team token) := by
  unfold settleCopy
  split
  · extract_lets ended bad
    split
    · exact inv_modHandle (inv_modCore h)
    · exact h
  · exact h

theorem inv_readPart {t : Team} {core : Nat} {c : CopyCmd} {i : Nat} {p : CpPart} (h : Inv s) :
    Inv (readPart s t core c i p) := by
  unfold readPart
  split
  · split
    · dsimp only
      split
      · exact inv_modHandle (inv_flagTeam (inv_modPart h))
      · exact inv_modPart h
    · exact h
  split
  · exact h
  split
  · exact inv_modPart (inv_engPark h)
  split
  · exact h
  dsimp only
  split
  · exact inv_modHandle (inv_flagTeam (inv_modPart (inv_tlbFill ((inv_engRead h).of_eq ‹_›))))
  · exact inv_modPart (inv_tlbFill ((inv_engRead h).of_eq ‹_›))

theorem inv_landed_ {core : Nat} {c : CopyCmd} {i n : Nat} {bs : List Byte} (h : Inv s) :
    Inv (landed_ s core c i n bs) := by
  unfold landed_
  refine inv_settleCopy ?_
  split
  · exact inv_modTeam (inv_modPart h)
  · exact inv_modPart h

theorem inv_writePart {t : Team} {core : Nat} {c : CopyCmd} {i : Nat} {p : CpPart} {bs : List Byte} (h : Inv s) :
    Inv (writePart s t core c i p bs) := by
  unfold writePart
  split
  · exact inv_settleCopy (inv_modPart (inv_modCopy h))
  split
  · exact h
  split
  · exact inv_ite h (inv_landed_ (inv_modHandle (inv_flagTeam (inv_modPart h))))
  split
  · exact inv_landed_ (inv_modTeam h)
  split
  · exact h
  extract_lets n
  split
  · exact inv_modPart (inv_engPark h)
  split
  · exact h
  next x hx =>
    have h1 : Inv x.1 := (inv_engWrite h).of_eq hx
    extract_lets s2 s3 line
    have h3 : Inv s3 := inv_ite (inv_modHandle (inv_flagTeam (inv_tlbFill h1))) (inv_tlbFill h1)
    split
    · exact inv_modPart h3
    split
    · exact inv_modPart h3
    · exact inv_landed_ h3

theorem inv_copyStep {core team token i : Nat} (h : Inv s) : Inv (copyStep s core team token i) := by
  unfold copyStep
  split
  · split
    · dsimp only
      split
      · exact h
      split
      · split
        · exact inv_readPart h
        · exact h
      · split
        · exact inv_readPart h
        · exact h
      · exact inv_writePart h
      · split
        · exact h
        · exact inv_landed_ h
      · split
        · exact inv_writePart h
        · exact h
      · exact h
    · exact h
  · exact h

theorem inv_endPut {core team token final : Nat} (h : Inv s) : Inv (endPut s core team token final) := by
  unfold endPut
  split
  · exact inv_modHandle (inv_modCore h)
  · exact h

theorem inv_landPut {core team token : Nat} (h : Inv s) : Inv (landPut s core team token) := by
  unfold landPut
  split
  · split
    · split
      · exact h
      split
      · exact inv_endPut h
      dsimp only
      split
      · exact inv_endPut h
      split
      · exact h
      · exact inv_endPut (inv_modTeam (inv_modTeam h))
    · exact h
  · exact h

theorem inv_execHwait {o : Ops} (h : Inv s) : InvOut (execHwait o s) :=
  inv_issue h fun _ _ => by
    split
    · exact inv_trap h
    split
    · exact inv_setPosy h
    · exact inv_commit h

theorem inv_execHtest {o : Ops} (h : Inv s) : InvOut (execHtest o s) :=
  inv_issue h fun _ _ => by
    split
    · exact inv_trap h
    · exact inv_commit h

theorem inv_cancelCopy {core team token : Nat} (h : Inv s) : Inv (cancelCopy s core team token) := by
  unfold cancelCopy
  exact inv_settleCopy (inv_modTeam (inv_modCopy (inv_unpark h)))

theorem inv_execHmov {o : Ops} (h : Inv s) : InvOut (execHmov o s) :=
  inv_issue h fun _ _ => by
    split
    · exact inv_trap h
    · exact inv_commit h

theorem inv_execHadopt {o : Ops} (h : Inv s) : InvOut (execHadopt o s) :=
  inv_issue h fun _ _ => by
    dsimp only
    split
    · exact inv_trap h
    · exact inv_commit h

/-! ## The kiln -/

theorem inv_endTask {core team token seq status : Nat} {bad : Bool} {flags : BitVec 6} (h : Inv s) :
    Inv (endTask s core team token seq status bad flags) := by
  unfold endTask
  exact inv_modCore (inv_modHandle (inv_modCore h))

theorem inv_doRead {team : Nat} {t : Team} {k uid dst first n : Nat} {lanes : List Nat} (h : Inv s) :
    Inv (doRead s team t k uid dst first n lanes).1 := by
  unfold doRead
  split
  · exact h
  dsimp only
  split
  · split
    · exact inv_setPosy h
    · exact h
  split
  · exact inv_setPosy (inv_ctxWrite h)
  · exact inv_ctxWrite h

theorem inv_doWrite {team : Nat} {t : Team} {k first n : Nat} {add : Bool} {c : Ctl} {data : Tab (Option W32)} {uid : Nat}
    {lfsr : Tab W32} (h : Inv s) :
    Inv (doWrite s team t k first n add c data uid lfsr) := by
  unfold doWrite
  dsimp only
  split
  · exact inv_setPosy (inv_setTeam h)
  · exact inv_setTeam h

theorem inv_enterTask {core : Nat} {e : KCmd} {t : Team} {token off : Nat} {hs : List Nat} (h : Inv s) :
    Inv (enterTask s core e t token off hs) := by
  unfold enterTask
  dsimp only
  split
  · exact inv_endTask (inv_modTeam h)
  split
  · exact inv_endTask (inv_modTeam h)
  · exact inv_modCore (inv_modTeam (inv_modCore h))

theorem inv_actKcmd {core : Nat} {e0 : KCmd} (h : Inv s) : Inv (actKcmd s core e0) := by
  unfold actKcmd
  dsimp only
  split
  · split
    · split
      · exact inv_modCore (inv_setTeam h)
      · exact h
    · split
      · split
        · exact inv_modCore (inv_doRead h)
        · exact inv_doRead h
      · exact h
    · split
      · exact inv_modCore (inv_doWrite h)
      · exact h
    · split
      · exact inv_modTeam (inv_modCore (inv_setTeam h))
      · exact h
    · split
      · exact inv_enterTask h
      · exact h
    · exact h
  · exact h

theorem inv_kilnSettle {core : Nat} (h : Inv s) : Inv (kilnSettle s core) := inv_foldl h fun _ _ h => inv_actKcmd h

theorem inv_kilnRead {t : Team} {core : Nat} {scr : Bool} {aborted : List Nat} {addr len : Nat}
    {owner : Nat → Owner} (h : Inv s) :
    InvGot (kilnRead s t core scr aborted addr len owner) := by
  unfold kilnRead
  split
  · exact h
  split
  · split
    · exact h
    · trivial
  split
  · trivial
  split
  · dsimp only
    split <;> exact inv_engPark h
  split
  · trivial
  · exact inv_tlbFill ((inv_engRead h).of_eq ‹_›)

theorem inv_execKload {o : KloadOps} (h : Inv s) : InvOut (execKload o s) :=
  inv_issue h fun _ _ => by
    extract_lets src tag g al c n d l
    split
    · exact inv_trap h
    split
    · exact inv_trap h
    split
    · exact inv_doneAtOnce h
    split
    · exact inv_doneAtOnce h
    split
    · exact inv_doneAtOnce h
    · exact inv_engineCmd h fun _ h => inv_modCore h

theorem inv_finishLoad_ {core : Nat} {l : KLoad} (h : Inv s) : Inv (finishLoad_ s core l) := by
  unfold finishLoad_
  dsimp only
  split
  · exact inv_flagTeam (inv_modCore h)
  · exact inv_modHandle (inv_modCore h)

theorem inv_kloadStep {core team token : Nat} (h : Inv s) : Inv (kloadStep s core team token) := by
  unfold kloadStep
  dsimp only
  split
  · split
    · exact inv_setCore h
    split
    · exact h
    split
    · split
      · exact inv_finishLoad_ h
      · exact h
    split
    · exact h
    · exact inv_modKload ((inv_kilnRead h).of_parked ‹_›)
    · exact inv_modKload ((inv_kilnRead h).of_refused ‹_›)
    · exact inv_modKload ((inv_kilnRead h).of_got ‹_›)
  · exact h

theorem inv_execKloadComplete {core team token : Nat} (h : Inv s) : InvOut (execKloadComplete core team token s) :=
  inv_kilnSettle (inv_kloadStep h)

theorem inv_execKtask {o : MemOps} (h : Inv s) : InvOut (execKtask o s) :=
  inv_issue h fun _ _ => by
    dsimp only
    split
    · exact inv_trap h
    split
    · exact inv_trap h
    split
    · exact inv_doneAtOnce h
    split
    · exact h
    · exact inv_engineCmd h fun _ h => inv_modCore h

theorem inv_blockIn {core : Nat} {t : Team} {k : Task} (h : Inv s) : Inv (blockIn s core t k) := by
  unfold blockIn
  exact inv_modCore h

theorem inv_fetchStep {core team token : Nat} (h : Inv s) : Inv (fetchStep s core team token) := by
  unfold fetchStep
  dsimp only
  split
  · split
    · split
      · split
        · exact inv_blockIn (inv_modTask (inv_setCore h))
        · exact inv_modTask (inv_setCore h)
      · exact h
    split
    · split
      · exact h
      split
      · split
        · exact inv_blockIn h
        · exact h
      split
      · exact h
      · exact inv_modTask ((inv_kilnRead h).of_parked ‹_›)
      · exact inv_modTask ((inv_kilnRead h).of_refused ‹_›)
      · exact inv_modTask ((inv_kilnRead h).of_got ‹_›)
    · exact h
  · exact h

theorem inv_execAFetch {core team token : Nat} (h : Inv s) : InvOut (execAFetch core team token s) :=
  inv_kilnSettle (inv_fetchStep h)

theorem inv_unparkTask {team token : Nat} (h : Inv s) : Inv (unparkTask s team token) := inv_unpark h

theorem inv_taskStart {core : Nat} (h : Inv s) : Inv (taskStart s core) := by
  unfold taskStart
  dsimp only
  split
  · exact inv_endTask (inv_unparkTask h)
  split
  · exact inv_setCore h
  · exact h

theorem inv_execTaskStart {core : Nat} (h : Inv s) : InvOut (execTaskStart core s) := inv_kilnSettle (inv_taskStart h)

theorem inv_taskComplete {core team token : Nat} (h : Inv s) : Inv (taskComplete s core team token) := by
  unfold taskComplete
  dsimp only
  split
  · exact h
  split
  · split
    · exact h
    split
    · exact inv_endTask (inv_setTeam h)
    · exact inv_modCore (inv_endTask h)
  · exact h

theorem inv_execTaskComplete {core team token : Nat} (h : Inv s) : InvOut (execTaskComplete core team token s) :=
  inv_kilnSettle (inv_taskComplete h)

theorem inv_enterNow {e : Env} {len : Len} {cmd : KCmdKind} (h : Inv s) : InvOut (enterNow s e len cmd) := by
  unfold enterNow
  split
  · exact inv_kilnSettle (inv_modCore ((inv_commit h).of_eq ‹_›))
  · exact inv_commit h

theorem inv_execKstore {o : MemOps} (h : Inv s) : InvOut (execKstore o s) :=
  inv_issue h fun _ _ => by
    extract_lets b off len q r
    split
    split
    · exact inv_trap h
    split
    · exact inv_trap h
    split
    · exact inv_modCore ((inv_commit h).of_eq ‹_›)
    · exact inv_commit h

theorem inv_execKfree {o : Ops} (h : Inv s) : InvOut (execKfree o s) :=
  inv_issue h fun _ _ => by
    split
    · exact inv_modCore ((inv_commit h).of_eq ‹_›)
    · exact inv_commit h

theorem inv_execKstat {o : Ops} (h : Inv s) : InvOut (execKstat o s) :=
  inv_issue h fun _ _ => by
    dsimp only
    split <;> exact inv_commit h

theorem inv_cancelLoad {core : Nat} {l : KLoad} (h : Inv s) : Inv (cancelLoad s core l) := by
  unfold cancelLoad
  exact inv_modHandle (inv_modTeam (inv_foldl (inv_modCore (inv_unpark h)) fun _ _ h => inv_endTask (inv_unparkTask h)))

theorem inv_cancelTask {core team token : Nat} (h : Inv s) : Inv (cancelTask s core team token) := by
  unfold cancelTask
  dsimp only
  split
  · exact h
  · exact inv_modHandle (inv_modTeam (inv_endTask (inv_unparkTask h)))

theorem inv_cancelAppend {team token : Nat} (h : Inv s) : Inv (cancelAppend s team token) := by
  unfold cancelAppend
  split
  · split
    · exact inv_modHandle (inv_modTeam h)
    · exact h
  · exact h

theorem inv_cancelHandle {core team token : Nat} {kh : HandleSt} (h : Inv s) : Inv (cancelHandle s core team token kh) := by
  unfold cancelHandle
  split
  · exact h
  split
  · split
    · exact inv_cancelCopy (inv_modHandle h)
    · exact h
  · split
    · exact inv_kilnSettle (inv_cancelLoad h)
    · exact h
  · exact inv_kilnSettle (inv_cancelTask h)
  · exact inv_cancelAppend h
  · exact h

theorem inv_execHcancel {o : Ops} (h : Inv s) : InvOut (execHcancel o s) :=
  inv_issue h fun _ _ => by
    split
    · exact inv_trap h
    split
    · exact inv_cancelHandle ((inv_commit h).of_eq ‹_›)
    · exact inv_commit h

theorem inv_kilnHold {core team : Nat} (h : Inv s) : Inv (kilnHold s core team) := by
  unfold kilnHold
  exact inv_kilnSettle (inv_modCore (inv_unpark h))

theorem inv_kilnDrop {core team : Nat} (h : Inv s) : Inv (kilnDrop s core team) := by
  unfold kilnDrop
  exact inv_modCore (inv_unpark h)

/-! ## Barriers, signals and counters -/

theorem inv_waitHere {e : Env} (h : Inv s) : InvOut (waitHere s e) := inv_setPosy h

theorem inv_stayHere {hold : Bool} {e : Env} (h : Inv s) : InvOut (stayHere hold s e) := by
  unfold stayHere
  split
  · exact inv_waitHere h
  · exact h

theorem inv_releaseThenBy {soft strict hold : Bool} {e : Env} {act : List Nat} {w : Width} {body : State → Env → Out}
    (h : Inv s) (hb : ∀ t e, Inv t → InvOut (body t e)) : InvOut (releaseThenBy soft strict hold s e act w body) := by
  unfold releaseThenBy
  dsimp only
  split
  · split
    · exact hb _ _ (inv_put h)
    · exact inv_stayHere h
  · split
    · exact hb _ _ h
    · exact inv_stayHere (inv_setTeam h)

theorem inv_releaseThen {hold : Bool} {e : Env} {act : List Nat} {w : Width} {body : State → Env → Out} (h : Inv s)
    (hb : ∀ t e, Inv t → InvOut (body t e)) : InvOut (releaseThen hold s e act w body) := inv_releaseThenBy h hb

theorem inv_stepRelease {tid : Nat} {t : Team} {r : Req} (h : Inv s) : Inv (stepRelease s tid t r) := by
  unfold stepRelease
  split
  · exact h
  split
  · exact inv_modReq h
  · exact inv_modReq h
  · exact h

theorem inv_barSet {e : Env} {l b : Nat} {x : Bar} (h : Inv s) : Inv (barSet s e l b x) := by
  unfold barSet
  split
  · exact inv_modCore h
  · exact inv_modVd h

theorem inv_arrivalEff {e : Env} {o : Ops} {act : List Nat} {token : Bool} (h : Inv s) :
    Inv (arrivalEff s e o act token).1 := by
  unfold arrivalEff
  exact inv_barSet h

theorem inv_execBarArrive {o : Ops} (h : Inv s) : InvOut (execBarArrive o s) :=
  inv_issue h fun _ _ => by
    split
    · exact inv_trap h
    split
    · exact inv_commit h
    · exact inv_releaseThen h fun _ _ h => inv_commit (inv_arrivalEff h)

theorem inv_execBarWait {o : Ops} (h : Inv s) : InvOut (execBarWait o s) :=
  inv_issue h fun _ _ => by
    split
    · exact inv_trap h
    split
    · exact inv_waitHere h
    · exact inv_commit h

theorem inv_syncWait {e : Env} {o : Ops} {act : List Nat} (h : Inv s) : InvOut (syncWait s e o act) := by
  unfold syncWait
  split
  · exact inv_waitHere h
  · exact inv_commit h

theorem inv_execBarSync {o : Ops} (h : Inv s) : InvOut (execBarSync o s) :=
  inv_issue h fun _ _ => by
    split
    · exact inv_trap h
    split
    · exact inv_syncWait h
    split
    · exact inv_trap h
    split
    · exact inv_commit h
    · exact inv_releaseThen h fun _ _ h => inv_syncWait (inv_put (inv_arrivalEff h))

theorem inv_execBarQuery {o : Ops} (h : Inv s) : InvOut (execBarQuery o s) :=
  inv_issue h fun _ _ => by
    split
    · exact inv_trap h
    dsimp only
    split <;> exact inv_commit h

theorem inv_execSigadd {o : MemOps} (h : Inv s) : InvOut (execSigadd o s) :=
  inv_issue h fun _ _ => by
    split
    · exact inv_trap h
    split
    · exact inv_commit h
    · exact inv_sendReqs h

theorem inv_sigRead {e : Env} {o : MemOps} {act : List Nat} {addr : Nat} (h : Inv s) : InvOut (sigRead s e o act addr) := by
  unfold sigRead
  exact inv_setPosy (inv_setTeam h)

theorem inv_execSigwait {o : MemOps} (h : Inv s) : InvOut (execSigwait o s) :=
  inv_issue h fun _ _ => by
    split
    · exact inv_trap h
    split
    · exact inv_commit h
    split
    · exact inv_sigRead h
    split
    · exact inv_sigRead h
    split
    · exact inv_waitHere h
    extract_lets v e1
    split
    · exact inv_commit h
    split
    · exact inv_sigRead h
    · exact inv_waitHere h

theorem inv_execCtwait {o : MemOps} (h : Inv s) : InvOut (execCtwait o s) :=
  inv_issue h fun _ _ => by
    split
    · exact inv_trap h
    split
    · exact inv_commit h
    split
    · exact inv_waitHere h
    split
    · exact inv_commit h
    split
    · exact inv_commit h
    · exact inv_waitHere h

theorem inv_execTwait {o : Ops} (h : Inv s) : InvOut (execTwait o s) :=
  inv_issue h fun _ _ => by
    dsimp only
    split
    · exact inv_commit h
    · exact inv_setPosy h

theorem inv_execTwaitExpiry {core slot : Nat} (h : Inv s) : InvOut (execTwaitExpiry core slot s) := by
  unfold execTwaitExpiry
  split
  · split
    · split
      · exact inv_setPosy h
      · exact h
    · exact h
  · exact h

theorem inv_execFlagr {o : Ops} (h : Inv s) : InvOut (execFlagr o s) :=
  inv_issue h fun _ _ => by
    split <;> exact inv_commit h

theorem inv_execFlagc {o : Ops} (h : Inv s) : InvOut (execFlagc o s) :=
  inv_issue h fun _ _ => by
    split <;> exact inv_commit h

theorem inv_execFlaga {o : Ops} (h : Inv s) : InvOut (execFlaga o s) :=
  inv_issue h fun _ _ => by
    split <;> exact inv_commit h

/-! ## The queue engine, placement and the end of teams -/

theorem inv_nextFresh (h : Inv s) : Inv s.nextFresh := inv_of_held h rfl

theorem inv_qStore {part vd : Nat} {l : Leaf} {va : Nat} {bs : List Byte} (h : Inv s) :
    InvSome (qStore s part vd l va bs) := by
  unfold qStore
  dsimp only
  split
  · exact h
  split
  · exact inv_devStore h
  · exact h
  · exact h
  split
  · trivial
  refine Every.map (P := Inv) ?_ fun _ h => inv_sysWrite h
  split
  · exact inv_recallFor h
  · exact h

theorem inv_qWrite {part vd va : Nat} {bs : List Byte} (h : Inv s) : InvSome (qWrite s part vd va bs) :=
  every_foldlM h fun _ _ h => by
    split
    · trivial
    · exact inv_qStore h

theorem inv_qSignal {part vd va : Nat} {f : Nat → Nat} (h : Inv s) : InvSome (qSignal s part vd va f) := by
  unfold qSignal
  split
  · trivial
  extract_lets pa
  split
  case h_1 | h_2 =>
    split
    · exact h
    split
    · trivial
    · exact (inv_recallFor h).map fun _ h => inv_ite h (inv_sysWrite64 h)
  · exact h

theorem inv_postError {part vd csig code : Nat} (h : Inv s) : InvSome (postError s part vd csig code) := by
  unfold postError
  split
  · exact h
  · exact inv_qSignal h

theorem inv_freeHeader {part vd va : Nat} (h : Inv s) : InvSome (freeHeader s part vd va) := by
  unfold freeHeader
  split
  · exact h
  · exact inv_qWrite h

theorem inv_postOne {x : Queue} {x2 : Post} (h : Inv s) : InvSome (postOne s x x2) := by
  unfold postOne
  split
  · exact inv_qWrite h
  · split
    · exact inv_postError h
    · trivial
  · exact inv_freeHeader h
  split
  · exact h
  split
  · exact every_bind fun _ => inv_postError h
  · trivial

theorem inv_postAll {x : Queue} {ps : List Post} (h : Inv s) : Inv (postAll x ps s).1 := by
  induction ps generalizing s with
  | nil => exact h
  | cons p ps ih =>
    unfold postAll
    split
    · exact ih ((inv_postOne h).of_eq ‹_›)
    · split
      · exact h
      · exact ih h

theorem inv_owe {q : Nat} {ps : List Post} (h : Inv s) : Inv (owe s q ps) := by
  unfold owe
  dsimp only
  split
  · exact inv_postAll h
  · exact inv_modQueue (inv_postAll h)

theorem inv_clearEnable {q : Nat} (h : Inv s) : Inv (clearEnable s q) := by
  unfold clearEnable
  exact inv_sysWrite (inv_modQueue h)

theorem inv_queueError {q : Nat} (h : Inv s) : Inv (queueError s q) := by
  unfold queueError
  exact inv_of_held (inv_clearEnable h) rfl

theorem inv_postTrap {q : Nat} (h : Inv s) : Inv (postTrap s q) := by
  unfold postTrap
  dsimp only
  split
  · exact h
  split
  · exact h
  split
  · split
    · exact h
    split
    · exact h
    next s1 h1 =>
      have hs1 := (inv_qWrite h).of_eq h1
      split
      · exact hs1
      split
      next s2 h2 => exact inv_nextFresh (inv_of_held ((inv_qWrite hs1).of_eq h2) rfl)
      · exact h
  · exact h

theorem inv_takeTail {q t : Nat} (h : Inv s) : Inv (takeTail s q t) := by
  unfold takeTail
  dsimp only
  split
  · exact inv_queueError h
  · exact inv_modQueue h

theorem inv_tailRead {q : Nat} (h : Inv s) : Inv (tailRead s q) := by
  unfold tailRead
  dsimp only
  split
  · exact h
  split
  · exact h
  · exact h
  · exact inv_nextFresh (inv_takeTail (inv_modQueue h))

theorem inv_unmapGranules {core team : Nat} (h : Inv s) : Inv (unmapGranules s core team) := inv_modCore h

theorem inv_placePosies {team core win : Nat} {r : LRec} {js : List Nat} (h : Inv s) :
    InvSome (placePosies team core win r js s) := by
  induction js generalizing s with
  | nil => exact h
  | cons j t ih =>
    unfold placePosies
    split
    · exact ih (inv_of_held h rfl)
    · trivial

theorem inv_placeTeam {lid : Nat} {l : Launch} {place core : Nat} (h : Inv s) : InvSome (placeTeam s lid l place core) := by
  unfold placeTeam
  dsimp only
  split
  · trivial
  split
  · refine Every.bind (P := Inv) (inv_placePosies ?_) fun _ h => ?_
    · exact inv_modCore (inv_modCore (inv_of_held h rfl))
    · split
      · exact inv_setLaunch h
      · trivial
  · trivial

/-- The best of some candidates is one of them. -/
theorem every_best {xs : List (Nat × State)} {b : Option (Nat × State)} (hx : ∀ x ∈ xs, Inv x.2)
    (hb : Every (fun x => Inv x.2) b) :
    Every (fun x => Inv x.2) (xs.foldl (fun (best : Option (Nat × State)) x => match best with
      | some b => if b.1 < x.1 then some x else best
      | none => some x) b) := by
  induction xs generalizing b with
  | nil => exact hb
  | cons x xs ih =>
    have hx0 : Inv x.2 := hx x (by simp)
    refine ih (fun y hy => hx y (by simp [hy])) ?_
    dsimp only
    split
    · split
      · exact hx0
      · exact hb
    · exact hx0

theorem inv_placeOne {lid : Nat} {l : Launch} {may : Nat → Bool} (h : Inv s) : InvSome (placeOne s lid l may) := by
  unfold placeOne
  split
  · trivial
  refine Every.map (every_best (fun y hy => ?_) trivial) fun _ hx => hx
  obtain ⟨x, -, hxy⟩ := List.mem_filterMap.mp hy
  split at hxy
  · obtain ⟨t, ht, rfl⟩ := Option.map_eq_some_iff.mp hxy
    exact (inv_placeTeam h).of_eq ht
  · cases hxy

theorem inv_placeMany {lid : Nat} {may : Nat → Bool} {n : Nat} (h : Inv s) : InvSome (placeMany lid may n s) := by
  induction n generalizing s with
  | zero => exact h
  | succ n ih =>
    unfold placeMany
    split
    · exact (inv_placeOne h).bind fun _ ht => ih ht
    · trivial

theorem inv_placeNow {lid : Nat} {l : Launch} (h : Inv s) : InvSome (placeNow s lid l) := by
  unfold placeNow
  split
  · exact inv_placeOne h
  · exact every_findSome fun _ => inv_placeMany h

theorem inv_parkQueue {q : Nat} {x : Queue} {r : Option LRec} {f : Fail} {va n : Nat} (h : Inv s) :
    Inv (parkQueue s q x r f va n) := by
  unfold parkQueue
  exact inv_modQueue (inv_parkAs (inv_countWalk h))

theorem inv_readHead {q : Nat} (h : Inv s) : Inv (readHead s q) := by
  unfold readHead
  dsimp only
  split
  · exact h
  split
  · exact h
  · exact inv_parkQueue h
  split
  · exact inv_nextFresh (inv_modQueue h)
  split
  · exact h
  · exact inv_parkQueue h
  · exact inv_nextFresh (inv_modQueue h)

theorem inv_abortedHead {q : Nat} {known : Option LRec} (h : Inv s) : Inv (abortedHead s q known) := by
  unfold abortedHead
  dsimp only
  split
  · exact inv_modQueue h
  split
  · exact h
  · exact inv_modQueue h
  · exact inv_modQueue h

theorem inv_capture {q lid : Nat} {r : LRec} (h : Inv s) : InvSome (capture s q lid r) := by
  unfold capture
  dsimp only
  split
  · exact h
  split
  · exact inv_modQueue h
  · exact every_bind fun _ => (inv_qWrite h).map fun _ h => inv_modQueue h

theorem inv_lidWrite {x : Queue} {lid : Nat} {failed : Bool} (h : Inv s) : InvSome (lidWrite s x lid failed) := by
  unfold lidWrite
  split
  · exact h
  · exact inv_qWrite h

theorem inv_dispatchEnd {q : Nat} {r : LRec} {kh : Option KHdr} {code lid : Nat} {lines : List Nat} (h : Inv s) :
    Inv (dispatchEnd s q r kh code lid lines) := by
  unfold dispatchEnd
  dsimp only
  split
  · exact h
  split
  · exact h
  split
  · exact inv_setLaunch (inv_modQueue ((inv_qWrite h).of_eq ‹_›))
  · exact inv_owe (inv_modQueue ((inv_qWrite h).of_eq ‹_›))

theorem inv_dispatchHead {q : Nat} {r : LRec} {kh : Option KHdr} {code : Nat} (h : Inv s) :
    Inv (dispatchHead s q r kh code) := by
  unfold dispatchHead
  dsimp only
  split
  · exact h
  next s2 hs =>
    have h2 := Every.of_eq (Every.bind (P := Inv) (inv_lidWrite h) fun _ h => inv_capture h) hs
    exact inv_dispatchEnd (inv_of_held h2 rfl)

theorem inv_dispatchNext {q : Nat} (h : Inv s) : Inv (dispatchNext s q) := by
  unfold dispatchNext
  dsimp only
  split
  · exact h
  split
  · exact inv_readHead h
  · exact inv_abortedHead h
  · exact h
  · exact inv_dispatchHead h
  · exact inv_dispatchEnd h
  split
  · exact h
  · exact inv_dispatchHead h

theorem inv_dependencyRead {q : Nat} (h : Inv s) : Inv (dependencyRead s q) := by
  unfold dependencyRead
  dsimp only
  split
  · split
    · exact h
    split
    · exact h
    · split
      · exact h
      · exact inv_modQueue h
    · exact inv_nextFresh (inv_modQueue h)
  · exact h

theorem inv_placement {lid : Nat} (h : Inv s) : Inv (placement s lid) := by
  unfold placement
  split
  · exact h
  split
  · exact h
  split
  next s1 hs =>
    have h1 := (inv_placeNow h).of_eq hs
    split
    · split
      · exact h1
      · exact inv_of_held h1 rfl
    · exact h1
  · exact inv_foldl (inv_of_held h rfl) fun _ _ h => inv_modCore h

theorem inv_recallL1 {core : Nat} (h : Inv s) : Inv (recallL1 s core) := inv_foldl h fun _ _ h => inv_recallHolder h

theorem inv_flushL1 {core : Nat} (h : Inv s) : Inv (flushL1 s core) := by
  unfold flushL1
  exact inv_foldl (inv_foldl h fun _ _ h => inv_writeBack h) fun _ _ h => inv_drainHolder h

theorem inv_splitChange {core : Nat} (h : Inv s) : Inv (splitChange s core) := by
  unfold splitChange
  dsimp only
  split
  · split
    · exact inv_setCore h
    · exact h
  split
  · exact h
  split
  · exact inv_setCore h
  split
  · exact h
  split
  · exact inv_flushL1 (inv_setCore h)
  · exact inv_modCore (inv_dropL1 (inv_recallL1 h))

theorem inv_execTimedStart {lid : Nat} (h : Inv s) : InvOut (execTimedStart lid s) := by
  unfold execTimedStart
  split
  · split
    · exact inv_setLaunch h
    · exact h
  · exact h

theorem inv_setPlace {part vd p : Nat} {e : Place} (h : Inv s) : Inv (setPlace s part vd p e) := by
  unfold setPlace
  split
  · exact inv_sysWrite64 (inv_setVd h)
  · exact h

theorem inv_applyPend {part vd : Nat} (h : Inv s) : Inv (applyPend s part vd) := by
  unfold applyPend
  split
  · exact h
  · exact inv_foldl h fun _ _ h => by
      dsimp only
      split
      · split
        · exact h
        · exact inv_setPlace h
      · exact h

theorem inv_removeTeam {id : Nat} {t : Team} (h : Inv s) : Inv (removeTeam s id t) := by
  unfold removeTeam
  refine inv_applyPend ?_
  split
  · exact inv_setTeam (inv_modCore (inv_foldl (inv_unmapGranules (inv_kilnDrop h)) fun _ _ h => inv_setPosy h))
  · exact inv_owe (inv_setTeam (inv_modCore (inv_foldl (inv_unmapGranules (inv_kilnDrop h)) fun _ _ h => inv_setPosy h)))

theorem inv_teamRetire {id : Nat} (h : Inv s) : Inv (teamRetire s id) := by
  unfold teamRetire
  split
  · exact h
  split
  · exact h
  extract_lets snap s0 s1 last
  have h1 : Inv s1 := inv_modLaunch (inv_modCore (inv_removeTeam h))
  exact inv_ite (inv_modQueue h1) h1

theorem inv_launchComplete {lid : Nat} (h : Inv s) : Inv (launchComplete s lid) := by
  unfold launchComplete
  split
  · exact h
  split
  · exact h
  dsimp only
  split
  · exact inv_modQueue (inv_setLaunch h)
  split
  · exact inv_modQueue (inv_setLaunch ((inv_qSignal h).of_eq ‹_›))
  · exact h

theorem inv_stopWaiting {lid : Nat} (h : Inv s) : Inv (stopWaiting s lid) := inv_of_held h rfl

theorem inv_stopLaunch {lid : Nat} (h : Inv s) : Inv (stopLaunch s lid) := by
  unfold stopLaunch
  exact inv_stopWaiting (inv_setLaunch (inv_foldl (inv_purgeLaunch h) fun _ _ h => inv_removeTeam h))

theorem inv_purgeEntry {d : Nat} {e : Entry} (h : Inv s) : Inv (purgeEntry s d e) := by
  unfold purgeEntry
  dsimp only
  split
  · exact inv_modTeam (inv_freeEntry h)
  · exact inv_ownerDiscard (inv_freeEntry h)
  · exact inv_freeEntry h

theorem inv_purgeTeams {die lid : Nat} (h : Inv s) : Inv (purgeTeams s die lid) := by
  unfold purgeTeams
  exact inv_foldl (inv_foldl h fun _ _ h => inv_ownerDiscard h) fun _ _ h => by
    split
    · exact inv_removeTeam h
    · exact h

theorem inv_execPurge {die : Nat} (h : Inv s) : InvOut (execPurge die s) := by
  unfold execPurge
  split
  · split
    · exact h
    split
    · exact inv_purgeTeams ((inv_runCmd h fun _ _ h => inv_purgeEntry h).of_eq ‹_›)
    · exact inv_runCmd h fun _ _ h => inv_purgeEntry h
  · exact h

theorem inv_watchdogExpiry {q : Nat} (h : Inv s) : Inv (watchdogExpiry s q) := by
  unfold watchdogExpiry
  extract_lets x ls s1 read tail s2 stopped s3 ns
  have h2 : Inv s2 := inv_modQueue (inv_detach (inv_foldl h fun _ _ h => inv_stopLaunch h))
  split
  · exact h
  split
  · exact inv_owe (inv_queueError h2)
  · exact inv_owe (inv_modQueue h2)

theorem inv_execLaunch {o : LaunchOps} (h : Inv s) : InvOut (execLaunch o s) :=
  inv_issue h fun _ _ => by
    dsimp only
    split
    · exact inv_trap h
    split
    · exact inv_trap h
    · exact inv_releaseThenBy h fun _ _ h => by
        split <;> exact inv_commit h

theorem inv_appendEnd {tid : Nat} {t : Team} {r : Req} {tok : Nat} (h : Inv s) : Inv (appendEnd s tid t r tok) := by
  unfold appendEnd
  split
  · exact h
  · exact inv_modHandle (inv_dropReq h)

theorem inv_appendRecord {tid : Nat} {t : Team} {r : Req} {tok : Nat} (h : Inv s) : Inv (appendRecord s tid t r tok) := by
  unfold appendRecord
  dsimp only
  split
  · exact inv_modHandle (inv_dropReq h)
  split
  · exact h
  · exact h
  split
  · exact inv_modHandle (inv_dropReq h)
  split
  · exact h
  split
  · exact (inv_qWrite h).of_eq ‹_›
  split
  · exact inv_appendEnd (inv_modReq (inv_nextFresh ((inv_qWrite ((inv_qWrite h).of_eq ‹_›)).of_eq ‹_›)))
  · exact h

theorem inv_sendCall {e : Env} {o : Ops} {act : List Nat} {token seq : Nat} (h : Inv s) :
    InvSome (sendCall s e o act token seq) := by
  unfold sendCall
  split
  · trivial
  dsimp only
  split
  · trivial
  split
  · trivial
  · exact (inv_qWrite h).map fun _ h => inv_of_held (inv_modVd h) rfl

theorem inv_execSysc {o : Ops} (h : Inv s) : InvOut (execSysc o s) :=
  inv_issue h fun _ _ => by
    split
    · exact inv_commit h
    split
    · exact inv_commit h
    · exact inv_releaseThen h fun _ _ h => by
        split
        · split
          · exact inv_waitHere h
          · exact inv_put ((inv_sendCall h).of_eq ‹_›)
        split
        · exact h
        · exact inv_commit ((inv_sendCall h).of_eq ‹_›)

/-! ## Saves and handlers -/

theorem inv_execSavek {o : MemOps} (h : Inv s) : InvOut (execSavek o s) :=
  inv_issue h fun _ _ => by
    split
    · exact inv_trap h
    dsimp only
    split
    · exact h
    · exact inv_sendReqs h

theorem inv_execRestk {o : MemOps} (h : Inv s) : InvOut (execRestk o s) :=
  inv_issue h fun _ _ => by
    split
    · exact inv_trap h
    split
    · split
      · exact h
      · exact inv_sendReqs h

theorem inv_execRddiv {o : MemOps} (h : Inv s) : InvOut (execRddiv o s) :=
  inv_issue h fun _ _ => by
    split
    · exact inv_trap h
    · exact inv_sendReqs h

theorem inv_wrdivRead {e : Env} {o : MemOps} {act : List Nat} {a : Nat} (h : Inv s) : InvOut (wrdivRead s e o act a) := by
  unfold wrdivRead
  exact inv_setPosy (inv_setTeam h)

theorem inv_execWrdiv {o : MemOps} (h : Inv s) : InvOut (execWrdiv o s) :=
  inv_issue h fun _ _ => by
    split
    · exact inv_trap h
    split
    · exact inv_trap h
    dsimp only
    split
    · exact inv_wrdivRead h
    split
    · exact inv_waitHere h
    split
    · exact inv_trap h
    split
    · exact inv_ctxWrite h
    · exact inv_commit (inv_modCore (inv_modCore (inv_ctxWrite h)))

theorem inv_endSave {team : Nat} {forced : Bool} {was : BitVec 6} (h : Inv s) : Inv (endSave s team forced was) := by
  unfold endSave
  split
  · exact h
  · exact inv_modCore (inv_unmapGranules (inv_kilnDrop (inv_of_held h rfl)))

theorem inv_leaveSlot {e : Env} {off : Nat} (h : Inv s) : Inv (leaveSlot s e off) := by
  unfold leaveSlot
  exact inv_withSpawn (inv_modTeam (inv_modTeam (inv_setPosy (inv_detach (inv_foldl h fun _ _ h => by
    split
    · split
      · exact inv_setEntry h
      · exact h
    · exact h)))))

theorem inv_trigger {team : Nat} {prio : Bool} (h : Inv s) : Inv (trigger s team prio) := by
  unfold trigger
  split
  · exact h
  split
  · exact h
  · exact inv_setTeam h

theorem inv_holderToRecord {e : Env} (h : Inv s) : Inv (holderToRecord s e) := by
  unfold holderToRecord
  exact inv_withSpawn (inv_freePosy (inv_addRec (inv_modTeam h)))

theorem inv_handlerEntry {core slot : Nat} (h : Inv s) : Inv (handlerEntry s core slot) := by
  unfold handlerEntry
  split
  · exact h
  dsimp only
  split
  · split
    · exact h
    split
    · exact h
    split
    · exact inv_ctxWrite h
    split
    · exact inv_kilnHold (inv_holderToRecord (inv_ctxWrite h))
    · exact inv_kilnHold (inv_modTeam (inv_setPosy (inv_detach (inv_ctxWrite h))))
  · exact h

theorem inv_tretSave {e : Env} (h : Inv s) : InvOut (tretSave s e) := by
  unfold tretSave
  split
  · exact inv_waitHere h
  extract_lets last as x
  have hx : Inv x.1 := inv_ctxWrite h
  split
  · exact inv_waitHere h
  split
  · exact hx
  split
  · exact hx
  · exact inv_ite (inv_endSave (inv_leaveSlot hx)) (inv_leaveSlot hx)

theorem inv_tretRestore {e : Env} (h : Inv s) : InvOut (tretRestore s e) := by
  unfold tretRestore
  split
  · exact h
  · exact inv_setPosy h

theorem inv_execTret {o : Ops} (h : Inv s) : InvOut (execTret o s) :=
  inv_issue h fun _ _ => by
    split
    · exact inv_tretRestore h
    · exact inv_releaseThenBy h fun _ _ h => inv_tretSave h

theorem inv_forcedSave {team : Nat} (h : Inv s) : Inv (forcedSave s team) := by
  unfold forcedSave
  split
  · exact h
  split
  · exact h
  split
  · dsimp only
    split
    · exact inv_kilnHold (inv_ctxWrite h)
    · exact inv_ctxWrite h
  dsimp only
  split
  · split
    · exact h
    · exact inv_holderToRecord h
  split
  · exact h
  split
  · exact inv_ctxWrite h
  · exact inv_endSave (inv_foldl (inv_ctxWrite h) fun _ _ h => by
      split
      · exact inv_leaveSlot h
      · exact h)

/-! ## Pre-emption, switches and restores -/

theorem inv_triggerWhole {team : Nat} {t : Team} (h : Inv s) : Inv (triggerWhole s team t) := by
  unfold triggerWhole
  extract_lets whole
  exact inv_ite (inv_foldl h fun _ _ h => inv_trigger h) (inv_trigger h)

theorem inv_priorityPreempt {lid : Nat} (h : Inv s) : Inv (priorityPreempt s lid) := by
  unfold priorityPreempt
  split
  · exact h
  split
  · exact h
  · exact inv_foldl h fun _ _ h => inv_triggerWhole h

theorem inv_sliceEnd {core : Nat} (h : Inv s) : Inv (sliceEnd s core) := by
  unfold sliceEnd
  dsimp only
  split
  · exact h
  split
  · split
    · exact inv_setCore h
    · exact h
  split
  · exact h
  split
  · exact inv_foldl (inv_setCore h) fun _ _ h => inv_trigger h
  · exact inv_setCore h

theorem inv_hdrBlocked {core part vd : Nat} {write : Bool} {va n : Nat} (h : Inv s) :
    InvSome (hdrBlocked s core part vd write va n) := by
  unfold hdrBlocked
  extract_lets d ps
  split
  · exact h
  · exact every_map fun _ => by
      split
      · exact h
      extract_lets y
      have hy : Inv y.1 := inv_parkAs (inv_countWalk h)
      exact inv_ite hy (inv_modCore hy)

theorem inv_hdrDone {core part : Nat} {write : Bool} (h : Inv s) : Inv (hdrDone s core part write) := by
  unfold hdrDone
  exact inv_modCore (inv_foldl h fun _ _ h => inv_freeEntry h)

theorem inv_putCoreHeader {core part vd : Nat} {v : Vd} {p : Nat} (h : Inv s) :
    Inv (putCoreHeader s core part vd v p).1 := by
  unfold putCoreHeader
  dsimp only
  split
  · exact inv_ctxWrite h
  split
  · exact (inv_hdrBlocked h).of_eq ‹_›
  split
  · exact inv_hdrDone ((every_foldlM h fun _ _ h => inv_qWrite h).of_eq ‹_›)
  · exact h

theorem inv_switchOut {core : Nat} (h : Inv s) : Inv (switchOut s core).1 := by
  unfold switchOut
  dsimp only
  split
  · exact h
  split
  · exact h
  split
  · exact inv_modVd h
  split
  · exact inv_modVd (inv_putCoreHeader h)
  · exact inv_putCoreHeader h

theorem inv_barsIn {core part vd : Nat} {v : Vd} (h : Inv s) : Inv (barsIn s core part vd v).1 := by
  unfold barsIn
  split
  · exact h
  split
  · exact h
  split
  · exact inv_ctxRead h
  dsimp only
  split
  · exact (inv_hdrBlocked h).of_eq ‹_›
  split
  · exact h
  · exact inv_hdrDone (inv_nextFresh h)

theorem inv_giveGranules {team : Nat} {t : Team} (h : Inv s) : Inv (giveGranules s team t) := by
  unfold giveGranules
  split
  · exact h
  split
  · exact h
  · exact inv_modCore h

theorem inv_sliceGranules {core part vd : Nat} (h : Inv s) : Inv (sliceGranules s core part vd) :=
  inv_foldl h fun _ _ h => inv_giveGranules h

theorem inv_vdSwitch {core : Nat} (h : Inv s) : Inv (vdSwitch s core) := by
  unfold vdSwitch
  split
  · exact h
  split
  · exact h
  split
  · exact inv_modCore h
  split
  · exact inv_flushL1 h
  dsimp only
  split
  · exact inv_barsIn h
  split
  · exact inv_switchOut (inv_barsIn h)
  · refine inv_sliceGranules (inv_modCore ?_)
    split
    · exact inv_recallL1 (inv_switchOut (inv_barsIn h))
    · exact inv_dropL1 (inv_recallL1 (inv_switchOut (inv_barsIn h)))

theorem inv_placeImages {team core win : Nat} {ms : List Image} (h : Inv s) : InvSome (placeImages team core win ms s) := by
  induction ms generalizing s with
  | nil => exact h
  | cons m t ih =>
    unfold placeImages
    split
    · exact ih (inv_seat h)
    · trivial

theorem inv_fitSaved {team : Nat} (h : Inv s) : InvSome (fitSaved s team) := by
  unfold fitSaved
  split
  · trivial
  split
  · exact inv_placeImages (inv_setTeam (inv_giveGranules h))
  · trivial

theorem inv_installTeam {team : Nat} {xs : List ImageIn} {kh : List Byte} {scr : List (List Byte)}
    {tiles : List (Nat × List Byte)} {resth : Nat} (h : Inv s) : Inv (installTeam s team xs kh scr tiles resth) := by
  unfold installTeam
  split
  · exact h
  next s1 hs =>
    have h1 := (inv_fitSaved h).of_eq hs
    split
    · exact h
    dsimp only
    refine inv_setFresh (inv_modCore (inv_modCore (inv_setTeam (inv_foldl h1 fun _ _ h => ?_))))
    split
    · exact inv_setPosy h
    · exact h

theorem inv_restoreRead {team : Nat} {t : Team} (h : Inv s) : Inv (restoreRead s team t) := by
  unfold restoreRead
  extract_lets resth n g r1
  have h1 : Inv r1.1 := inv_ctxRead h
  split
  · exact h1
  extract_lets kh xs whole ts r2 w
  have h2 : Inv r2.1 := inv_ctxRead h1
  split
  · exact h2
  extract_lets f
  have hw : Inv w.1 := inv_ctxWrite h2
  exact inv_ite (inv_installTeam hw) hw

theorem inv_restoreTeam {team : Nat} (h : Inv s) : Inv (restoreTeam s team) := by
  unfold restoreTeam
  split
  · exact h
  split
  · exact h
  split
  · split
    · exact h
    split
    · exact inv_flushL1 h
    · exact inv_modCore (inv_dropL1 (inv_recallL1 h))
  split
  · exact h
  · exact inv_restoreRead h

theorem inv_kilnResume {team : Nat} {t : Team} (h : Inv s) : Inv (kilnResume s team t) := by
  unfold kilnResume
  exact inv_modTeam (inv_setCore h)

theorem inv_restoreEnd {team : Nat} (h : Inv s) : Inv (restoreEnd s team) := by
  unfold restoreEnd
  split
  · exact h
  split
  · exact h
  dsimp only
  split
  · exact inv_ctxWrite h
  · exact inv_modTeam (inv_kilnResume (inv_of_held (inv_foldl (inv_ctxWrite h) fun _ _ h => inv_modPosy h) rfl))

theorem inv_landImage {team off : Nat} {l : LoadOp} {keep : Nat → Bool} (h : Inv s) :
    Inv (landImage s team off l keep).1 := by
  unfold landImage
  dsimp only
  split
  · exact h
  · exact inv_ctxRead h

theorem inv_retaggedCompletion {team idx : Nat} (h : Inv s) : Inv (retaggedCompletion s team idx) := by
  unfold retaggedCompletion
  split
  · exact h
  split
  · exact h
  extract_lets rest s1 fin_ load whole keep
  have h1 : Inv s1 := by
    unfold s1
    split
    · exact inv_landReply h fun _ _ h => h
    · exact h
  have hf : ∀ t, Inv t → Inv (fin_ t) := fun _ h => inv_modTeam h
  split
  · exact h
  split
  · exact hf _ h1
  extract_lets counts write
  have hw : ∀ t w fin, Inv t → (∀ t, Inv t → Inv (fin t)) → Inv (write t w fin) :=
    fun _ _ _ h1 hg => inv_ite (hf _ (hg _ (inv_ctxWrite h1))) (inv_ctxWrite h)
  clear_value load write
  split
  · exact hw _ _ _ h1 fun _ h => h
  split
  · exact hw _ _ _ h1 fun _ h => inv_ite (inv_finishLoad h) h
  split
  · exact h
  extract_lets x
  have hx : Inv x.1 := inv_landImage h1
  split
  · exact inv_landImage h
  · exact hw _ _ _ hx fun _ h => inv_ite h (inv_modTeam h)

/-! ## What leaves and what comes back -/

theorem inv_leaveEngine {team : Nat} {t : Team} {r : Req} (h : Inv s) : Inv (leaveEngine s team t r) := by
  unfold leaveEngine
  split
  · exact h
  split
  · exact inv_modCopy (inv_dropReq h)
  · exact inv_appendRecord h
  · refine inv_kilnSettle ?_
    split
    · exact inv_dropReq (inv_modCore h)
    · exact inv_modCore h
  · refine inv_kilnSettle ?_
    split
    · exact inv_dropReq (inv_modCore h)
    · exact inv_modCore h
  · exact h

theorem inv_leave {team : Nat} {t : Team} {r : Req} (h : Inv s) : Inv (leave s team t r) := by
  unfold leave
  split
  · exact h
  split
  · exact inv_attempt h
  · exact inv_attempt h
  · exact inv_attempt h
  · exact inv_attempt h
  · exact inv_attempt h
  · exact inv_stepFence h
  · exact inv_stepRelease h
  · exact inv_stepRegion h
  · exact inv_stepRegion h
  · exact inv_stepRegion h
  · exact inv_leaveEngine h

theorem inv_landOne {team : Nat} {t : Team} {r : Req} (h : Inv s) : Inv (landOne s team t r) := by
  unfold landOne
  dsimp only
  split
  · exact inv_landReply h fun _ _ h => inv_finishLoad h
  split
  · exact inv_landReply h fun _ _ h => h
  split
  · exact h
  split
  · exact inv_finishLoad (inv_ctxWrite (inv_landImage (inv_landReply h fun _ _ h => h)))
  · exact inv_ctxWrite h

theorem inv_reply {team : Nat} {t : Team} {r : Req} (h : Inv s) : Inv (reply s team t r) := by
  unfold reply
  split
  · exact h
  split
  · exact inv_dropReq h
  split
  · exact inv_dropReq h
  split
  · split
    · exact inv_appendEnd h
    · exact h
  split
  · exact h
  · exact h
  · split
    · exact inv_dropReq (inv_flagTeam h)
    split
    · exact h
    · exact inv_modReq (inv_flagTeam h)
  · exact inv_landOne h

/-! ## Commands, page moves and calls -/

theorem inv_endTable {code : Nat} (h : Inv s) : Inv (endTable s code) := inv_of_held h rfl

theorem inv_tableCmd {op : Nat} {body : State → Nat → Nat → State} (h : Inv s) (hb : ∀ a0 a1, Inv (body s a0 a1)) :
    InvOut (tableCmd s op body) := by
  unfold tableCmd
  split
  · exact hb _ _
  · exact h

theorem inv_tinv {a0 a1 : Nat} (h : Inv s) : Inv (tinv s a0 a1) := by
  unfold tinv
  dsimp only
  split
  · exact inv_endTable h
  · exact inv_endTable (inv_dropTlbs h)

theorem inv_execTinv (h : Inv s) : InvOut (execTinv s) := by
  unfold execTinv
  split
  · exact h
  · exact inv_tableCmd h fun _ _ => inv_tinv h

theorem inv_placeset {a0 a1 : Nat} (h : Inv s) : Inv (placeset s a0 a1) := by
  unfold placeset
  dsimp only
  split
  · exact inv_endTable h
  split
  · exact inv_endTable h
  split
  · exact inv_endTable h
  · exact inv_endTable (inv_setPlace h)

theorem inv_qenable {x1 a1 : Nat} (h : Inv s) : Inv (qenable s x1 a1) := by
  unfold qenable
  dsimp only
  split
  · exact inv_endTable h
  split
  · exact inv_endTable h
  split
  · exact inv_endTable h
  split
  · exact h
  split
  · exact inv_endTable (inv_takeTail (inv_of_held (inv_sysWrite (inv_setQueue (inv_nextFresh h))) rfl))
  · exact h
  · exact h
  · exact inv_endTable h

theorem inv_qdisable {x1 a1 : Nat} (h : Inv s) : Inv (qdisable s x1 a1) := by
  unfold qdisable
  dsimp only
  split
  · exact inv_endTable h
  · exact inv_endTable (inv_clearEnable (inv_modQueue (inv_detach h)))

theorem inv_vdcreate {a0 x2 : Nat} (h : Inv s) : Inv (vdcreate s a0 x2) := by
  unfold vdcreate
  dsimp only
  split
  · exact inv_endTable h
  split
  · exact inv_endTable h
  split
  · exact inv_endTable h
  · exact inv_endTable (inv_sysWrite (inv_setVd h))

theorem inv_vddestroy {a0 x2 : Nat} (h : Inv s) : Inv (vddestroy s a0 x2) := by
  unfold vddestroy
  dsimp only
  split
  · exact inv_endTable h
  · exact inv_endTable (inv_sysWrite (inv_of_held h rfl))

theorem inv_resumeHere {id : Nat} {t : Team} {arg : BitVec 64} (h : Inv s) : Inv (resumeHere s id t arg) := by
  unfold resumeHere
  exact inv_of_held (inv_modTeam (inv_foldl h fun _ _ h => by
    dsimp only
    split <;> exact inv_setPosy h)) rfl

theorem inv_resumeSaved {id : Nat} {t : Team} {arg : BitVec 64} (h : Inv s) : Inv (resumeSaved s id t arg).1 := by
  unfold resumeSaved
  dsimp only
  split
  · exact inv_modTeam h
  split
  · exact inv_ctxRead h
  split
  · exact inv_modTeam (inv_ctxWrite (inv_ctxRead h))
  · exact inv_ctxWrite (inv_ctxRead h)

theorem inv_execTresume (h : Inv s) : InvOut (execTresume s) := by
  unfold execTresume
  split
  · exact h
  dsimp only
  split
  · exact inv_of_held h rfl
  split
  · exact inv_of_held h rfl
  split
  · exact h
  split
  · exact inv_of_held (inv_resumeHere h) rfl
  split
  · exact inv_of_held (inv_resumeSaved h) rfl
  · exact inv_resumeSaved h

theorem inv_endTrapCmd {code : Nat} (h : Inv s) : Inv (endTrapCmd s code) := inv_of_held h rfl

theorem inv_execLkill (h : Inv s) : InvOut (execLkill s) := by
  unfold execLkill
  split
  · exact h
  dsimp only
  split
  · exact inv_endTrapCmd h
  · exact inv_endTrapCmd (inv_owe (inv_stopLaunch h))

theorem inv_recallPage {lo n : Nat} (h : Inv s) : Inv (recallPage s lo n).1 := by
  unfold recallPage
  dsimp only
  split
  · exact inv_foldl h fun _ _ h => inv_writeBack h
  · exact inv_of_held (inv_foldl (inv_staleSigs h) fun _ _ h => inv_dropReplica h) rfl

/-- A page that moves takes its bytes and its marks along (R378). -/
theorem inv_copyPage {d src dst n : Nat} (h : Inv s) : Inv (copyPage s d src dst n) := by
  have h0 : Inv (if moveReaches s d src then s else countRefused s d src) := inv_ite h (inv_countRefused h)
  unfold copyPage
  dsimp only
  split
  · exact inv_countRefused h0
  · refine inv_foldl (inv_noteMerge (inv_of_mem h0 ?_ ?_ rfl)) fun _ _ h => inv_enterMerge h
    · exact Tab.wf_setAll _ (Tab.wf_filter _ h0.mem)
    · exact Tab.wf_setAll _ (Tab.wf_filter _ h0.poison)

theorem inv_replayPage {part : Nat} {m : Move} (h : Inv s) : Inv (replayPage s part m) :=
  inv_foldl h fun _ _ h1 => inv_foldl h1 fun _ _ h => inv_ownerReplay (inv_setEntry h)

theorem inv_moveTo {d : Nat} {st : MoveSt} (h : Inv s) : Inv (moveTo s d st) := inv_modDie h

theorem inv_moveDrain {d : Nat} {m : Move} (h : Inv s) : Inv (moveDrain s d m) := by
  unfold moveDrain
  dsimp only
  split
  · exact h
  split
  · exact inv_recallPage h
  split
  · exact inv_moveTo ((inv_recallNext (inv_recallPage h)).of_eq ‹_›)
  · exact inv_moveTo (inv_copyPage (inv_recallPage h))

theorem inv_moveEntry {d : Nat} {m : Move} (h : Inv s) : Inv (moveEntry s d m) := by
  unfold moveEntry
  dsimp only
  split
  · exact h
  · exact inv_moveTo (inv_replayPage (inv_dropTlbs (inv_dieStore h)))

theorem inv_migrationRun {d : Nat} (h : Inv s) : Inv (migrationRun s d) := by
  unfold migrationRun
  dsimp only
  split
  · exact h
  split
  · split
    · exact inv_moveTo (inv_dropTlbs h)
    · exact inv_modDie h
  · exact inv_moveDrain h
  · exact inv_moveDrain h
  · exact inv_moveEntry h
  split
  · exact h
  · exact inv_modDie h

theorem inv_execMigrationStart {die : Nat} {v : BitVec 64} (h : Inv s) : InvOut (execMigrationStart die v s) := by
  unfold execMigrationStart
  split
  · exact inv_modDie h
  · exact h

theorem inv_execFirewallWrite {die port : Nat} {v : BitVec 64} (h : Inv s) : InvOut (execFirewallWrite die port v s) := by
  unfold execFirewallWrite
  split
  · exact inv_modDie h
  · exact h

theorem inv_execRegisterWrite {pa : Nat} {v : BitVec 64} (h : Inv s) : InvOut (execRegisterWrite pa v s) := by
  unfold execRegisterWrite
  split
  · exact inv_regWrite h
  · exact h

theorem inv_landCall {c : CallRec} {t : Team} {l : LoadOp} (h : Inv s) : Inv (landCall s c t l).1 := by
  unfold landCall
  split
  · dsimp only
    split
    · exact inv_modTeam (inv_ctxWrite (inv_landImage h))
    · exact inv_ctxWrite (inv_landImage h)
  · exact inv_finishLoad h

theorem inv_storeStatus {c : CallRec} (h : Inv s) : Inv (storeStatus s c) := by
  unfold storeStatus
  dsimp only
  split
  · split
    · exact inv_devStore (inv_of_held h rfl)
    · exact inv_sysWrite (inv_of_held h rfl)
  · exact inv_of_held h rfl

theorem inv_finishCall {c : CallRec} (h : Inv s) : Inv (finishCall s c) := by
  unfold finishCall
  dsimp only
  split
  · exact inv_of_held h rfl
  split
  · exact inv_of_held (inv_modHandle h) rfl
  split
  · split
    · exact inv_of_held (inv_flagTeam (inv_nextFresh (inv_landCall h))) rfl
    · exact h
  · exact inv_of_held h rfl
  · exact h

theorem inv_completeCall {c : CallRec} (h : Inv s) : Inv (completeCall s c) := by
  unfold completeCall
  split
  · exact h
  split
  · exact inv_finishCall h
  dsimp only
  split
  · exact inv_storeStatus h
  · exact inv_finishCall (inv_storeStatus h)

theorem inv_execSyscDone {v : BitVec 64} (h : Inv s) : InvOut (execSyscDone v s) := by
  unfold execSyscDone
  exact inv_foldl (inv_writeSyscDone h) fun _ _ h => inv_completeCall h

/-! ## Hosts, peers and housekeeping -/

theorem inv_outAtomic {writer : Option Sharer} {op : BitVec 4} {pa n : Nat} {x e : BitVec 64} (h : Inv s) :
    Inv (outAtomic writer s op pa n x e) := by
  unfold outAtomic
  split
  · exact inv_of_held h rfl
  · exact inv_of_held (inv_sysWriteBy h) rfl

theorem inv_outReserve {who pa n : Nat} (h : Inv s) : Inv (outReserve s who pa n) := by
  unfold outReserve
  exact inv_of_held h rfl

theorem inv_outConditional {writer : Option Sharer} {who pa : Nat} {bs : List Byte} (h : Inv s) :
    Inv (outConditional writer s who pa bs) := by
  have h1 : Inv { s with reserved := Tab.set none s.reserved who none } := inv_of_held h rfl
  have h2 := inv_sysWriteBy (writer := writer) (bytes := placed pa bs) (defers := []) (unit := none) h1
  unfold outConditional
  exact inv_ite (inv_of_held h2 rfl) (inv_of_held h rfl)

theorem inv_outPerform {a : OutAccess} {writer : Option Sharer} (h : Inv s) : Inv (outPerform s a writer) := by
  have hd : ∀ bs, Inv { s with answer := .data bs } := fun _ => inv_of_held h rfl
  unfold outPerform
  split
  extract_lets busy
  split
  case h_1 | h_2 =>
    split
    · split
      · exact hd _
      · exact h
    · exact inv_ite h (inv_sysWriteBy h)
    · exact inv_ite h (inv_outAtomic h)
    · exact inv_ite h (inv_outReserve h)
    · exact inv_ite h (inv_outConditional h)
  · split
    · exact inv_devStore h
    · split
      · exact hd _
      · exact h
    · exact h
  · split
    · exact inv_of_held h rfl
    · exact h

theorem inv_barRequest {a : OutAccess} (h : Inv s) : Inv (barRequest s a) := by
  unfold barRequest
  split
  · split
    · exact inv_of_held h rfl
    split
    · split <;> exact inv_of_held h rfl
    split
    · exact inv_of_held h rfl
    · exact inv_outPerform h

theorem inv_hostRequest {a : OutAccess} {cache : Bool} (h : Inv s) : Inv (hostRequest s a cache) := by
  unfold hostRequest
  split
  · split
    · dsimp only
      split
      · exact inv_of_held h rfl
      split
      · exact inv_of_held h rfl
      split
      · exact inv_of_held (inv_outPerform h) rfl
      · exact inv_outPerform h
    split
    · exact inv_barRequest h
    · exact h

theorem inv_hostSnoop {line : Nat} {bytes : List (Nat × Byte)} (h : Inv s) : Inv (hostSnoop s line bytes) := by
  unfold hostSnoop
  split
  · split
    · exact h
    · exact inv_sysWrite h
  · exact h

theorem inv_execServiceClusterAccess {a : OutAccess} (h : Inv s) : InvOut (execServiceClusterAccess a s) := by
  unfold execServiceClusterAccess
  split
  · exact h
  · exact inv_outPerform h

theorem inv_peerInbound {port : Nat} {a : OutAccess} (h : Inv s) : Inv (peerInbound s port a) := by
  unfold peerInbound
  exact inv_ite h (inv_ite (inv_outPerform h) (inv_modDie (inv_of_held h rfl)))

/-- A soft error marks a word, and replicas of its line go (R221). -/
theorem inv_poisonWord {pa : Nat} (h : Inv s) : Inv (poisonWord s pa) := by
  have h1 : Inv { s with poison := Tab.set false s.poison (pa / 8) true } :=
    inv_of_mem h h.mem (Tab.wf_set (pa / 8) true h.poison) rfl
  unfold poisonWord
  split
  · exact inv_foldl h1 fun _ _ h => inv_dropReplica h
  · exact inv_foldl h1 fun _ _ h => inv_dropReplica h
  · exact h

theorem inv_softError {x1 : ErrAt} (h : Inv s) : Inv (softError s x1) := by
  unfold softError
  split
  · exact inv_poisonWord h
  · extract_lets who x
    split
    · exact h
    · exact inv_poisonWord (inv_mapSnaps (inv_setCline h))
  · exact inv_modTeam h

/-- Without the rails host memory is what is left. -/
theorem inv_railsOff (h : Inv s) : Inv (railsOff s) :=
  ⟨Memory.wf_filter _ h.mem, Tab.wf_filter _ h.poison, Nat.zero_le 5, Nat.zero_le 2, Nat.zero_lt_succ 5⟩

/-- Each step of bring-up answers for the range of `boot` (R458). -/
theorem inv_bringUp (h : Inv s) : Inv (bringUp s) := by
  have hb : ∀ k, k < 5 → k + 1 ≤ 5 := fun _ => id
  unfold bringUp
  split
  · exact ⟨h.mem, h.poison, hb 0 (by decide), h.clock⟩
  · split
    · exact h
    split
    · exact ⟨h.mem, h.poison, hb 1 (by decide), h.clock⟩
    · exact inv_of_held h rfl
  · exact ⟨Memory.wf_filter _ h.mem, rfl, hb 2 (by decide), h.clock⟩
  · exact ⟨h.mem, h.poison, hb 3 (by decide), h.clock⟩
  · exact ⟨h.mem, h.poison, hb 4 (by decide), h.clock⟩
  · exact h

theorem inv_execThermalStepDown (h : Inv s) : InvOut (execThermalStepDown s) := by
  have hx := h.clock.2
  have h1 : 1 ≤ 2 := by decide
  unfold execThermalStepDown
  split
  · exact h
  split
  · exact ⟨h.mem, h.poison, h.boot, h1, hx⟩
  split
  · exact ⟨h.mem, h.poison, h.boot, Nat.le_refl 2, hx⟩
  · exact h

theorem inv_execThermalStepUp (h : Inv s) : InvOut (execThermalStepUp s) := by
  obtain ⟨ht, hx⟩ := h.clock
  unfold execThermalStepUp
  split
  · exact ⟨h.mem, h.poison, h.boot, Nat.le_trans (Nat.sub_le ..) ht, hx⟩
  · exact h

theorem inv_execThermalShutdown (h : Inv s) : InvOut (execThermalShutdown s) := by
  unfold execThermalShutdown
  split
  · exact inv_railsOff h
  · exact h

theorem inv_execLinkTrainingChange {peer : Bool} {port : Nat} {up : Bool} (h : Inv s) :
    InvOut (execLinkTrainingChange peer port up s) := by
  unfold execLinkTrainingChange
  exact inv_of_held h rfl

theorem inv_execAttestationRequest {nonce : List Byte} (h : Inv s) : InvOut (execAttestationRequest nonce s) := by
  unfold execAttestationRequest
  split
  · exact h
  · exact inv_of_held h rfl

/-! ## REP -/

theorem inv_bodyExec {i : Instr} (h : Inv s) : InvOut (bodyExec i s) := by
  unfold bodyExec
  cases i with
  | add | sub | mul | mulh | mad | div | rem | and | or | xor | not | shl | shr | sar | min | max | abs | neg | cmp
    | popc | clz | brev | bfx | bfi | mov | li | lop3 | prom | fadd | fsub | fmul | fma | fmin | fmax | fabs | fcmp
    | fclass | frnd | cvt | rcp | rsq | sqrt | ex2 | lg2 | sin | cos | tanh | dot2 | dot4 | sad | avg | pack | unpk
    | prmt => exact inv_run h
  | sel | demv | dema | base | strd | shuf | red | scan | vote | ballot | plog | pnot | pmov | pcnt =>
    exact inv_issue h fun _ _ => inv_commit h
  | ld => exact inv_execLd h
  | st => exact inv_execSt h
  | ldsx => exact inv_execLdsx h
  | stsx => exact inv_execStsx h
  | atom => exact inv_execAtom h
  | acc => exact inv_execAcc h
  | kzero | kread | kwrite => exact inv_issue h fun _ _ => inv_enterNow h
  | flagr => exact inv_execFlagr h
  | flagc => exact inv_execFlagc h
  | flaga => exact inv_execFlaga h
  | _ => exact h

theorem inv_execRep {o : RepOps} (h : Inv s) : InvOut (execRep o s) := by
  unfold execRep
  split
  · exact h
  dsimp only
  split
  · exact inv_trap h
  split
  · exact inv_trap h
  split
  · exact inv_modPosy ((inv_bodyExec (inv_setPosy h)).of_eq ‹_›)
  · exact inv_bodyExec (inv_setPosy h)

theorem inv_execUnassignedOpcode {w : W32} (h : Inv s) : InvOut (execUnassignedOpcode w s) := by
  unfold execUnassignedOpcode
  split
  · exact h
  · exact inv_trap h

/-! ## Fetch, issue and the clocks -/

theorem inv_fetchPark {e : Env} {va : Nat} {f : Fail} (h : Inv s) : Inv (fetchPark s e va f) := by
  unfold fetchPark
  exact inv_modPosy (inv_parkAs (inv_countWalk h))

theorem inv_fetchRead {e : Env} {va n : Nat} (h : Inv s) : InvFetched (fetchRead s e va n) := by
  unfold fetchRead
  split
  · exact h
  split
  · exact h
  split
  · exact inv_fetchPark h
  dsimp only
  split
  · exact inv_flagTeam (inv_countRefused h)
  split
  · exact h
  split
  · exact h
  · exact inv_of_held h rfl
  split
  · exact inv_flagTeam h
  · exact h

theorem inv_fetchBytes {e : Env} (h : Inv s) : InvFetched (fetchBytes s e) := by
  unfold fetchBytes
  split
  · exact (inv_fetchRead h).of_held ‹_›
  dsimp only
  split
  · split
    · exact (inv_fetchRead ((inv_fetchRead h).of_got ‹_›)).of_held ‹_›
    · exact (inv_fetchRead ((inv_fetchRead h).of_got ‹_›)).of_got ‹_›
  · exact (inv_fetchRead h).of_got ‹_›

theorem inv_beforeIssue {e : Env} (h : Inv s) : Inv (beforeIssue s e) := by
  unfold beforeIssue
  exact inv_of_held (inv_modPosy h) rfl

theorem inv_firstIssue {e : Env} (h : Inv s) : Inv (firstIssue e s) := by
  unfold firstIssue
  split
  · exact h
  · exact inv_modQueue (inv_modTeam h)

theorem inv_markIssue {e : Env} {y : Bool} {before after : State} (h : Inv after) :
    Inv (markIssue e y before after) := inv_modCore h

theorem inv_afterIssue {i : Instr} {e : Env} {y : Bool} {before after : State} (h : Inv after) :
    Inv (afterIssue i e y before after) := by
  unfold afterIssue
  split
  · refine inv_firstIssue ?_
    split
    · exact h
    · exact inv_markIssue h
  · exact h

theorem inv_decodeTrap {tr : Trap} {w0 : W32} (h : Inv s) : Inv (decodeTrap s tr w0) := by
  unfold decodeTrap
  split
  · exact h
  · exact inv_takeTrap h

/-- A cycle leaves less than a tick of sixths (R460). -/
theorem inv_clockTick (h : Inv s) : Inv (clockTick s) := by
  have hn : (s.sixths + cycleSixths s.thermStep) % 6 < 6 := Nat.mod_lt _ (by decide)
  unfold clockTick
  dsimp only
  split
  · exact ⟨h.mem, h.poison, h.boot, h.clock.1, hn⟩
  · exact ⟨h.mem, h.poison, h.boot, h.clock.1, hn⟩

/-! ## The step -/

theorem inv_exec {i : Instr} (h : Inv s) : InvOut (exec i s) := by
  cases i with
  | nop | sel | demv | dema | base | strd | sread | swrite | shuf | red | scan | vote | ballot | plog | pnot | pmov
    | pcnt => exact inv_issue h fun _ _ => inv_commit h
  | jmp => exact inv_execJmp h
  | bra => exact inv_execBra h
  | br | br4 => exact inv_issue h fun _ _ => inv_diverge h
  | join | joinw => exact inv_issue h fun _ _ => inv_arrive h
  | call => exact inv_execCall h
  | calli => exact inv_execCalli h
  | ret => exact inv_execRet h
  | fork => exact inv_execFork h
  | exit => exact inv_execExit h
  | trap => exact inv_execTrap h
  | brk => exact inv_execBrk h
  | rep => exact inv_execRep h
  | xacq => exact inv_execXacq h
  | xrel => exact inv_execXrel h
  | add | sub | mul | mulh | mad | div | rem | and | or | xor | not | shl | shr | sar | min | max | abs | neg | cmp
    | popc | clz | brev | bfx | bfi | mov | li | lop3 | prom | fadd | fsub | fmul | fma | fmin | fmax | fabs | fcmp
    | fclass | frnd | cvt | rcp | rsq | sqrt | ex2 | lg2 | sin | cos | tanh | dot2 | dot4 | sad | avg | pack | unpk
    | prmt => exact inv_run h
  | segld => exact inv_execSegld h
  | ld => exact inv_execLd h
  | st => exact inv_execSt h
  | ldsx => exact inv_execLdsx h
  | stsx => exact inv_execStsx h
  | atom => exact inv_execAtom h
  | acc => exact inv_execAcc h
  | fence => exact inv_execFence h
  | pref => exact inv_execPref h
  | drain | bfree => exact inv_regionReq h
  | breg => exact inv_execBreg h
  | cpy | cpy2d => exact inv_issue h fun _ _ => inv_cpyBody h
  | put => exact inv_execPut h
  | hwait => exact inv_execHwait h
  | htest => exact inv_execHtest h
  | hcancel => exact inv_execHcancel h
  | hmov => exact inv_execHmov h
  | hadopt => exact inv_execHadopt h
  | kload => exact inv_execKload h
  | ktask => exact inv_execKtask h
  | kzero | kread | kwrite => exact inv_issue h fun _ _ => inv_enterNow h
  | kstore => exact inv_execKstore h
  | kfree => exact inv_execKfree h
  | kstat => exact inv_execKstat h
  | barArrive => exact inv_execBarArrive h
  | barWait => exact inv_execBarWait h
  | barSync => exact inv_execBarSync h
  | barQuery => exact inv_execBarQuery h
  | sigadd => exact inv_execSigadd h
  | sigwait => exact inv_execSigwait h
  | ctwait => exact inv_execCtwait h
  | twait => exact inv_execTwait h
  | flagr => exact inv_execFlagr h
  | flagc => exact inv_execFlagc h
  | flaga => exact inv_execFlaga h
  | launch => exact inv_execLaunch h
  | sysc => exact inv_execSysc h
  | savek => exact inv_execSavek h
  | restk => exact inv_execRestk h
  | rddiv => exact inv_execRddiv h
  | wrdiv => exact inv_execWrdiv h
  | tret => exact inv_execTret h
  | unassignedOpcode => exact inv_execUnassignedOpcode h
  | joinComplete => exact inv_execJoinComplete h
  | joinExpiry => exact inv_execJoinExpiry h
  | twaitExpiry => exact inv_execTwaitExpiry h
  | trapRecordPost => exact inv_postTrap h
  | tailRead => exact inv_tailRead h
  | dispatch => exact inv_dispatchNext (inv_owe h)
  | dependencyRead => exact inv_dependencyRead h
  | placement => exact inv_placement h
  | splitChange => exact inv_splitChange h
  | timedStart => exact inv_execTimedStart h
  | teamRetire => exact inv_teamRetire h
  | launchComplete => exact inv_launchComplete h
  | posyForm => exact inv_formPosy h
  | rotation => exact inv_rotate h
  | watchdogExpiry => exact inv_watchdogExpiry h
  | priorityPreempt => exact inv_priorityPreempt h
  | sliceEnd => exact inv_sliceEnd h
  | vdSwitch => exact inv_vdSwitch h
  | handlerEntry => exact inv_handlerEntry h
  | budgetExpiry => exact inv_forcedSave h
  | restore => exact inv_restoreTeam h
  | restoreEnd => exact inv_restoreEnd h
  | requestLeave => exact inv_withReq h fun _ _ => inv_leave h
  | requestReply => exact inv_withReq h fun _ _ => inv_reply h
  | writeBack => exact inv_writeBack h
  | merge => exact inv_mergeWb h
  | invalidation | backInvalidation => exact inv_invalidate h
  | fill => exact inv_execFill h
  | directoryEvict => exact inv_execDirectoryEvict h
  | atomicPerform => exact inv_execAtomicPerform h
  | deltaDrain => exact inv_drainHolder h
  | shareRecall => exact inv_settleRemoving (inv_recallHolder h)
  | regionLoadAnswer => exact inv_execRegionLoadAnswer h
  | holderReturn => exact inv_execHolderReturn h
  | park => exact inv_execPark h
  | parkRetry => exact inv_execParkRetry h
  | faultRecordPost => exact inv_postFault h
  | followerReplay => exact inv_execFollowerReplay h
  | replayComplete => exact inv_execReplayComplete h
  | release => exact inv_execRelease h
  | abort => exact inv_execAbort h
  | purge => exact inv_execPurge h
  | parkLimitWrite => exact inv_execParkLimitWrite h
  | overflowConfigWrite => exact inv_execOverflowConfigWrite h
  | faultRingConfigWrite => exact inv_execFaultRingConfigWrite h
  | retaggedCompletion => exact inv_retaggedCompletion h
  | migrationStart => exact inv_execMigrationStart h
  | migrationRun => exact inv_migrationRun h
  | tinv => exact inv_execTinv h
  | placeset => exact inv_tableCmd h fun _ _ => inv_placeset h
  | qenable => exact inv_tableCmd h fun _ _ => inv_qenable h
  | qdisable => exact inv_tableCmd h fun _ _ => inv_qdisable h
  | vdcreate => exact inv_tableCmd h fun _ _ => inv_vdcreate h
  | vddestroy => exact inv_tableCmd h fun _ _ => inv_vddestroy h
  | tresume => exact inv_execTresume h
  | lkill => exact inv_execLkill h
  | firewallWrite => exact inv_execFirewallWrite h
  | partitionWrite => exact inv_writePartition h
  | descriptorBaseWrite => exact inv_writeDescBase h
  | featAcceptWrite => exact inv_writeAccept h
  | syscDone => exact inv_execSyscDone h
  | registerWrite => exact inv_execRegisterWrite h
  | handleComplete => exact inv_execHandleComplete h
  | copyRequest => exact inv_copyStep h
  | putLanding => exact inv_landPut h
  | kloadComplete => exact inv_execKloadComplete h
  | aFetch => exact inv_execAFetch h
  | taskStart => exact inv_execTaskStart h
  | taskComplete => exact inv_execTaskComplete h
  | hostRequest => exact inv_hostRequest h
  | hostSnoop => exact inv_hostSnoop h
  | peerInbound => exact inv_peerInbound h
  | softError => exact inv_softError h
  | bringUp => exact inv_bringUp h
  | thermalStepDown => exact inv_execThermalStepDown h
  | thermalStepUp => exact inv_execThermalStepUp h
  | thermalShutdown => exact inv_execThermalShutdown h
  | serviceClusterAccess => exact inv_execServiceClusterAccess h
  | linkTrainingChange => exact inv_execLinkTrainingChange h
  | railLoss => exact inv_railsOff h
  | attestationRequest => exact inv_execAttestationRequest h

theorem inv_attemptIssue {e : Env} (h : Inv s) : InvOut (attemptIssue s e).1 := by
  unfold attemptIssue
  split
  next s1 hf => exact (inv_fetchBytes h).of_held hf
  next s1 bs hf =>
    have h2 : Inv (beforeIssue s1 e) := inv_beforeIssue ((inv_fetchBytes h).of_got hf)
    dsimp only
    split
    · exact inv_firstIssue (inv_markIssue (inv_decodeTrap h2))
    next i hi =>
      have hx := inv_exec (i := i) h2
      split
      next s3 he => exact inv_afterIssue (hx.of_eq he)
      · exact hx

theorem inv_issueTurn {core slot : Nat} (h : Inv s) : InvOut (issueTurn core slot s) := by
  unfold issueTurn
  split
  · exact h
  split
  · exact h
  · exact inv_attemptIssue h

theorem inv_runTurn {t : Turn} (h : Inv s) : InvOut (runTurn t s) := by
  cases t with
  | issue core slot => exact inv_issueTurn h
  | event i =>
    unfold runTurn
    dsimp only
    split
    · exact inv_exec h
    · exact h
  | tick => exact inv_ite h (inv_clockTick h)
  | sense tj => exact inv_of_held h rfl
  | decoder base => exact inv_of_held h rfl

theorem inv_nextTurn (h : Inv s) : Inv (nextTurn s).2 := by
  unfold nextTurn
  split
  · exact inv_of_held h rfl
  · exact inv_of_held h rfl

theorem inv_step (h : Inv s) : InvOut (step s) := inv_runTurn (inv_nextTurn h)
end

/-- Settles O59: every outcome of `step` keeps the invariant (`inv_step`), function by function. -/
theorem stepKeepsTheInvariant : Obligations.StepKeepsTheInvariant := fun _ _ h e => (inv_step h).of_eq e

end Sys2Proof.Claims
end
section
namespace Sys2Proof.Claims
open Sys2Proof.Machine

/-! ## Affine forms (R8, R85): what expanding a form at a fibre index gives -/

section
variable {x y : Aff} {f : Nat}

theorem expand_affAdd : expand (affAdd x y) f = expand x f + expand y f := by
  simp only [expand, affAdd, BitVec.add_mul]
  ac_rfl

theorem expand_affSub : expand (affSub x y) f = expand x f - expand y f := by
  simp only [expand, affSub, BitVec.sub_eq_add_neg, BitVec.add_mul, BitVec.neg_mul, BitVec.neg_add]
  ac_rfl

theorem expand_zero : expand (0, 0) f = 0#64 := by
  simp [expand]

/-- A form without stride has one value. -/
theorem expand_uniform (h : x.2 = 0) : expand x f = x.1 := by
  simp [expand, h]

/-- A×S: the second factor is uniform. -/
theorem expand_affMul_left (h : y.2 = 0) : expand (affMul x y true) f = expand x f * expand y f := by
  rw [expand_uniform h]
  simp only [expand, affMul, if_true, BitVec.add_mul]
  ac_rfl

/-- S×A: the first factor is uniform. -/
theorem expand_affMul_right (h : x.2 = 0) : expand (affMul x y false) f = expand x f * expand y f := by
  rw [expand_uniform h]
  simp only [expand, affMul, Bool.false_eq_true, if_false, BitVec.mul_add]
  ac_rfl

/-- A shift is a multiplication by a power of two, so it distributes over base and stride. -/
theorem expand_affShl {k : BitVec 64} : expand (affShl x k) f = expand x f <<< (k.toNat % 64) := by
  simp only [expand, affShl, BitVec.shiftLeft_eq_mul_twoPow, BitVec.add_mul]
  ac_rfl
end

theorem isA_of_cls {r : Opd} (h : r.cls = .a) : Opd.isA r = true := by
  simp [Opd.isA, h]

theorem isA_of_cls_ne {r : Opd} (h : r.cls ≠ .a) : Opd.isA r = false := by
  simp [Opd.isA, h]

/-- What LI writes to S under a 64-bit format (R88, R161). -/
theorem liVal_of_wide {o : Ops} {i : Imm} (hb : o.b = .imm i) (hf : o.fmt = .i64 ∨ o.fmt = .u64) :
    b64 (liVal o true) = Imm.sext i := by
  rcases hf with hf | hf <;> simp [liVal, hb, hf, extendS, immNarrow, b64]

/-! ## The affine forms of the instructions -/

section
variable {o : Ops} {x y z : Aff} {f : Nat}

theorem expand_aluNeg : expand ((aluNeg o).aff [x]) f = -expand x f :=
  calc expand (affSub (0, 0) x) f
    _ = expand (0, 0) f - expand x f := expand_affSub
    _ = -expand x f := by rw [expand_zero, BitVec.zero_sub]

/-- The product with its affine factor first. -/
theorem expand_aluMul_left (ha : o.a.cls = .a) (hy : y.2 = 0) :
    expand ((aluMul o).aff [x, y]) f = expand x f * expand y f := by
  show expand (affMul x y (Opd.isA o.a)) f = _
  rw [isA_of_cls ha, expand_affMul_left hy]

/-- The product with its affine factor second. -/
theorem expand_aluMul_right (ha : o.a.cls ≠ .a) (hx : x.2 = 0) :
    expand ((aluMul o).aff [x, y]) f = expand x f * expand y f := by
  show expand (affMul x y (Opd.isA o.a)) f = _
  rw [isA_of_cls_ne ha, expand_affMul_right hx]

/-- MAD adds the third form to the product of the first two. -/
theorem expand_aluMad : expand ((aluMad o).aff [x, y, z]) f = expand ((aluMul o).aff [x, y]) f + expand z f :=
  expand_affAdd

theorem expand_aluShl (hy : y.2 = 0) :
    expand ((aluShl o).aff [x, y]) f = expand x f <<< ((expand y f).toNat % 64) := by
  rw [expand_uniform hy]
  exact expand_affShl

theorem expand_aluLi {i : Imm} (hb : o.b = .imm i) (hf : o.fmt = .i64 ∨ o.fmt = .u64) :
    expand ((aluLi o).aff []) f = Imm.sext i :=
  (expand_uniform rfl).trans (liVal_of_wide hb hf)
end

/-- Settles O4: addition and subtraction go through the expansion, a product and a shift do by the uniform factor,
and a copy keeps its form. -/
theorem affineForms : Obligations.AffineForms := fun _ _ _ _ _ =>
  ⟨expand_affAdd, expand_affSub, expand_aluNeg, rfl, rfl, expand_aluMul_left, expand_aluMul_right,
    fun ha hy => by rw [expand_aluMad, expand_aluMul_left ha hy],
    fun ha hx => by rw [expand_aluMad, expand_aluMul_right ha hx],
    expand_aluShl, fun _ => expand_aluLi⟩

end Sys2Proof.Claims
end
section
namespace Sys2Proof.Claims
open Sys2Proof.Machine

/-! # The mark `again` of a posy that goes on

A FENCE, a WRDIV or a SIGWAIT that waits leaves the mark `again` on its posy (R274, R413), and `Posy.goto` takes it off with what else a
waiting instruction kept. `GoesTo` names what may differ in a posy that goes on, and `again` is not among it. -/

section
variable {s t : State} {e e' : Env} {l : Len} {x : Eff} {i : Instr} {P : Env → Prop} {pc : Nat}

theorem GoesTo.again_eq (h : GoesTo s t e e' pc) : e'.p.again = e.p.again := by
  rw [h.posy]

theorem again_of_commit (hk : e.key = posyKey s.cur.1 s.cur.2) (ht : commit s e l x = .next t) (hc : curEnv t = some e') :
    e'.p.again = false := by
  obtain ⟨u, hu, hcu⟩ := commit_env s e l x hk
  obtain rfl : u = t := Host.Outcome.next.inj (hu.symm.trans ht)
  obtain rfl : _ = e' := Option.some.inj (hcu.symm.trans hc)
  rfl

/-- An instruction that makes its writes and goes on takes the mark off, so it does not keep the posy's frame as `GoesTo` has it. -/
theorem not_goes_of_again (he : curEnv s = some e) (ha : e.p.again = true) (hx : exec i s = commit s e l x) : ¬Goes i s e l P := by
  rintro ⟨t, e', ht, hg, -⟩
  have hoff : e'.p.again = false := again_of_commit (curEnv_eq_some.mp he).1 (hx.symm.trans ht) hg.cur
  rw [hg.again_eq, ha] at hoff
  cases hoff
end

/-! # Special registers: SREAD of a posy that bears the mark -/

/-- SREAD of TIME into s4. -/
def readTime : Ops := { x10 := 0x42, d := rS 4 }

/-- The team of one fibre that issues, its posy with the mark `again`. -/
def againState : State := (loadTeam State.reset).modPosy 0 fun p => { p with again := true }

theorem againState_issues : (curEnv againState).isSome = true := by decide +kernel

/-- Its posy, team and frame. -/
def againEnv : Env := (curEnv againState).get againState_issues

theorem again_againEnv : againEnv.p.again = true := by decide +kernel

theorem readTime_passes : Passes againState againEnv (sreadNeed readTime) readTime.h where
  cur := (Option.some_get againState_issues).symm
  type := by decide +kernel
  regs := by decide +kernel
  regOk := rfl
  priv := by decide +kernel
  ban := by decide +kernel
  ready := by decide +kernel
  guardReady := by decide +kernel
  full := by decide +kernel
  tags := by decide +kernel

theorem sread_of_passes {o : Ops} {s : State} {e : Env} (hp : Passes s e (sreadNeed o) o.h) :
    exec (.sread o) s = commit s e o.h.len (sreadEff o s e (e.p.active o.h)) := hp.issue _

/-- Refutes O7: SREAD of TIME into s4 (`readTime`) by a posy that bears the mark `again` (`againState`) passes its checks and takes the
mark off, and the frame of `Goes` says that the mark stays. -/
theorem not_specialRegisters : ¬ Obligations.SpecialRegisters := by
  unfold Obligations.SpecialRegisters
  rintro ⟨hread, -⟩
  obtain ⟨huniform, -⟩ := (hread readTime againState againEnv).1 readTime_passes
  exact not_goes_of_again readTime_passes.cur again_againEnv (sread_of_passes readTime_passes) (huniform rfl)

end Sys2Proof.Claims
end
section
namespace Sys2Proof.Claims
open Sys2Proof.Machine

/-! # Bounded-value regions: drains, recalls and loads (R27, R260, R297, R298)

A drain or a recall reads and writes shares, and its writes at home leave the shares alone; so the rules of `setShare` and the frame
lemmas on `shares` say what a holder keeps. -/

/-! ## Writes at home leave the shares alone -/

section
variable {s : State}

theorem foldl_shares {α : Type} {f : State → α → State} (hf : ∀ s x, (f s x).shares = s.shares) (xs : List α) (s : State) :
    (xs.foldl f s).shares = s.shares := by
  induction xs generalizing s with
  | nil => rfl
  | cons x xs ih => exact (ih _).trans (hf s x)

@[simp] theorem shares_modTeam {id : Nat} {f : Team → Team} : (s.modTeam id f).shares = s.shares := by
  unfold State.modTeam
  split <;> rfl

@[simp] theorem shares_writeHome {w : List (Nat × Byte)} : (s.writeHome w).shares = s.shares := by
  rw [State.writeHome_eq]

@[simp] theorem shares_countRefused {d pa : Nat} : (countRefused s d pa).shares = s.shares := by
  unfold countRefused
  split
  · split <;> rfl
  · rfl

@[simp] theorem shares_putCline {who : Sharer} {line : Nat} {x : CLine} : (s.putCline who line x).shares = s.shares := by
  cases who <;> rfl

@[simp] theorem shares_noteDir {who : Sharer} {line : Nat} {holds : Bool} : (noteDir s who line holds).shares = s.shares := rfl

@[simp] theorem shares_setCline {who : Sharer} {line : Nat} {x : CLine} : (s.setCline who line x).shares = s.shares := by
  unfold State.setCline
  split
  · rfl
  · simp
  · split <;> simp

@[simp] theorem shares_mapSnaps {f : Bool → Bool → List (Sharer × Nat) → List (Sharer × Nat)} :
    (mapSnaps s f).shares = s.shares := rfl

@[simp] theorem shares_noteMerge {lines : List Nat} : (noteMerge s lines).shares = s.shares := rfl

@[simp] theorem shares_dropDirty {who : Sharer} {line : Nat} : (dropDirty s who line).shares = s.shares := by
  simp [dropDirty]

@[simp] theorem shares_merrTeams {ts : List Nat} : (merrTeams s ts).shares = s.shares :=
  foldl_shares (fun _ _ => shares_modTeam) _ _

@[simp] theorem shares_writeBack {who : Sharer} {line : Nat} : (writeBack s who line).shares = s.shares := by
  unfold writeBack
  extract_lets x held
  split
  · rfl
  split
  · exact shares_merrTeams.trans (shares_countRefused.trans shares_dropDirty)
  · exact shares_setCline

@[simp] theorem shares_followBack {who : Sharer} {line : Nat} : (followBack s who line).shares = s.shares := by
  unfold followBack
  split <;> simp

@[simp] theorem shares_ackWriter {m : Merging} : (ackWriter s m).shares = s.shares := by
  unfold ackWriter
  dsimp only
  split <;> split <;> split <;> simp

@[simp] theorem shares_enterMerge {line : Nat} {parent : Option Nat} {writer : Option Sharer} {req : Option (Nat × Nat × Nat)}
    {defers : List Authority} {unit : Option Nat} : (enterMerge s line parent writer req defers unit).shares = s.shares := by
  unfold enterMerge
  dsimp only
  split <;> simp

@[simp] theorem shares_sysWrite {bytes : List (Nat × Byte)} : (sysWrite s bytes).shares = s.shares :=
  (foldl_shares (fun _ _ => shares_enterMerge) _ _).trans (by simp)

@[simp] theorem shares_applyWord {pa : Nat} {x : W32} : (applyWord s pa x).shares = s.shares := by
  unfold applyWord
  split <;> simp

@[simp] theorem shares_applyAll {ds : List (Nat × Nat × W32)} : (applyAll s ds).shares = s.shares :=
  foldl_shares (fun _ _ => shares_applyWord) _ _

@[simp] theorem shares_applyFrom {k : ShareKey} {ds : List (Nat × Nat × W32)} : (applyFrom s k ds).shares = s.shares := by
  unfold applyFrom
  split
  · cases ds <;> simp
  · simp

@[simp] theorem shares_settleRemoving {part vd base : Nat} : (settleRemoving s part vd base).shares = s.shares := by
  unfold settleRemoving
  split
  · rfl
  · exact foldl_shares (fun s _ => (rfl : (s.modDie _ _).shares = s.shares)) _ _
end

/-! ## The share of a holder -/

section
variable {s t : State} {k q : ShareKey} {x : Share}

theorem is_iff_key : x.is k = true ↔ x.key = k := by
  cases k
  simp [Share.is, Share.key, and_assoc]

theorem share_of_shares (h : t.shares = s.shares) : share t k = share s k := by
  unfold share
  rw [h]

@[simp] theorem share_key : (share s k).key = k := by
  unfold share
  cases h : s.shares.find? (·.is k) with
  | none => rfl
  | some x => exact is_iff_key.mp (List.find?_some (p := fun y : Share => y.is k) h)

/-- A share of one key is put in the place of another's: other holders keep theirs. -/
theorem share_setShare_ne (hx : x.key = k) (hq : q ≠ k) : share (setShare s k x) q = share s q := by
  have hk : ∀ y : Share, y.is q = true → (!y.is k) = true := by
    intro y hy
    have : ¬y.is k = true := fun h => hq ((is_iff_key.mp hy).symm.trans (is_iff_key.mp h))
    simpa using this
  have hn : ¬x.is q = true := fun h => hq ((is_iff_key.mp h).symm.trans hx)
  have hrest : (s.shares.filter fun y => !y.is k).find? (·.is q) = s.shares.find? (·.is q) := by
    rw [List.find?_filter]
    congr 1
    funext y
    cases hy : y.is q
    · simp
    · simp [hk y hy]
  unfold setShare share
  dsimp only
  split
  · rw [hrest]
  · rw [List.find?_append, hrest]
    simp [hn]

/-- The share that is set reads back; one that holds nothing is not listed, and reads as nothing. -/
theorem share_setShare_self (hx : x.key = k) :
    share (setShare s k x) k = x ∨
    (x.g = 0 ∧ x.t = 0 ∧ x.deltas = []) ∧ share (setShare s k x) k = { who := k.who, vd := k.vd, base := k.base, home := k.home } := by
  have hrest : (s.shares.filter fun y => !y.is k).find? (·.is k) = none := by
    simp
  unfold setShare share
  dsimp only
  split
  next h =>
    rw [hrest]
    simp only [Bool.and_eq_true, decide_eq_true_eq, List.isEmpty_iff] at h
    exact .inr ⟨⟨h.1.1, h.1.2, h.2⟩, rfl⟩
  next h =>
    rw [List.find?_append, hrest]
    simp [is_iff_key.mpr hx]

theorem setShare_g (hx : x.key = k) : (share (setShare s k x) k).g = x.g := by
  rcases share_setShare_self (s := s) hx with h | ⟨⟨hg, -, -⟩, h⟩
  · rw [h]
  · rw [h, hg]

theorem setShare_t (hx : x.key = k) : (share (setShare s k x) k).t = x.t := by
  rcases share_setShare_self (s := s) hx with h | ⟨⟨-, ht, -⟩, h⟩
  · rw [h]
  · rw [h, ht]

theorem setShare_deltas (hx : x.key = k) : (share (setShare s k x) k).deltas = x.deltas := by
  rcases share_setShare_self (s := s) hx with h | ⟨⟨-, -, hd⟩, h⟩
  · rw [h]
  · rw [h, hd]
end

/-! ## Drains (R260, R297) -/

section
variable {s t : State} {k q : ShareKey}

/-- The holder has no deltas and an empty tracker, and its grant is as it was. -/
def Drained (s t : State) (k : ShareKey) : Prop :=
  (share t k).deltas = [] ∧ (share t k).t = 0 ∧ (share t k).g = (share s k).g

theorem parentKey_ne (h : parentKey k = some q) : q ≠ k := by
  rintro rfl
  unfold parentKey at h
  split at h
  next c hc =>
    split at h
    · cases h
    · have : Holder.rdc (dieOf c) = .l1 c := (congrArg ShareKey.who (Option.some.inj h)).trans hc
      cases this
  · cases h

/-- A share that loses its deltas and its tracker. -/
theorem drained_setShare {x : Share} {pas : Tab Nat} (hx : x.key = k) (hg : x.g = (share s k).g) :
    Drained s (setShare t k { x with deltas := [], pas := pas, t := 0 }) k :=
  ⟨setShare_deltas (by exact hx), setShare_t (by exact hx), (setShare_g (by exact hx)).trans hg⟩

theorem share_drainToHome_ne (h : q ≠ k) : share (drainToHome s k) q = share s q :=
  (share_setShare_ne (by exact share_key) h).trans (share_of_shares shares_applyFrom)

/-- A drain into the parent writes no share but the parent's. -/
theorem share_drainInto {ds : List (Nat × Nat × W32)} {w : W32} : share (drainInto s k ds w).1 k = share s k := by
  unfold drainInto
  split
  · exact share_of_shares shares_applyFrom
  next q hq =>
    have hk : k ≠ q := (parentKey_ne hq).symm
    extract_lets pass s1 r
    have h1 : share s1 k = share s k := by
      unfold s1
      split
      · rfl
      · exact share_drainToHome_ne hk
    split
    · exact (share_of_shares shares_applyFrom).trans h1
    · exact (share_setShare_ne (by exact share_key) hk).trans h1

theorem drained_drainHolder : Drained s (drainHolder s k) k := by
  unfold drainHolder
  split
  · exact drained_setShare share_key rfl
  · exact drained_setShare share_key (congrArg Share.g share_drainInto)

/-- A run of bytes in memory that a unit writes at SYS width. -/
theorem stored_sysWrite_placed {pa : Nat} {bs : List Byte} (h : ∀ i, i < bs.length → isMem (pa + i) = true) :
    Stored s (sysWrite s (placed pa bs)) (placed pa bs) := by
  have hall : (placed pa bs).filter (fun x => isMem x.1) = placed pa bs := by
    rw [List.filter_eq_self]
    intro x hx
    simp only [placed, List.mem_map, List.mem_range] at hx
    obtain ⟨i, hi, rfl⟩ := hx
    exact h i hi
  have hbyte : ∀ a, (sysWrite s (placed pa bs)).byte a = (s.writeHome (placed pa bs)).byte a := by
    intro a
    unfold State.byte
    rw [sysWrite_mem, hall]
  refine ⟨fun x hx => ?_, fun a ha => ?_⟩
  · simp only [placed, List.mem_map, List.mem_range] at hx
    obtain ⟨i, hi, rfl⟩ := hx
    rw [hbyte]
    exact State.byte_writeHome_placed s pa bs i hi
  · rw [hbyte]
    exact State.byte_writeHome_of_not_mem _ a fun p hp h => ha (List.mem_map.mpr ⟨p, hp, h⟩)

/-- A holder under the authority, its link open, adds its delta to the word at home. -/
theorem stored_drainHolder {va pa : Nat} {d : W32} (hp : parentKey k = none) (hc : holderCut s k = false)
    (hd : (share s k).deltas = [(va, d)]) (hpa : Tab.get 0 (share s k).pas va = pa) (hw : s.poisoned pa = false)
    (hm : ∀ j, j < 4 → isMem (pa + j) = true) :
    Stored s (drainHolder s k) (placed pa (leBytes 4 (addF .rne (b32 (leNat (s.readBytes pa 4))) d).toNat)) := by
  have hlist : (share s k).list = [(va, pa, d)] := by
    simp [Share.list, hd, hpa]
  have happly : applyFrom s k (share s k).list =
      sysWrite s (placed pa (leBytes 4 (addF .rne (b32 (leNat (s.readBytes pa 4))) d).toNat)) := by
    simp [applyFrom, hc, hlist, applyAll, applyWord, hw]
  unfold drainHolder
  rw [hp]
  show Stored s (setShare (applyFrom s k (share s k).list) k _) _
  rw [happly]
  exact stored_sysWrite_placed hm
end

/-! ## Recalls (R27, R298) -/

section
variable {s t : State} {k : ShareKey}

/-- The holder has nothing left. -/
def Returned (t : State) (k : ShareKey) : Prop := (share t k).g = 0 ∧ (share t k).deltas = [] ∧ (share t k).t = 0

/-- A recall that comes to an RDC across a closed link waits (R27). -/
def RecallWaits (s : State) (k : ShareKey) : Prop := holderCut s k = true ∧ ∃ d, k.who = .rdc d

theorem returned_recallOne : Returned (recallOne s k) k := by
  obtain ⟨hd, ht, -⟩ := drained_drainHolder (s := s) (k := k)
  exact ⟨setShare_g (by exact share_key), (setShare_deltas (by exact share_key)).trans hd, (setShare_t (by exact share_key)).trans ht⟩

theorem recallHolder_of_waits (h : RecallWaits s k) : recallHolder s k = s := by
  obtain ⟨hc, d, hd⟩ := h
  simp [recallHolder, hd, hc]

theorem returned_recallHolder (h : ¬RecallWaits s k) : Returned (recallHolder s k) k := by
  unfold recallHolder
  split
  · exact returned_recallOne
  next d hd =>
    rw [if_neg fun hc => h ⟨hc, d, hd⟩]
    exact returned_recallOne

theorem share_giveBack : share (giveBack s k) k = share (recallHolder s k) k := share_of_shares shares_settleRemoving

/-- A holder gives its share back, or the recall waits. -/
theorem giveBack_spec :
    (RecallWaits s k → (share (giveBack s k) k).g = (share s k).g ∧ (share (giveBack s k) k).deltas = (share s k).deltas) ∧
    (¬RecallWaits s k → Returned (giveBack s k) k) := by
  unfold Returned
  rw [share_giveBack]
  refine ⟨fun h => ?_, returned_recallHolder⟩
  rw [recallHolder_of_waits h]
  exact ⟨rfl, rfl⟩
end

/-! ## Loads of region words (R297) -/

section
variable {s : State} {team idx : Nat} {tm : Team} {r : Req} {l : Leaf}

theorem team_modTeam {f : Team → Team} (ht : s.team team = some tm) : (s.modTeam team f).team team = some (f tm) := by
  unfold State.modTeam
  rw [ht]
  exact State.setTeam_team_self ..

/-- A reply answers the request at its place in the queue, with the bytes given. -/
theorem reqIs_replyWith {bytes : List (Nat × Byte)} {olds : List (Nat × BitVec 64)} {merr : Bool} {flags : BitVec 6}
    {P : Req → Prop} (ht : s.team team = some tm) (hr : tm.reqs[idx]? = some r)
    (hP : ∀ q : Req, q.stage = .replied → q.reply = bytes → P q) : ReqIs (replyWith s team r bytes olds merr flags) team idx P := by
  refine ⟨_, { r with stage := .replied, reply := bytes, olds := olds, merr := merr, flags := flags, defers := [] },
    team_modTeam ht, ?_, hP _ rfl rfl⟩
  simp [hr]

@[simp] theorem placed_addresses {pa : Nat} {bs : List Byte} : (placed pa bs).map (·.1) = List.range' pa bs.length := by
  simp [placed, Function.comp_def, List.range_eq_range', List.map_add_range']

/-- The answer of a load of region words names the bytes of its words. -/
theorem regionWords_addresses {ws : List Nat} :
    (regionWords s tm r l ws).1.map (·.1) = ws.flatMap fun w => List.range' w 4 := by
  unfold regionWords
  simp only [List.flatMap_map, List.map_flatMap]
  congr 1
  funext w
  split
  · split
    · exact placed_addresses
    · exact placed_addresses
  · exact placed_addresses.trans (by simp only [List.length_map, List.length_range])

/-- The words that an access touches are one run of bytes. -/
theorem wordsTouched_bytes {addr size : Nat} :
    ((wordsTouched addr size).flatMap fun w => List.range' w 4) = List.range' (addr - addr % 4) (4 * ((addr % 4 + size + 3) / 4)) := by
  have hrun : ∀ b n, ((List.range n).flatMap fun i => List.range' (b + 4 * i) 4) = List.range' b (4 * n) := by
    intro b n
    induction n with
    | zero => rfl
    | succ n ih => rw [List.range_succ, List.flatMap_append, ih, List.flatMap_singleton, Nat.mul_succ, List.range'_append_1]
  unfold wordsTouched
  rw [List.flatMap_map]
  exact hrun _ _

/-- Of a run of addresses, an interval inside it keeps the middle part. -/
theorem filter_range' {b c n d : Nat} :
    ((List.range' b (c + n + d)).filter fun y => decide (b + c ≤ y) && decide (y < b + c + n)) = List.range' (b + c) n := by
  have hparts : List.range' b (c + n + d) = List.range' b c ++ List.range' (b + c) n ++ List.range' (b + c + n) d := by
    rw [List.range'_append_1, Nat.add_assoc b c n, List.range'_append_1]
  have hout : ∀ ys : List Nat, (∀ y ∈ ys, y < b + c ∨ b + c + n ≤ y) →
      (ys.filter fun y => decide (b + c ≤ y) && decide (y < b + c + n)) = [] := by
    intro ys hys
    rw [List.filter_eq_nil_iff]
    intro y hy hin
    rw [Bool.and_eq_true, decide_eq_true_eq, decide_eq_true_eq] at hin
    have := hys y hy
    omega
  have hinside : ((List.range' (b + c) n).filter fun y => decide (b + c ≤ y) && decide (y < b + c + n)) = List.range' (b + c) n := by
    rw [List.filter_eq_self]
    intro y hy
    rw [List.mem_range'_1] at hy
    rw [Bool.and_eq_true, decide_eq_true_eq, decide_eq_true_eq]
    exact hy
  rw [hparts, List.filter_append, List.filter_append, hinside,
    hout _ fun y hy => .inl (List.mem_range'_1.mp hy).2, hout _ fun y hy => .inr (List.mem_range'_1.mp hy).1,
    List.nil_append, List.append_nil]

/-- Of bytes at a run of addresses, those of an access inside the run stand at its addresses. -/
theorem filter_run {xs : List (Nat × Byte)} {b m a n : Nat} (hx : xs.map (·.1) = List.range' b m) (hb : b ≤ a) (hm : a + n ≤ b + m) :
    (xs.filter fun y => decide (a ≤ y.1) && decide (y.1 < a + n)).map (·.1) = (List.range n).map (a + ·) := by
  obtain ⟨c, rfl⟩ := Nat.exists_eq_add_of_le hb
  obtain ⟨d, rfl⟩ := Nat.exists_eq_add_of_le (show c + n ≤ m by omega)
  calc (xs.filter fun y => decide (b + c ≤ y.1) && decide (y.1 < b + c + n)).map (·.1)
    _ = (List.range' b (c + n + d)).filter fun y => decide (b + c ≤ y) && decide (y < b + c + n) := by rw [← hx, List.filter_map]; rfl
    _ = List.range' (b + c) n := filter_range'
    _ = (List.range n).map (b + c + ·) := by rw [List.range_eq_range', List.map_add_range', Nat.add_zero]

/-- Only a load at its home whose line does not merge is answered. -/
theorem idle_regionLoadAnswer (ht : s.team team = some tm) (hr : tm.reqs[idx]? = some r)
    (h : r.stage ≠ .atHome ∨ r.kind ≠ .load ∨ isMerging s (lineOf r.pa) none = true) : Idle (.regionLoadAnswer team idx) s := by
  show execRegionLoadAnswer team idx s = .next s
  unfold execRegionLoadAnswer
  simp only [ht, hr]
  rw [if_neg]
  rintro ⟨hs, hk, hm⟩
  rcases h with h | h | h
  · exact h hs
  · exact h hk
  · simp [h] at hm

/-- The leaf through which a request at its home was translated. -/
def homeLeaf (r : Req) : Leaf := { pa := r.pa - r.addr % pageBytes r.pgsz, pgsz := r.pgsz, cls := r.pcls }

/-- The answer of a load: of the words it touches, the bytes of the request. -/
def answerLoad (s : State) (team : Nat) (tm : Team) (r : Req) : State :=
  let x := regionWords s tm r (homeLeaf r) (wordsTouched r.addr r.size)
  replyWith s team r (x.1.filter fun y => decide (r.addr ≤ y.1) && decide (y.1 < r.addr + r.size)) [] x.2 0

theorem reqIs_answerLoad (ht : s.team team = some tm) (hr : tm.reqs[idx]? = some r) :
    ReqIs (answerLoad s team tm r) team idx fun q =>
      q.stage = .replied ∧ q.reply.map (·.1) = (List.range r.size).map (r.addr + ·) := by
  refine reqIs_replyWith ht hr fun q hs hq => ⟨hs, ?_⟩
  rw [hq]
  exact filter_run (regionWords_addresses.trans wordsTouched_bytes) (by omega) (by omega)

/-- A load at its home takes the next recall that it waits for, or is answered. -/
theorem regionLoadAnswer_eq (ht : s.team team = some tm) (hr : tm.reqs[idx]? = some r)
    (hs : r.stage = .atHome) (hk : r.kind = .load) (hm : isMerging s (lineOf r.pa) none = false) :
    exec (.regionLoadAnswer team idx) s =
      .next ((wordsRecall s tm r (homeLeaf r) (wordsTouched r.addr r.size)).getD (answerLoad s team tm r)) := by
  show execRegionLoadAnswer team idx s = _
  unfold execRegionLoadAnswer
  simp only [ht, hr]
  rw [if_pos ⟨hs, hk, by simp [hm]⟩]
  show (match wordsRecall s tm r (homeLeaf r) (wordsTouched r.addr r.size) with | some s1 => _ | none => _) = _
  cases wordsRecall s tm r (homeLeaf r) (wordsTouched r.addr r.size) <;> rfl

theorem regionLoadAnswer_of_owed {o : Option State} (ht : s.team team = some tm) (hr : tm.reqs[idx]? = some r)
    (hs : r.stage = .atHome) (hk : r.kind = .load) (hm : isMerging s (lineOf r.pa) none = false)
    (ho : wordsRecall s tm r (homeLeaf r) (wordsTouched r.addr r.size) = o) :
    exec (.regionLoadAnswer team idx) s = .next (o.getD (answerLoad s team tm r)) :=
  ho ▸ regionLoadAnswer_eq ht hr hs hk hm
end

/-- Settles O48: a drain rewrites the holder's share (`drained_drainHolder`) and a recall clears it (`giveBack_spec`), whatever the
writes at home; the answer of a load names exactly the bytes of its request (`reqIs_answerLoad`). -/
theorem boundedSteps : Obligations.BoundedSteps := by
  unfold Obligations.BoundedSteps
  refine ⟨fun k s => ?_, fun team idx s tm r ht hr => ⟨idle_regionLoadAnswer ht hr, ?_, ?_⟩⟩
  · refine ⟨⟨_, rfl, ?_⟩, ⟨_, rfl, ?_⟩, ⟨_, rfl, giveBack_spec⟩, ⟨_, rfl, giveBack_spec⟩⟩
    all_goals
      obtain ⟨hd, ht, hg⟩ := drained_drainHolder (s := s) (k := k)
      exact ⟨hd, ht, hg, fun _ _ _ hp hc hd hpa hw hm => stored_drainHolder hp hc hd hpa hw hm⟩
  · exact fun s1 hs hk hm ho => regionLoadAnswer_of_owed ht hr hs hk hm ho
  · exact fun hs hk hm ho => ⟨_, regionLoadAnswer_of_owed ht hr hs hk hm ho, reqIs_answerLoad ht hr⟩

end Sys2Proof.Claims
end
section
namespace Sys2Proof.Claims
open Sys2Proof.Machine

/-! # Lane instructions: the writes, and the mark `again` (R138, R144, R151)

What a lane instruction that passes its checks writes is what `LaneWrites` says, in every state (`laneWrites_of_passes`). Its frame is
that of `GoesTo` just where its posy does not bear the mark `again` (`laneGoes_iff`), and the statement does not ask for that. -/

/-! ## Reading after the writes of an instruction -/

section
variable {α : Type} [DecidableEq α] {d : α} {act : List Nat} {L : Nat}

/-- One write for each lane of a list. -/
theorem get_setAll_lanes (t : Tab α) (f : Nat → α) :
    Tab.get d (Tab.setAll d t (act.map fun M => (M, f M))) L = if L ∈ act then f L else Tab.get d t L := by
  split
  · next hL =>
    refine Tab.get_setAll_of_mem _ _ _ _ ⟨(L, f L), List.mem_map.mpr ⟨L, hL, rfl⟩, rfl⟩ ?_
    simp only [List.mem_map, forall_exists_index, and_imp]
    rintro _ M - rfl rfl
    rfl
  · next hL =>
    refine Tab.get_setAll_of_not_mem _ _ _ ?_
    simp only [List.mem_map, forall_exists_index, and_imp]
    rintro _ M hM rfl rfl
    exact hL hM

@[simp] theorem setAll_nil (t : Tab α) : Tab.setAll d t [] = t := rfl

/-- One write. -/
theorem get_setAll_one (t : Tab α) (k n : Nat) (y : α) :
    Tab.get d (Tab.setAll d t [(k, y)]) n = if n = k then y else Tab.get d t n := Tab.get_set t k n y
end

section
variable {p : Posy} {x : Eff} {r L : Nat}

theorem reg_apply_of_not_written (hL : L < 64) (hx : ∀ w ∈ x.vw, w.2.1 < 64) (h : ∀ w ∈ x.vw, w.1 = r → w.2.1 ≠ L) :
    (p.apply x).reg r L = p.reg r L := by
  unfold Posy.reg
  rw [Posy.apply_v]
  refine Tab.get_setAll_of_not_mem _ _ _ ?_
  simp only [List.mem_map, forall_exists_index, and_imp]
  rintro _ w hw rfl hk
  have hw64 := hx w hw
  exact h w hw (by omega) (by omega)

theorem reg_apply_of_written {y : W32} (hL : L < 64) (hx : ∀ w ∈ x.vw, w.2.1 < 64) (hm : (r, L, y) ∈ x.vw)
    (h : ∀ w ∈ x.vw, w.1 = r → w.2.1 = L → w.2.2 = y) : (p.apply x).reg r L = y := by
  unfold Posy.reg
  rw [Posy.apply_v]
  refine Tab.get_setAll_of_mem _ _ _ _ ⟨(64 * r + L, y), List.mem_map.mpr ⟨_, hm, rfl⟩, rfl⟩ ?_
  simp only [List.mem_map, forall_exists_index, and_imp]
  rintro _ w hw rfl hk
  have hw64 := hx w hw
  exact h w hw (by omega) (by omega)

theorem mem_vWrites {wide : Bool} {k M v : Nat} {w : Nat × Nat × W32} : w ∈ vWrites wide k M v ↔
    w = (k, M, b32 v) ∨ wide = true ∧ w = (k + 1, M, b32 (v / 2 ^ 32)) := by
  cases wide <;> simp [vWrites]

/-- A word, or a pair, of each lane of a list. -/
theorem reg_apply_lanes {act : List Nat} {wide : Bool} {k : Nat} {v : Nat → Nat}
    (h : x.vw = act.flatMap fun M => vWrites wide k M (v M)) (hact : ∀ M ∈ act, M < 64) (hL : L < 64) :
    (p.apply x).reg r L =
      if L ∈ act ∧ r = k then b32 (v L)
      else if wide = true ∧ L ∈ act ∧ r = k + 1 then b32 (v L / 2 ^ 32)
      else p.reg r L := by
  have hmem : ∀ w, w ∈ x.vw ↔ ∃ M ∈ act, w = (k, M, b32 (v M)) ∨ wide = true ∧ w = (k + 1, M, b32 (v M / 2 ^ 32)) := by
    simp [h, mem_vWrites]
  have hlanes : ∀ w ∈ x.vw, w.2.1 < 64 := by
    intro w hw
    obtain ⟨M, hM, rfl | ⟨-, rfl⟩⟩ := (hmem w).mp hw <;> exact hact M hM
  by_cases hlow : L ∈ act ∧ r = k
  · rw [if_pos hlow]
    obtain ⟨hin, rfl⟩ := hlow
    refine reg_apply_of_written hL hlanes ((hmem _).mpr ⟨L, hin, .inl rfl⟩) fun w hw hr hM => ?_
    obtain ⟨M, -, rfl | ⟨-, rfl⟩⟩ := (hmem w).mp hw
    · exact hM ▸ rfl
    · simp at hr
  rw [if_neg hlow]
  by_cases hhigh : wide = true ∧ L ∈ act ∧ r = k + 1
  · rw [if_pos hhigh]
    obtain ⟨hwide, hin, rfl⟩ := hhigh
    refine reg_apply_of_written hL hlanes ((hmem _).mpr ⟨L, hin, .inr ⟨hwide, rfl⟩⟩) fun w hw hr hM => ?_
    obtain ⟨M, -, rfl | ⟨-, rfl⟩⟩ := (hmem w).mp hw
    · simp at hr
    · exact hM ▸ rfl
  rw [if_neg hhigh]
  refine reg_apply_of_not_written hL hlanes fun w hw hr hM => ?_
  obtain ⟨M, hin, rfl | ⟨hwide, rfl⟩⟩ := (hmem w).mp hw
  · exact hlow ⟨hM ▸ hin, hr.symm⟩
  · exact hhigh ⟨hwide, hM ▸ hin, hr.symm⟩

/-- Without varying writes the varying registers stay. -/
theorem reg_apply_of_none (h : x.vw = []) : (p.apply x).reg r L = p.reg r L := by
  simp [Posy.reg, h]

/-- Without predicate writes the predicates stay. -/
theorem pred_apply_of_none (h : x.pw = []) (n : Nat) : (p.apply x).pred n L = p.pred n L := by
  simp [Posy.apply, h, Posy.pred]

/-- One predicate of each lane of a list; p0 is not written. -/
theorem pred_apply_lanes {act : List Nat} {k : Nat} {b : Nat → Bool} (h : x.pw = act.map fun M => (M, k, b M))
    (hk0 : k ≠ 0) (hk : k < 16) (n : Nat) :
    (p.apply x).pred n L = if L ∈ act ∧ n = k then b L else p.pred n L := by
  by_cases hn : n = 0
  · subst hn
    simp [Posy.pred, Ne.symm hk0]
  · obtain ⟨hother, hwritten⟩ := Posy.pred_foldl_setPred x.pw
      { p with v := (p.apply x).v, tags := (p.apply x).tags, lfsr := (p.apply x).lfsr } n L hn
      (by simp [h, hk0, hk])
    have happly : p.apply x = x.pw.foldl (fun q w => q.setPred w.1 w.2.1 w.2.2)
        { p with v := (p.apply x).v, tags := (p.apply x).tags, lfsr := (p.apply x).lfsr } := by
      rw [Posy.apply_v, Posy.apply_tags, Posy.apply_lfsr]
      rfl
    rw [happly]
    split
    · next hin =>
      obtain ⟨hL, rfl⟩ := hin
      refine hwritten _ ⟨(L, n, b L), h ▸ List.mem_map.mpr ⟨L, hL, rfl⟩, rfl, rfl⟩ ?_
      simp only [h, List.mem_map, forall_exists_index, and_imp]
      rintro _ M - rfl ⟨rfl, -⟩ -
      rfl
    · next hout =>
      refine (hother ?_).trans rfl
      simp only [h, List.mem_map, forall_exists_index, and_imp]
      rintro _ M hM rfl ⟨rfl, rfl⟩
      exact hout ⟨hM, rfl⟩
end

section
variable {f : Frame} {x : Eff}

theorem sreg_apply_one {k : Nat} {y : BitVec 64} (h : x.sw = [(k, y)]) (n : Nat) :
    (f.apply x).sreg n = if n = k then y else f.sreg n := by
  simp [Frame.sreg, Frame.apply, h, get_setAll_one]

theorem sreg_apply_of_none (h : x.sw = []) (n : Nat) : (f.apply x).sreg n = f.sreg n := by
  simp [Frame.sreg, Frame.apply, h]

/-- One affine register; a0 is not written (R129). -/
theorem areg_apply_one {k : Nat} {y : Aff} (h : x.aw = [(k, y)]) (hk : k ≠ 0) (n : Nat) :
    (f.apply x).areg n = if n = k then y else f.areg n := by
  by_cases hn : n = k
  · simp [Frame.areg, Frame.apply, h, hn, hk, get_setAll_one]
  · simp [Frame.areg, Frame.apply, h, hn, get_setAll_one]

theorem areg_apply_of_none (h : x.aw = []) (n : Nat) : (f.apply x).areg n = f.areg n := by
  simp [Frame.areg, Frame.apply, h]
end

/-! ## The posy that goes on -/

/-- The environment that an instruction with the writes `x` leaves. -/
def committed (e : Env) (l : Len) (x : Eff) : Env :=
  { key := e.key, p := (e.p.apply x).advance l, f := e.f.apply x
    t := (e.t.raise x.flags).setFrame e.p.frame (some (e.f.apply x)) }

section
variable {s : State} {e : Env} {l : Len} {x : Eff}

theorem onlyPosy_put {e' : Env} (hk : e'.key = e.key) (ht : e'.p.team = e.p.team) : OnlyPosy s (e'.put s) e where
  rest := rfl
  posies _ h := Env.put_posy_ne e' s (hk ▸ h)
  teams _ h := Env.put_team_ne e' s (ht ▸ h)
  bytes _ := rfl

/-- What a commit leaves of a posy without the mark. -/
theorem goesTo_commit (he : curEnv s = some e) (ha : e.p.again = false) :
    ∃ t, commit s e l x = .next t ∧ GoesTo s t e (committed e l x) (nextPc e l) := by
  refine ⟨_, rfl, ?_⟩
  obtain ⟨hkey, -⟩ := curEnv_eq_some.mp he
  obtain ⟨preds, happly⟩ := Posy.apply_eq e.p x
  refine ⟨?_, onlyPosy_put rfl (Posy.apply_team e.p x), rfl, ?_, ?_, rfl, ?_, rfl⟩
  · obtain ⟨t, ht, hc⟩ := commit_env s e l x hkey
    exact Host.Outcome.next.inj ht ▸ hc
  · simp [committed, Posy.advance, Posy.goto, nextPc]
  · simp [committed, Posy.advance, Posy.goto, happly, ha]
  · intro i hi
    simp [committed, Team.frame, Team.setFrame, hi]
end

section
variable {e : Env} {l : Len} {x : Eff}

@[simp] theorem committed_sreg (n : Nat) : (committed e l x).f.sreg n = (e.f.apply x).sreg n := rfl
@[simp] theorem committed_areg (n : Nat) : (committed e l x).f.areg n = (e.f.apply x).areg n := rfl
@[simp] theorem committed_hreg (n : Nat) : (committed e l x).f.hreg n = Tab.get 0 (Tab.setAll 0 e.f.h x.hw) n := rfl
@[simp] theorem committed_reg (r L : Nat) : (committed e l x).p.reg r L = (e.p.apply x).reg r L := rfl
@[simp] theorem committed_pred (n L : Nat) : (committed e l x).p.pred n L = (e.p.apply x).pred n L := rfl
@[simp] theorem committed_flags : (committed e l x).t.flags = e.t.flags ||| x.flags := rfl

@[simp] theorem committed_tag (r : Nat) : (committed e l x).p.tag r = Tab.get 0 (Tab.setAll 0 e.p.tags x.tags) r :=
  congrArg (Tab.get 0 · r) (Posy.apply_tags e.p x)

@[simp] theorem committed_lfsr : (committed e l x).p.lfsr = Tab.setAll 0 e.p.lfsr x.lf := Posy.apply_lfsr e.p x

theorem keepsFrame_committed (hs : x.sw = []) (ha : x.aw = []) (hh : x.hw = []) : KeepsFrame e (committed e l x) :=
  ⟨sreg_apply_of_none hs, areg_apply_of_none ha, fun n => by rw [committed_hreg, hh]; rfl⟩

theorem keepsVarying_committed (hv : x.vw = []) (ht : x.tags = []) (hl : x.lf = []) : KeepsVarying e (committed e l x) :=
  ⟨fun _ _ _ => reg_apply_of_none hv, fun r => by rw [committed_tag, ht]; rfl, fun L => by rw [committed_lfsr, hl]; rfl⟩

theorem keepsPreds_committed (hp : x.pw = []) : KeepsPreds e (committed e l x) := fun n _ => pred_apply_of_none hp n
end

/-! ## What a lane instruction writes -/

/-- The registers of a varying destination: one, or a pair (R133). -/
def destRegs (a : Alu) (e : Env) : List Nat :=
  if a.wide then [e.p.wbase + a.d.n.toNat, e.p.wbase + a.d.n.toNat + 1] else [e.p.wbase + a.d.n.toNat]

theorem mem_destRegs {a : Alu} {e : Env} {r : Nat} :
    r ∈ destRegs a e ↔ r = e.p.wbase + a.d.n.toNat ∨ a.wide = true ∧ r = e.p.wbase + a.d.n.toNat + 1 := by
  unfold destRegs
  cases a.wide <;> simp

section
variable {s : State} {a : Alu} {e : Env} {act : List Nat} {l : Len}

theorem eff_uniform (hd : a.d.cls = .s) :
    a.eff e act = { sw := [(a.d.n.toNat, b64 (uniRes a e).val)], flags := (uniRes a e).flags } := by
  simp [Alu.eff, hd, uniRes]

theorem eff_affine (hd : a.d.cls = .a) : a.eff e act = { aw := [(a.d.n.toNat, a.aff (a.srcs.map (Src.readA e)))] } := by
  simp [Alu.eff, hd]

theorem eff_varying (hd : a.d.cls = .v) : a.eff e act =
    { vw := act.flatMap fun L => vWrites a.wide (e.p.wbase + a.d.n.toNat) L (laneRes a e L).val
      tags := (destRegs a e).map fun r => (r, a.tag e)
      lf := act.map fun L => (L, (laneRes a e L).lfsr), flags := laneFlags a e act } := by
  have htags : (List.range (if a.wide then 2 else 1)).map (fun i => (e.p.wbase + a.d.n.toNat + i, a.tag e)) =
      (destRegs a e).map fun r => (r, a.tag e) := by
    unfold destRegs
    cases a.wide <;> rfl
  simp [Alu.eff, hd, htags, laneRes, laneFlags, orFlags, List.foldl_map, ← List.map_prod_left_eq_zip, List.flatMap_map]

theorem eff_predicate (hd : a.d.cls = .k) : a.eff e act =
    { pw := act.map fun L => (L, a.d.n.toNat, (laneRes a e L).val % 2 == 1)
      lf := act.map fun L => (L, (laneRes a e L).lfsr), flags := laneFlags a e act } := by
  simp [Alu.eff, hd, laneRes, laneFlags, orFlags, List.foldl_map, ← List.map_prod_left_eq_zip]

/-- The destination of a lane instruction that passes its checks is in its range and is not a0 or p0 (R83). -/
theorem dest_ok (hp : Passes s e a.need a.h) :
    RegUse.ok e (opdUse a.d (if a.wide then 2 else 1) (if a.wide then 2 else 1) true) = true :=
  List.all_eq_true.mp hp.regs _ List.mem_cons_self

theorem affine_dest_ne_zero (hp : Passes s e a.need a.h) (hd : a.d.cls = .a) : a.d.n.toNat ≠ 0 := by
  have hok := dest_ok hp
  simp only [RegUse.ok, opdUse, hd] at hok
  intro h0
  simp [h0] at hok

theorem predicate_dest (hp : Passes s e a.need a.h) (hd : a.d.cls = .k) : a.d.n.toNat ≠ 0 ∧ a.d.n.toNat < 16 := by
  have hok := dest_ok hp
  simp only [RegUse.ok, opdUse, hd, kUse, spaceLimit] at hok
  split at hok
  · next h16 => exact ⟨fun h0 => by simp [h0] at hok, h16⟩
  · simp at hok

/-! ## The registers after a lane instruction, by the class of its destination -/

/-- A uniform or affine destination leaves the varying registers and the predicates. -/
theorem keepsLanes_eff (hd : a.d.cls = .s ∨ a.d.cls = .a) :
    KeepsVarying e (committed e l (a.eff e act)) ∧ KeepsPreds e (committed e l (a.eff e act)) := by
  rcases hd with hd | hd
  · rw [eff_uniform hd]
    exact ⟨keepsVarying_committed rfl rfl rfl, keepsPreds_committed rfl⟩
  · rw [eff_affine hd]
    exact ⟨keepsVarying_committed rfl rfl rfl, keepsPreds_committed rfl⟩

/-- A varying or predicate destination leaves the registers of the frame. -/
theorem keepsFrame_eff (hd : a.d.cls = .v ∨ a.d.cls = .k) : KeepsFrame e (committed e l (a.eff e act)) := by
  rcases hd with hd | hd
  · rw [eff_varying hd]
    exact keepsFrame_committed rfl rfl rfl
  · rw [eff_predicate hd]
    exact keepsFrame_committed rfl rfl rfl

theorem laneWrites_uniform (hd : a.d.cls = .s) : LaneWrites a e (committed e l (a.eff e act)) act := by
  obtain ⟨⟨hreg, htag, -⟩, hpred⟩ := keepsLanes_eff (e := e) (l := l) (act := act) (.inl hd)
  rw [eff_uniform hd] at *
  refine ⟨fun n => ?_, fun n => ?_, fun _ => rfl, fun r L hL => ?_, fun r => ?_, fun n L => ?_, fun L => ?_, ?_⟩
  · simpa [hd] using sreg_apply_one rfl n
  · simpa [hd] using areg_apply_of_none rfl n
  · simpa [hd] using hreg r L hL
  · simpa [hd] using htag r
  · simpa [hd] using hpred n L
  · simp [hd]
  · simp [hd]

theorem laneWrites_affine (hd : a.d.cls = .a) (h0 : a.d.n.toNat ≠ 0) : LaneWrites a e (committed e l (a.eff e act)) act := by
  obtain ⟨⟨hreg, htag, -⟩, hpred⟩ := keepsLanes_eff (e := e) (l := l) (act := act) (.inr hd)
  rw [eff_affine hd] at *
  refine ⟨fun n => ?_, fun n => ?_, fun _ => rfl, fun r L hL => ?_, fun r => ?_, fun n L => ?_, fun L => ?_, ?_⟩
  · simpa [hd] using sreg_apply_of_none rfl n
  · simpa [hd] using areg_apply_one rfl h0 n
  · simpa [hd] using hreg r L hL
  · simpa [hd] using htag r
  · simpa [hd] using hpred n L
  · simp [hd]
  · simp [hd]

theorem laneWrites_predicate (hd : a.d.cls = .k) (h0 : a.d.n.toNat ≠ 0) (h16 : a.d.n.toNat < 16) :
    LaneWrites a e (committed e l (a.eff e act)) act := by
  obtain ⟨hs, ha, hh⟩ := keepsFrame_eff (e := e) (l := l) (act := act) (.inr hd)
  rw [eff_predicate hd] at *
  refine ⟨fun n => ?_, fun n => ?_, hh, fun r L hL => ?_, fun r => ?_, fun n L => ?_, fun L => ?_, ?_⟩
  · simpa [hd] using hs n
  · simpa [hd] using ha n
  · simpa [hd] using reg_apply_of_none rfl
  · rw [committed_tag]
    simp [hd, Posy.tag]
  · simpa [hd] using pred_apply_lanes (b := fun M => decide ((laneRes a e M).val % 2 = 1)) rfl h0 h16 n
  · simpa [hd] using get_setAll_lanes e.p.lfsr _
  · simp [hd]

theorem laneWrites_varying (hd : a.d.cls = .v) (hact : ∀ L ∈ act, L < 64) :
    LaneWrites a e (committed e l (a.eff e act)) act := by
  obtain ⟨hs, ha, hh⟩ := keepsFrame_eff (e := e) (l := l) (act := act) (.inl hd)
  rw [eff_varying hd] at *
  refine ⟨fun n => ?_, fun n => ?_, hh, fun r L hL => ?_, fun r => ?_, fun n L => ?_, fun L => ?_, ?_⟩
  · simpa [hd] using hs n
  · simpa [hd] using ha n
  · rw [committed_reg, reg_apply_lanes rfl hact hL]
    simp [hd]
  · rw [committed_tag, get_setAll_lanes]
    simp [hd, mem_destRegs, Posy.tag]
  · simpa [hd] using pred_apply_of_none rfl n
  · simpa [hd] using get_setAll_lanes e.p.lfsr _
  · simp [hd]

theorem laneWrites_of_passes (hp : Passes s e a.need a.h) :
    LaneWrites a e (committed e l (a.eff e (e.p.active a.h))) (e.p.active a.h) := by
  cases hd : a.d.cls with
  | s => exact laneWrites_uniform hd
  | a => exact laneWrites_affine hd (affine_dest_ne_zero hp hd)
  | v => exact laneWrites_varying hd fun _ hL => (Posy.mem_active.mp hL).1
  | k =>
    obtain ⟨h0, h16⟩ := predicate_dest hp hd
    exact laneWrites_predicate hd h0 h16
end

/-! ## A lane instruction goes on as R138 says just where the mark is off -/

theorem exec_of_laneAlu {i : Instr} {a : Alu} (h : laneAlu i = some a) (s : State) : exec i s = a.run s := by
  unfold laneAlu at h
  split at h <;> cases h <;> rfl

theorem laneGoes_iff {i : Instr} {a : Alu} {s : State} {e : Env} (hi : laneAlu i = some a) (hp : Passes s e a.need a.h) :
    (Goes i s e a.h.len fun e' => LaneWrites a e e' (e.p.active a.h)) ↔ e.p.again = false := by
  have hexec : exec i s = commit s e a.h.len (a.eff e (e.p.active a.h)) := (exec_of_laneAlu hi s).trans (a.run_of_passes hp)
  constructor
  · intro hgoes
    exact Bool.eq_false_iff.mpr fun ha => not_goes_of_again hp.cur ha hexec hgoes
  · intro ha
    obtain ⟨t, ht, hgoes⟩ := goesTo_commit hp.cur ha
    exact ⟨t, _, hexec.trans ht, hgoes, laneWrites_of_passes hp⟩

/-! ## A lane instruction of a posy that bears the mark -/

/-- ADD of 5 to s1, into s4. -/
def addFive : Ops := { fmt := .i32, d := rS 4, a := rS 1, b := .imm (.i18 5) }

theorem addFive_passes : Passes againState againEnv (aluAdd addFive).need (aluAdd addFive).h where
  cur := readTime_passes.cur
  type := by decide +kernel
  regs := by decide +kernel
  regOk := rfl
  priv := by decide +kernel
  ban := by decide +kernel
  ready := by decide +kernel
  guardReady := by decide +kernel
  full := by decide +kernel
  tags := by decide +kernel

/-- Refutes O1: ADD into s4 (`addFive`) by a posy that bears the mark `again` (`againState`) passes its checks and takes the mark off,
and the frame of `GoesTo` says that the mark stays. Without the mark every lane instruction goes on as the statement says (`laneGoes_iff`). -/
theorem not_laneInstructions : ¬ Obligations.LaneInstructions := by
  unfold Obligations.LaneInstructions
  intro h
  have hgoes := h (.add addFive) (aluAdd addFive) againState againEnv rfl addFive_passes
  have hoff := (laneGoes_iff rfl addFive_passes).mp hgoes
  rw [again_againEnv] at hoff
  cases hoff

end Sys2Proof.Claims
end
